-- ==== Sys2Proof/Word.lean ====
section
/-! DEFINITION. The machine's word and byte types. -/

namespace Sys2Proof

/-- A 64-bit value: a general register slot, an address, the instruction pointer, the flags word
(00_scope.md R5: XLEN, PCW, FLAGSW, AW are 64). -/
abbrev Word := BitVec 64

/-- 8 bits (00_scope.md R6). -/
abbrev Byte := BitVec 8

end Sys2Proof
end

