-- ==== Sys2Proof/Config.lean ====
section
/-! DEFINITION. What is fixed for one machine (00_scope.md R5) and the free values the spec leaves open. -/

namespace Sys2Proof.Config

/-- MAXLEN: the longest instruction, in bytes (00_scope.md R5). -/
def maxLen : Nat := 15

/-- STACK_SLOT: the bytes moved by Push, Pop, Call, Ret, Leave (00_scope.md R5). -/
def stackSlot : Nat := 8

/-- The default of CHUNK (00_scope.md R5). -/
def defaultChunk : Nat := 10000

/-- AVG0 (00_scope.md R5). -/
def avg0 : Nat := 7

/-- FREE VALUE. `drawBit k` is the k-th value of `draw_1()`: "an unconstrained one-bit value, chosen afresh at
each use" (00_scope.md R7; 93_implementation_defined.md U1 to U3). Log entry 3. -/
opaque drawBit : Nat → Bool

/-- FREE VALUE. The length oracle before its bound is applied (00_scope.md R5, 30_encoding.md R132). Log entry 4. -/
opaque extLenRaw : List Byte → Option Nat

/-- EXT_LEN: `some n` with 1 <= n <= min(15, window length), or `none`; constrained by nothing else
(30_encoding.md R132). -/
def extLen (window : List Byte) : Option Nat :=
  match extLenRaw window with
  | some n => if 1 ≤ n ∧ n ≤ min maxLen window.length then some n else none
  | none => none

/-- FREE VALUE. The stream's next running average, from the old one and an observed instruction length; the
formula is not in the source and reaches no output (30_encoding.md R138; 93_implementation_defined.md U16). Log
entry 9. -/
opaque nextAverage : Nat → Nat → Nat

/-- FREE VALUE. The mnemonic text of an instruction's bytes at its address (30_encoding.md R143; U17). Log entry 10. -/
opaque mnemonicText : Word → List Byte → String

/-- FREE VALUE. The raw operand text of an instruction's bytes at its address (30_encoding.md R143; U17). Log entry 10. -/
opaque operandText : Word → List Byte → String

/-- FREE VALUE. How the address of an output line is spelled: R142 and 91_not_in_source.md N11 give the line's shape
only. Log entry 10. -/
opaque addressText : Word → String

end Sys2Proof.Config
end

