-- ==== Sys2Proof/Syntax.lean ====
section
/-! DEFINITION. The syntax: register identities, operands, the 25 classified kinds, the parts of an encoding, and
`Instr`, one constructor for each row of opcode_table.json (30_encoding.md R116, R121, R122). -/

namespace Sys2Proof

/-- An operand or access width W in {8, 16, 32, 64} (40_engine_and_operands.md R157; OperandSize of R37). -/
inductive Width where
  | w8 | w16 | w32 | w64
  deriving DecidableEq, Repr

/-- W in bits. -/
abbrev Width.bits : Width → Nat
  | .w8 => 8
  | .w16 => 16
  | .w32 => 32
  | .w64 => 64

/-- W in bytes: 1, 2, 4 or 8. -/
abbrev Width.bytes : Width → Nat
  | .w8 => 1
  | .w16 => 2
  | .w32 => 4
  | .w64 => 8

/-- The part of a slot a register name denotes (10_state.md R22). -/
inductive View where
  | low8 | high8 | w16 | w32 | w64
  deriving DecidableEq, Repr

/-- The width of a view (R22). -/
abbrev View.width : View → Width
  | .low8 => .w8
  | .high8 => .w8
  | .w16 => .w16
  | .w32 => .w32
  | .w64 => .w64

/-- The register identity `Gpr(slot, view)` (R21). The two other cases of the spec's identity type occur only inside a
memory operand: `Rip` is `Base.rip`, `Seg(s)` is `MemOperand.segment`. -/
structure Gpr where
  slot : Fin 16
  view : View
  deriving DecidableEq, Repr

/-- The six segment identities; the core stores nothing for them (R21, R32). -/
inductive Seg where
  | es | cs | ss | ds | fs | gs
  deriving DecidableEq, Repr

/-- The base of a memory operand: absent, `Gpr(i, W64)` or `Rip` (R37, 30_encoding.md R113). -/
inductive Base where
  | absent
  | gpr (slot : Fin 16)
  | rip
  deriving DecidableEq, Repr

/-- The scale of an index: 1, 2, 4 or 8 (R37). -/
inductive Scale where
  | s1 | s2 | s4 | s8
  deriving DecidableEq, Repr

/-- `Memory{base, index, disp, segment, size}` (R37). `disp` is the signed 64-bit value as two's complement. -/
structure MemOperand where
  base : Base
  index : Option (Fin 16 × Scale)
  disp : BitVec 64
  segment : Option Seg
  size : Width
  deriving DecidableEq, Repr

/-- An operand (R37). `imm` holds the signed 64-bit value as two's complement. -/
inductive Operand where
  | reg (r : Gpr)
  | imm (v : BitVec 64)
  | mem (m : MemOperand)
  deriving DecidableEq, Repr

/-- The 17 condition codes (R38; 90_conflicts.md C1). -/
inductive ConditionCode where
  | o | no | b | ae | e | ne | be | a | s | ns | p | np | l | ge | le | g | cxz
  deriving DecidableEq, Repr

/-- RepeatableInstruction (R39). -/
inductive Repeatable where
  | mov | stos | lods | scas
  deriving DecidableEq, Repr

/-- The closed set of 25 classified kinds with their payloads (R36). -/
inductive InstructionType where
  | mov (dst src : Operand)
  | movzx (dst src : Operand)
  | add (dst src : Operand)
  | adc (dst src : Operand)
  | sub (dst src : Operand)
  | cmp (a b : Operand)
  | test (a b : Operand)
  | inc (dst : Operand)
  | dec (dst : Operand)
  | push (src : Operand)
  | pop (dst : Operand)
  | lea (dst src : Operand)
  | xor (dst src : Operand)
  | shl (dst count : Operand)
  | shr (dst count : Operand)
  | nop
  | cld
  | leave
  | int3
  | conditionalJump (code : ConditionCode) (target : Word)
  | unconditionalJump (op : Operand)
  | call (op : Operand)
  | ret
  | rep (r : Repeatable)
  | invalid
  deriving DecidableEq, Repr

/-- The record the decoder produces for one instruction (R35). -/
structure Instruction where
  address : Word
  length : Nat
  mnemonicText : String
  operandText : String
  kind : InstructionType
  deriving DecidableEq, Repr

/-- A legacy prefix byte (30_encoding.md R92): 66, F3, a segment override, F0, F2, 67. -/
inductive LegacyPrefix where
  | opSize
  | rep
  | seg (s : Seg)
  | lock
  | repne
  | addrSize
  deriving DecidableEq, Repr

/-- The four low bits of a REX byte (R93). -/
structure Rex where
  w : Bool
  r : Bool
  x : Bool
  b : Bool
  deriving DecidableEq, Repr

/-- The bytes before the opcode: the legacy prefixes in order, then at most one REX byte (R91). -/
structure Prefixes where
  legacy : List LegacyPrefix
  rex : Option Rex
  deriving DecidableEq, Repr

/-- The displacement of a form with a base: none (mod 00), one byte (mod 01), four bytes (mod 10) (R100, R101). -/
inductive Disp where
  | none
  | d8 (v : BitVec 8)
  | d32 (v : BitVec 32)
  deriving DecidableEq, Repr

/-- The forms of ModRM's `mod` and `rm` with what follows (R97, R100, R101). `reg` is the register form (mod 11),
`ripRel` is mod 00 rm 101, `base` has no SIB byte, `sib` has one, `sibNoBase` is the SIB form with bs 101, mod 00. -/
inductive Rm where
  | reg (rm : BitVec 3)
  | ripRel (disp : BitVec 32)
  | base (rm : BitVec 3) (disp : Disp)
  | sib (ss : BitVec 2) (idx bs : BitVec 3) (disp : Disp)
  | sibNoBase (ss : BitVec 2) (idx : BitVec 3) (disp : BitVec 32)
  deriving DecidableEq, Repr

/-- An `iz` immediate: 2 or 4 bytes (R118). -/
inductive ImmZ where
  | i16 (v : BitVec 16)
  | i32 (v : BitVec 32)
  deriving DecidableEq, Repr

/-- An `iv` immediate: 2, 4 or 8 bytes (R118). -/
inductive ImmV where
  | i16 (v : BitVec 16)
  | i32 (v : BitVec 32)
  | i64 (v : BitVec 64)
  deriving DecidableEq, Repr

/-- The immediate or relative bytes that end an instruction, as they stand in the bytes. -/
inductive Imm where
  | none
  | i8 (v : BitVec 8)
  | i16 (v : BitVec 16)
  | i32 (v : BitVec 32)
  | i64 (v : BitVec 64)
  deriving DecidableEq, Repr

/-- An admitted instruction: one constructor for each row of opcode_table.json, holding the fields its encoding has:
prefixes `p`, the ModRM register field `reg`, the register in the opcode `opreg`, the r/m form `rm`, the immediate
`imm`, the relative displacement `rel`. The operands they denote are `Instr.kind`. -/
inductive Instr where
  /-- `add r/m8, r8: 00` (R187) -/
  | addRm8R8 (p : Prefixes) (reg : BitVec 3) (rm : Rm)
  /-- `add r/m, r: 01` (R187) -/
  | addRmR (p : Prefixes) (reg : BitVec 3) (rm : Rm)
  /-- `add r8, r/m8: 02` (R187) -/
  | addR8Rm8 (p : Prefixes) (reg : BitVec 3) (rm : Rm)
  /-- `add r, r/m: 03` (R187) -/
  | addRRm (p : Prefixes) (reg : BitVec 3) (rm : Rm)
  /-- `add al, imm8: 04` (R187) -/
  | addAlImm8 (p : Prefixes) (imm : BitVec 8)
  /-- `add ax/eax/rax, imm16/32: 05` (R187) -/
  | addAccImm (p : Prefixes) (imm : ImmZ)
  /-- `add r/m8, imm8: 80 /0` (R187) -/
  | addRm8Imm8 (p : Prefixes) (rm : Rm) (imm : BitVec 8)
  /-- `add r/m, imm16/32: 81 /0` (R187) -/
  | addRmImm (p : Prefixes) (rm : Rm) (imm : ImmZ)
  /-- `add r/m, imm8: 83 /0` (R187) -/
  | addRmImm8 (p : Prefixes) (rm : Rm) (imm : BitVec 8)
  /-- `adc r/m8, r8: 10` (R188) -/
  | adcRm8R8 (p : Prefixes) (reg : BitVec 3) (rm : Rm)
  /-- `adc r/m, r: 11` (R188) -/
  | adcRmR (p : Prefixes) (reg : BitVec 3) (rm : Rm)
  /-- `adc r8, r/m8: 12` (R188) -/
  | adcR8Rm8 (p : Prefixes) (reg : BitVec 3) (rm : Rm)
  /-- `adc r, r/m: 13` (R188) -/
  | adcRRm (p : Prefixes) (reg : BitVec 3) (rm : Rm)
  /-- `adc al, imm8: 14` (R188) -/
  | adcAlImm8 (p : Prefixes) (imm : BitVec 8)
  /-- `adc ax/eax/rax, imm16/32: 15` (R188) -/
  | adcAccImm (p : Prefixes) (imm : ImmZ)
  /-- `adc r/m8, imm8: 80 /2` (R188) -/
  | adcRm8Imm8 (p : Prefixes) (rm : Rm) (imm : BitVec 8)
  /-- `adc r/m, imm16/32: 81 /2` (R188) -/
  | adcRmImm (p : Prefixes) (rm : Rm) (imm : ImmZ)
  /-- `adc r/m, imm8: 83 /2` (R188) -/
  | adcRmImm8 (p : Prefixes) (rm : Rm) (imm : BitVec 8)
  /-- `sub r/m8, r8: 28` (R189) -/
  | subRm8R8 (p : Prefixes) (reg : BitVec 3) (rm : Rm)
  /-- `sub r/m, r: 29` (R189) -/
  | subRmR (p : Prefixes) (reg : BitVec 3) (rm : Rm)
  /-- `sub r8, r/m8: 2A` (R189) -/
  | subR8Rm8 (p : Prefixes) (reg : BitVec 3) (rm : Rm)
  /-- `sub r, r/m: 2B` (R189) -/
  | subRRm (p : Prefixes) (reg : BitVec 3) (rm : Rm)
  /-- `sub al, imm8: 2C` (R189) -/
  | subAlImm8 (p : Prefixes) (imm : BitVec 8)
  /-- `sub ax/eax/rax, imm16/32: 2D` (R189) -/
  | subAccImm (p : Prefixes) (imm : ImmZ)
  /-- `sub r/m8, imm8: 80 /5` (R189) -/
  | subRm8Imm8 (p : Prefixes) (rm : Rm) (imm : BitVec 8)
  /-- `sub r/m, imm16/32: 81 /5` (R189) -/
  | subRmImm (p : Prefixes) (rm : Rm) (imm : ImmZ)
  /-- `sub r/m, imm8: 83 /5` (R189) -/
  | subRmImm8 (p : Prefixes) (rm : Rm) (imm : BitVec 8)
  /-- `xor r/m8, r8: 30` (R202) -/
  | xorRm8R8 (p : Prefixes) (reg : BitVec 3) (rm : Rm)
  /-- `xor r/m, r: 31` (R202) -/
  | xorRmR (p : Prefixes) (reg : BitVec 3) (rm : Rm)
  /-- `xor r8, r/m8: 32` (R202) -/
  | xorR8Rm8 (p : Prefixes) (reg : BitVec 3) (rm : Rm)
  /-- `xor r, r/m: 33` (R202) -/
  | xorRRm (p : Prefixes) (reg : BitVec 3) (rm : Rm)
  /-- `xor al, imm8: 34` (R202) -/
  | xorAlImm8 (p : Prefixes) (imm : BitVec 8)
  /-- `xor ax/eax/rax, imm16/32: 35` (R202) -/
  | xorAccImm (p : Prefixes) (imm : ImmZ)
  /-- `xor r/m8, imm8: 80 /6` (R202) -/
  | xorRm8Imm8 (p : Prefixes) (rm : Rm) (imm : BitVec 8)
  /-- `xor r/m, imm16/32: 81 /6` (R202) -/
  | xorRmImm (p : Prefixes) (rm : Rm) (imm : ImmZ)
  /-- `xor r/m, imm8: 83 /6` (R202) -/
  | xorRmImm8 (p : Prefixes) (rm : Rm) (imm : BitVec 8)
  /-- `cmp r/m8, r8: 38` (R190) -/
  | cmpRm8R8 (p : Prefixes) (reg : BitVec 3) (rm : Rm)
  /-- `cmp r/m, r: 39` (R190) -/
  | cmpRmR (p : Prefixes) (reg : BitVec 3) (rm : Rm)
  /-- `cmp r8, r/m8: 3A` (R190) -/
  | cmpR8Rm8 (p : Prefixes) (reg : BitVec 3) (rm : Rm)
  /-- `cmp r, r/m: 3B` (R190) -/
  | cmpRRm (p : Prefixes) (reg : BitVec 3) (rm : Rm)
  /-- `cmp al, imm8: 3C` (R190) -/
  | cmpAlImm8 (p : Prefixes) (imm : BitVec 8)
  /-- `cmp ax/eax/rax, imm16/32: 3D` (R190) -/
  | cmpAccImm (p : Prefixes) (imm : ImmZ)
  /-- `cmp r/m8, imm8: 80 /7` (R190) -/
  | cmpRm8Imm8 (p : Prefixes) (rm : Rm) (imm : BitVec 8)
  /-- `cmp r/m, imm16/32: 81 /7` (R190) -/
  | cmpRmImm (p : Prefixes) (rm : Rm) (imm : ImmZ)
  /-- `cmp r/m, imm8: 83 /7` (R190) -/
  | cmpRmImm8 (p : Prefixes) (rm : Rm) (imm : BitVec 8)
  /-- `push r64: 50+r` (R210) -/
  | pushR64 (p : Prefixes) (opreg : BitVec 3)
  /-- `pop r64: 58+r` (R211) -/
  | popR64 (p : Prefixes) (opreg : BitVec 3)
  /-- `push imm32: 68` (R210) -/
  | pushImm32 (p : Prefixes) (imm : BitVec 32)
  /-- `push imm8: 6A` (R210) -/
  | pushImm8 (p : Prefixes) (imm : BitVec 8)
  /-- `jo rel8: 70` (R221) -/
  | joRel8 (p : Prefixes) (rel : BitVec 8)
  /-- `jno rel8: 71` (R222) -/
  | jnoRel8 (p : Prefixes) (rel : BitVec 8)
  /-- `jb rel8: 72` (R223) -/
  | jbRel8 (p : Prefixes) (rel : BitVec 8)
  /-- `jae rel8: 73` (R224) -/
  | jaeRel8 (p : Prefixes) (rel : BitVec 8)
  /-- `je rel8: 74` (R225) -/
  | jeRel8 (p : Prefixes) (rel : BitVec 8)
  /-- `jne rel8: 75` (R226) -/
  | jneRel8 (p : Prefixes) (rel : BitVec 8)
  /-- `jbe rel8: 76` (R227) -/
  | jbeRel8 (p : Prefixes) (rel : BitVec 8)
  /-- `ja rel8: 77` (R228) -/
  | jaRel8 (p : Prefixes) (rel : BitVec 8)
  /-- `js rel8: 78` (R229) -/
  | jsRel8 (p : Prefixes) (rel : BitVec 8)
  /-- `jns rel8: 79` (R230) -/
  | jnsRel8 (p : Prefixes) (rel : BitVec 8)
  /-- `jp rel8: 7A` (R231) -/
  | jpRel8 (p : Prefixes) (rel : BitVec 8)
  /-- `jnp rel8: 7B` (R232) -/
  | jnpRel8 (p : Prefixes) (rel : BitVec 8)
  /-- `jl rel8: 7C` (R233) -/
  | jlRel8 (p : Prefixes) (rel : BitVec 8)
  /-- `jge rel8: 7D` (R234) -/
  | jgeRel8 (p : Prefixes) (rel : BitVec 8)
  /-- `jle rel8: 7E` (R235) -/
  | jleRel8 (p : Prefixes) (rel : BitVec 8)
  /-- `jg rel8: 7F` (R236) -/
  | jgRel8 (p : Prefixes) (rel : BitVec 8)
  /-- `test r/m8, r8: 84` (R201) -/
  | testRm8R8 (p : Prefixes) (reg : BitVec 3) (rm : Rm)
  /-- `test r/m, r: 85` (R201) -/
  | testRmR (p : Prefixes) (reg : BitVec 3) (rm : Rm)
  /-- `mov r/m8, r8: 88` (R170) -/
  | movRm8R8 (p : Prefixes) (reg : BitVec 3) (rm : Rm)
  /-- `mov r/m, r: 89` (R170) -/
  | movRmR (p : Prefixes) (reg : BitVec 3) (rm : Rm)
  /-- `mov r8, r/m8: 8A` (R170) -/
  | movR8Rm8 (p : Prefixes) (reg : BitVec 3) (rm : Rm)
  /-- `mov r, r/m: 8B` (R170) -/
  | movRRm (p : Prefixes) (reg : BitVec 3) (rm : Rm)
  /-- `lea r, m: 8D` (R173) -/
  | leaRM (p : Prefixes) (reg : BitVec 3) (rm : Rm)
  /-- `pop r/m64: 8F /0` (R211) -/
  | popRm64 (p : Prefixes) (rm : Rm)
  /-- `nop: 90` (R260) -/
  | nop (p : Prefixes)
  /-- `rep movsb: F3 A4` (R251) -/
  | repMovsb (p : Prefixes)
  /-- `test al, imm8: A8` (R201) -/
  | testAlImm8 (p : Prefixes) (imm : BitVec 8)
  /-- `test ax/eax/rax, imm16/32: A9` (R201) -/
  | testAccImm (p : Prefixes) (imm : ImmZ)
  /-- `rep stosb: F3 AA` (R252) -/
  | repStosb (p : Prefixes)
  /-- `rep lodsb: F3 AC` (R253) -/
  | repLodsb (p : Prefixes)
  /-- `repe scasb: F3 AE` (R254) -/
  | repeScasb (p : Prefixes)
  /-- `mov r8, imm8: B0+r` (R170) -/
  | movR8Imm8 (p : Prefixes) (opreg : BitVec 3) (imm : BitVec 8)
  /-- `mov r, imm16/32/64: B8+r` (R170) -/
  | movRImm (p : Prefixes) (opreg : BitVec 3) (imm : ImmV)
  /-- `shl r/m8, imm8: C0 /4` (R205) -/
  | shlRm8Imm8 (p : Prefixes) (rm : Rm) (imm : BitVec 8)
  /-- `shr r/m8, imm8: C0 /5` (R206) -/
  | shrRm8Imm8 (p : Prefixes) (rm : Rm) (imm : BitVec 8)
  /-- `shl r/m, imm8: C1 /4` (R205) -/
  | shlRmImm8 (p : Prefixes) (rm : Rm) (imm : BitVec 8)
  /-- `shr r/m, imm8: C1 /5` (R206) -/
  | shrRmImm8 (p : Prefixes) (rm : Rm) (imm : BitVec 8)
  /-- `ret: C3` (R242) -/
  | ret (p : Prefixes)
  /-- `mov r/m8, imm8: C6 /0` (R170) -/
  | movRm8Imm8 (p : Prefixes) (rm : Rm) (imm : BitVec 8)
  /-- `mov r/m, imm16/32: C7 /0` (R170) -/
  | movRmImm (p : Prefixes) (rm : Rm) (imm : ImmZ)
  /-- `leave: C9` (R212) -/
  | leave (p : Prefixes)
  /-- `int3: CC` (R262) -/
  | int3 (p : Prefixes)
  /-- `shl r/m8, 1: D0 /4` (R205) -/
  | shlRm8One (p : Prefixes) (rm : Rm)
  /-- `shr r/m8, 1: D0 /5` (R206) -/
  | shrRm8One (p : Prefixes) (rm : Rm)
  /-- `shl r/m, 1: D1 /4` (R205) -/
  | shlRmOne (p : Prefixes) (rm : Rm)
  /-- `shr r/m, 1: D1 /5` (R206) -/
  | shrRmOne (p : Prefixes) (rm : Rm)
  /-- `shl r/m8, cl: D2 /4` (R205) -/
  | shlRm8Cl (p : Prefixes) (rm : Rm)
  /-- `shr r/m8, cl: D2 /5` (R206) -/
  | shrRm8Cl (p : Prefixes) (rm : Rm)
  /-- `shl r/m, cl: D3 /4` (R205) -/
  | shlRmCl (p : Prefixes) (rm : Rm)
  /-- `shr r/m, cl: D3 /5` (R206) -/
  | shrRmCl (p : Prefixes) (rm : Rm)
  /-- `jrcxz rel8: E3` (R237) -/
  | jrcxzRel8 (p : Prefixes) (rel : BitVec 8)
  /-- `call rel32: E8` (R241) -/
  | callRel32 (p : Prefixes) (rel : BitVec 32)
  /-- `jmp rel32: E9` (R240) -/
  | jmpRel32 (p : Prefixes) (rel : BitVec 32)
  /-- `jmp rel8: EB` (R240) -/
  | jmpRel8 (p : Prefixes) (rel : BitVec 8)
  /-- `test r/m8, imm8: F6 /0` (R201) -/
  | testRm8Imm8 (p : Prefixes) (rm : Rm) (imm : BitVec 8)
  /-- `test r/m, imm16/32: F7 /0` (R201) -/
  | testRmImm (p : Prefixes) (rm : Rm) (imm : ImmZ)
  /-- `cld: FC` (R261) -/
  | cld (p : Prefixes)
  /-- `inc r/m8: FE /0` (R191) -/
  | incRm8 (p : Prefixes) (rm : Rm)
  /-- `dec r/m8: FE /1` (R192) -/
  | decRm8 (p : Prefixes) (rm : Rm)
  /-- `inc r/m: FF /0` (R191) -/
  | incRm (p : Prefixes) (rm : Rm)
  /-- `dec r/m: FF /1` (R192) -/
  | decRm (p : Prefixes) (rm : Rm)
  /-- `call r/m64: FF /2` (R241) -/
  | callRm64 (p : Prefixes) (rm : Rm)
  /-- `jmp r/m64: FF /4` (R240) -/
  | jmpRm64 (p : Prefixes) (rm : Rm)
  /-- `push r/m64: FF /6` (R210) -/
  | pushRm64 (p : Prefixes) (rm : Rm)
  /-- `nop r/m: 0F 1F /0` (R260) -/
  | nopRm (p : Prefixes) (rm : Rm)
  /-- `jo rel32: 0F 80` (R221) -/
  | joRel32 (p : Prefixes) (rel : BitVec 32)
  /-- `jno rel32: 0F 81` (R222) -/
  | jnoRel32 (p : Prefixes) (rel : BitVec 32)
  /-- `jb rel32: 0F 82` (R223) -/
  | jbRel32 (p : Prefixes) (rel : BitVec 32)
  /-- `jae rel32: 0F 83` (R224) -/
  | jaeRel32 (p : Prefixes) (rel : BitVec 32)
  /-- `je rel32: 0F 84` (R225) -/
  | jeRel32 (p : Prefixes) (rel : BitVec 32)
  /-- `jne rel32: 0F 85` (R226) -/
  | jneRel32 (p : Prefixes) (rel : BitVec 32)
  /-- `jbe rel32: 0F 86` (R227) -/
  | jbeRel32 (p : Prefixes) (rel : BitVec 32)
  /-- `ja rel32: 0F 87` (R228) -/
  | jaRel32 (p : Prefixes) (rel : BitVec 32)
  /-- `js rel32: 0F 88` (R229) -/
  | jsRel32 (p : Prefixes) (rel : BitVec 32)
  /-- `jns rel32: 0F 89` (R230) -/
  | jnsRel32 (p : Prefixes) (rel : BitVec 32)
  /-- `jp rel32: 0F 8A` (R231) -/
  | jpRel32 (p : Prefixes) (rel : BitVec 32)
  /-- `jnp rel32: 0F 8B` (R232) -/
  | jnpRel32 (p : Prefixes) (rel : BitVec 32)
  /-- `jl rel32: 0F 8C` (R233) -/
  | jlRel32 (p : Prefixes) (rel : BitVec 32)
  /-- `jge rel32: 0F 8D` (R234) -/
  | jgeRel32 (p : Prefixes) (rel : BitVec 32)
  /-- `jle rel32: 0F 8E` (R235) -/
  | jleRel32 (p : Prefixes) (rel : BitVec 32)
  /-- `jg rel32: 0F 8F` (R236) -/
  | jgRel32 (p : Prefixes) (rel : BitVec 32)
  /-- `movzx r, r/m8: 0F B6` (R172) -/
  | movzxRRm8 (p : Prefixes) (reg : BitVec 3) (rm : Rm)
  /-- `movzx r, r/m16: 0F B7` (R172) -/
  | movzxRRm16 (p : Prefixes) (reg : BitVec 3) (rm : Rm)
  deriving DecidableEq, Repr

/-- The rows of opcode_table.json, in its order, under the names of the constructors of `Instr`. -/
inductive Row where
  | addRm8R8
  | addRmR
  | addR8Rm8
  | addRRm
  | addAlImm8
  | addAccImm
  | addRm8Imm8
  | addRmImm
  | addRmImm8
  | adcRm8R8
  | adcRmR
  | adcR8Rm8
  | adcRRm
  | adcAlImm8
  | adcAccImm
  | adcRm8Imm8
  | adcRmImm
  | adcRmImm8
  | subRm8R8
  | subRmR
  | subR8Rm8
  | subRRm
  | subAlImm8
  | subAccImm
  | subRm8Imm8
  | subRmImm
  | subRmImm8
  | xorRm8R8
  | xorRmR
  | xorR8Rm8
  | xorRRm
  | xorAlImm8
  | xorAccImm
  | xorRm8Imm8
  | xorRmImm
  | xorRmImm8
  | cmpRm8R8
  | cmpRmR
  | cmpR8Rm8
  | cmpRRm
  | cmpAlImm8
  | cmpAccImm
  | cmpRm8Imm8
  | cmpRmImm
  | cmpRmImm8
  | pushR64
  | popR64
  | pushImm32
  | pushImm8
  | joRel8
  | jnoRel8
  | jbRel8
  | jaeRel8
  | jeRel8
  | jneRel8
  | jbeRel8
  | jaRel8
  | jsRel8
  | jnsRel8
  | jpRel8
  | jnpRel8
  | jlRel8
  | jgeRel8
  | jleRel8
  | jgRel8
  | testRm8R8
  | testRmR
  | movRm8R8
  | movRmR
  | movR8Rm8
  | movRRm
  | leaRM
  | popRm64
  | nop
  | repMovsb
  | testAlImm8
  | testAccImm
  | repStosb
  | repLodsb
  | repeScasb
  | movR8Imm8
  | movRImm
  | shlRm8Imm8
  | shrRm8Imm8
  | shlRmImm8
  | shrRmImm8
  | ret
  | movRm8Imm8
  | movRmImm
  | leave
  | int3
  | shlRm8One
  | shrRm8One
  | shlRmOne
  | shrRmOne
  | shlRm8Cl
  | shrRm8Cl
  | shlRmCl
  | shrRmCl
  | jrcxzRel8
  | callRel32
  | jmpRel32
  | jmpRel8
  | testRm8Imm8
  | testRmImm
  | cld
  | incRm8
  | decRm8
  | incRm
  | decRm
  | callRm64
  | jmpRm64
  | pushRm64
  | nopRm
  | joRel32
  | jnoRel32
  | jbRel32
  | jaeRel32
  | jeRel32
  | jneRel32
  | jbeRel32
  | jaRel32
  | jsRel32
  | jnsRel32
  | jpRel32
  | jnpRel32
  | jlRel32
  | jgeRel32
  | jleRel32
  | jgRel32
  | movzxRRm8
  | movzxRRm16
  deriving DecidableEq, Repr

/-- The map column: the one-byte map, or the two-byte map behind 0F (R94, R116). -/
inductive OpMap where
  | oneByte | twoByte
  deriving DecidableEq, Repr

/-- The opsize column (R95); `q64` is `64`, `unsized` is `none`. -/
inductive OpSize where
  | b8 | v | q64 | unsized
  deriving DecidableEq, Repr

/-- The imm column (R118). -/
inductive ImmKind where
  | none | ib | iz | iv | rel8 | rel32
  deriving DecidableEq, Repr

/-- The p66 column (R125). -/
inductive P66Use where
  | w16 | ignored | invalid
  deriving DecidableEq, Repr

/-- The seg column (R116). -/
inductive SegUse where
  | recorded | ignored | invalid
  deriving DecidableEq, Repr

/-- One row of the opcode table (R116). -/
structure RowInfo where
  map : OpMap := .oneByte
  opcode : Nat
  mask : Nat := 0xFF
  modrm : Bool := false
  digit : Option Nat := none
  memOnly : Bool := false
  opsize : OpSize
  imm : ImmKind := .none
  p66 : P66Use
  repRequired : Bool := false
  seg : SegUse
  rexBZero : Bool := false
  deriving DecidableEq, Repr

/-- The parts of an admitted instruction that are not fixed by its row (R91). Fields a row does not have hold 0 or
`none`. -/
structure Pieces where
  prefixes : Prefixes
  opreg : BitVec 3 := 0
  reg : BitVec 3 := 0
  rm : Option Rm := none
  imm : Imm := .none
  deriving DecidableEq, Repr

/-- Why parsing stopped before an instruction was complete (R90): a byte the window does not hold, or no row. -/
inductive Stop where
  | outOfBytes
  | noRow
  deriving DecidableEq, Repr

/-- The decoder's answer before the length oracle is asked: an admitted instruction, the no-row outcome, or
`Truncated` (R90). -/
inductive RowResult where
  | row (i : Instr)
  | noRow
  | truncated
  deriving DecidableEq, Repr

/-- The three results of `decode` (R90; 90_conflicts.md C12). -/
inductive DecodeResult where
  | decoded (ins : Instruction)
  | truncated
  | undecodable
  deriving DecidableEq, Repr

end Sys2Proof
end

