-- ==== Sys2Proof/Decode.lean ====
section
/-! DEFINITION. The decoder and the encoder (30_encoding.md), written from one copy of the opcode table. -/

namespace Sys2Proof

/-! ## Byte order (R117, 20_memory.md R63) -/

/-- The unsigned value of bytes in address order, lowest address least significant. -/
def fromLE : List Byte → Nat
  | [] => 0
  | b :: bs => b.toNat + 256 * fromLE bs

/-- The low `8 * n` bits of `v` as `n` bytes in address order. -/
def toLE : Nat → Nat → List Byte
  | 0, _ => []
  | n + 1, v => BitVec.ofNat 8 v :: toLE n (v / 256)

/-! ## The opcode table (R116, R121, R122) -/

/-- The row's columns, as opcode_table.json gives them. -/
def Row.info : Row → RowInfo
  | .addRm8R8 => { opcode := 0x00, modrm := true, opsize := .b8, p66 := .ignored, seg := .recorded }
  | .addRmR => { opcode := 0x01, modrm := true, opsize := .v, p66 := .w16, seg := .recorded }
  | .addR8Rm8 => { opcode := 0x02, modrm := true, opsize := .b8, p66 := .ignored, seg := .recorded }
  | .addRRm => { opcode := 0x03, modrm := true, opsize := .v, p66 := .w16, seg := .recorded }
  | .addAlImm8 => { opcode := 0x04, opsize := .b8, imm := .ib, p66 := .ignored, seg := .ignored }
  | .addAccImm => { opcode := 0x05, opsize := .v, imm := .iz, p66 := .w16, seg := .ignored }
  | .addRm8Imm8 => { opcode := 0x80, modrm := true, digit := some 0, opsize := .b8, imm := .ib, p66 := .ignored, seg := .recorded }
  | .addRmImm => { opcode := 0x81, modrm := true, digit := some 0, opsize := .v, imm := .iz, p66 := .w16, seg := .recorded }
  | .addRmImm8 => { opcode := 0x83, modrm := true, digit := some 0, opsize := .v, imm := .ib, p66 := .w16, seg := .recorded }
  | .adcRm8R8 => { opcode := 0x10, modrm := true, opsize := .b8, p66 := .ignored, seg := .recorded }
  | .adcRmR => { opcode := 0x11, modrm := true, opsize := .v, p66 := .w16, seg := .recorded }
  | .adcR8Rm8 => { opcode := 0x12, modrm := true, opsize := .b8, p66 := .ignored, seg := .recorded }
  | .adcRRm => { opcode := 0x13, modrm := true, opsize := .v, p66 := .w16, seg := .recorded }
  | .adcAlImm8 => { opcode := 0x14, opsize := .b8, imm := .ib, p66 := .ignored, seg := .ignored }
  | .adcAccImm => { opcode := 0x15, opsize := .v, imm := .iz, p66 := .w16, seg := .ignored }
  | .adcRm8Imm8 => { opcode := 0x80, modrm := true, digit := some 2, opsize := .b8, imm := .ib, p66 := .ignored, seg := .recorded }
  | .adcRmImm => { opcode := 0x81, modrm := true, digit := some 2, opsize := .v, imm := .iz, p66 := .w16, seg := .recorded }
  | .adcRmImm8 => { opcode := 0x83, modrm := true, digit := some 2, opsize := .v, imm := .ib, p66 := .w16, seg := .recorded }
  | .subRm8R8 => { opcode := 0x28, modrm := true, opsize := .b8, p66 := .ignored, seg := .recorded }
  | .subRmR => { opcode := 0x29, modrm := true, opsize := .v, p66 := .w16, seg := .recorded }
  | .subR8Rm8 => { opcode := 0x2A, modrm := true, opsize := .b8, p66 := .ignored, seg := .recorded }
  | .subRRm => { opcode := 0x2B, modrm := true, opsize := .v, p66 := .w16, seg := .recorded }
  | .subAlImm8 => { opcode := 0x2C, opsize := .b8, imm := .ib, p66 := .ignored, seg := .ignored }
  | .subAccImm => { opcode := 0x2D, opsize := .v, imm := .iz, p66 := .w16, seg := .ignored }
  | .subRm8Imm8 => { opcode := 0x80, modrm := true, digit := some 5, opsize := .b8, imm := .ib, p66 := .ignored, seg := .recorded }
  | .subRmImm => { opcode := 0x81, modrm := true, digit := some 5, opsize := .v, imm := .iz, p66 := .w16, seg := .recorded }
  | .subRmImm8 => { opcode := 0x83, modrm := true, digit := some 5, opsize := .v, imm := .ib, p66 := .w16, seg := .recorded }
  | .xorRm8R8 => { opcode := 0x30, modrm := true, opsize := .b8, p66 := .ignored, seg := .recorded }
  | .xorRmR => { opcode := 0x31, modrm := true, opsize := .v, p66 := .w16, seg := .recorded }
  | .xorR8Rm8 => { opcode := 0x32, modrm := true, opsize := .b8, p66 := .ignored, seg := .recorded }
  | .xorRRm => { opcode := 0x33, modrm := true, opsize := .v, p66 := .w16, seg := .recorded }
  | .xorAlImm8 => { opcode := 0x34, opsize := .b8, imm := .ib, p66 := .ignored, seg := .ignored }
  | .xorAccImm => { opcode := 0x35, opsize := .v, imm := .iz, p66 := .w16, seg := .ignored }
  | .xorRm8Imm8 => { opcode := 0x80, modrm := true, digit := some 6, opsize := .b8, imm := .ib, p66 := .ignored, seg := .recorded }
  | .xorRmImm => { opcode := 0x81, modrm := true, digit := some 6, opsize := .v, imm := .iz, p66 := .w16, seg := .recorded }
  | .xorRmImm8 => { opcode := 0x83, modrm := true, digit := some 6, opsize := .v, imm := .ib, p66 := .w16, seg := .recorded }
  | .cmpRm8R8 => { opcode := 0x38, modrm := true, opsize := .b8, p66 := .ignored, seg := .recorded }
  | .cmpRmR => { opcode := 0x39, modrm := true, opsize := .v, p66 := .w16, seg := .recorded }
  | .cmpR8Rm8 => { opcode := 0x3A, modrm := true, opsize := .b8, p66 := .ignored, seg := .recorded }
  | .cmpRRm => { opcode := 0x3B, modrm := true, opsize := .v, p66 := .w16, seg := .recorded }
  | .cmpAlImm8 => { opcode := 0x3C, opsize := .b8, imm := .ib, p66 := .ignored, seg := .ignored }
  | .cmpAccImm => { opcode := 0x3D, opsize := .v, imm := .iz, p66 := .w16, seg := .ignored }
  | .cmpRm8Imm8 => { opcode := 0x80, modrm := true, digit := some 7, opsize := .b8, imm := .ib, p66 := .ignored, seg := .recorded }
  | .cmpRmImm => { opcode := 0x81, modrm := true, digit := some 7, opsize := .v, imm := .iz, p66 := .w16, seg := .recorded }
  | .cmpRmImm8 => { opcode := 0x83, modrm := true, digit := some 7, opsize := .v, imm := .ib, p66 := .w16, seg := .recorded }
  | .pushR64 => { opcode := 0x50, mask := 0xF8, opsize := .q64, p66 := .invalid, seg := .ignored }
  | .popR64 => { opcode := 0x58, mask := 0xF8, opsize := .q64, p66 := .invalid, seg := .ignored }
  | .pushImm32 => { opcode := 0x68, opsize := .q64, imm := .iz, p66 := .invalid, seg := .ignored }
  | .pushImm8 => { opcode := 0x6A, opsize := .q64, imm := .ib, p66 := .invalid, seg := .ignored }
  | .joRel8 => { opcode := 0x70, opsize := .q64, imm := .rel8, p66 := .invalid, seg := .ignored }
  | .jnoRel8 => { opcode := 0x71, opsize := .q64, imm := .rel8, p66 := .invalid, seg := .ignored }
  | .jbRel8 => { opcode := 0x72, opsize := .q64, imm := .rel8, p66 := .invalid, seg := .ignored }
  | .jaeRel8 => { opcode := 0x73, opsize := .q64, imm := .rel8, p66 := .invalid, seg := .ignored }
  | .jeRel8 => { opcode := 0x74, opsize := .q64, imm := .rel8, p66 := .invalid, seg := .ignored }
  | .jneRel8 => { opcode := 0x75, opsize := .q64, imm := .rel8, p66 := .invalid, seg := .ignored }
  | .jbeRel8 => { opcode := 0x76, opsize := .q64, imm := .rel8, p66 := .invalid, seg := .ignored }
  | .jaRel8 => { opcode := 0x77, opsize := .q64, imm := .rel8, p66 := .invalid, seg := .ignored }
  | .jsRel8 => { opcode := 0x78, opsize := .q64, imm := .rel8, p66 := .invalid, seg := .ignored }
  | .jnsRel8 => { opcode := 0x79, opsize := .q64, imm := .rel8, p66 := .invalid, seg := .ignored }
  | .jpRel8 => { opcode := 0x7A, opsize := .q64, imm := .rel8, p66 := .invalid, seg := .ignored }
  | .jnpRel8 => { opcode := 0x7B, opsize := .q64, imm := .rel8, p66 := .invalid, seg := .ignored }
  | .jlRel8 => { opcode := 0x7C, opsize := .q64, imm := .rel8, p66 := .invalid, seg := .ignored }
  | .jgeRel8 => { opcode := 0x7D, opsize := .q64, imm := .rel8, p66 := .invalid, seg := .ignored }
  | .jleRel8 => { opcode := 0x7E, opsize := .q64, imm := .rel8, p66 := .invalid, seg := .ignored }
  | .jgRel8 => { opcode := 0x7F, opsize := .q64, imm := .rel8, p66 := .invalid, seg := .ignored }
  | .testRm8R8 => { opcode := 0x84, modrm := true, opsize := .b8, p66 := .ignored, seg := .recorded }
  | .testRmR => { opcode := 0x85, modrm := true, opsize := .v, p66 := .w16, seg := .recorded }
  | .movRm8R8 => { opcode := 0x88, modrm := true, opsize := .b8, p66 := .ignored, seg := .recorded }
  | .movRmR => { opcode := 0x89, modrm := true, opsize := .v, p66 := .w16, seg := .recorded }
  | .movR8Rm8 => { opcode := 0x8A, modrm := true, opsize := .b8, p66 := .ignored, seg := .recorded }
  | .movRRm => { opcode := 0x8B, modrm := true, opsize := .v, p66 := .w16, seg := .recorded }
  | .leaRM => { opcode := 0x8D, modrm := true, memOnly := true, opsize := .v, p66 := .w16, seg := .recorded }
  | .popRm64 => { opcode := 0x8F, modrm := true, digit := some 0, opsize := .q64, p66 := .invalid, seg := .recorded }
  | .nop => { opcode := 0x90, opsize := .unsized, p66 := .ignored, seg := .ignored, rexBZero := true }
  | .repMovsb => { opcode := 0xA4, opsize := .b8, p66 := .invalid, repRequired := true, seg := .invalid }
  | .testAlImm8 => { opcode := 0xA8, opsize := .b8, imm := .ib, p66 := .ignored, seg := .ignored }
  | .testAccImm => { opcode := 0xA9, opsize := .v, imm := .iz, p66 := .w16, seg := .ignored }
  | .repStosb => { opcode := 0xAA, opsize := .b8, p66 := .invalid, repRequired := true, seg := .invalid }
  | .repLodsb => { opcode := 0xAC, opsize := .b8, p66 := .invalid, repRequired := true, seg := .invalid }
  | .repeScasb => { opcode := 0xAE, opsize := .b8, p66 := .invalid, repRequired := true, seg := .invalid }
  | .movR8Imm8 => { opcode := 0xB0, mask := 0xF8, opsize := .b8, imm := .ib, p66 := .ignored, seg := .ignored }
  | .movRImm => { opcode := 0xB8, mask := 0xF8, opsize := .v, imm := .iv, p66 := .w16, seg := .ignored }
  | .shlRm8Imm8 => { opcode := 0xC0, modrm := true, digit := some 4, opsize := .b8, imm := .ib, p66 := .ignored, seg := .recorded }
  | .shrRm8Imm8 => { opcode := 0xC0, modrm := true, digit := some 5, opsize := .b8, imm := .ib, p66 := .ignored, seg := .recorded }
  | .shlRmImm8 => { opcode := 0xC1, modrm := true, digit := some 4, opsize := .v, imm := .ib, p66 := .w16, seg := .recorded }
  | .shrRmImm8 => { opcode := 0xC1, modrm := true, digit := some 5, opsize := .v, imm := .ib, p66 := .w16, seg := .recorded }
  | .ret => { opcode := 0xC3, opsize := .q64, p66 := .invalid, seg := .ignored }
  | .movRm8Imm8 => { opcode := 0xC6, modrm := true, digit := some 0, opsize := .b8, imm := .ib, p66 := .ignored, seg := .recorded }
  | .movRmImm => { opcode := 0xC7, modrm := true, digit := some 0, opsize := .v, imm := .iz, p66 := .w16, seg := .recorded }
  | .leave => { opcode := 0xC9, opsize := .q64, p66 := .invalid, seg := .ignored }
  | .int3 => { opcode := 0xCC, opsize := .unsized, p66 := .invalid, seg := .ignored }
  | .shlRm8One => { opcode := 0xD0, modrm := true, digit := some 4, opsize := .b8, p66 := .ignored, seg := .recorded }
  | .shrRm8One => { opcode := 0xD0, modrm := true, digit := some 5, opsize := .b8, p66 := .ignored, seg := .recorded }
  | .shlRmOne => { opcode := 0xD1, modrm := true, digit := some 4, opsize := .v, p66 := .w16, seg := .recorded }
  | .shrRmOne => { opcode := 0xD1, modrm := true, digit := some 5, opsize := .v, p66 := .w16, seg := .recorded }
  | .shlRm8Cl => { opcode := 0xD2, modrm := true, digit := some 4, opsize := .b8, p66 := .ignored, seg := .recorded }
  | .shrRm8Cl => { opcode := 0xD2, modrm := true, digit := some 5, opsize := .b8, p66 := .ignored, seg := .recorded }
  | .shlRmCl => { opcode := 0xD3, modrm := true, digit := some 4, opsize := .v, p66 := .w16, seg := .recorded }
  | .shrRmCl => { opcode := 0xD3, modrm := true, digit := some 5, opsize := .v, p66 := .w16, seg := .recorded }
  | .jrcxzRel8 => { opcode := 0xE3, opsize := .q64, imm := .rel8, p66 := .invalid, seg := .ignored }
  | .callRel32 => { opcode := 0xE8, opsize := .q64, imm := .rel32, p66 := .invalid, seg := .ignored }
  | .jmpRel32 => { opcode := 0xE9, opsize := .q64, imm := .rel32, p66 := .invalid, seg := .ignored }
  | .jmpRel8 => { opcode := 0xEB, opsize := .q64, imm := .rel8, p66 := .invalid, seg := .ignored }
  | .testRm8Imm8 => { opcode := 0xF6, modrm := true, digit := some 0, opsize := .b8, imm := .ib, p66 := .ignored, seg := .recorded }
  | .testRmImm => { opcode := 0xF7, modrm := true, digit := some 0, opsize := .v, imm := .iz, p66 := .w16, seg := .recorded }
  | .cld => { opcode := 0xFC, opsize := .unsized, p66 := .invalid, seg := .ignored }
  | .incRm8 => { opcode := 0xFE, modrm := true, digit := some 0, opsize := .b8, p66 := .ignored, seg := .recorded }
  | .decRm8 => { opcode := 0xFE, modrm := true, digit := some 1, opsize := .b8, p66 := .ignored, seg := .recorded }
  | .incRm => { opcode := 0xFF, modrm := true, digit := some 0, opsize := .v, p66 := .w16, seg := .recorded }
  | .decRm => { opcode := 0xFF, modrm := true, digit := some 1, opsize := .v, p66 := .w16, seg := .recorded }
  | .callRm64 => { opcode := 0xFF, modrm := true, digit := some 2, opsize := .q64, p66 := .invalid, seg := .recorded }
  | .jmpRm64 => { opcode := 0xFF, modrm := true, digit := some 4, opsize := .q64, p66 := .invalid, seg := .recorded }
  | .pushRm64 => { opcode := 0xFF, modrm := true, digit := some 6, opsize := .q64, p66 := .invalid, seg := .recorded }
  | .nopRm => { map := .twoByte, opcode := 0x1F, modrm := true, digit := some 0, opsize := .v, p66 := .w16, seg := .ignored }
  | .joRel32 => { map := .twoByte, opcode := 0x80, opsize := .q64, imm := .rel32, p66 := .invalid, seg := .ignored }
  | .jnoRel32 => { map := .twoByte, opcode := 0x81, opsize := .q64, imm := .rel32, p66 := .invalid, seg := .ignored }
  | .jbRel32 => { map := .twoByte, opcode := 0x82, opsize := .q64, imm := .rel32, p66 := .invalid, seg := .ignored }
  | .jaeRel32 => { map := .twoByte, opcode := 0x83, opsize := .q64, imm := .rel32, p66 := .invalid, seg := .ignored }
  | .jeRel32 => { map := .twoByte, opcode := 0x84, opsize := .q64, imm := .rel32, p66 := .invalid, seg := .ignored }
  | .jneRel32 => { map := .twoByte, opcode := 0x85, opsize := .q64, imm := .rel32, p66 := .invalid, seg := .ignored }
  | .jbeRel32 => { map := .twoByte, opcode := 0x86, opsize := .q64, imm := .rel32, p66 := .invalid, seg := .ignored }
  | .jaRel32 => { map := .twoByte, opcode := 0x87, opsize := .q64, imm := .rel32, p66 := .invalid, seg := .ignored }
  | .jsRel32 => { map := .twoByte, opcode := 0x88, opsize := .q64, imm := .rel32, p66 := .invalid, seg := .ignored }
  | .jnsRel32 => { map := .twoByte, opcode := 0x89, opsize := .q64, imm := .rel32, p66 := .invalid, seg := .ignored }
  | .jpRel32 => { map := .twoByte, opcode := 0x8A, opsize := .q64, imm := .rel32, p66 := .invalid, seg := .ignored }
  | .jnpRel32 => { map := .twoByte, opcode := 0x8B, opsize := .q64, imm := .rel32, p66 := .invalid, seg := .ignored }
  | .jlRel32 => { map := .twoByte, opcode := 0x8C, opsize := .q64, imm := .rel32, p66 := .invalid, seg := .ignored }
  | .jgeRel32 => { map := .twoByte, opcode := 0x8D, opsize := .q64, imm := .rel32, p66 := .invalid, seg := .ignored }
  | .jleRel32 => { map := .twoByte, opcode := 0x8E, opsize := .q64, imm := .rel32, p66 := .invalid, seg := .ignored }
  | .jgRel32 => { map := .twoByte, opcode := 0x8F, opsize := .q64, imm := .rel32, p66 := .invalid, seg := .ignored }
  | .movzxRRm8 => { map := .twoByte, opcode := 0xB6, modrm := true, opsize := .v, p66 := .w16, seg := .recorded }
  | .movzxRRm16 => { map := .twoByte, opcode := 0xB7, modrm := true, opsize := .v, p66 := .w16, seg := .recorded }

/-- Every row, in the table's order. -/
def Row.all : List Row :=
  ([.addRm8R8, .addRmR, .addR8Rm8, .addRRm, .addAlImm8, .addAccImm] : List Row) ++
  ([.addRm8Imm8, .addRmImm, .addRmImm8, .adcRm8R8, .adcRmR, .adcR8Rm8] : List Row) ++
  ([.adcRRm, .adcAlImm8, .adcAccImm, .adcRm8Imm8, .adcRmImm, .adcRmImm8] : List Row) ++
  ([.subRm8R8, .subRmR, .subR8Rm8, .subRRm, .subAlImm8, .subAccImm] : List Row) ++
  ([.subRm8Imm8, .subRmImm, .subRmImm8, .xorRm8R8, .xorRmR, .xorR8Rm8] : List Row) ++
  ([.xorRRm, .xorAlImm8, .xorAccImm, .xorRm8Imm8, .xorRmImm, .xorRmImm8] : List Row) ++
  ([.cmpRm8R8, .cmpRmR, .cmpR8Rm8, .cmpRRm, .cmpAlImm8, .cmpAccImm] : List Row) ++
  ([.cmpRm8Imm8, .cmpRmImm, .cmpRmImm8, .pushR64, .popR64, .pushImm32] : List Row) ++
  ([.pushImm8, .joRel8, .jnoRel8, .jbRel8, .jaeRel8, .jeRel8] : List Row) ++
  ([.jneRel8, .jbeRel8, .jaRel8, .jsRel8, .jnsRel8, .jpRel8] : List Row) ++
  ([.jnpRel8, .jlRel8, .jgeRel8, .jleRel8, .jgRel8, .testRm8R8] : List Row) ++
  ([.testRmR, .movRm8R8, .movRmR, .movR8Rm8, .movRRm, .leaRM] : List Row) ++
  ([.popRm64, .nop, .repMovsb, .testAlImm8, .testAccImm, .repStosb] : List Row) ++
  ([.repLodsb, .repeScasb, .movR8Imm8, .movRImm, .shlRm8Imm8, .shrRm8Imm8] : List Row) ++
  ([.shlRmImm8, .shrRmImm8, .ret, .movRm8Imm8, .movRmImm, .leave] : List Row) ++
  ([.int3, .shlRm8One, .shrRm8One, .shlRmOne, .shrRmOne, .shlRm8Cl] : List Row) ++
  ([.shrRm8Cl, .shlRmCl, .shrRmCl, .jrcxzRel8, .callRel32, .jmpRel32] : List Row) ++
  ([.jmpRel8, .testRm8Imm8, .testRmImm, .cld, .incRm8, .decRm8] : List Row) ++
  ([.incRm, .decRm, .callRm64, .jmpRm64, .pushRm64, .nopRm] : List Row) ++
  ([.joRel32, .jnoRel32, .jbRel32, .jaeRel32, .jeRel32, .jneRel32] : List Row) ++
  ([.jbeRel32, .jaRel32, .jsRel32, .jnsRel32, .jpRel32, .jnpRel32] : List Row) ++
  ([.jlRel32, .jgeRel32, .jleRel32, .jgRel32, .movzxRRm8, .movzxRRm16] : List Row)

/-! ## Prefixes (R92, R93, R95, R99) -/

/-- The byte of a segment override (R92). -/
def Seg.byte : Seg → Byte
  | .es => 0x26
  | .cs => 0x2E
  | .ss => 0x36
  | .ds => 0x3E
  | .fs => 0x64
  | .gs => 0x65

/-- The byte of a legacy prefix (R92). -/
def LegacyPrefix.byte : LegacyPrefix → Byte
  | .opSize => 0x66
  | .rep => 0xF3
  | .seg s => s.byte
  | .lock => 0xF0
  | .repne => 0xF2
  | .addrSize => 0x67

/-- The legacy prefix a byte is, if it is one (R92). -/
def LegacyPrefix.ofByte (b : Byte) : Option LegacyPrefix :=
  match b.toNat with
  | 0x66 => some .opSize
  | 0xF3 => some .rep
  | 0x26 => some (.seg .es)
  | 0x2E => some (.seg .cs)
  | 0x36 => some (.seg .ss)
  | 0x3E => some (.seg .ds)
  | 0x64 => some (.seg .fs)
  | 0x65 => some (.seg .gs)
  | 0xF0 => some .lock
  | 0xF2 => some .repne
  | 0x67 => some .addrSize
  | _ => none

/-- The REX byte 0100WRXB (R93). -/
def Rex.byte (r : Rex) : Byte :=
  (0x4#4 ++ BitVec.ofBool r.w ++ BitVec.ofBool r.r ++ BitVec.ofBool r.x ++ BitVec.ofBool r.b)

/-- The REX prefix a byte is: 40 .. 4F (R93). -/
def Rex.ofByte (b : Byte) : Option Rex :=
  if b.extractLsb' 4 4 = 0x4#4 then
    some ⟨b.getLsbD 3, b.getLsbD 2, b.getLsbD 1, b.getLsbD 0⟩
  else none

/-- A 66 prefix is present (R92). -/
def Prefixes.p66 (p : Prefixes) : Bool := p.legacy.any (· == .opSize)

/-- An F3 prefix is present (R92). -/
def Prefixes.pF3 (p : Prefixes) : Bool := p.legacy.any (· == .rep)

/-- A prefix that makes any instruction `Invalid` is present: F0, F2 or 67 (R92). -/
def Prefixes.excluded (p : Prefixes) : Bool :=
  p.legacy.any fun x => x == .lock || x == .repne || x == .addrSize

/-- The segment override in force: the last one (R92). -/
def Prefixes.segment (p : Prefixes) : Option Seg :=
  p.legacy.foldl (fun acc x => match x with | .seg s => some s | _ => acc) none

/-- `rex_present` (R93). -/
def Prefixes.hasRex (p : Prefixes) : Bool := p.rex.isSome

/-- REX.W, 0 when no REX byte is present (R93). -/
def Prefixes.rexW (p : Prefixes) : Bool := p.rex.any (·.w)

/-- REX.R, 0 when no REX byte is present (R93). -/
def Prefixes.rexR (p : Prefixes) : Bool := p.rex.any (·.r)

/-- REX.X, 0 when no REX byte is present (R93). -/
def Prefixes.rexX (p : Prefixes) : Bool := p.rex.any (·.x)

/-- REX.B, 0 when no REX byte is present (R93). -/
def Prefixes.rexB (p : Prefixes) : Bool := p.rex.any (·.b)

/-- W of a row whose opsize is `v`: 64 if REX.W, else 16 if 66, else 32 (R95). -/
def Prefixes.vWidth (p : Prefixes) : Width :=
  if p.rexW then .w64 else if p.p66 then .w16 else .w32

/-- W of a row (R95); a row with no sized operand is given 32, which nothing reads. -/
def OpSize.width (p : Prefixes) : OpSize → Width
  | .b8 => .w8
  | .v => p.vWidth
  | .q64 => .w64
  | .unsized => .w32

/-- The prefix conditions of a row (R92, R125, R126) and the REX.B condition of row 90. -/
def RowInfo.prefixesOk (r : RowInfo) (p : Prefixes) : Bool :=
  !p.excluded && (p.pF3 == r.repRequired) && !(r.p66 == .invalid && p.p66) &&
    !(r.seg == .invalid && p.segment.isSome) && !(r.rexBZero && p.rexB)

/-! ## Reading the window (R90, R91, R94, R96, R100, R101, R103, R118) -/

/-- The next byte, or `outOfBytes`. -/
def nextByte : List Byte → Except Stop (Byte × List Byte)
  | [] => .error .outOfBytes
  | b :: bs => .ok (b, bs)

/-- The next `n` bytes as a little-endian value of width `w`, or `outOfBytes` (R117). -/
def nextLE (w n : Nat) (bs : List Byte) : Except Stop (BitVec w × List Byte) :=
  if n ≤ bs.length then .ok (BitVec.ofNat w (fromLE (bs.take n)), bs.drop n) else .error .outOfBytes

/-- Legacy prefixes from the front while the byte is one (R92). -/
def takeLegacy : List Byte → List LegacyPrefix × List Byte
  | [] => ([], [])
  | b :: bs =>
    match LegacyPrefix.ofByte b with
    | some x => (x :: (takeLegacy bs).1, (takeLegacy bs).2)
    | none => ([], b :: bs)

/-- At most one REX byte, immediately before the opcode (R93). -/
def takeRex : List Byte → Option Rex × List Byte
  | [] => (none, [])
  | b :: bs =>
    match Rex.ofByte b with
    | some r => (some r, bs)
    | none => (none, b :: bs)

/-- The legacy prefixes and the REX byte (R91). -/
def takePrefixes (bs : List Byte) : Prefixes × List Byte :=
  (⟨(takeLegacy bs).1, (takeRex (takeLegacy bs).2).1⟩, (takeRex (takeLegacy bs).2).2)

/-- One opcode byte, or two when the first is 0F (R94). -/
def takeOpcode (bs : List Byte) : Except Stop (OpMap × Byte × List Byte) := do
  let (op, bs) ← nextByte bs
  if op = 0x0F#8 then
    let (op2, bs) ← nextByte bs
    pure (.twoByte, op2, bs)
  else pure (.oneByte, op, bs)

/-- The displacement of a form with a base, by `mod` (R100, R101, R103). -/
def takeDisp (mod : BitVec 2) (bs : List Byte) : Except Stop (Disp × List Byte) :=
  if mod = 0 then .ok (.none, bs)
  else if mod = 1 then do
    let (v, bs) ← nextLE 8 1 bs
    pure (.d8 v, bs)
  else do
    let (v, bs) ← nextLE 32 4 bs
    pure (.d32 v, bs)

/-- The r/m form a ModRM byte selects, with its SIB byte and displacement (R97, R100, R101). -/
def takeRm (modrm : Byte) (bs : List Byte) : Except Stop (Rm × List Byte) :=
  let mod : BitVec 2 := modrm.extractLsb' 6 2
  let rm : BitVec 3 := modrm.extractLsb' 0 3
  if mod = 3 then .ok (.reg rm, bs)
  else if rm = 4 then do
    let (sib, bs) ← nextByte bs
    if sib.extractLsb' 0 3 = (5 : BitVec 3) ∧ mod = 0 then
      let (d, bs) ← nextLE 32 4 bs
      pure (.sibNoBase (sib.extractLsb' 6 2) (sib.extractLsb' 3 3) d, bs)
    else
      let (d, bs) ← takeDisp mod bs
      pure (.sib (sib.extractLsb' 6 2) (sib.extractLsb' 3 3) (sib.extractLsb' 0 3) d, bs)
  else if rm = 5 ∧ mod = 0 then do
    let (d, bs) ← nextLE 32 4 bs
    pure (.ripRel d, bs)
  else do
    let (d, bs) ← takeDisp mod bs
    pure (.base rm d, bs)

/-- The immediate or relative bytes that end an instruction (R118). -/
def takeImm (k : ImmKind) (w : Width) (bs : List Byte) : Except Stop (Imm × List Byte) :=
  match k, w with
  | .none, _ => .ok (.none, bs)
  | .ib, _ => do let (v, bs) ← nextLE 8 1 bs; pure (.i8 v, bs)
  | .rel8, _ => do let (v, bs) ← nextLE 8 1 bs; pure (.i8 v, bs)
  | .rel32, _ => do let (v, bs) ← nextLE 32 4 bs; pure (.i32 v, bs)
  | .iz, .w16 => do let (v, bs) ← nextLE 16 2 bs; pure (.i16 v, bs)
  | .iz, _ => do let (v, bs) ← nextLE 32 4 bs; pure (.i32 v, bs)
  | .iv, .w16 => do let (v, bs) ← nextLE 16 2 bs; pure (.i16 v, bs)
  | .iv, .w64 => do let (v, bs) ← nextLE 64 8 bs; pure (.i64 v, bs)
  | .iv, _ => do let (v, bs) ← nextLE 32 4 bs; pure (.i32 v, bs)

/-! ## Row selection (R94) -/

/-- The row's opcode columns match the last opcode byte (R94). -/
def RowInfo.opcodeMatches (r : RowInfo) (map : OpMap) (op : Byte) : Bool :=
  r.map == map && (op.toNat &&& r.mask) == r.opcode

/-- The row's digit and mod columns match a ModRM byte (R94). -/
def RowInfo.modrmMatches (r : RowInfo) (modrm : Byte) : Bool :=
  (match r.digit with
    | some d => (modrm.extractLsb' 3 3).toNat == d
    | none => true) &&
  !(r.memOnly && (modrm.extractLsb' 6 2 : BitVec 2) == 3)

/-- The rows of an opcode. -/
def Row.candidates (map : OpMap) (op : Byte) : List Row :=
  Row.all.filter (·.info.opcodeMatches map op)

/-! ## Assembling an instruction from its row and parts -/

def takeMR (f : Prefixes → BitVec 3 → Rm → Instr) (q : Pieces) : Option Instr :=
  q.rm.map (f q.prefixes q.reg)

def takeM (f : Prefixes → Rm → Instr) (q : Pieces) : Option Instr := q.rm.map (f q.prefixes)

def takeM8 (f : Prefixes → Rm → BitVec 8 → Instr) (q : Pieces) : Option Instr :=
  match q.rm, q.imm with
  | some rm, .i8 v => some (f q.prefixes rm v)
  | _, _ => none

def takeMZ (f : Prefixes → Rm → ImmZ → Instr) (q : Pieces) : Option Instr :=
  match q.rm, q.imm with
  | some rm, .i16 v => some (f q.prefixes rm (.i16 v))
  | some rm, .i32 v => some (f q.prefixes rm (.i32 v))
  | _, _ => none

def takeI8 (f : Prefixes → BitVec 8 → Instr) (q : Pieces) : Option Instr :=
  match q.imm with
  | .i8 v => some (f q.prefixes v)
  | _ => none

def takeI32 (f : Prefixes → BitVec 32 → Instr) (q : Pieces) : Option Instr :=
  match q.imm with
  | .i32 v => some (f q.prefixes v)
  | _ => none

def takeIZ (f : Prefixes → ImmZ → Instr) (q : Pieces) : Option Instr :=
  match q.imm with
  | .i16 v => some (f q.prefixes (.i16 v))
  | .i32 v => some (f q.prefixes (.i32 v))
  | _ => none

def takeO (f : Prefixes → BitVec 3 → Instr) (q : Pieces) : Option Instr := some (f q.prefixes q.opreg)

def takeO8 (f : Prefixes → BitVec 3 → BitVec 8 → Instr) (q : Pieces) : Option Instr :=
  match q.imm with
  | .i8 v => some (f q.prefixes q.opreg v)
  | _ => none

def takeOV (f : Prefixes → BitVec 3 → ImmV → Instr) (q : Pieces) : Option Instr :=
  match q.imm with
  | .i16 v => some (f q.prefixes q.opreg (.i16 v))
  | .i32 v => some (f q.prefixes q.opreg (.i32 v))
  | .i64 v => some (f q.prefixes q.opreg (.i64 v))
  | _ => none

def takeZ0 (f : Prefixes → Instr) (q : Pieces) : Option Instr := some (f q.prefixes)

/-- The instruction of a row with the parts read from the window. -/
def Row.assemble : Row → Pieces → Option Instr
  | .addRm8R8 => takeMR .addRm8R8
  | .addRmR => takeMR .addRmR
  | .addR8Rm8 => takeMR .addR8Rm8
  | .addRRm => takeMR .addRRm
  | .addAlImm8 => takeI8 .addAlImm8
  | .addAccImm => takeIZ .addAccImm
  | .addRm8Imm8 => takeM8 .addRm8Imm8
  | .addRmImm => takeMZ .addRmImm
  | .addRmImm8 => takeM8 .addRmImm8
  | .adcRm8R8 => takeMR .adcRm8R8
  | .adcRmR => takeMR .adcRmR
  | .adcR8Rm8 => takeMR .adcR8Rm8
  | .adcRRm => takeMR .adcRRm
  | .adcAlImm8 => takeI8 .adcAlImm8
  | .adcAccImm => takeIZ .adcAccImm
  | .adcRm8Imm8 => takeM8 .adcRm8Imm8
  | .adcRmImm => takeMZ .adcRmImm
  | .adcRmImm8 => takeM8 .adcRmImm8
  | .subRm8R8 => takeMR .subRm8R8
  | .subRmR => takeMR .subRmR
  | .subR8Rm8 => takeMR .subR8Rm8
  | .subRRm => takeMR .subRRm
  | .subAlImm8 => takeI8 .subAlImm8
  | .subAccImm => takeIZ .subAccImm
  | .subRm8Imm8 => takeM8 .subRm8Imm8
  | .subRmImm => takeMZ .subRmImm
  | .subRmImm8 => takeM8 .subRmImm8
  | .xorRm8R8 => takeMR .xorRm8R8
  | .xorRmR => takeMR .xorRmR
  | .xorR8Rm8 => takeMR .xorR8Rm8
  | .xorRRm => takeMR .xorRRm
  | .xorAlImm8 => takeI8 .xorAlImm8
  | .xorAccImm => takeIZ .xorAccImm
  | .xorRm8Imm8 => takeM8 .xorRm8Imm8
  | .xorRmImm => takeMZ .xorRmImm
  | .xorRmImm8 => takeM8 .xorRmImm8
  | .cmpRm8R8 => takeMR .cmpRm8R8
  | .cmpRmR => takeMR .cmpRmR
  | .cmpR8Rm8 => takeMR .cmpR8Rm8
  | .cmpRRm => takeMR .cmpRRm
  | .cmpAlImm8 => takeI8 .cmpAlImm8
  | .cmpAccImm => takeIZ .cmpAccImm
  | .cmpRm8Imm8 => takeM8 .cmpRm8Imm8
  | .cmpRmImm => takeMZ .cmpRmImm
  | .cmpRmImm8 => takeM8 .cmpRmImm8
  | .pushR64 => takeO .pushR64
  | .popR64 => takeO .popR64
  | .pushImm32 => takeI32 .pushImm32
  | .pushImm8 => takeI8 .pushImm8
  | .joRel8 => takeI8 .joRel8
  | .jnoRel8 => takeI8 .jnoRel8
  | .jbRel8 => takeI8 .jbRel8
  | .jaeRel8 => takeI8 .jaeRel8
  | .jeRel8 => takeI8 .jeRel8
  | .jneRel8 => takeI8 .jneRel8
  | .jbeRel8 => takeI8 .jbeRel8
  | .jaRel8 => takeI8 .jaRel8
  | .jsRel8 => takeI8 .jsRel8
  | .jnsRel8 => takeI8 .jnsRel8
  | .jpRel8 => takeI8 .jpRel8
  | .jnpRel8 => takeI8 .jnpRel8
  | .jlRel8 => takeI8 .jlRel8
  | .jgeRel8 => takeI8 .jgeRel8
  | .jleRel8 => takeI8 .jleRel8
  | .jgRel8 => takeI8 .jgRel8
  | .testRm8R8 => takeMR .testRm8R8
  | .testRmR => takeMR .testRmR
  | .movRm8R8 => takeMR .movRm8R8
  | .movRmR => takeMR .movRmR
  | .movR8Rm8 => takeMR .movR8Rm8
  | .movRRm => takeMR .movRRm
  | .leaRM => takeMR .leaRM
  | .popRm64 => takeM .popRm64
  | .nop => takeZ0 .nop
  | .repMovsb => takeZ0 .repMovsb
  | .testAlImm8 => takeI8 .testAlImm8
  | .testAccImm => takeIZ .testAccImm
  | .repStosb => takeZ0 .repStosb
  | .repLodsb => takeZ0 .repLodsb
  | .repeScasb => takeZ0 .repeScasb
  | .movR8Imm8 => takeO8 .movR8Imm8
  | .movRImm => takeOV .movRImm
  | .shlRm8Imm8 => takeM8 .shlRm8Imm8
  | .shrRm8Imm8 => takeM8 .shrRm8Imm8
  | .shlRmImm8 => takeM8 .shlRmImm8
  | .shrRmImm8 => takeM8 .shrRmImm8
  | .ret => takeZ0 .ret
  | .movRm8Imm8 => takeM8 .movRm8Imm8
  | .movRmImm => takeMZ .movRmImm
  | .leave => takeZ0 .leave
  | .int3 => takeZ0 .int3
  | .shlRm8One => takeM .shlRm8One
  | .shrRm8One => takeM .shrRm8One
  | .shlRmOne => takeM .shlRmOne
  | .shrRmOne => takeM .shrRmOne
  | .shlRm8Cl => takeM .shlRm8Cl
  | .shrRm8Cl => takeM .shrRm8Cl
  | .shlRmCl => takeM .shlRmCl
  | .shrRmCl => takeM .shrRmCl
  | .jrcxzRel8 => takeI8 .jrcxzRel8
  | .callRel32 => takeI32 .callRel32
  | .jmpRel32 => takeI32 .jmpRel32
  | .jmpRel8 => takeI8 .jmpRel8
  | .testRm8Imm8 => takeM8 .testRm8Imm8
  | .testRmImm => takeMZ .testRmImm
  | .cld => takeZ0 .cld
  | .incRm8 => takeM .incRm8
  | .decRm8 => takeM .decRm8
  | .incRm => takeM .incRm
  | .decRm => takeM .decRm
  | .callRm64 => takeM .callRm64
  | .jmpRm64 => takeM .jmpRm64
  | .pushRm64 => takeM .pushRm64
  | .nopRm => takeM .nopRm
  | .joRel32 => takeI32 .joRel32
  | .jnoRel32 => takeI32 .jnoRel32
  | .jbRel32 => takeI32 .jbRel32
  | .jaeRel32 => takeI32 .jaeRel32
  | .jeRel32 => takeI32 .jeRel32
  | .jneRel32 => takeI32 .jneRel32
  | .jbeRel32 => takeI32 .jbeRel32
  | .jaRel32 => takeI32 .jaRel32
  | .jsRel32 => takeI32 .jsRel32
  | .jnsRel32 => takeI32 .jnsRel32
  | .jpRel32 => takeI32 .jpRel32
  | .jnpRel32 => takeI32 .jnpRel32
  | .jlRel32 => takeI32 .jlRel32
  | .jgeRel32 => takeI32 .jgeRel32
  | .jleRel32 => takeI32 .jleRel32
  | .jgRel32 => takeI32 .jgRel32
  | .movzxRRm8 => takeMR .movzxRRm8
  | .movzxRRm16 => takeMR .movzxRRm16

/-! ## The decoder (R90) -/

/-- The r/m form and the register field of a row's ModRM byte, if the row has one; a row with a digit has no register
there (R96). -/
def takeModrm (r : RowInfo) (modrm : Option Byte) (bs : List Byte) :
    Except Stop (Option Rm × BitVec 3 × List Byte) :=
  match modrm with
  | none => .ok (none, 0, bs)
  | some b => do
    let (rm, bs) ← takeRm b bs
    pure (some rm, if r.digit.isSome then 0 else b.extractLsb' 3 3, bs)

/-- The rest of the parse once the row is known: SIB, displacement, immediate, in that order (R90). -/
def finishParse (p : Prefixes) (op : Byte) (row : Row) (modrm : Option Byte) (bs : List Byte) :
    Except Stop (Instr × List Byte) := do
  let (rm, reg, bs) ← takeModrm row.info modrm bs
  let (imm, bs) ← takeImm row.info.imm (row.info.opsize.width p) bs
  let opreg : BitVec 3 := if row.info.mask = 0xF8 then op.extractLsb' 0 3 else 0
  match row.assemble ⟨p, opreg, reg, rm, imm⟩ with
  | some i => pure (i, bs)
  | none => .error .noRow

/-- Parse one instruction from the front of the bytes, in the order R90 fixes: prefixes, REX, opcode, ModRM if the
opcode's rows have one, row selection, then the rest. -/
def parse (bs : List Byte) : Except Stop (Instr × List Byte) := do
  let (p, bs) := takePrefixes bs
  let (map, op, bs) ← takeOpcode bs
  match Row.candidates map op with
  | [] => .error .noRow
  | r :: rs =>
    if r.info.modrm then
      let (b, bs) ← nextByte bs
      match (r :: rs).find? fun row => row.info.modrmMatches b && row.info.prefixesOk p with
      | some row => finishParse p op row (some b) bs
      | none => .error .noRow
    else
      match (r :: rs).find? fun row => row.info.prefixesOk p with
      | some row => finishParse p op row none bs
      | none => .error .noRow

/-- Decode a window of at most 15 bytes, the length oracle aside: running out of bytes is `Truncated` in a window
shorter than 15 and the no-row outcome in one of 15 (R90, R115; 90_conflicts.md C14). -/
def decodeRow (window : List Byte) : RowResult :=
  match parse (window.take Config.maxLen) with
  | .ok (i, _) => .row i
  | .error .noRow => .noRow
  | .error .outOfBytes => if window.length < Config.maxLen then .truncated else .noRow

/-! ## The encoder (R91) -/

/-- Which row an instruction is of. -/
def Instr.row : Instr → Row
  | .addRm8R8 _ _ _ => .addRm8R8
  | .addRmR _ _ _ => .addRmR
  | .addR8Rm8 _ _ _ => .addR8Rm8
  | .addRRm _ _ _ => .addRRm
  | .addAlImm8 _ _ => .addAlImm8
  | .addAccImm _ _ => .addAccImm
  | .addRm8Imm8 _ _ _ => .addRm8Imm8
  | .addRmImm _ _ _ => .addRmImm
  | .addRmImm8 _ _ _ => .addRmImm8
  | .adcRm8R8 _ _ _ => .adcRm8R8
  | .adcRmR _ _ _ => .adcRmR
  | .adcR8Rm8 _ _ _ => .adcR8Rm8
  | .adcRRm _ _ _ => .adcRRm
  | .adcAlImm8 _ _ => .adcAlImm8
  | .adcAccImm _ _ => .adcAccImm
  | .adcRm8Imm8 _ _ _ => .adcRm8Imm8
  | .adcRmImm _ _ _ => .adcRmImm
  | .adcRmImm8 _ _ _ => .adcRmImm8
  | .subRm8R8 _ _ _ => .subRm8R8
  | .subRmR _ _ _ => .subRmR
  | .subR8Rm8 _ _ _ => .subR8Rm8
  | .subRRm _ _ _ => .subRRm
  | .subAlImm8 _ _ => .subAlImm8
  | .subAccImm _ _ => .subAccImm
  | .subRm8Imm8 _ _ _ => .subRm8Imm8
  | .subRmImm _ _ _ => .subRmImm
  | .subRmImm8 _ _ _ => .subRmImm8
  | .xorRm8R8 _ _ _ => .xorRm8R8
  | .xorRmR _ _ _ => .xorRmR
  | .xorR8Rm8 _ _ _ => .xorR8Rm8
  | .xorRRm _ _ _ => .xorRRm
  | .xorAlImm8 _ _ => .xorAlImm8
  | .xorAccImm _ _ => .xorAccImm
  | .xorRm8Imm8 _ _ _ => .xorRm8Imm8
  | .xorRmImm _ _ _ => .xorRmImm
  | .xorRmImm8 _ _ _ => .xorRmImm8
  | .cmpRm8R8 _ _ _ => .cmpRm8R8
  | .cmpRmR _ _ _ => .cmpRmR
  | .cmpR8Rm8 _ _ _ => .cmpR8Rm8
  | .cmpRRm _ _ _ => .cmpRRm
  | .cmpAlImm8 _ _ => .cmpAlImm8
  | .cmpAccImm _ _ => .cmpAccImm
  | .cmpRm8Imm8 _ _ _ => .cmpRm8Imm8
  | .cmpRmImm _ _ _ => .cmpRmImm
  | .cmpRmImm8 _ _ _ => .cmpRmImm8
  | .pushR64 _ _ => .pushR64
  | .popR64 _ _ => .popR64
  | .pushImm32 _ _ => .pushImm32
  | .pushImm8 _ _ => .pushImm8
  | .joRel8 _ _ => .joRel8
  | .jnoRel8 _ _ => .jnoRel8
  | .jbRel8 _ _ => .jbRel8
  | .jaeRel8 _ _ => .jaeRel8
  | .jeRel8 _ _ => .jeRel8
  | .jneRel8 _ _ => .jneRel8
  | .jbeRel8 _ _ => .jbeRel8
  | .jaRel8 _ _ => .jaRel8
  | .jsRel8 _ _ => .jsRel8
  | .jnsRel8 _ _ => .jnsRel8
  | .jpRel8 _ _ => .jpRel8
  | .jnpRel8 _ _ => .jnpRel8
  | .jlRel8 _ _ => .jlRel8
  | .jgeRel8 _ _ => .jgeRel8
  | .jleRel8 _ _ => .jleRel8
  | .jgRel8 _ _ => .jgRel8
  | .testRm8R8 _ _ _ => .testRm8R8
  | .testRmR _ _ _ => .testRmR
  | .movRm8R8 _ _ _ => .movRm8R8
  | .movRmR _ _ _ => .movRmR
  | .movR8Rm8 _ _ _ => .movR8Rm8
  | .movRRm _ _ _ => .movRRm
  | .leaRM _ _ _ => .leaRM
  | .popRm64 _ _ => .popRm64
  | .nop _ => .nop
  | .repMovsb _ => .repMovsb
  | .testAlImm8 _ _ => .testAlImm8
  | .testAccImm _ _ => .testAccImm
  | .repStosb _ => .repStosb
  | .repLodsb _ => .repLodsb
  | .repeScasb _ => .repeScasb
  | .movR8Imm8 _ _ _ => .movR8Imm8
  | .movRImm _ _ _ => .movRImm
  | .shlRm8Imm8 _ _ _ => .shlRm8Imm8
  | .shrRm8Imm8 _ _ _ => .shrRm8Imm8
  | .shlRmImm8 _ _ _ => .shlRmImm8
  | .shrRmImm8 _ _ _ => .shrRmImm8
  | .ret _ => .ret
  | .movRm8Imm8 _ _ _ => .movRm8Imm8
  | .movRmImm _ _ _ => .movRmImm
  | .leave _ => .leave
  | .int3 _ => .int3
  | .shlRm8One _ _ => .shlRm8One
  | .shrRm8One _ _ => .shrRm8One
  | .shlRmOne _ _ => .shlRmOne
  | .shrRmOne _ _ => .shrRmOne
  | .shlRm8Cl _ _ => .shlRm8Cl
  | .shrRm8Cl _ _ => .shrRm8Cl
  | .shlRmCl _ _ => .shlRmCl
  | .shrRmCl _ _ => .shrRmCl
  | .jrcxzRel8 _ _ => .jrcxzRel8
  | .callRel32 _ _ => .callRel32
  | .jmpRel32 _ _ => .jmpRel32
  | .jmpRel8 _ _ => .jmpRel8
  | .testRm8Imm8 _ _ _ => .testRm8Imm8
  | .testRmImm _ _ _ => .testRmImm
  | .cld _ => .cld
  | .incRm8 _ _ => .incRm8
  | .decRm8 _ _ => .decRm8
  | .incRm _ _ => .incRm
  | .decRm _ _ => .decRm
  | .callRm64 _ _ => .callRm64
  | .jmpRm64 _ _ => .jmpRm64
  | .pushRm64 _ _ => .pushRm64
  | .nopRm _ _ => .nopRm
  | .joRel32 _ _ => .joRel32
  | .jnoRel32 _ _ => .jnoRel32
  | .jbRel32 _ _ => .jbRel32
  | .jaeRel32 _ _ => .jaeRel32
  | .jeRel32 _ _ => .jeRel32
  | .jneRel32 _ _ => .jneRel32
  | .jbeRel32 _ _ => .jbeRel32
  | .jaRel32 _ _ => .jaRel32
  | .jsRel32 _ _ => .jsRel32
  | .jnsRel32 _ _ => .jnsRel32
  | .jpRel32 _ _ => .jpRel32
  | .jnpRel32 _ _ => .jnpRel32
  | .jlRel32 _ _ => .jlRel32
  | .jgeRel32 _ _ => .jgeRel32
  | .jleRel32 _ _ => .jleRel32
  | .jgRel32 _ _ => .jgRel32
  | .movzxRRm8 _ _ _ => .movzxRRm8
  | .movzxRRm16 _ _ _ => .movzxRRm16

def giveMR (p : Prefixes) (reg : BitVec 3) (rm : Rm) : Pieces := { prefixes := p, reg := reg, rm := some rm }
def giveM (p : Prefixes) (rm : Rm) : Pieces := { prefixes := p, rm := some rm }
def giveM8 (p : Prefixes) (rm : Rm) (v : BitVec 8) : Pieces := { prefixes := p, rm := some rm, imm := .i8 v }

/-- The bytes of an `iz` immediate. -/
def ImmZ.toImm : ImmZ → Imm
  | .i16 v => .i16 v
  | .i32 v => .i32 v

/-- The bytes of an `iv` immediate. -/
def ImmV.toImm : ImmV → Imm
  | .i16 v => .i16 v
  | .i32 v => .i32 v
  | .i64 v => .i64 v

def giveMZ (p : Prefixes) (rm : Rm) (v : ImmZ) : Pieces := { prefixes := p, rm := some rm, imm := v.toImm }
def giveI8 (p : Prefixes) (v : BitVec 8) : Pieces := { prefixes := p, imm := .i8 v }
def giveI32 (p : Prefixes) (v : BitVec 32) : Pieces := { prefixes := p, imm := .i32 v }
def giveIZ (p : Prefixes) (v : ImmZ) : Pieces := { prefixes := p, imm := v.toImm }
def giveO (p : Prefixes) (opreg : BitVec 3) : Pieces := { prefixes := p, opreg := opreg }
def giveO8 (p : Prefixes) (opreg : BitVec 3) (v : BitVec 8) : Pieces :=
  { prefixes := p, opreg := opreg, imm := .i8 v }
def giveOV (p : Prefixes) (opreg : BitVec 3) (v : ImmV) : Pieces :=
  { prefixes := p, opreg := opreg, imm := v.toImm }
def giveZ0 (p : Prefixes) : Pieces := { prefixes := p }

/-- The parts of an instruction that its row does not fix. -/
def Instr.pieces : Instr → Pieces
  | .addRm8R8 p reg rm => giveMR p reg rm
  | .addRmR p reg rm => giveMR p reg rm
  | .addR8Rm8 p reg rm => giveMR p reg rm
  | .addRRm p reg rm => giveMR p reg rm
  | .addAlImm8 p imm => giveI8 p imm
  | .addAccImm p imm => giveIZ p imm
  | .addRm8Imm8 p rm imm => giveM8 p rm imm
  | .addRmImm p rm imm => giveMZ p rm imm
  | .addRmImm8 p rm imm => giveM8 p rm imm
  | .adcRm8R8 p reg rm => giveMR p reg rm
  | .adcRmR p reg rm => giveMR p reg rm
  | .adcR8Rm8 p reg rm => giveMR p reg rm
  | .adcRRm p reg rm => giveMR p reg rm
  | .adcAlImm8 p imm => giveI8 p imm
  | .adcAccImm p imm => giveIZ p imm
  | .adcRm8Imm8 p rm imm => giveM8 p rm imm
  | .adcRmImm p rm imm => giveMZ p rm imm
  | .adcRmImm8 p rm imm => giveM8 p rm imm
  | .subRm8R8 p reg rm => giveMR p reg rm
  | .subRmR p reg rm => giveMR p reg rm
  | .subR8Rm8 p reg rm => giveMR p reg rm
  | .subRRm p reg rm => giveMR p reg rm
  | .subAlImm8 p imm => giveI8 p imm
  | .subAccImm p imm => giveIZ p imm
  | .subRm8Imm8 p rm imm => giveM8 p rm imm
  | .subRmImm p rm imm => giveMZ p rm imm
  | .subRmImm8 p rm imm => giveM8 p rm imm
  | .xorRm8R8 p reg rm => giveMR p reg rm
  | .xorRmR p reg rm => giveMR p reg rm
  | .xorR8Rm8 p reg rm => giveMR p reg rm
  | .xorRRm p reg rm => giveMR p reg rm
  | .xorAlImm8 p imm => giveI8 p imm
  | .xorAccImm p imm => giveIZ p imm
  | .xorRm8Imm8 p rm imm => giveM8 p rm imm
  | .xorRmImm p rm imm => giveMZ p rm imm
  | .xorRmImm8 p rm imm => giveM8 p rm imm
  | .cmpRm8R8 p reg rm => giveMR p reg rm
  | .cmpRmR p reg rm => giveMR p reg rm
  | .cmpR8Rm8 p reg rm => giveMR p reg rm
  | .cmpRRm p reg rm => giveMR p reg rm
  | .cmpAlImm8 p imm => giveI8 p imm
  | .cmpAccImm p imm => giveIZ p imm
  | .cmpRm8Imm8 p rm imm => giveM8 p rm imm
  | .cmpRmImm p rm imm => giveMZ p rm imm
  | .cmpRmImm8 p rm imm => giveM8 p rm imm
  | .pushR64 p opreg => giveO p opreg
  | .popR64 p opreg => giveO p opreg
  | .pushImm32 p imm => giveI32 p imm
  | .pushImm8 p imm => giveI8 p imm
  | .joRel8 p rel => giveI8 p rel
  | .jnoRel8 p rel => giveI8 p rel
  | .jbRel8 p rel => giveI8 p rel
  | .jaeRel8 p rel => giveI8 p rel
  | .jeRel8 p rel => giveI8 p rel
  | .jneRel8 p rel => giveI8 p rel
  | .jbeRel8 p rel => giveI8 p rel
  | .jaRel8 p rel => giveI8 p rel
  | .jsRel8 p rel => giveI8 p rel
  | .jnsRel8 p rel => giveI8 p rel
  | .jpRel8 p rel => giveI8 p rel
  | .jnpRel8 p rel => giveI8 p rel
  | .jlRel8 p rel => giveI8 p rel
  | .jgeRel8 p rel => giveI8 p rel
  | .jleRel8 p rel => giveI8 p rel
  | .jgRel8 p rel => giveI8 p rel
  | .testRm8R8 p reg rm => giveMR p reg rm
  | .testRmR p reg rm => giveMR p reg rm
  | .movRm8R8 p reg rm => giveMR p reg rm
  | .movRmR p reg rm => giveMR p reg rm
  | .movR8Rm8 p reg rm => giveMR p reg rm
  | .movRRm p reg rm => giveMR p reg rm
  | .leaRM p reg rm => giveMR p reg rm
  | .popRm64 p rm => giveM p rm
  | .nop p => giveZ0 p
  | .repMovsb p => giveZ0 p
  | .testAlImm8 p imm => giveI8 p imm
  | .testAccImm p imm => giveIZ p imm
  | .repStosb p => giveZ0 p
  | .repLodsb p => giveZ0 p
  | .repeScasb p => giveZ0 p
  | .movR8Imm8 p opreg imm => giveO8 p opreg imm
  | .movRImm p opreg imm => giveOV p opreg imm
  | .shlRm8Imm8 p rm imm => giveM8 p rm imm
  | .shrRm8Imm8 p rm imm => giveM8 p rm imm
  | .shlRmImm8 p rm imm => giveM8 p rm imm
  | .shrRmImm8 p rm imm => giveM8 p rm imm
  | .ret p => giveZ0 p
  | .movRm8Imm8 p rm imm => giveM8 p rm imm
  | .movRmImm p rm imm => giveMZ p rm imm
  | .leave p => giveZ0 p
  | .int3 p => giveZ0 p
  | .shlRm8One p rm => giveM p rm
  | .shrRm8One p rm => giveM p rm
  | .shlRmOne p rm => giveM p rm
  | .shrRmOne p rm => giveM p rm
  | .shlRm8Cl p rm => giveM p rm
  | .shrRm8Cl p rm => giveM p rm
  | .shlRmCl p rm => giveM p rm
  | .shrRmCl p rm => giveM p rm
  | .jrcxzRel8 p rel => giveI8 p rel
  | .callRel32 p rel => giveI32 p rel
  | .jmpRel32 p rel => giveI32 p rel
  | .jmpRel8 p rel => giveI8 p rel
  | .testRm8Imm8 p rm imm => giveM8 p rm imm
  | .testRmImm p rm imm => giveMZ p rm imm
  | .cld p => giveZ0 p
  | .incRm8 p rm => giveM p rm
  | .decRm8 p rm => giveM p rm
  | .incRm p rm => giveM p rm
  | .decRm p rm => giveM p rm
  | .callRm64 p rm => giveM p rm
  | .jmpRm64 p rm => giveM p rm
  | .pushRm64 p rm => giveM p rm
  | .nopRm p rm => giveM p rm
  | .joRel32 p rel => giveI32 p rel
  | .jnoRel32 p rel => giveI32 p rel
  | .jbRel32 p rel => giveI32 p rel
  | .jaeRel32 p rel => giveI32 p rel
  | .jeRel32 p rel => giveI32 p rel
  | .jneRel32 p rel => giveI32 p rel
  | .jbeRel32 p rel => giveI32 p rel
  | .jaRel32 p rel => giveI32 p rel
  | .jsRel32 p rel => giveI32 p rel
  | .jnsRel32 p rel => giveI32 p rel
  | .jpRel32 p rel => giveI32 p rel
  | .jnpRel32 p rel => giveI32 p rel
  | .jlRel32 p rel => giveI32 p rel
  | .jgeRel32 p rel => giveI32 p rel
  | .jleRel32 p rel => giveI32 p rel
  | .jgRel32 p rel => giveI32 p rel
  | .movzxRRm8 p reg rm => giveMR p reg rm
  | .movzxRRm16 p reg rm => giveMR p reg rm

/-- The prefix bytes and the REX byte (R91). -/
def Prefixes.bytes (p : Prefixes) : List Byte :=
  p.legacy.map LegacyPrefix.byte ++ (p.rex.map Rex.byte).toList

/-- The byte that selects a map (R94). -/
def OpMap.escape : OpMap → List Byte
  | .oneByte => []
  | .twoByte => [0x0F#8]

/-- The last opcode byte of a row; a row whose mask leaves three bits free has a register number there (R94, R120). -/
def RowInfo.opcodeByte (r : RowInfo) (opreg : BitVec 3) : Byte :=
  BitVec.ofNat 8 (if r.mask = 0xF8 then r.opcode + opreg.toNat else r.opcode)

/-- The opcode bytes (R94). -/
def RowInfo.opcodeBytes (r : RowInfo) (opreg : BitVec 3) : List Byte := r.map.escape ++ [r.opcodeByte opreg]

/-- ModRM's `mod` for a displacement (R100, R101). -/
def Disp.mod : Disp → BitVec 2
  | .none => 0
  | .d8 _ => 1
  | .d32 _ => 2

/-- The bytes of a displacement (R103). -/
def Disp.bytes : Disp → List Byte
  | .none => []
  | .d8 v => toLE 1 v.toNat
  | .d32 v => toLE 4 v.toNat

/-- The ModRM byte, the SIB byte and the displacement of an r/m form, with the ModRM `reg` field (R96 to R103). -/
def Rm.bytes (reg : BitVec 3) : Rm → List Byte
  | .reg rm => [(3#2 ++ reg ++ rm : BitVec 8)]
  | .ripRel d => (0#2 ++ reg ++ 5#3 : BitVec 8) :: toLE 4 d.toNat
  | .base rm d => (d.mod ++ reg ++ rm : BitVec 8) :: d.bytes
  | .sib ss idx bs d => (d.mod ++ reg ++ 4#3 : BitVec 8) :: (ss ++ idx ++ bs : BitVec 8) :: d.bytes
  | .sibNoBase ss idx d => (0#2 ++ reg ++ 4#3 : BitVec 8) :: (ss ++ idx ++ 5#3 : BitVec 8) :: toLE 4 d.toNat

/-- The bytes of an immediate (R118). -/
def Imm.bytes : Imm → List Byte
  | .none => []
  | .i8 v => toLE 1 v.toNat
  | .i16 v => toLE 2 v.toNat
  | .i32 v => toLE 4 v.toNat
  | .i64 v => toLE 8 v.toNat

/-- The ModRM `reg` field: the row's digit, or the register number (R96). -/
def RowInfo.regField (r : RowInfo) (reg : BitVec 3) : BitVec 3 :=
  match r.digit with
  | some d => BitVec.ofNat 3 d
  | none => reg

/-- The ModRM byte and what follows it, for a row that has one (R91). -/
def RowInfo.rmBytes (r : RowInfo) (reg : BitVec 3) : Option Rm → List Byte
  | none => []
  | some rm => rm.bytes (r.regField reg)

/-- The bytes of a row with its parts (R91). -/
def encodePieces (r : RowInfo) (q : Pieces) : List Byte :=
  q.prefixes.bytes ++ r.opcodeBytes q.opreg ++ r.rmBytes q.reg q.rm ++ q.imm.bytes

/-- The bytes of an instruction (R91). -/
def encode (i : Instr) : List Byte := encodePieces i.row.info i.pieces

/-- `ins.length`: the count of the instruction's bytes (R114). -/
def Instr.length (i : Instr) : Nat := (encode i).length

/-! ## Operands (R97 to R104, R118 to R120) -/

/-- A register number from a REX bit and a three-bit field (R97, R98, R101, R120). -/
def regNumber (hi : Bool) (lo : BitVec 3) : Fin 16 :=
  ⟨(if hi then 8 else 0) + lo.toNat, by have := lo.isLt; split <;> omega⟩

/-- The register operand with number `n` at a width; at 8 bits, 4 to 7 without a REX byte are ah, ch, dh, bh (R99). -/
def gprOf (hasRex : Bool) (n : Fin 16) : Width → Gpr
  | .w8 =>
    if hasRex = false ∧ 4 ≤ n.val ∧ n.val ≤ 7 then ⟨⟨n.val - 4, by omega⟩, .high8⟩ else ⟨n, .low8⟩
  | .w16 => ⟨n, .w16⟩
  | .w32 => ⟨n, .w32⟩
  | .w64 => ⟨n, .w64⟩

/-- The scale of the SIB `ss` bits (R101). -/
def scaleOf (ss : BitVec 2) : Scale :=
  match ss.toNat with
  | 0 => .s1
  | 1 => .s2
  | 2 => .s4
  | _ => .s8

/-- The index of the SIB `idx` bits: none for 100 without REX.X (R101). -/
def indexOf (p : Prefixes) (ss : BitVec 2) (idx : BitVec 3) : Option (Fin 16 × Scale) :=
  if p.rexX = false ∧ idx = 4 then none else some (regNumber p.rexX idx, scaleOf ss)

/-- The signed 64-bit displacement (R103). -/
def Disp.value : Disp → BitVec 64
  | .none => 0
  | .d8 v => v.signExtend 64
  | .d32 v => v.signExtend 64

/-- The r/m operand at a width (R97, R100 to R104). -/
def rmOperand (p : Prefixes) (w : Width) : Rm → Operand
  | .reg rm => .reg (gprOf p.hasRex (regNumber p.rexB rm) w)
  | .ripRel d => .mem ⟨.rip, none, d.signExtend 64, p.segment, w⟩
  | .base rm d => .mem ⟨.gpr (regNumber p.rexB rm), none, d.value, p.segment, w⟩
  | .sib ss idx bs d => .mem ⟨.gpr (regNumber p.rexB bs), indexOf p ss idx, d.value, p.segment, w⟩
  | .sibNoBase ss idx d => .mem ⟨.absent, indexOf p ss idx, d.signExtend 64, p.segment, w⟩

/-- The ModRM `reg` register at a width (R98). -/
def regOperand (p : Prefixes) (w : Width) (reg : BitVec 3) : Operand :=
  .reg (gprOf p.hasRex (regNumber p.rexR reg) w)

/-- The register in the opcode at a width (R120). -/
def opregOperand (p : Prefixes) (w : Width) (opreg : BitVec 3) : Operand :=
  .reg (gprOf p.hasRex (regNumber p.rexB opreg) w)

/-- The accumulator: slot 0 at a width (R120). -/
def accOperand : Width → Operand
  | .w8 => .reg ⟨0, .low8⟩
  | .w16 => .reg ⟨0, .w16⟩
  | .w32 => .reg ⟨0, .w32⟩
  | .w64 => .reg ⟨0, .w64⟩

/-- cl, the count of the MC rows (R116). -/
def clOperand : Operand := .reg ⟨1, .low8⟩

/-- The signed 64-bit value of an `iz` immediate (R118). -/
def ImmZ.value : ImmZ → BitVec 64
  | .i16 v => v.signExtend 64
  | .i32 v => v.signExtend 64

/-- The signed 64-bit value of an `iv` immediate (R118). -/
def ImmV.value : ImmV → BitVec 64
  | .i16 v => v.signExtend 64
  | .i32 v => v.signExtend 64
  | .i64 v => v

/-- The absolute target of a relative displacement (R119). -/
def relTarget (addr : Word) (len : Nat) (rel : BitVec 64) : Word := addr + BitVec.ofNat 64 len + rel

/-! ## The classifier (R128 to R130) -/

/-- The kind of an instruction at an address, with its operands destination first (R116, R129, R130). -/
def Instr.kind (i : Instr) (addr : Word) : InstructionType :=
  match i with
  | .addRm8R8 p reg rm => .add (rmOperand p .w8 rm) (regOperand p .w8 reg)
  | .addRmR p reg rm => .add (rmOperand p p.vWidth rm) (regOperand p p.vWidth reg)
  | .addR8Rm8 p reg rm => .add (regOperand p .w8 reg) (rmOperand p .w8 rm)
  | .addRRm p reg rm => .add (regOperand p p.vWidth reg) (rmOperand p p.vWidth rm)
  | .addAlImm8 _ imm => .add (accOperand .w8) (.imm (imm.signExtend 64))
  | .addAccImm p imm => .add (accOperand p.vWidth) (.imm imm.value)
  | .addRm8Imm8 p rm imm => .add (rmOperand p .w8 rm) (.imm (imm.signExtend 64))
  | .addRmImm p rm imm => .add (rmOperand p p.vWidth rm) (.imm imm.value)
  | .addRmImm8 p rm imm => .add (rmOperand p p.vWidth rm) (.imm (imm.signExtend 64))
  | .adcRm8R8 p reg rm => .adc (rmOperand p .w8 rm) (regOperand p .w8 reg)
  | .adcRmR p reg rm => .adc (rmOperand p p.vWidth rm) (regOperand p p.vWidth reg)
  | .adcR8Rm8 p reg rm => .adc (regOperand p .w8 reg) (rmOperand p .w8 rm)
  | .adcRRm p reg rm => .adc (regOperand p p.vWidth reg) (rmOperand p p.vWidth rm)
  | .adcAlImm8 _ imm => .adc (accOperand .w8) (.imm (imm.signExtend 64))
  | .adcAccImm p imm => .adc (accOperand p.vWidth) (.imm imm.value)
  | .adcRm8Imm8 p rm imm => .adc (rmOperand p .w8 rm) (.imm (imm.signExtend 64))
  | .adcRmImm p rm imm => .adc (rmOperand p p.vWidth rm) (.imm imm.value)
  | .adcRmImm8 p rm imm => .adc (rmOperand p p.vWidth rm) (.imm (imm.signExtend 64))
  | .subRm8R8 p reg rm => .sub (rmOperand p .w8 rm) (regOperand p .w8 reg)
  | .subRmR p reg rm => .sub (rmOperand p p.vWidth rm) (regOperand p p.vWidth reg)
  | .subR8Rm8 p reg rm => .sub (regOperand p .w8 reg) (rmOperand p .w8 rm)
  | .subRRm p reg rm => .sub (regOperand p p.vWidth reg) (rmOperand p p.vWidth rm)
  | .subAlImm8 _ imm => .sub (accOperand .w8) (.imm (imm.signExtend 64))
  | .subAccImm p imm => .sub (accOperand p.vWidth) (.imm imm.value)
  | .subRm8Imm8 p rm imm => .sub (rmOperand p .w8 rm) (.imm (imm.signExtend 64))
  | .subRmImm p rm imm => .sub (rmOperand p p.vWidth rm) (.imm imm.value)
  | .subRmImm8 p rm imm => .sub (rmOperand p p.vWidth rm) (.imm (imm.signExtend 64))
  | .xorRm8R8 p reg rm => .xor (rmOperand p .w8 rm) (regOperand p .w8 reg)
  | .xorRmR p reg rm => .xor (rmOperand p p.vWidth rm) (regOperand p p.vWidth reg)
  | .xorR8Rm8 p reg rm => .xor (regOperand p .w8 reg) (rmOperand p .w8 rm)
  | .xorRRm p reg rm => .xor (regOperand p p.vWidth reg) (rmOperand p p.vWidth rm)
  | .xorAlImm8 _ imm => .xor (accOperand .w8) (.imm (imm.signExtend 64))
  | .xorAccImm p imm => .xor (accOperand p.vWidth) (.imm imm.value)
  | .xorRm8Imm8 p rm imm => .xor (rmOperand p .w8 rm) (.imm (imm.signExtend 64))
  | .xorRmImm p rm imm => .xor (rmOperand p p.vWidth rm) (.imm imm.value)
  | .xorRmImm8 p rm imm => .xor (rmOperand p p.vWidth rm) (.imm (imm.signExtend 64))
  | .cmpRm8R8 p reg rm => .cmp (rmOperand p .w8 rm) (regOperand p .w8 reg)
  | .cmpRmR p reg rm => .cmp (rmOperand p p.vWidth rm) (regOperand p p.vWidth reg)
  | .cmpR8Rm8 p reg rm => .cmp (regOperand p .w8 reg) (rmOperand p .w8 rm)
  | .cmpRRm p reg rm => .cmp (regOperand p p.vWidth reg) (rmOperand p p.vWidth rm)
  | .cmpAlImm8 _ imm => .cmp (accOperand .w8) (.imm (imm.signExtend 64))
  | .cmpAccImm p imm => .cmp (accOperand p.vWidth) (.imm imm.value)
  | .cmpRm8Imm8 p rm imm => .cmp (rmOperand p .w8 rm) (.imm (imm.signExtend 64))
  | .cmpRmImm p rm imm => .cmp (rmOperand p p.vWidth rm) (.imm imm.value)
  | .cmpRmImm8 p rm imm => .cmp (rmOperand p p.vWidth rm) (.imm (imm.signExtend 64))
  | .pushR64 p opreg => .push (opregOperand p .w64 opreg)
  | .popR64 p opreg => .pop (opregOperand p .w64 opreg)
  | .pushImm32 _ imm => .push (.imm (imm.signExtend 64))
  | .pushImm8 _ imm => .push (.imm (imm.signExtend 64))
  | .joRel8 p rel => .conditionalJump .o (relTarget addr (Instr.joRel8 p rel).length (rel.signExtend 64))
  | .jnoRel8 p rel => .conditionalJump .no (relTarget addr (Instr.jnoRel8 p rel).length (rel.signExtend 64))
  | .jbRel8 p rel => .conditionalJump .b (relTarget addr (Instr.jbRel8 p rel).length (rel.signExtend 64))
  | .jaeRel8 p rel => .conditionalJump .ae (relTarget addr (Instr.jaeRel8 p rel).length (rel.signExtend 64))
  | .jeRel8 p rel => .conditionalJump .e (relTarget addr (Instr.jeRel8 p rel).length (rel.signExtend 64))
  | .jneRel8 p rel => .conditionalJump .ne (relTarget addr (Instr.jneRel8 p rel).length (rel.signExtend 64))
  | .jbeRel8 p rel => .conditionalJump .be (relTarget addr (Instr.jbeRel8 p rel).length (rel.signExtend 64))
  | .jaRel8 p rel => .conditionalJump .a (relTarget addr (Instr.jaRel8 p rel).length (rel.signExtend 64))
  | .jsRel8 p rel => .conditionalJump .s (relTarget addr (Instr.jsRel8 p rel).length (rel.signExtend 64))
  | .jnsRel8 p rel => .conditionalJump .ns (relTarget addr (Instr.jnsRel8 p rel).length (rel.signExtend 64))
  | .jpRel8 p rel => .conditionalJump .p (relTarget addr (Instr.jpRel8 p rel).length (rel.signExtend 64))
  | .jnpRel8 p rel => .conditionalJump .np (relTarget addr (Instr.jnpRel8 p rel).length (rel.signExtend 64))
  | .jlRel8 p rel => .conditionalJump .l (relTarget addr (Instr.jlRel8 p rel).length (rel.signExtend 64))
  | .jgeRel8 p rel => .conditionalJump .ge (relTarget addr (Instr.jgeRel8 p rel).length (rel.signExtend 64))
  | .jleRel8 p rel => .conditionalJump .le (relTarget addr (Instr.jleRel8 p rel).length (rel.signExtend 64))
  | .jgRel8 p rel => .conditionalJump .g (relTarget addr (Instr.jgRel8 p rel).length (rel.signExtend 64))
  | .testRm8R8 p reg rm => .test (rmOperand p .w8 rm) (regOperand p .w8 reg)
  | .testRmR p reg rm => .test (rmOperand p p.vWidth rm) (regOperand p p.vWidth reg)
  | .movRm8R8 p reg rm => .mov (rmOperand p .w8 rm) (regOperand p .w8 reg)
  | .movRmR p reg rm => .mov (rmOperand p p.vWidth rm) (regOperand p p.vWidth reg)
  | .movR8Rm8 p reg rm => .mov (regOperand p .w8 reg) (rmOperand p .w8 rm)
  | .movRRm p reg rm => .mov (regOperand p p.vWidth reg) (rmOperand p p.vWidth rm)
  | .leaRM p reg rm => .lea (regOperand p p.vWidth reg) (rmOperand p p.vWidth rm)
  | .popRm64 p rm => .pop (rmOperand p .w64 rm)
  | .nop _ => .nop
  | .repMovsb _ => .rep .mov
  | .testAlImm8 _ imm => .test (accOperand .w8) (.imm (imm.signExtend 64))
  | .testAccImm p imm => .test (accOperand p.vWidth) (.imm imm.value)
  | .repStosb _ => .rep .stos
  | .repLodsb _ => .rep .lods
  | .repeScasb _ => .rep .scas
  | .movR8Imm8 p opreg imm => .mov (opregOperand p .w8 opreg) (.imm (imm.signExtend 64))
  | .movRImm p opreg imm => .mov (opregOperand p p.vWidth opreg) (.imm imm.value)
  | .shlRm8Imm8 p rm imm => .shl (rmOperand p .w8 rm) (.imm (imm.zeroExtend 64))
  | .shrRm8Imm8 p rm imm => .shr (rmOperand p .w8 rm) (.imm (imm.zeroExtend 64))
  | .shlRmImm8 p rm imm => .shl (rmOperand p p.vWidth rm) (.imm (imm.zeroExtend 64))
  | .shrRmImm8 p rm imm => .shr (rmOperand p p.vWidth rm) (.imm (imm.zeroExtend 64))
  | .ret _ => .ret
  | .movRm8Imm8 p rm imm => .mov (rmOperand p .w8 rm) (.imm (imm.signExtend 64))
  | .movRmImm p rm imm => .mov (rmOperand p p.vWidth rm) (.imm imm.value)
  | .leave _ => .leave
  | .int3 _ => .int3
  | .shlRm8One p rm => .shl (rmOperand p .w8 rm) (.imm 1)
  | .shrRm8One p rm => .shr (rmOperand p .w8 rm) (.imm 1)
  | .shlRmOne p rm => .shl (rmOperand p p.vWidth rm) (.imm 1)
  | .shrRmOne p rm => .shr (rmOperand p p.vWidth rm) (.imm 1)
  | .shlRm8Cl p rm => .shl (rmOperand p .w8 rm) clOperand
  | .shrRm8Cl p rm => .shr (rmOperand p .w8 rm) clOperand
  | .shlRmCl p rm => .shl (rmOperand p p.vWidth rm) clOperand
  | .shrRmCl p rm => .shr (rmOperand p p.vWidth rm) clOperand
  | .jrcxzRel8 p rel => .conditionalJump .cxz (relTarget addr (Instr.jrcxzRel8 p rel).length (rel.signExtend 64))
  | .callRel32 p rel => .call (.imm (relTarget addr (Instr.callRel32 p rel).length (rel.signExtend 64)))
  | .jmpRel32 p rel => .unconditionalJump (.imm (relTarget addr (Instr.jmpRel32 p rel).length (rel.signExtend 64)))
  | .jmpRel8 p rel => .unconditionalJump (.imm (relTarget addr (Instr.jmpRel8 p rel).length (rel.signExtend 64)))
  | .testRm8Imm8 p rm imm => .test (rmOperand p .w8 rm) (.imm (imm.signExtend 64))
  | .testRmImm p rm imm => .test (rmOperand p p.vWidth rm) (.imm imm.value)
  | .cld _ => .cld
  | .incRm8 p rm => .inc (rmOperand p .w8 rm)
  | .decRm8 p rm => .dec (rmOperand p .w8 rm)
  | .incRm p rm => .inc (rmOperand p p.vWidth rm)
  | .decRm p rm => .dec (rmOperand p p.vWidth rm)
  | .callRm64 p rm => .call (rmOperand p .w64 rm)
  | .jmpRm64 p rm => .unconditionalJump (rmOperand p .w64 rm)
  | .pushRm64 p rm => .push (rmOperand p .w64 rm)
  | .nopRm _ _ => .nop
  | .joRel32 p rel => .conditionalJump .o (relTarget addr (Instr.joRel32 p rel).length (rel.signExtend 64))
  | .jnoRel32 p rel => .conditionalJump .no (relTarget addr (Instr.jnoRel32 p rel).length (rel.signExtend 64))
  | .jbRel32 p rel => .conditionalJump .b (relTarget addr (Instr.jbRel32 p rel).length (rel.signExtend 64))
  | .jaeRel32 p rel => .conditionalJump .ae (relTarget addr (Instr.jaeRel32 p rel).length (rel.signExtend 64))
  | .jeRel32 p rel => .conditionalJump .e (relTarget addr (Instr.jeRel32 p rel).length (rel.signExtend 64))
  | .jneRel32 p rel => .conditionalJump .ne (relTarget addr (Instr.jneRel32 p rel).length (rel.signExtend 64))
  | .jbeRel32 p rel => .conditionalJump .be (relTarget addr (Instr.jbeRel32 p rel).length (rel.signExtend 64))
  | .jaRel32 p rel => .conditionalJump .a (relTarget addr (Instr.jaRel32 p rel).length (rel.signExtend 64))
  | .jsRel32 p rel => .conditionalJump .s (relTarget addr (Instr.jsRel32 p rel).length (rel.signExtend 64))
  | .jnsRel32 p rel => .conditionalJump .ns (relTarget addr (Instr.jnsRel32 p rel).length (rel.signExtend 64))
  | .jpRel32 p rel => .conditionalJump .p (relTarget addr (Instr.jpRel32 p rel).length (rel.signExtend 64))
  | .jnpRel32 p rel => .conditionalJump .np (relTarget addr (Instr.jnpRel32 p rel).length (rel.signExtend 64))
  | .jlRel32 p rel => .conditionalJump .l (relTarget addr (Instr.jlRel32 p rel).length (rel.signExtend 64))
  | .jgeRel32 p rel => .conditionalJump .ge (relTarget addr (Instr.jgeRel32 p rel).length (rel.signExtend 64))
  | .jleRel32 p rel => .conditionalJump .le (relTarget addr (Instr.jleRel32 p rel).length (rel.signExtend 64))
  | .jgRel32 p rel => .conditionalJump .g (relTarget addr (Instr.jgRel32 p rel).length (rel.signExtend 64))
  | .movzxRRm8 p reg rm => .movzx (regOperand p p.vWidth reg) (rmOperand p .w8 rm)
  | .movzxRRm16 p reg rm => .movzx (regOperand p p.vWidth reg) (rmOperand p .w16 rm)

/-- The decoded record of `n` bytes of the window (10_state.md R35). -/
def mkInstruction (address : Word) (window : List Byte) (n : Nat) (kind : InstructionType) : Instruction :=
  ⟨address, n, Config.mnemonicText address (window.take n), Config.operandText address (window.take n), kind⟩

/-- `decode(window, address)` (R90, R132): with no row, the length oracle gives an `Invalid` instruction its length,
or the result is `Undecodable`. -/
def decode (window : List Byte) (address : Word) : DecodeResult :=
  match decodeRow window with
  | .row i => .decoded (mkInstruction address window i.length (i.kind address))
  | .noRow =>
    match Config.extLen (window.take Config.maxLen) with
    | some n => .decoded (mkInstruction address window n .invalid)
    | none => .undecodable
  | .truncated => .truncated

/-! ## The opcode table's own words -/

/-- The bytes of a word numbered as opcode_table.json numbers it, zeros up to the longest instruction: the first byte
is bits 7..0 (one byte is the machine's unit, R91). -/
def tableBytes (nbits w : Nat) : List Byte := toLE Config.maxLen (w % 2 ^ nbits)

/-- The instruction the decoder reads from such a word. -/
def decodeTableWord (nbits w : Nat) : Option Instr :=
  match decodeRow (tableBytes nbits w) with
  | .row i => some i
  | _ => none

end Sys2Proof
end

