-- ==== Sys2Proof/Machine/State.lean ====
section
/-! DEFINITION. The machine's state, its faults and its refusals. -/

namespace Sys2Proof.Machine

/-- The bytes of the bus as (address, byte) pairs: addresses strictly rising, no entry equal to what an unlisted
address reads as. An address belongs to at most one region, so one list holds the bytes of all regions (10_state.md
R34). DESIGN CHOICE, log entries 1 and 8. -/
abbrev Memory := List Host.Cell

/-- One memory region without its bytes: the range [startAddr, endAddr), the module name and the two tags, which no
access checks (10_state.md R34, 20_memory.md R72). -/
structure Region where
  startAddr : Word
  endAddr : Word
  name : Option String
  readable : Bool
  executable : Bool
  deriving DecidableEq, Repr

/-- The bus: its regions and their bytes (10_state.md R33). -/
structure Bus where
  regions : List Region
  cells : Memory
  deriving DecidableEq, Repr

/-- The decoder's stream (10_state.md R40): `source` holds the bytes the byte source will still deliver, `address` is
that of the next undecoded byte, `buffer` the bytes of the current fill not yet decoded, `leftover` the tail carried into
the next fill. -/
structure Stream where
  source : List Byte
  address : Word
  chunk : Nat
  buffer : List Byte
  leftover : List Byte
  average : Nat
  queue : List Instruction
  deriving DecidableEq, Repr

/-- All the state the spec gives the machine (10_state.md), and `draws`, the model's own count of the free bits drawn
so far (log entry 3). -/
structure State where
  regs : Vector Word 16
  rip : Word
  flags : Word
  bus : Bus
  stream : Stream
  draws : Nat
  deriving DecidableEq, Repr

/-- What an access was for (20_memory.md R62). -/
inductive AccessKind where
  | read | write | fetch
  deriving DecidableEq, Repr

/-- Why a fetch or an operand access failed: BusFault, SegmentFault or OperandFault without the state it leaves. -/
inductive AccessError where
  | bus (addr : Word) (span : Nat) (kind : AccessKind)
  | segment (s : Seg)
  | operand
  deriving DecidableEq, Repr

/-- The faults a step can return (60_exceptions.md R270). Each carries `left`, the architectural state the faulting step
left, which the host may inspect (R272, R283): earlier effects of the instruction stay, the pc is not advanced. -/
inductive Fault where
  /-- Code 1. Raised by fetch and by every access of memory when no region holds the whole span. Safe: the spec's own. -/
  | busFault (addr : Word) (span : Nat) (kind : AccessKind) (left : State)
  /-- Code 2. Raised by step when the bytes at pc have no row (R263). Safe: the spec's own. -/
  | invalidInstruction (pc : Word) (left : State)
  /-- Code 3. Raised by step when the instruction at pc runs off its region (R275). Safe: the spec's own. -/
  | decodeFault (pc : Word) (left : State)
  /-- Code 4. Raised by the effective address of an accessed operand with an FS or GS override (R276). Safe: the spec's
  own. -/
  | segmentFault (s : Seg) (left : State)
  /-- Code 5. Raised by an operand whose shape or width does not fit its use, which no decoded instruction has (R277).
  Safe: the spec's own. -/
  | operandFault (left : State)
  /-- Code 6. Raised by Int3, with no state changed (R262, R278). Safe: the spec's own. -/
  | breakpoint (pc : Word) (left : State)
  deriving DecidableEq, Repr

/-- Reasons for which the model has no meaning for an instruction. -/
inductive Refusal where
  /-- An arm of exec that has no meaning yet. Safe: the machine stops. No arm is refused in this model. -/
  | notModelled (mnemonic : String)
  deriving DecidableEq, Repr

/-- The outcome of one instruction or one step (40_engine_and_operands.md R155). -/
abbrev Result := Host.Outcome State Fault Refusal

/-- No stream: nothing to deliver, nothing buffered, CHUNK at its default, the running average at AVG0 (10_state.md
R50, 00_scope.md R5). -/
def Stream.idle : Stream :=
  ⟨[], 0, Config.defaultChunk, [], [], Config.avg0, []⟩

/-- The state after setup when the host supplies nothing: registers, rip and flags zero, an empty bus (10_state.md R50).
`draws` starts at 0 (DESIGN CHOICE, log entry 3). -/
def State.reset : State :=
  ⟨Vector.replicate 16 0, 0, 0, ⟨[], []⟩, Stream.idle, 0⟩

end Sys2Proof.Machine
end

