-- ==== Sys2Proof/Machine/Ops.lean ====
section
/-! DEFINITION. The named operations over registers, memory and the bus, how a fault ends a step, and how pc
advances. -/

namespace Sys2Proof.Machine

/-! ## General registers (10_state.md R20 to R25) -/

/-- The slots with an implicit use (R25). -/
abbrev rax : Fin 16 := 0
abbrev rcx : Fin 16 := 1
abbrev rsp : Fin 16 := 4
abbrev rbp : Fin 16 := 5
abbrev rsi : Fin 16 := 6
abbrev rdi : Fin 16 := 7

/-- `x[i]` (R20). -/
def State.reg (s : State) (i : Fin 16) : Word := s.regs[i]

/-- `x[i] <- v` (R20). -/
def State.setReg (s : State) (i : Fin 16) (v : Word) : State := { s with regs := s.regs.set i v }

/-- `pc <- t` (R26, R27). -/
def State.setRip (s : State) (t : Word) : State := { s with rip := t }

/-- One assignment of the flags word (R29). -/
def State.setFlags (s : State) (f : Word) : State := { s with flags := f }

/-- The view's bits of a slot value (R23). -/
def View.get (v : View) (x : Word) : BitVec v.width.bits :=
  match v with
  | .low8 => x.extractLsb' 0 8
  | .high8 => x.extractLsb' 8 8
  | .w16 => x.extractLsb' 0 16
  | .w32 => x.extractLsb' 0 32
  | .w64 => x

/-- The slot value after a write of the view: 8 and 16 bits keep the rest, 32 bits zero-extend (R24). -/
def View.put (v : View) (x : Word) (y : BitVec v.width.bits) : Word :=
  match v, y with
  | .low8, y => x.extractLsb' 8 56 ++ (y : BitVec 8)
  | .high8, y => x.extractLsb' 16 48 ++ (y : BitVec 8) ++ x.extractLsb' 0 8
  | .w16, y => x.extractLsb' 16 48 ++ (y : BitVec 16)
  | .w32, y => (y : BitVec 32).zeroExtend 64
  | .w64, y => y

/-- `RegRead(Gpr(i, view))` (R23). -/
def State.regRead (s : State) (r : Gpr) : BitVec r.view.width.bits := View.get r.view (s.reg r.slot)

/-- `RegWrite(Gpr(i, view), v)` (R24). -/
def State.regWrite (s : State) (r : Gpr) (v : BitVec r.view.width.bits) : State :=
  s.setReg r.slot (View.put r.view (s.reg r.slot) v)

/-! ## Memory: the canonical list of bytes (log entries 1 and 8) -/

/-- What an unlisted address reads as. DESIGN CHOICE, log entry 1: the byte the model's REGIONS hold where the host
listed none. -/
def Memory.unlisted : Byte := 0

/-- One byte. -/
def Memory.read : Memory → Nat → Byte
  | [], _ => Memory.unlisted
  | (k, v) :: m, a => if k = a then v else Memory.read m a

/-- Write one byte, keeping the canonical form. -/
def Memory.write : Memory → Nat → Byte → Memory
  | [], a, v => if v = Memory.unlisted then [] else [(a, v)]
  | (k, w) :: m, a, v =>
    if a < k then (if v = Memory.unlisted then (k, w) :: m else (a, v) :: (k, w) :: m)
    else if a = k then (if v = Memory.unlisted then m else (a, v) :: m)
    else (k, w) :: Memory.write m a v

/-- Write bytes at consecutive addresses in ascending order (20_memory.md R66). -/
def Memory.writeAll : Memory → Nat → List Byte → Memory
  | m, _, [] => m
  | m, a, b :: bs => Memory.writeAll (Memory.write m a b) (a + 1) bs

/-- The canonical form: addresses strictly rising, no entry equal to what an unlisted address reads as. -/
def Memory.wf (m : Memory) : Bool :=
  decide (m.Pairwise fun c d => c.1 < d.1) && m.all fun c => c.2 != Memory.unlisted

/-! ## The bus (20_memory.md R61 to R66, R78, R79) -/

/-- The region contains the whole span [a, a + n), the sum taken without wrap (R61). -/
def Region.contains (r : Region) (a : Word) (n : Nat) : Bool :=
  decide (r.startAddr.toNat ≤ a.toNat) && decide (a.toNat + n ≤ r.endAddr.toNat)

/-- The two ranges have no address in common (R79); an empty region contains no address. -/
def Region.disjoint (r s : Region) : Bool :=
  decide (r.endAddr.toNat ≤ s.startAddr.toNat) || decide (s.endAddr.toNat ≤ r.startAddr.toNat)

/-- The region of R61 for a span. -/
def Bus.regionFor (b : Bus) (a : Word) (n : Nat) : Option Region := b.regions.find? (·.contains a n)

/-- The byte at an address of a region. -/
def Bus.byteAt (b : Bus) (a : Nat) : Byte := b.cells.read a

/-- The construction invariant of R79 (`start_addr <= end_addr`, R34; no overlap), and the bytes in canonical form,
each in some region. -/
def Bus.wf (b : Bus) : Bool :=
  b.regions.all (fun r => decide (r.startAddr.toNat ≤ r.endAddr.toNat)) &&
    decide (b.regions.Pairwise fun r s => r.disjoint s = true) && Memory.wf b.cells &&
    b.cells.all fun c => b.regions.any fun r =>
      decide (r.startAddr.toNat ≤ c.1) && decide (c.1 < r.endAddr.toNat)

/-- `read_exact(a, n)`: the bytes of a span in ascending order, or BusFault; 0 bytes succeed without a lookup (R62,
R64, R66). -/
def Bus.readExact (b : Bus) (a : Word) (n : Nat) (k : AccessKind) : Except AccessError (List Byte) :=
  if n = 0 then .ok []
  else
    match b.regionFor a n with
    | none => .error (.bus a n k)
    | some _ => .ok ((List.range n).map fun i => b.byteAt (a.toNat + i))

/-- `write_bytes(a, bytes)`: all the bytes are written, or none (R62, R65, R66). -/
def Bus.writeBytes (b : Bus) (a : Word) (bytes : List Byte) : Except AccessError Bus :=
  if bytes.length = 0 then .ok b
  else
    match b.regionFor a bytes.length with
    | none => .error (.bus a bytes.length .write)
    | some _ => .ok { b with cells := Memory.writeAll b.cells a.toNat bytes }

/-- `MemRead(a, n)` at a width: little-endian (R63, R64). -/
def memRead (w : Width) (a : Word) (s : State) : Except AccessError (BitVec w.bits) :=
  (s.bus.readExact a w.bytes .read).map fun bytes => BitVec.ofNat w.bits (fromLE bytes)

/-- `MemWrite(a, n, v)` at a width: little-endian, all or nothing (R63, R65). -/
def memWrite (w : Width) (a : Word) (v : BitVec w.bits) (s : State) : Except AccessError State :=
  (s.bus.writeBytes a (toLE w.bytes v.toNat)).map fun b => { s with bus := b }

/-- The fetch window: at most 15 bytes, all of the one region that holds pc (R78). -/
def fetchWindow (b : Bus) (pc : Word) : Except AccessError (List Byte) :=
  match b.regionFor pc 1 with
  | none => .error (.bus pc 1 .fetch)
  | some r => b.readExact pc (min Config.maxLen (r.endAddr.toNat - pc.toNat)) .fetch

/-! ## Faults (60_exceptions.md R270 to R273, R283) -/

/-- The code of a fault (R270). -/
def Fault.code : Fault → Nat
  | .busFault _ _ _ _ => 1
  | .invalidInstruction _ _ => 2
  | .decodeFault _ _ => 3
  | .segmentFault _ _ => 4
  | .operandFault _ => 5
  | .breakpoint _ _ => 6

/-- The state the faulting step left (R283). -/
def Fault.left : Fault → State
  | .busFault _ _ _ s => s
  | .invalidInstruction _ s => s
  | .decodeFault _ s => s
  | .segmentFault _ s => s
  | .operandFault s => s
  | .breakpoint _ s => s

/-- `raise E(info)` for a failed access: the step ends at once with the state as it is now; nothing is saved, no vector
is entered, nothing is undone (R272, R283). -/
def raiseAccess (e : AccessError) (s : State) : Result :=
  match e with
  | .bus a n k => .fault (.busFault a n k s)
  | .segment g => .fault (.segmentFault g s)
  | .operand => .fault (.operandFault s)

/-- Perform an access and go on with its value, or raise in the state `s`. -/
def access {α : Type} (x : Except AccessError α) (s : State) (go : α → Result) : Result :=
  match x with
  | .ok v => go v
  | .error e => raiseAccess e s

/-! ## The pc after an instruction (40_engine_and_operands.md R153) -/

/-- If dispatch left pc as it was, add the instruction's length, modulo 2^64 (R153, 10_state.md R27). -/
def advance (pc0 : Word) (len : Nat) (s : State) : State :=
  if s.rip = pc0 then s.setRip (pc0 + BitVec.ofNat 64 len) else s

/-- The end of a step: advance after a completed instruction; a fault performs no advance (R153, R154). -/
def finishStep (pc0 : Word) (len : Nat) : Result → Result
  | .next s => .next (advance pc0 len s)
  | .fault f => .fault f
  | .refused r => .refused r

/-! ## Placing bytes where the next step fetches them -/

/-- Bytes placed at pc with a region that holds them, as a host that builds a bus does (60_exceptions.md R290). A region
that already contains the span keeps everything but the bytes; else regions that would overlap it go, with their bytes.
Bytes past the last address a region can hold are left out. Log entry 7. -/
def placeAtPc (s : State) (bytes : List Byte) : State :=
  let bytes := bytes.take (2 ^ 64 - 1 - s.rip.toNat)
  match s.bus.regionFor s.rip bytes.length with
  | some _ => { s with bus := { s.bus with cells := Memory.writeAll s.bus.cells s.rip.toNat bytes } }
  | none =>
    let r : Region := ⟨s.rip, s.rip + BitVec.ofNat 64 bytes.length, none, true, true⟩
    let kept := s.bus.regions.filter (·.disjoint r)
    let cells := s.bus.cells.filter fun c => kept.any fun k =>
      decide (k.startAddr.toNat ≤ c.1) && decide (c.1 < k.endAddr.toNat)
    { s with bus := ⟨r :: kept, Memory.writeAll cells s.rip.toNat bytes⟩ }

end Sys2Proof.Machine
end

