-- ==== Sys2Proof/Machine/Flags.lean ====
section
/-! DEFINITION. The flags word, the flag update functions and the condition codes (10_state.md R28 to R30,
42_arithmetic.md R180 to R186, 43_logic_shift.md R200, R203, R204, 45_control_transfer.md R221 to R237). -/

namespace Sys2Proof.Machine

/-! ## The named bits (R28) -/

abbrev bitCF : Nat := 0
abbrev bitPF : Nat := 2
abbrev bitAF : Nat := 4
abbrev bitZF : Nat := 6
abbrev bitSF : Nat := 7
abbrev bitDF : Nat := 10
abbrev bitOF : Nat := 11

/-- Bit `i` of the flags word set to `b`, every other bit kept (R29). -/
def putBit (f : Word) (i : Nat) (b : Bool) : Word :=
  if b then f ||| BitVec.twoPow 64 i else f &&& ~~~(BitVec.twoPow 64 i)

/-! ## Flag primitives (R180) -/

/-- `ZF_of(r)`. -/
def zfOf {n : Nat} (r : BitVec n) : Bool := decide (r = 0)

/-- `SF_of(W, r)`: bit W - 1. -/
def sfOf {n : Nat} (r : BitVec n) : Bool := r.getLsbD (n - 1)

/-- `PF_of(r)`: the low byte has an even number of 1 bits. -/
def pfOf {n : Nat} (r : BitVec n) : Bool := ((List.range 8).countP fun i => r.getLsbD i) % 2 == 0

/-- `AF_of(a, b, r)`: bit 4 of `a XOR b XOR r`. -/
def afOf {n : Nat} (a b r : BitVec n) : Bool := (a ^^^ b ^^^ r).getLsbD 4

/-- ZF, SF, PF of a result. -/
def putZSP {n : Nat} (r : BitVec n) (f : Word) : Word :=
  putBit (putBit (putBit f bitZF (zfOf r)) bitSF (sfOf r)) bitPF (pfOf r)

/-! ## The update functions, at the operation width n (R186) -/

/-- `update_add_no_cf(W, a, b, r)` (R182). -/
def updateAddNoCf {n : Nat} (a b r : BitVec n) (f : Word) : Word :=
  putBit (putBit (putZSP r f) bitAF (afOf a b r)) bitOF (((a ^^^ r) &&& (b ^^^ r)).getLsbD (n - 1))

/-- `update_add(W, a, b, r)` (R181). -/
def updateAdd {n : Nat} (a b r : BitVec n) (f : Word) : Word :=
  putBit (updateAddNoCf a b r f) bitCF (decide (r < a))

/-- `update_sub_no_cf(W, a, b, r)` (R184). -/
def updateSubNoCf {n : Nat} (a b r : BitVec n) (f : Word) : Word :=
  putBit (putBit (putZSP r f) bitAF (afOf a b r)) bitOF (((a ^^^ b) &&& (a ^^^ r)).getLsbD (n - 1))

/-- `update_sub(W, a, b, r)` (R183). -/
def updateSub {n : Nat} (a b r : BitVec n) (f : Word) : Word :=
  putBit (updateSubNoCf a b r f) bitCF (decide (a < b))

/-- `update_adc(W, a, b, c, r)`: the carry from the sum in unbounded integers (R185). -/
def updateAdc {n : Nat} (a b : BitVec n) (c : Bool) (r : BitVec n) (f : Word) : Word :=
  putBit (updateAddNoCf a b r f) bitCF (decide (a.toNat + b.toNat + c.toNat > 2 ^ n - 1))

/-- `update_logic(W, r)`: CF and OF cleared, AF kept (R200). -/
def updateLogic {n : Nat} (r : BitVec n) (f : Word) : Word :=
  putBit (putBit (putZSP r f) bitCF false) bitOF false

/-! ## Shifts (R203, R204) -/

/-- Which of the two shifts. -/
inductive ShiftDir where
  | left | right
  deriving DecidableEq, Repr

/-- The masked count: `count AND 0x3F` when W = 64, else `count AND 0x1F` (R203). -/
def shiftCount (w : Width) (c : BitVec 8) : Nat :=
  (c &&& (if w = .w64 then 0x3F#8 else 0x1F#8)).toNat

/-- The shifted value: `trunc_W(a * 2^n)`, or `floor(a / 2^n)` (R205, R206). -/
def shiftValue {n : Nat} (d : ShiftDir) (a : BitVec n) (k : Nat) : BitVec n :=
  match d with
  | .left => a <<< k
  | .right => a >>> k

/-- CF after a shift by `k > 0`: the last bit shifted out when k <= W, else the draw (R204). -/
def shiftCf {n : Nat} (d : ShiftDir) (a : BitVec n) (k : Nat) (draw : Bool) : Bool :=
  if k ≤ n then
    match d with
    | .left => a.getLsbD (n - k)
    | .right => a.getLsbD (k - 1)
  else draw

/-- OF after a shift by `k > 0`: defined for k = 1, else the draw; `cf` is the new CF (R204). -/
def shiftOf {n : Nat} (d : ShiftDir) (a r : BitVec n) (k : Nat) (cf draw : Bool) : Bool :=
  if k = 1 then
    match d with
    | .left => r.getLsbD (n - 1) ^^ cf
    | .right => a.getLsbD (n - 1)
  else draw

/-- The flags after a shift by `k > 0`; `dc`, `dv`, `da` are the draws for CF, OF, AF (R204). -/
def updateShift {n : Nat} (d : ShiftDir) (a r : BitVec n) (k : Nat) (dc dv da : Bool) (f : Word) : Word :=
  let cf := shiftCf d a k dc
  putBit (putBit (putBit (putZSP r f) bitAF da) bitOF (shiftOf d a r k cf dv)) bitCF cf

/-- The flags and the draws after a shift by a masked count: count 0 changes nothing; else the next three values of
`draw_1()` stand for CF, OF and AF, used or not (R204, log entry 3). -/
def shiftFlags {n : Nat} (d : ShiftDir) (a r : BitVec n) (k : Nat) (s : State) : State :=
  if k = 0 then s
  else
    { s with
      flags := updateShift d a r k (Config.drawBit s.draws) (Config.drawBit (s.draws + 1))
        (Config.drawBit (s.draws + 2)) s.flags
      draws := s.draws + 3 }

/-! ## Condition codes (R221 to R237) -/

/-- `cond(code)`, from the flags word and, for CXZ, from rcx. -/
def cond (c : ConditionCode) (f : Word) (rcx : Word) : Bool :=
  let cf := f.getLsbD bitCF
  let pf := f.getLsbD bitPF
  let zf := f.getLsbD bitZF
  let sf := f.getLsbD bitSF
  let vf := f.getLsbD bitOF
  match c with
  | .o => vf
  | .no => !vf
  | .b => cf
  | .ae => !cf
  | .e => zf
  | .ne => !zf
  | .be => cf || zf
  | .a => !cf && !zf
  | .s => sf
  | .ns => !sf
  | .p => pf
  | .np => !pf
  | .l => sf != vf
  | .ge => sf == vf
  | .le => zf || sf != vf
  | .g => !zf && sf == vf
  | .cxz => decide (rcx = 0)

end Sys2Proof.Machine
end

