-- ==== Sys2Proof/Machine/Operands.lean ====
section
/-! DEFINITION. Operand access: effective addresses, ReadOp, WriteOp (40_engine_and_operands.md R156 to R159). -/

namespace Sys2Proof.Machine

/-- The factor of a scale (10_state.md R37). -/
def Scale.factor : Scale → Nat
  | .s1 => 1
  | .s2 => 2
  | .s4 => 4
  | .s8 => 8

/-- The base term: 0, a register, or `pc + ins.length` for the RIP-relative form (R156). -/
def baseValue (len : Nat) (s : State) : Base → Word
  | .absent => 0
  | .gpr i => s.reg i
  | .rip => s.rip + BitVec.ofNat 64 len

/-- The index term (R156). -/
def indexValue (s : State) : Option (Fin 16 × Scale) → Word
  | none => 0
  | some (j, c) => s.reg j * BitVec.ofNat 64 (Scale.factor c)

/-- `EA0(m)`, modulo 2^64; `len` is `ins.length` (R156). -/
def ea0 (len : Nat) (m : MemOperand) (s : State) : Word :=
  baseValue len s m.base + indexValue s m.index + m.disp

/-- `EA(m)`: an FS or GS override faults (R156). -/
def ea (len : Nat) (m : MemOperand) (s : State) : Except AccessError Word :=
  match m.segment with
  | some .fs => .error (.segment .fs)
  | some .gs => .error (.segment .gs)
  | _ => .ok (ea0 len m s)

/-- `width(o)`: of a register its view's, of a memory operand its size (R157). An immediate is never a first operand;
64 there is a DESIGN CHOICE no decoded instruction reaches (log entry 12). -/
def Operand.width : Operand → Width
  | .reg r => View.width r.view
  | .mem m => m.size
  | .imm _ => .w64

/-- `ReadOp(o, W)` (R157). -/
def readOp (len : Nat) (w : Width) (o : Operand) (s : State) : Except AccessError (BitVec w.bits) :=
  match o with
  | .reg r => if View.width r.view = w then .ok ((s.regRead r).setWidth w.bits) else .error .operand
  | .imm v => .ok (v.setWidth w.bits)
  | .mem m => if m.size = w then (ea len m s).bind fun a => memRead w a s else .error .operand

/-- `WriteOp(o, W, v)` (R158). -/
def writeOp (len : Nat) (w : Width) (o : Operand) (v : BitVec w.bits) (s : State) : Except AccessError State :=
  match o with
  | .reg r =>
    if View.width r.view = w then .ok (s.regWrite r (v.setWidth (View.width r.view).bits)) else .error .operand
  | .mem m => if m.size = w then (ea len m s).bind fun a => memWrite w a v s else .error .operand
  | .imm _ => .error .operand

end Sys2Proof.Machine
end

