-- ==== Sys2Proof/Machine/Arithmetic.lean ====
section
/-! DEFINITION. Integer arithmetic: Add, Adc, Sub, Cmp, Inc, Dec (42_arithmetic.md), and the shared order of an arithmetic
or logic instruction (40_engine_and_operands.md R160). -/

namespace Sys2Proof.Machine

/-- Read the first operand, read the second, compute, write the first, update the flags (R160). `f` is the operation,
`upd` its flag function; both see the carry of before. -/
def binaryWrite (len : Nat) (dst src : Operand) (s : State)
    (f : (w : Width) → BitVec w.bits → BitVec w.bits → BitVec w.bits)
    (upd : (w : Width) → BitVec w.bits → BitVec w.bits → BitVec w.bits → Word → Word) : Result :=
  let w := Operand.width dst
  access (readOp len w dst s) s fun a =>
  access (readOp len w src s) s fun b =>
  access (writeOp len w dst (f w a b) s) s fun t =>
  .next (t.setFlags (upd w a b (f w a b) t.flags))

/-- The same without the write: only the flags (R190, R201). -/
def binaryTest (len : Nat) (x y : Operand) (s : State)
    (f : (w : Width) → BitVec w.bits → BitVec w.bits → BitVec w.bits)
    (upd : (w : Width) → BitVec w.bits → BitVec w.bits → BitVec w.bits → Word → Word) : Result :=
  let w := Operand.width x
  access (readOp len w x s) s fun a =>
  access (readOp len w y s) s fun b =>
  .next (s.setFlags (upd w a b (f w a b) s.flags))

/-- Add(dst, src) (R187). -/
def runAdd (len : Nat) (dst src : Operand) (s : State) : Result :=
  binaryWrite len dst src s (fun _ a b => a + b) fun _ a b r f => updateAdd a b r f

/-- Adc(dst, src): the carry is CF of before (R188). -/
def runAdc (len : Nat) (dst src : Operand) (s : State) : Result :=
  let c := s.flags.getLsbD bitCF
  binaryWrite len dst src s (fun w a b => a + b + BitVec.ofNat w.bits c.toNat)
    fun _ a b r f => updateAdc a b c r f

/-- Sub(dst, src) (R189). -/
def runSub (len : Nat) (dst src : Operand) (s : State) : Result :=
  binaryWrite len dst src s (fun _ a b => a - b) fun _ a b r f => updateSub a b r f

/-- Cmp(a, b) (R190). -/
def runCmp (len : Nat) (x y : Operand) (s : State) : Result :=
  binaryTest len x y s (fun _ a b => a - b) fun _ a b r f => updateSub a b r f

/-- Inc(dst): CF is not written (R191). -/
def runInc (len : Nat) (dst : Operand) (s : State) : Result :=
  let w := Operand.width dst
  access (readOp len w dst s) s fun a =>
  access (writeOp len w dst (a + 1) s) s fun t =>
  .next (t.setFlags (updateAddNoCf a 1 (a + 1) t.flags))

/-- Dec(dst): CF is not written (R192). -/
def runDec (len : Nat) (dst : Operand) (s : State) : Result :=
  let w := Operand.width dst
  access (readOp len w dst s) s fun a =>
  access (writeOp len w dst (a - 1) s) s fun t =>
  .next (t.setFlags (updateSubNoCf a 1 (a - 1) t.flags))

/-- `add r/m8, r8: 00` (R187). -/
def execAddRm8R8 (p : Prefixes) (reg : BitVec 3) (rm : Rm) (s : State) : Result :=
  runAdd (Instr.addRm8R8 p reg rm).length (rmOperand p .w8 rm) (regOperand p .w8 reg) s

/-- `add r/m, r: 01` (R187). -/
def execAddRmR (p : Prefixes) (reg : BitVec 3) (rm : Rm) (s : State) : Result :=
  runAdd (Instr.addRmR p reg rm).length (rmOperand p p.vWidth rm) (regOperand p p.vWidth reg) s

/-- `add r8, r/m8: 02` (R187). -/
def execAddR8Rm8 (p : Prefixes) (reg : BitVec 3) (rm : Rm) (s : State) : Result :=
  runAdd (Instr.addR8Rm8 p reg rm).length (regOperand p .w8 reg) (rmOperand p .w8 rm) s

/-- `add r, r/m: 03` (R187). -/
def execAddRRm (p : Prefixes) (reg : BitVec 3) (rm : Rm) (s : State) : Result :=
  runAdd (Instr.addRRm p reg rm).length (regOperand p p.vWidth reg) (rmOperand p p.vWidth rm) s

/-- `add al, imm8: 04` (R187). -/
def execAddAlImm8 (p : Prefixes) (imm : BitVec 8) (s : State) : Result :=
  runAdd (Instr.addAlImm8 p imm).length (accOperand .w8) (.imm (imm.signExtend 64)) s

/-- `add ax/eax/rax, imm16/32: 05` (R187). -/
def execAddAccImm (p : Prefixes) (imm : ImmZ) (s : State) : Result :=
  runAdd (Instr.addAccImm p imm).length (accOperand p.vWidth) (.imm imm.value) s

/-- `add r/m8, imm8: 80 /0` (R187). -/
def execAddRm8Imm8 (p : Prefixes) (rm : Rm) (imm : BitVec 8) (s : State) : Result :=
  runAdd (Instr.addRm8Imm8 p rm imm).length (rmOperand p .w8 rm) (.imm (imm.signExtend 64)) s

/-- `add r/m, imm16/32: 81 /0` (R187). -/
def execAddRmImm (p : Prefixes) (rm : Rm) (imm : ImmZ) (s : State) : Result :=
  runAdd (Instr.addRmImm p rm imm).length (rmOperand p p.vWidth rm) (.imm imm.value) s

/-- `add r/m, imm8: 83 /0` (R187). -/
def execAddRmImm8 (p : Prefixes) (rm : Rm) (imm : BitVec 8) (s : State) : Result :=
  runAdd (Instr.addRmImm8 p rm imm).length (rmOperand p p.vWidth rm) (.imm (imm.signExtend 64)) s

/-- `adc r/m8, r8: 10` (R188). -/
def execAdcRm8R8 (p : Prefixes) (reg : BitVec 3) (rm : Rm) (s : State) : Result :=
  runAdc (Instr.adcRm8R8 p reg rm).length (rmOperand p .w8 rm) (regOperand p .w8 reg) s

/-- `adc r/m, r: 11` (R188). -/
def execAdcRmR (p : Prefixes) (reg : BitVec 3) (rm : Rm) (s : State) : Result :=
  runAdc (Instr.adcRmR p reg rm).length (rmOperand p p.vWidth rm) (regOperand p p.vWidth reg) s

/-- `adc r8, r/m8: 12` (R188). -/
def execAdcR8Rm8 (p : Prefixes) (reg : BitVec 3) (rm : Rm) (s : State) : Result :=
  runAdc (Instr.adcR8Rm8 p reg rm).length (regOperand p .w8 reg) (rmOperand p .w8 rm) s

/-- `adc r, r/m: 13` (R188). -/
def execAdcRRm (p : Prefixes) (reg : BitVec 3) (rm : Rm) (s : State) : Result :=
  runAdc (Instr.adcRRm p reg rm).length (regOperand p p.vWidth reg) (rmOperand p p.vWidth rm) s

/-- `adc al, imm8: 14` (R188). -/
def execAdcAlImm8 (p : Prefixes) (imm : BitVec 8) (s : State) : Result :=
  runAdc (Instr.adcAlImm8 p imm).length (accOperand .w8) (.imm (imm.signExtend 64)) s

/-- `adc ax/eax/rax, imm16/32: 15` (R188). -/
def execAdcAccImm (p : Prefixes) (imm : ImmZ) (s : State) : Result :=
  runAdc (Instr.adcAccImm p imm).length (accOperand p.vWidth) (.imm imm.value) s

/-- `adc r/m8, imm8: 80 /2` (R188). -/
def execAdcRm8Imm8 (p : Prefixes) (rm : Rm) (imm : BitVec 8) (s : State) : Result :=
  runAdc (Instr.adcRm8Imm8 p rm imm).length (rmOperand p .w8 rm) (.imm (imm.signExtend 64)) s

/-- `adc r/m, imm16/32: 81 /2` (R188). -/
def execAdcRmImm (p : Prefixes) (rm : Rm) (imm : ImmZ) (s : State) : Result :=
  runAdc (Instr.adcRmImm p rm imm).length (rmOperand p p.vWidth rm) (.imm imm.value) s

/-- `adc r/m, imm8: 83 /2` (R188). -/
def execAdcRmImm8 (p : Prefixes) (rm : Rm) (imm : BitVec 8) (s : State) : Result :=
  runAdc (Instr.adcRmImm8 p rm imm).length (rmOperand p p.vWidth rm) (.imm (imm.signExtend 64)) s

/-- `sub r/m8, r8: 28` (R189). -/
def execSubRm8R8 (p : Prefixes) (reg : BitVec 3) (rm : Rm) (s : State) : Result :=
  runSub (Instr.subRm8R8 p reg rm).length (rmOperand p .w8 rm) (regOperand p .w8 reg) s

/-- `sub r/m, r: 29` (R189). -/
def execSubRmR (p : Prefixes) (reg : BitVec 3) (rm : Rm) (s : State) : Result :=
  runSub (Instr.subRmR p reg rm).length (rmOperand p p.vWidth rm) (regOperand p p.vWidth reg) s

/-- `sub r8, r/m8: 2A` (R189). -/
def execSubR8Rm8 (p : Prefixes) (reg : BitVec 3) (rm : Rm) (s : State) : Result :=
  runSub (Instr.subR8Rm8 p reg rm).length (regOperand p .w8 reg) (rmOperand p .w8 rm) s

/-- `sub r, r/m: 2B` (R189). -/
def execSubRRm (p : Prefixes) (reg : BitVec 3) (rm : Rm) (s : State) : Result :=
  runSub (Instr.subRRm p reg rm).length (regOperand p p.vWidth reg) (rmOperand p p.vWidth rm) s

/-- `sub al, imm8: 2C` (R189). -/
def execSubAlImm8 (p : Prefixes) (imm : BitVec 8) (s : State) : Result :=
  runSub (Instr.subAlImm8 p imm).length (accOperand .w8) (.imm (imm.signExtend 64)) s

/-- `sub ax/eax/rax, imm16/32: 2D` (R189). -/
def execSubAccImm (p : Prefixes) (imm : ImmZ) (s : State) : Result :=
  runSub (Instr.subAccImm p imm).length (accOperand p.vWidth) (.imm imm.value) s

/-- `sub r/m8, imm8: 80 /5` (R189). -/
def execSubRm8Imm8 (p : Prefixes) (rm : Rm) (imm : BitVec 8) (s : State) : Result :=
  runSub (Instr.subRm8Imm8 p rm imm).length (rmOperand p .w8 rm) (.imm (imm.signExtend 64)) s

/-- `sub r/m, imm16/32: 81 /5` (R189). -/
def execSubRmImm (p : Prefixes) (rm : Rm) (imm : ImmZ) (s : State) : Result :=
  runSub (Instr.subRmImm p rm imm).length (rmOperand p p.vWidth rm) (.imm imm.value) s

/-- `sub r/m, imm8: 83 /5` (R189). -/
def execSubRmImm8 (p : Prefixes) (rm : Rm) (imm : BitVec 8) (s : State) : Result :=
  runSub (Instr.subRmImm8 p rm imm).length (rmOperand p p.vWidth rm) (.imm (imm.signExtend 64)) s

/-- `cmp r/m8, r8: 38` (R190). -/
def execCmpRm8R8 (p : Prefixes) (reg : BitVec 3) (rm : Rm) (s : State) : Result :=
  runCmp (Instr.cmpRm8R8 p reg rm).length (rmOperand p .w8 rm) (regOperand p .w8 reg) s

/-- `cmp r/m, r: 39` (R190). -/
def execCmpRmR (p : Prefixes) (reg : BitVec 3) (rm : Rm) (s : State) : Result :=
  runCmp (Instr.cmpRmR p reg rm).length (rmOperand p p.vWidth rm) (regOperand p p.vWidth reg) s

/-- `cmp r8, r/m8: 3A` (R190). -/
def execCmpR8Rm8 (p : Prefixes) (reg : BitVec 3) (rm : Rm) (s : State) : Result :=
  runCmp (Instr.cmpR8Rm8 p reg rm).length (regOperand p .w8 reg) (rmOperand p .w8 rm) s

/-- `cmp r, r/m: 3B` (R190). -/
def execCmpRRm (p : Prefixes) (reg : BitVec 3) (rm : Rm) (s : State) : Result :=
  runCmp (Instr.cmpRRm p reg rm).length (regOperand p p.vWidth reg) (rmOperand p p.vWidth rm) s

/-- `cmp al, imm8: 3C` (R190). -/
def execCmpAlImm8 (p : Prefixes) (imm : BitVec 8) (s : State) : Result :=
  runCmp (Instr.cmpAlImm8 p imm).length (accOperand .w8) (.imm (imm.signExtend 64)) s

/-- `cmp ax/eax/rax, imm16/32: 3D` (R190). -/
def execCmpAccImm (p : Prefixes) (imm : ImmZ) (s : State) : Result :=
  runCmp (Instr.cmpAccImm p imm).length (accOperand p.vWidth) (.imm imm.value) s

/-- `cmp r/m8, imm8: 80 /7` (R190). -/
def execCmpRm8Imm8 (p : Prefixes) (rm : Rm) (imm : BitVec 8) (s : State) : Result :=
  runCmp (Instr.cmpRm8Imm8 p rm imm).length (rmOperand p .w8 rm) (.imm (imm.signExtend 64)) s

/-- `cmp r/m, imm16/32: 81 /7` (R190). -/
def execCmpRmImm (p : Prefixes) (rm : Rm) (imm : ImmZ) (s : State) : Result :=
  runCmp (Instr.cmpRmImm p rm imm).length (rmOperand p p.vWidth rm) (.imm imm.value) s

/-- `cmp r/m, imm8: 83 /7` (R190). -/
def execCmpRmImm8 (p : Prefixes) (rm : Rm) (imm : BitVec 8) (s : State) : Result :=
  runCmp (Instr.cmpRmImm8 p rm imm).length (rmOperand p p.vWidth rm) (.imm (imm.signExtend 64)) s

/-- `inc r/m8: FE /0` (R191). -/
def execIncRm8 (p : Prefixes) (rm : Rm) (s : State) : Result :=
  runInc (Instr.incRm8 p rm).length (rmOperand p .w8 rm) s

/-- `dec r/m8: FE /1` (R192). -/
def execDecRm8 (p : Prefixes) (rm : Rm) (s : State) : Result :=
  runDec (Instr.decRm8 p rm).length (rmOperand p .w8 rm) s

/-- `inc r/m: FF /0` (R191). -/
def execIncRm (p : Prefixes) (rm : Rm) (s : State) : Result :=
  runInc (Instr.incRm p rm).length (rmOperand p p.vWidth rm) s

/-- `dec r/m: FF /1` (R192). -/
def execDecRm (p : Prefixes) (rm : Rm) (s : State) : Result :=
  runDec (Instr.decRm p rm).length (rmOperand p p.vWidth rm) s

end Sys2Proof.Machine
end

