-- ==== Sys2Proof/Machine/Stack.lean ====
section
/-! DEFINITION. Stack: Push, Pop, Leave (44_stack.md). -/

namespace Sys2Proof.Machine

/-- One stack slot: STACK_SLOT bytes (00_scope.md R5, 44_stack.md R213). -/
def slotBytes : Word := BitVec.ofNat 64 Config.stackSlot

/-- Store 8 bytes below the stack pointer, then write the stack pointer (R210, 45_control_transfer.md R241). -/
def pushWord (v : Word) (s : State) (go : State → Result) : Result :=
  let a := s.reg rsp - slotBytes
  access (memWrite .w64 a v s) s fun t =>
  go (t.setReg rsp a)

/-- Push(src): the source is read with the rsp of before (R210). -/
def runPush (len : Nat) (src : Operand) (s : State) : Result :=
  access (readOp len .w64 src s) s fun v =>
  pushWord v s .next

/-- Pop(dst): a memory destination's address uses the incremented rsp; rsp is written after the last access (R211). -/
def runPop (len : Nat) (dst : Operand) (s : State) : Result :=
  access (memRead .w64 (s.reg rsp) s) s fun v =>
  let top := s.reg rsp + slotBytes
  match dst with
  | .reg _ => access (writeOp len .w64 dst v (s.setReg rsp top)) s .next
  | .mem m =>
    access (ea len m (s.setReg rsp top)) s fun a =>
    access (memWrite .w64 a v s) s fun t =>
    .next (t.setReg rsp top)
  | .imm _ => raiseAccess .operand s

/-- Leave: rsp from rbp, rbp popped (R212). -/
def runLeave (s : State) : Result :=
  access (memRead .w64 (s.reg rbp) s) s fun v =>
  .next ((s.setReg rsp (s.reg rbp + slotBytes)).setReg rbp v)

/-- `push r64: 50+r` (R210). -/
def execPushR64 (p : Prefixes) (opreg : BitVec 3) (s : State) : Result :=
  runPush (Instr.pushR64 p opreg).length (opregOperand p .w64 opreg) s

/-- `pop r64: 58+r` (R211). -/
def execPopR64 (p : Prefixes) (opreg : BitVec 3) (s : State) : Result :=
  runPop (Instr.popR64 p opreg).length (opregOperand p .w64 opreg) s

/-- `push imm32: 68` (R210). -/
def execPushImm32 (p : Prefixes) (imm : BitVec 32) (s : State) : Result :=
  runPush (Instr.pushImm32 p imm).length (.imm (imm.signExtend 64)) s

/-- `push imm8: 6A` (R210). -/
def execPushImm8 (p : Prefixes) (imm : BitVec 8) (s : State) : Result :=
  runPush (Instr.pushImm8 p imm).length (.imm (imm.signExtend 64)) s

/-- `pop r/m64: 8F /0` (R211). -/
def execPopRm64 (p : Prefixes) (rm : Rm) (s : State) : Result :=
  runPop (Instr.popRm64 p rm).length (rmOperand p .w64 rm) s

/-- `leave: C9` (R212). -/
def execLeave (_p : Prefixes) (s : State) : Result :=
  runLeave s

/-- `push r/m64: FF /6` (R210). -/
def execPushRm64 (p : Prefixes) (rm : Rm) (s : State) : Result :=
  runPush (Instr.pushRm64 p rm).length (rmOperand p .w64 rm) s

end Sys2Proof.Machine
end

