-- ==== Sys2Proof/Machine/Control.lean ====
section
/-! DEFINITION. Control transfer: ConditionalJump, UnconditionalJump, Call, Ret (45_control_transfer.md). -/

namespace Sys2Proof.Machine

/-- ConditionalJump(code, target) (R220). -/
def runConditionalJump (c : ConditionCode) (target : Word) (s : State) : Result :=
  .next (if cond c s.flags (s.reg rcx) then s.setRip target else s)

/-- UnconditionalJump(op) (R240). -/
def runJump (len : Nat) (op : Operand) (s : State) : Result :=
  access (readOp len .w64 op s) s fun t =>
  .next (s.setRip t)

/-- Call(op): the push first, then the target with the rsp and the memory of after it (R241, 70_reset_and_hazards.md
R312). -/
def runCall (len : Nat) (op : Operand) (s : State) : Result :=
  pushWord (s.rip + BitVec.ofNat 64 len) s fun t =>
  access (readOp len .w64 op t) t fun target =>
  .next (t.setRip target)

/-- Ret (R242). -/
def runRet (s : State) : Result :=
  access (memRead .w64 (s.reg rsp) s) s fun target =>
  .next ((s.setRip target).setReg rsp (s.reg rsp + slotBytes))

/-- `jo rel8: 70` (R221). -/
def execJoRel8 (p : Prefixes) (rel : BitVec 8) (s : State) : Result :=
  runConditionalJump .o (relTarget s.rip (Instr.joRel8 p rel).length (rel.signExtend 64)) s

/-- `jno rel8: 71` (R222). -/
def execJnoRel8 (p : Prefixes) (rel : BitVec 8) (s : State) : Result :=
  runConditionalJump .no (relTarget s.rip (Instr.jnoRel8 p rel).length (rel.signExtend 64)) s

/-- `jb rel8: 72` (R223). -/
def execJbRel8 (p : Prefixes) (rel : BitVec 8) (s : State) : Result :=
  runConditionalJump .b (relTarget s.rip (Instr.jbRel8 p rel).length (rel.signExtend 64)) s

/-- `jae rel8: 73` (R224). -/
def execJaeRel8 (p : Prefixes) (rel : BitVec 8) (s : State) : Result :=
  runConditionalJump .ae (relTarget s.rip (Instr.jaeRel8 p rel).length (rel.signExtend 64)) s

/-- `je rel8: 74` (R225). -/
def execJeRel8 (p : Prefixes) (rel : BitVec 8) (s : State) : Result :=
  runConditionalJump .e (relTarget s.rip (Instr.jeRel8 p rel).length (rel.signExtend 64)) s

/-- `jne rel8: 75` (R226). -/
def execJneRel8 (p : Prefixes) (rel : BitVec 8) (s : State) : Result :=
  runConditionalJump .ne (relTarget s.rip (Instr.jneRel8 p rel).length (rel.signExtend 64)) s

/-- `jbe rel8: 76` (R227). -/
def execJbeRel8 (p : Prefixes) (rel : BitVec 8) (s : State) : Result :=
  runConditionalJump .be (relTarget s.rip (Instr.jbeRel8 p rel).length (rel.signExtend 64)) s

/-- `ja rel8: 77` (R228). -/
def execJaRel8 (p : Prefixes) (rel : BitVec 8) (s : State) : Result :=
  runConditionalJump .a (relTarget s.rip (Instr.jaRel8 p rel).length (rel.signExtend 64)) s

/-- `js rel8: 78` (R229). -/
def execJsRel8 (p : Prefixes) (rel : BitVec 8) (s : State) : Result :=
  runConditionalJump .s (relTarget s.rip (Instr.jsRel8 p rel).length (rel.signExtend 64)) s

/-- `jns rel8: 79` (R230). -/
def execJnsRel8 (p : Prefixes) (rel : BitVec 8) (s : State) : Result :=
  runConditionalJump .ns (relTarget s.rip (Instr.jnsRel8 p rel).length (rel.signExtend 64)) s

/-- `jp rel8: 7A` (R231). -/
def execJpRel8 (p : Prefixes) (rel : BitVec 8) (s : State) : Result :=
  runConditionalJump .p (relTarget s.rip (Instr.jpRel8 p rel).length (rel.signExtend 64)) s

/-- `jnp rel8: 7B` (R232). -/
def execJnpRel8 (p : Prefixes) (rel : BitVec 8) (s : State) : Result :=
  runConditionalJump .np (relTarget s.rip (Instr.jnpRel8 p rel).length (rel.signExtend 64)) s

/-- `jl rel8: 7C` (R233). -/
def execJlRel8 (p : Prefixes) (rel : BitVec 8) (s : State) : Result :=
  runConditionalJump .l (relTarget s.rip (Instr.jlRel8 p rel).length (rel.signExtend 64)) s

/-- `jge rel8: 7D` (R234). -/
def execJgeRel8 (p : Prefixes) (rel : BitVec 8) (s : State) : Result :=
  runConditionalJump .ge (relTarget s.rip (Instr.jgeRel8 p rel).length (rel.signExtend 64)) s

/-- `jle rel8: 7E` (R235). -/
def execJleRel8 (p : Prefixes) (rel : BitVec 8) (s : State) : Result :=
  runConditionalJump .le (relTarget s.rip (Instr.jleRel8 p rel).length (rel.signExtend 64)) s

/-- `jg rel8: 7F` (R236). -/
def execJgRel8 (p : Prefixes) (rel : BitVec 8) (s : State) : Result :=
  runConditionalJump .g (relTarget s.rip (Instr.jgRel8 p rel).length (rel.signExtend 64)) s

/-- `ret: C3` (R242). -/
def execRet (_p : Prefixes) (s : State) : Result :=
  runRet s

/-- `jrcxz rel8: E3` (R237). -/
def execJrcxzRel8 (p : Prefixes) (rel : BitVec 8) (s : State) : Result :=
  runConditionalJump .cxz (relTarget s.rip (Instr.jrcxzRel8 p rel).length (rel.signExtend 64)) s

/-- `call rel32: E8` (R241). -/
def execCallRel32 (p : Prefixes) (rel : BitVec 32) (s : State) : Result :=
  runCall (Instr.callRel32 p rel).length (.imm (relTarget s.rip (Instr.callRel32 p rel).length (rel.signExtend 64))) s

/-- `jmp rel32: E9` (R240). -/
def execJmpRel32 (p : Prefixes) (rel : BitVec 32) (s : State) : Result :=
  runJump (Instr.jmpRel32 p rel).length (.imm (relTarget s.rip (Instr.jmpRel32 p rel).length (rel.signExtend 64))) s

/-- `jmp rel8: EB` (R240). -/
def execJmpRel8 (p : Prefixes) (rel : BitVec 8) (s : State) : Result :=
  runJump (Instr.jmpRel8 p rel).length (.imm (relTarget s.rip (Instr.jmpRel8 p rel).length (rel.signExtend 64))) s

/-- `call r/m64: FF /2` (R241). -/
def execCallRm64 (p : Prefixes) (rm : Rm) (s : State) : Result :=
  runCall (Instr.callRm64 p rm).length (rmOperand p .w64 rm) s

/-- `jmp r/m64: FF /4` (R240). -/
def execJmpRm64 (p : Prefixes) (rm : Rm) (s : State) : Result :=
  runJump (Instr.jmpRm64 p rm).length (rmOperand p .w64 rm) s

/-- `jo rel32: 0F 80` (R221). -/
def execJoRel32 (p : Prefixes) (rel : BitVec 32) (s : State) : Result :=
  runConditionalJump .o (relTarget s.rip (Instr.joRel32 p rel).length (rel.signExtend 64)) s

/-- `jno rel32: 0F 81` (R222). -/
def execJnoRel32 (p : Prefixes) (rel : BitVec 32) (s : State) : Result :=
  runConditionalJump .no (relTarget s.rip (Instr.jnoRel32 p rel).length (rel.signExtend 64)) s

/-- `jb rel32: 0F 82` (R223). -/
def execJbRel32 (p : Prefixes) (rel : BitVec 32) (s : State) : Result :=
  runConditionalJump .b (relTarget s.rip (Instr.jbRel32 p rel).length (rel.signExtend 64)) s

/-- `jae rel32: 0F 83` (R224). -/
def execJaeRel32 (p : Prefixes) (rel : BitVec 32) (s : State) : Result :=
  runConditionalJump .ae (relTarget s.rip (Instr.jaeRel32 p rel).length (rel.signExtend 64)) s

/-- `je rel32: 0F 84` (R225). -/
def execJeRel32 (p : Prefixes) (rel : BitVec 32) (s : State) : Result :=
  runConditionalJump .e (relTarget s.rip (Instr.jeRel32 p rel).length (rel.signExtend 64)) s

/-- `jne rel32: 0F 85` (R226). -/
def execJneRel32 (p : Prefixes) (rel : BitVec 32) (s : State) : Result :=
  runConditionalJump .ne (relTarget s.rip (Instr.jneRel32 p rel).length (rel.signExtend 64)) s

/-- `jbe rel32: 0F 86` (R227). -/
def execJbeRel32 (p : Prefixes) (rel : BitVec 32) (s : State) : Result :=
  runConditionalJump .be (relTarget s.rip (Instr.jbeRel32 p rel).length (rel.signExtend 64)) s

/-- `ja rel32: 0F 87` (R228). -/
def execJaRel32 (p : Prefixes) (rel : BitVec 32) (s : State) : Result :=
  runConditionalJump .a (relTarget s.rip (Instr.jaRel32 p rel).length (rel.signExtend 64)) s

/-- `js rel32: 0F 88` (R229). -/
def execJsRel32 (p : Prefixes) (rel : BitVec 32) (s : State) : Result :=
  runConditionalJump .s (relTarget s.rip (Instr.jsRel32 p rel).length (rel.signExtend 64)) s

/-- `jns rel32: 0F 89` (R230). -/
def execJnsRel32 (p : Prefixes) (rel : BitVec 32) (s : State) : Result :=
  runConditionalJump .ns (relTarget s.rip (Instr.jnsRel32 p rel).length (rel.signExtend 64)) s

/-- `jp rel32: 0F 8A` (R231). -/
def execJpRel32 (p : Prefixes) (rel : BitVec 32) (s : State) : Result :=
  runConditionalJump .p (relTarget s.rip (Instr.jpRel32 p rel).length (rel.signExtend 64)) s

/-- `jnp rel32: 0F 8B` (R232). -/
def execJnpRel32 (p : Prefixes) (rel : BitVec 32) (s : State) : Result :=
  runConditionalJump .np (relTarget s.rip (Instr.jnpRel32 p rel).length (rel.signExtend 64)) s

/-- `jl rel32: 0F 8C` (R233). -/
def execJlRel32 (p : Prefixes) (rel : BitVec 32) (s : State) : Result :=
  runConditionalJump .l (relTarget s.rip (Instr.jlRel32 p rel).length (rel.signExtend 64)) s

/-- `jge rel32: 0F 8D` (R234). -/
def execJgeRel32 (p : Prefixes) (rel : BitVec 32) (s : State) : Result :=
  runConditionalJump .ge (relTarget s.rip (Instr.jgeRel32 p rel).length (rel.signExtend 64)) s

/-- `jle rel32: 0F 8E` (R235). -/
def execJleRel32 (p : Prefixes) (rel : BitVec 32) (s : State) : Result :=
  runConditionalJump .le (relTarget s.rip (Instr.jleRel32 p rel).length (rel.signExtend 64)) s

/-- `jg rel32: 0F 8F` (R236). -/
def execJgRel32 (p : Prefixes) (rel : BitVec 32) (s : State) : Result :=
  runConditionalJump .g (relTarget s.rip (Instr.jgRel32 p rel).length (rel.signExtend 64)) s

end Sys2Proof.Machine
end

