-- ==== Sys2Proof/Machine/DataMovement.lean ====
section
/-! DEFINITION. Data movement: Mov, MovZX, Lea (41_data_movement.md). -/

namespace Sys2Proof.Machine

/-- Mov(dst, src) (R170). -/
def runMov (len : Nat) (dst src : Operand) (s : State) : Result :=
  let w := Operand.width dst
  access (readOp len w src s) s fun v =>
  access (writeOp len w dst v s) s fun t =>
  .next t

/-- MovZX(dst, src): the source at its own width, zero-extended (R172). -/
def runMovzx (len : Nat) (dst src : Operand) (s : State) : Result :=
  let w := Operand.width dst
  access (readOp len (Operand.width src) src s) s fun v =>
  access (writeOp len w dst (v.zeroExtend w.bits) s) s fun t =>
  .next t

/-- Lea(dst, src): the address without a segment check or an access (R173). The source is a memory operand; another
shape does not decode and is an operand error (40_engine_and_operands.md R157). -/
def runLea (len : Nat) (dst src : Operand) (s : State) : Result :=
  match src with
  | .mem m =>
    let w := Operand.width dst
    access (writeOp len w dst ((ea0 len m s).setWidth w.bits) s) s fun t =>
    .next t
  | _ => raiseAccess .operand s

/-- `mov r/m8, r8: 88` (R170). -/
def execMovRm8R8 (p : Prefixes) (reg : BitVec 3) (rm : Rm) (s : State) : Result :=
  runMov (Instr.movRm8R8 p reg rm).length (rmOperand p .w8 rm) (regOperand p .w8 reg) s

/-- `mov r/m, r: 89` (R170). -/
def execMovRmR (p : Prefixes) (reg : BitVec 3) (rm : Rm) (s : State) : Result :=
  runMov (Instr.movRmR p reg rm).length (rmOperand p p.vWidth rm) (regOperand p p.vWidth reg) s

/-- `mov r8, r/m8: 8A` (R170). -/
def execMovR8Rm8 (p : Prefixes) (reg : BitVec 3) (rm : Rm) (s : State) : Result :=
  runMov (Instr.movR8Rm8 p reg rm).length (regOperand p .w8 reg) (rmOperand p .w8 rm) s

/-- `mov r, r/m: 8B` (R170). -/
def execMovRRm (p : Prefixes) (reg : BitVec 3) (rm : Rm) (s : State) : Result :=
  runMov (Instr.movRRm p reg rm).length (regOperand p p.vWidth reg) (rmOperand p p.vWidth rm) s

/-- `lea r, m: 8D` (R173). -/
def execLeaRM (p : Prefixes) (reg : BitVec 3) (rm : Rm) (s : State) : Result :=
  runLea (Instr.leaRM p reg rm).length (regOperand p p.vWidth reg) (rmOperand p p.vWidth rm) s

/-- `mov r8, imm8: B0+r` (R170). -/
def execMovR8Imm8 (p : Prefixes) (opreg : BitVec 3) (imm : BitVec 8) (s : State) : Result :=
  runMov (Instr.movR8Imm8 p opreg imm).length (opregOperand p .w8 opreg) (.imm (imm.signExtend 64)) s

/-- `mov r, imm16/32/64: B8+r` (R170). -/
def execMovRImm (p : Prefixes) (opreg : BitVec 3) (imm : ImmV) (s : State) : Result :=
  runMov (Instr.movRImm p opreg imm).length (opregOperand p p.vWidth opreg) (.imm imm.value) s

/-- `mov r/m8, imm8: C6 /0` (R170). -/
def execMovRm8Imm8 (p : Prefixes) (rm : Rm) (imm : BitVec 8) (s : State) : Result :=
  runMov (Instr.movRm8Imm8 p rm imm).length (rmOperand p .w8 rm) (.imm (imm.signExtend 64)) s

/-- `mov r/m, imm16/32: C7 /0` (R170). -/
def execMovRmImm (p : Prefixes) (rm : Rm) (imm : ImmZ) (s : State) : Result :=
  runMov (Instr.movRmImm p rm imm).length (rmOperand p p.vWidth rm) (.imm imm.value) s

/-- `movzx r, r/m8: 0F B6` (R172). -/
def execMovzxRRm8 (p : Prefixes) (reg : BitVec 3) (rm : Rm) (s : State) : Result :=
  runMovzx (Instr.movzxRRm8 p reg rm).length (regOperand p p.vWidth reg) (rmOperand p .w8 rm) s

/-- `movzx r, r/m16: 0F B7` (R172). -/
def execMovzxRRm16 (p : Prefixes) (reg : BitVec 3) (rm : Rm) (s : State) : Result :=
  runMovzx (Instr.movzxRRm16 p reg rm).length (regOperand p p.vWidth reg) (rmOperand p .w16 rm) s

end Sys2Proof.Machine
end

