-- ==== Sys2Proof/Machine/Logic.lean ====
section
/-! DEFINITION. Logic and shifts: Test, Xor, Shl, Shr (43_logic_shift.md). -/

namespace Sys2Proof.Machine

/-- Test(a, b) (R201). -/
def runTest (len : Nat) (x y : Operand) (s : State) : Result :=
  binaryTest len x y s (fun _ a b => a &&& b) fun _ _ _ r f => updateLogic r f

/-- Xor(dst, src) (R202). -/
def runXor (len : Nat) (dst src : Operand) (s : State) : Result :=
  binaryWrite len dst src s (fun _ a b => a ^^^ b) fun _ _ _ r f => updateLogic r f

/-- A shift: read the destination, read the count at 8 bits, mask it, write the result even when the masked count is
0, then the flags (R203 to R206). -/
def runShift (d : ShiftDir) (len : Nat) (dst count : Operand) (s : State) : Result :=
  let w := Operand.width dst
  access (readOp len w dst s) s fun a =>
  access (readOp len .w8 count s) s fun c =>
  let k := shiftCount w c
  let r := shiftValue d a k
  access (writeOp len w dst r s) s fun t =>
  .next (shiftFlags d a r k t)

/-- Shl(dst, count) (R205). -/
def runShl (len : Nat) (dst count : Operand) (s : State) : Result := runShift .left len dst count s

/-- Shr(dst, count) (R206). -/
def runShr (len : Nat) (dst count : Operand) (s : State) : Result := runShift .right len dst count s

/-- `xor r/m8, r8: 30` (R202). -/
def execXorRm8R8 (p : Prefixes) (reg : BitVec 3) (rm : Rm) (s : State) : Result :=
  runXor (Instr.xorRm8R8 p reg rm).length (rmOperand p .w8 rm) (regOperand p .w8 reg) s

/-- `xor r/m, r: 31` (R202). -/
def execXorRmR (p : Prefixes) (reg : BitVec 3) (rm : Rm) (s : State) : Result :=
  runXor (Instr.xorRmR p reg rm).length (rmOperand p p.vWidth rm) (regOperand p p.vWidth reg) s

/-- `xor r8, r/m8: 32` (R202). -/
def execXorR8Rm8 (p : Prefixes) (reg : BitVec 3) (rm : Rm) (s : State) : Result :=
  runXor (Instr.xorR8Rm8 p reg rm).length (regOperand p .w8 reg) (rmOperand p .w8 rm) s

/-- `xor r, r/m: 33` (R202). -/
def execXorRRm (p : Prefixes) (reg : BitVec 3) (rm : Rm) (s : State) : Result :=
  runXor (Instr.xorRRm p reg rm).length (regOperand p p.vWidth reg) (rmOperand p p.vWidth rm) s

/-- `xor al, imm8: 34` (R202). -/
def execXorAlImm8 (p : Prefixes) (imm : BitVec 8) (s : State) : Result :=
  runXor (Instr.xorAlImm8 p imm).length (accOperand .w8) (.imm (imm.signExtend 64)) s

/-- `xor ax/eax/rax, imm16/32: 35` (R202). -/
def execXorAccImm (p : Prefixes) (imm : ImmZ) (s : State) : Result :=
  runXor (Instr.xorAccImm p imm).length (accOperand p.vWidth) (.imm imm.value) s

/-- `xor r/m8, imm8: 80 /6` (R202). -/
def execXorRm8Imm8 (p : Prefixes) (rm : Rm) (imm : BitVec 8) (s : State) : Result :=
  runXor (Instr.xorRm8Imm8 p rm imm).length (rmOperand p .w8 rm) (.imm (imm.signExtend 64)) s

/-- `xor r/m, imm16/32: 81 /6` (R202). -/
def execXorRmImm (p : Prefixes) (rm : Rm) (imm : ImmZ) (s : State) : Result :=
  runXor (Instr.xorRmImm p rm imm).length (rmOperand p p.vWidth rm) (.imm imm.value) s

/-- `xor r/m, imm8: 83 /6` (R202). -/
def execXorRmImm8 (p : Prefixes) (rm : Rm) (imm : BitVec 8) (s : State) : Result :=
  runXor (Instr.xorRmImm8 p rm imm).length (rmOperand p p.vWidth rm) (.imm (imm.signExtend 64)) s

/-- `test r/m8, r8: 84` (R201). -/
def execTestRm8R8 (p : Prefixes) (reg : BitVec 3) (rm : Rm) (s : State) : Result :=
  runTest (Instr.testRm8R8 p reg rm).length (rmOperand p .w8 rm) (regOperand p .w8 reg) s

/-- `test r/m, r: 85` (R201). -/
def execTestRmR (p : Prefixes) (reg : BitVec 3) (rm : Rm) (s : State) : Result :=
  runTest (Instr.testRmR p reg rm).length (rmOperand p p.vWidth rm) (regOperand p p.vWidth reg) s

/-- `test al, imm8: A8` (R201). -/
def execTestAlImm8 (p : Prefixes) (imm : BitVec 8) (s : State) : Result :=
  runTest (Instr.testAlImm8 p imm).length (accOperand .w8) (.imm (imm.signExtend 64)) s

/-- `test ax/eax/rax, imm16/32: A9` (R201). -/
def execTestAccImm (p : Prefixes) (imm : ImmZ) (s : State) : Result :=
  runTest (Instr.testAccImm p imm).length (accOperand p.vWidth) (.imm imm.value) s

/-- `shl r/m8, imm8: C0 /4` (R205). -/
def execShlRm8Imm8 (p : Prefixes) (rm : Rm) (imm : BitVec 8) (s : State) : Result :=
  runShl (Instr.shlRm8Imm8 p rm imm).length (rmOperand p .w8 rm) (.imm (imm.zeroExtend 64)) s

/-- `shr r/m8, imm8: C0 /5` (R206). -/
def execShrRm8Imm8 (p : Prefixes) (rm : Rm) (imm : BitVec 8) (s : State) : Result :=
  runShr (Instr.shrRm8Imm8 p rm imm).length (rmOperand p .w8 rm) (.imm (imm.zeroExtend 64)) s

/-- `shl r/m, imm8: C1 /4` (R205). -/
def execShlRmImm8 (p : Prefixes) (rm : Rm) (imm : BitVec 8) (s : State) : Result :=
  runShl (Instr.shlRmImm8 p rm imm).length (rmOperand p p.vWidth rm) (.imm (imm.zeroExtend 64)) s

/-- `shr r/m, imm8: C1 /5` (R206). -/
def execShrRmImm8 (p : Prefixes) (rm : Rm) (imm : BitVec 8) (s : State) : Result :=
  runShr (Instr.shrRmImm8 p rm imm).length (rmOperand p p.vWidth rm) (.imm (imm.zeroExtend 64)) s

/-- `shl r/m8, 1: D0 /4` (R205). -/
def execShlRm8One (p : Prefixes) (rm : Rm) (s : State) : Result :=
  runShl (Instr.shlRm8One p rm).length (rmOperand p .w8 rm) (.imm 1) s

/-- `shr r/m8, 1: D0 /5` (R206). -/
def execShrRm8One (p : Prefixes) (rm : Rm) (s : State) : Result :=
  runShr (Instr.shrRm8One p rm).length (rmOperand p .w8 rm) (.imm 1) s

/-- `shl r/m, 1: D1 /4` (R205). -/
def execShlRmOne (p : Prefixes) (rm : Rm) (s : State) : Result :=
  runShl (Instr.shlRmOne p rm).length (rmOperand p p.vWidth rm) (.imm 1) s

/-- `shr r/m, 1: D1 /5` (R206). -/
def execShrRmOne (p : Prefixes) (rm : Rm) (s : State) : Result :=
  runShr (Instr.shrRmOne p rm).length (rmOperand p p.vWidth rm) (.imm 1) s

/-- `shl r/m8, cl: D2 /4` (R205). -/
def execShlRm8Cl (p : Prefixes) (rm : Rm) (s : State) : Result :=
  runShl (Instr.shlRm8Cl p rm).length (rmOperand p .w8 rm) clOperand s

/-- `shr r/m8, cl: D2 /5` (R206). -/
def execShrRm8Cl (p : Prefixes) (rm : Rm) (s : State) : Result :=
  runShr (Instr.shrRm8Cl p rm).length (rmOperand p .w8 rm) clOperand s

/-- `shl r/m, cl: D3 /4` (R205). -/
def execShlRmCl (p : Prefixes) (rm : Rm) (s : State) : Result :=
  runShl (Instr.shlRmCl p rm).length (rmOperand p p.vWidth rm) clOperand s

/-- `shr r/m, cl: D3 /5` (R206). -/
def execShrRmCl (p : Prefixes) (rm : Rm) (s : State) : Result :=
  runShr (Instr.shrRmCl p rm).length (rmOperand p p.vWidth rm) clOperand s

/-- `test r/m8, imm8: F6 /0` (R201). -/
def execTestRm8Imm8 (p : Prefixes) (rm : Rm) (imm : BitVec 8) (s : State) : Result :=
  runTest (Instr.testRm8Imm8 p rm imm).length (rmOperand p .w8 rm) (.imm (imm.signExtend 64)) s

/-- `test r/m, imm16/32: F7 /0` (R201). -/
def execTestRmImm (p : Prefixes) (rm : Rm) (imm : ImmZ) (s : State) : Result :=
  runTest (Instr.testRmImm p rm imm).length (rmOperand p p.vWidth rm) (.imm imm.value) s

end Sys2Proof.Machine
end

