-- ==== Sys2Proof/Machine/Misc.lean ====
section
/-! DEFINITION. Miscellaneous: Nop, Cld, Int3, and the absence of a row, Invalid (47_misc.md). -/

namespace Sys2Proof.Machine

/-- Nop (R260). -/
def runNop (s : State) : Result := .next s

/-- Cld (R261). -/
def runCld (s : State) : Result := .next (s.setFlags (putBit s.flags bitDF false))

/-- Int3: `raise Breakpoint(pc)`, no state changed (R262). -/
def runInt3 (s : State) : Result := .fault (.breakpoint s.rip s)

/-- Invalid: `raise InvalidInstruction(pc)`, no state changed (R263). -/
def runInvalid (s : State) : Result := .fault (.invalidInstruction s.rip s)

/-- `nop: 90` (R260). -/
def execNop (_p : Prefixes) (s : State) : Result :=
  runNop s

/-- `int3: CC` (R262). -/
def execInt3 (_p : Prefixes) (s : State) : Result :=
  runInt3 s

/-- `cld: FC` (R261). -/
def execCld (_p : Prefixes) (s : State) : Result :=
  runCld s

/-- `nop r/m: 0F 1F /0` (R260). -/
def execNopRm (_p : Prefixes) (_rm : Rm) (s : State) : Result :=
  runNop s

end Sys2Proof.Machine
end

