-- ==== Sys2Proof/Machine/Strings.lean ====
section
/-! DEFINITION. Repeated string instructions: Rep(Mov), Rep(Stos), Rep(Lods), Rep(Scas) (46_string.md). -/

namespace Sys2Proof.Machine

/-- How an iteration ended: the loop goes on, the loop is left, or the step ends in a fault or refusal. -/
inductive Iteration where
  | again (s : State)
  | leave (s : State)
  | stop (r : Result)

/-- The step of the pointers: +1 when DF = 0, -1 when DF = 1 (R250 (c)). -/
def stringStep (s : State) : Word := if s.flags.getLsbD bitDF then -1 else 1

/-- Perform an access of an iteration, or end the step in the state `s` (R250 (e)). -/
def iterAccess {α : Type} (x : Except AccessError α) (s : State) (go : α → Iteration) : Iteration :=
  match x with
  | .ok v => go v
  | .error e => .stop (raiseAccess e s)

/-- "while rcx != 0", at most `n` iterations (R250 (b)). -/
def repLoop (body : State → Iteration) : Nat → State → Result
  | 0, s => .next s
  | n + 1, s =>
    if s.reg rcx = 0 then .next s
    else
      match body s with
      | .again t => repLoop body n t
      | .leave t => .next t
      | .stop r => r

/-- The whole loop in one step (R250 (a)): every iteration decrements rcx, so rcx iterations are enough
(70_reset_and_hazards.md R315). -/
def runRep (body : State → Iteration) (s : State) : Result := repLoop body (s.reg rcx).toNat s

/-- One iteration of Rep(Mov) (R251). -/
def movsIteration (s : State) : Iteration :=
  iterAccess (memRead .w8 (s.reg rsi) s) s fun b =>
  iterAccess (memWrite .w8 (s.reg rdi) b s) s fun t =>
  .again (((t.setReg rsi (t.reg rsi + stringStep t)).setReg rdi (t.reg rdi + stringStep t)).setReg rcx
    (t.reg rcx - 1))

/-- One iteration of Rep(Stos) (R252). -/
def stosIteration (s : State) : Iteration :=
  iterAccess (memWrite .w8 (s.reg rdi) ((s.reg rax).extractLsb' 0 8) s) s fun t =>
  .again ((t.setReg rdi (t.reg rdi + stringStep t)).setReg rcx (t.reg rcx - 1))

/-- One iteration of Rep(Lods) (R253). -/
def lodsIteration (s : State) : Iteration :=
  iterAccess (memRead .w8 (s.reg rsi) s) s fun b =>
  .again (((s.regWrite ⟨rax, .low8⟩ b).setReg rsi (s.reg rsi + stringStep s)).setReg rcx (s.reg rcx - 1))

/-- One iteration of Rep(Scas): the flags of `cmp al, [rdi]`, and the loop is left on ZF = 0 (R254). -/
def scasIteration (s : State) : Iteration :=
  iterAccess (memRead .w8 (s.reg rdi) s) s fun (b : BitVec 8) =>
  let a : BitVec 8 := (s.reg rax).extractLsb' 0 8
  let t := s.setFlags (updateSub a b (a - b) s.flags)
  let u := (t.setReg rdi (t.reg rdi + stringStep t)).setReg rcx (t.reg rcx - 1)
  if u.flags.getLsbD bitZF then .again u else .leave u

/-- Rep(Mov) (R251). -/
def runRepMov (s : State) : Result := runRep movsIteration s

/-- Rep(Stos) (R252). -/
def runRepStos (s : State) : Result := runRep stosIteration s

/-- Rep(Lods) (R253). -/
def runRepLods (s : State) : Result := runRep lodsIteration s

/-- Rep(Scas) (R254). -/
def runRepScas (s : State) : Result := runRep scasIteration s

/-- `rep movsb: F3 A4` (R251). -/
def execRepMovsb (_p : Prefixes) (s : State) : Result :=
  runRepMov s

/-- `rep stosb: F3 AA` (R252). -/
def execRepStosb (_p : Prefixes) (s : State) : Result :=
  runRepStos s

/-- `rep lodsb: F3 AC` (R253). -/
def execRepLodsb (_p : Prefixes) (s : State) : Result :=
  runRepLods s

/-- `repe scasb: F3 AE` (R254). -/
def execRepeScasb (_p : Prefixes) (s : State) : Result :=
  runRepScas s

end Sys2Proof.Machine
end

