-- ==== Sys2Proof/Machine/Dispatch.lean ====
section
/-! DEFINITION. One arm for each constructor of `Instr` (40_engine_and_operands.md R152). -/

namespace Sys2Proof.Machine

def exec (i : Instr) (s : State) : Host.Outcome State Fault Refusal :=
  match i with
  | .addRm8R8 p reg rm => Sys2Proof.Machine.execAddRm8R8 p reg rm s
  | .addRmR p reg rm => Sys2Proof.Machine.execAddRmR p reg rm s
  | .addR8Rm8 p reg rm => Sys2Proof.Machine.execAddR8Rm8 p reg rm s
  | .addRRm p reg rm => Sys2Proof.Machine.execAddRRm p reg rm s
  | .addAlImm8 p imm => Sys2Proof.Machine.execAddAlImm8 p imm s
  | .addAccImm p imm => Sys2Proof.Machine.execAddAccImm p imm s
  | .addRm8Imm8 p rm imm => Sys2Proof.Machine.execAddRm8Imm8 p rm imm s
  | .addRmImm p rm imm => Sys2Proof.Machine.execAddRmImm p rm imm s
  | .addRmImm8 p rm imm => Sys2Proof.Machine.execAddRmImm8 p rm imm s
  | .adcRm8R8 p reg rm => Sys2Proof.Machine.execAdcRm8R8 p reg rm s
  | .adcRmR p reg rm => Sys2Proof.Machine.execAdcRmR p reg rm s
  | .adcR8Rm8 p reg rm => Sys2Proof.Machine.execAdcR8Rm8 p reg rm s
  | .adcRRm p reg rm => Sys2Proof.Machine.execAdcRRm p reg rm s
  | .adcAlImm8 p imm => Sys2Proof.Machine.execAdcAlImm8 p imm s
  | .adcAccImm p imm => Sys2Proof.Machine.execAdcAccImm p imm s
  | .adcRm8Imm8 p rm imm => Sys2Proof.Machine.execAdcRm8Imm8 p rm imm s
  | .adcRmImm p rm imm => Sys2Proof.Machine.execAdcRmImm p rm imm s
  | .adcRmImm8 p rm imm => Sys2Proof.Machine.execAdcRmImm8 p rm imm s
  | .subRm8R8 p reg rm => Sys2Proof.Machine.execSubRm8R8 p reg rm s
  | .subRmR p reg rm => Sys2Proof.Machine.execSubRmR p reg rm s
  | .subR8Rm8 p reg rm => Sys2Proof.Machine.execSubR8Rm8 p reg rm s
  | .subRRm p reg rm => Sys2Proof.Machine.execSubRRm p reg rm s
  | .subAlImm8 p imm => Sys2Proof.Machine.execSubAlImm8 p imm s
  | .subAccImm p imm => Sys2Proof.Machine.execSubAccImm p imm s
  | .subRm8Imm8 p rm imm => Sys2Proof.Machine.execSubRm8Imm8 p rm imm s
  | .subRmImm p rm imm => Sys2Proof.Machine.execSubRmImm p rm imm s
  | .subRmImm8 p rm imm => Sys2Proof.Machine.execSubRmImm8 p rm imm s
  | .xorRm8R8 p reg rm => Sys2Proof.Machine.execXorRm8R8 p reg rm s
  | .xorRmR p reg rm => Sys2Proof.Machine.execXorRmR p reg rm s
  | .xorR8Rm8 p reg rm => Sys2Proof.Machine.execXorR8Rm8 p reg rm s
  | .xorRRm p reg rm => Sys2Proof.Machine.execXorRRm p reg rm s
  | .xorAlImm8 p imm => Sys2Proof.Machine.execXorAlImm8 p imm s
  | .xorAccImm p imm => Sys2Proof.Machine.execXorAccImm p imm s
  | .xorRm8Imm8 p rm imm => Sys2Proof.Machine.execXorRm8Imm8 p rm imm s
  | .xorRmImm p rm imm => Sys2Proof.Machine.execXorRmImm p rm imm s
  | .xorRmImm8 p rm imm => Sys2Proof.Machine.execXorRmImm8 p rm imm s
  | .cmpRm8R8 p reg rm => Sys2Proof.Machine.execCmpRm8R8 p reg rm s
  | .cmpRmR p reg rm => Sys2Proof.Machine.execCmpRmR p reg rm s
  | .cmpR8Rm8 p reg rm => Sys2Proof.Machine.execCmpR8Rm8 p reg rm s
  | .cmpRRm p reg rm => Sys2Proof.Machine.execCmpRRm p reg rm s
  | .cmpAlImm8 p imm => Sys2Proof.Machine.execCmpAlImm8 p imm s
  | .cmpAccImm p imm => Sys2Proof.Machine.execCmpAccImm p imm s
  | .cmpRm8Imm8 p rm imm => Sys2Proof.Machine.execCmpRm8Imm8 p rm imm s
  | .cmpRmImm p rm imm => Sys2Proof.Machine.execCmpRmImm p rm imm s
  | .cmpRmImm8 p rm imm => Sys2Proof.Machine.execCmpRmImm8 p rm imm s
  | .pushR64 p opreg => Sys2Proof.Machine.execPushR64 p opreg s
  | .popR64 p opreg => Sys2Proof.Machine.execPopR64 p opreg s
  | .pushImm32 p imm => Sys2Proof.Machine.execPushImm32 p imm s
  | .pushImm8 p imm => Sys2Proof.Machine.execPushImm8 p imm s
  | .joRel8 p rel => Sys2Proof.Machine.execJoRel8 p rel s
  | .jnoRel8 p rel => Sys2Proof.Machine.execJnoRel8 p rel s
  | .jbRel8 p rel => Sys2Proof.Machine.execJbRel8 p rel s
  | .jaeRel8 p rel => Sys2Proof.Machine.execJaeRel8 p rel s
  | .jeRel8 p rel => Sys2Proof.Machine.execJeRel8 p rel s
  | .jneRel8 p rel => Sys2Proof.Machine.execJneRel8 p rel s
  | .jbeRel8 p rel => Sys2Proof.Machine.execJbeRel8 p rel s
  | .jaRel8 p rel => Sys2Proof.Machine.execJaRel8 p rel s
  | .jsRel8 p rel => Sys2Proof.Machine.execJsRel8 p rel s
  | .jnsRel8 p rel => Sys2Proof.Machine.execJnsRel8 p rel s
  | .jpRel8 p rel => Sys2Proof.Machine.execJpRel8 p rel s
  | .jnpRel8 p rel => Sys2Proof.Machine.execJnpRel8 p rel s
  | .jlRel8 p rel => Sys2Proof.Machine.execJlRel8 p rel s
  | .jgeRel8 p rel => Sys2Proof.Machine.execJgeRel8 p rel s
  | .jleRel8 p rel => Sys2Proof.Machine.execJleRel8 p rel s
  | .jgRel8 p rel => Sys2Proof.Machine.execJgRel8 p rel s
  | .testRm8R8 p reg rm => Sys2Proof.Machine.execTestRm8R8 p reg rm s
  | .testRmR p reg rm => Sys2Proof.Machine.execTestRmR p reg rm s
  | .movRm8R8 p reg rm => Sys2Proof.Machine.execMovRm8R8 p reg rm s
  | .movRmR p reg rm => Sys2Proof.Machine.execMovRmR p reg rm s
  | .movR8Rm8 p reg rm => Sys2Proof.Machine.execMovR8Rm8 p reg rm s
  | .movRRm p reg rm => Sys2Proof.Machine.execMovRRm p reg rm s
  | .leaRM p reg rm => Sys2Proof.Machine.execLeaRM p reg rm s
  | .popRm64 p rm => Sys2Proof.Machine.execPopRm64 p rm s
  | .nop p => Sys2Proof.Machine.execNop p s
  | .repMovsb p => Sys2Proof.Machine.execRepMovsb p s
  | .testAlImm8 p imm => Sys2Proof.Machine.execTestAlImm8 p imm s
  | .testAccImm p imm => Sys2Proof.Machine.execTestAccImm p imm s
  | .repStosb p => Sys2Proof.Machine.execRepStosb p s
  | .repLodsb p => Sys2Proof.Machine.execRepLodsb p s
  | .repeScasb p => Sys2Proof.Machine.execRepeScasb p s
  | .movR8Imm8 p opreg imm => Sys2Proof.Machine.execMovR8Imm8 p opreg imm s
  | .movRImm p opreg imm => Sys2Proof.Machine.execMovRImm p opreg imm s
  | .shlRm8Imm8 p rm imm => Sys2Proof.Machine.execShlRm8Imm8 p rm imm s
  | .shrRm8Imm8 p rm imm => Sys2Proof.Machine.execShrRm8Imm8 p rm imm s
  | .shlRmImm8 p rm imm => Sys2Proof.Machine.execShlRmImm8 p rm imm s
  | .shrRmImm8 p rm imm => Sys2Proof.Machine.execShrRmImm8 p rm imm s
  | .ret p => Sys2Proof.Machine.execRet p s
  | .movRm8Imm8 p rm imm => Sys2Proof.Machine.execMovRm8Imm8 p rm imm s
  | .movRmImm p rm imm => Sys2Proof.Machine.execMovRmImm p rm imm s
  | .leave p => Sys2Proof.Machine.execLeave p s
  | .int3 p => Sys2Proof.Machine.execInt3 p s
  | .shlRm8One p rm => Sys2Proof.Machine.execShlRm8One p rm s
  | .shrRm8One p rm => Sys2Proof.Machine.execShrRm8One p rm s
  | .shlRmOne p rm => Sys2Proof.Machine.execShlRmOne p rm s
  | .shrRmOne p rm => Sys2Proof.Machine.execShrRmOne p rm s
  | .shlRm8Cl p rm => Sys2Proof.Machine.execShlRm8Cl p rm s
  | .shrRm8Cl p rm => Sys2Proof.Machine.execShrRm8Cl p rm s
  | .shlRmCl p rm => Sys2Proof.Machine.execShlRmCl p rm s
  | .shrRmCl p rm => Sys2Proof.Machine.execShrRmCl p rm s
  | .jrcxzRel8 p rel => Sys2Proof.Machine.execJrcxzRel8 p rel s
  | .callRel32 p rel => Sys2Proof.Machine.execCallRel32 p rel s
  | .jmpRel32 p rel => Sys2Proof.Machine.execJmpRel32 p rel s
  | .jmpRel8 p rel => Sys2Proof.Machine.execJmpRel8 p rel s
  | .testRm8Imm8 p rm imm => Sys2Proof.Machine.execTestRm8Imm8 p rm imm s
  | .testRmImm p rm imm => Sys2Proof.Machine.execTestRmImm p rm imm s
  | .cld p => Sys2Proof.Machine.execCld p s
  | .incRm8 p rm => Sys2Proof.Machine.execIncRm8 p rm s
  | .decRm8 p rm => Sys2Proof.Machine.execDecRm8 p rm s
  | .incRm p rm => Sys2Proof.Machine.execIncRm p rm s
  | .decRm p rm => Sys2Proof.Machine.execDecRm p rm s
  | .callRm64 p rm => Sys2Proof.Machine.execCallRm64 p rm s
  | .jmpRm64 p rm => Sys2Proof.Machine.execJmpRm64 p rm s
  | .pushRm64 p rm => Sys2Proof.Machine.execPushRm64 p rm s
  | .nopRm p rm => Sys2Proof.Machine.execNopRm p rm s
  | .joRel32 p rel => Sys2Proof.Machine.execJoRel32 p rel s
  | .jnoRel32 p rel => Sys2Proof.Machine.execJnoRel32 p rel s
  | .jbRel32 p rel => Sys2Proof.Machine.execJbRel32 p rel s
  | .jaeRel32 p rel => Sys2Proof.Machine.execJaeRel32 p rel s
  | .jeRel32 p rel => Sys2Proof.Machine.execJeRel32 p rel s
  | .jneRel32 p rel => Sys2Proof.Machine.execJneRel32 p rel s
  | .jbeRel32 p rel => Sys2Proof.Machine.execJbeRel32 p rel s
  | .jaRel32 p rel => Sys2Proof.Machine.execJaRel32 p rel s
  | .jsRel32 p rel => Sys2Proof.Machine.execJsRel32 p rel s
  | .jnsRel32 p rel => Sys2Proof.Machine.execJnsRel32 p rel s
  | .jpRel32 p rel => Sys2Proof.Machine.execJpRel32 p rel s
  | .jnpRel32 p rel => Sys2Proof.Machine.execJnpRel32 p rel s
  | .jlRel32 p rel => Sys2Proof.Machine.execJlRel32 p rel s
  | .jgeRel32 p rel => Sys2Proof.Machine.execJgeRel32 p rel s
  | .jleRel32 p rel => Sys2Proof.Machine.execJleRel32 p rel s
  | .jgRel32 p rel => Sys2Proof.Machine.execJgRel32 p rel s
  | .movzxRRm8 p reg rm => Sys2Proof.Machine.execMovzxRRm8 p reg rm s
  | .movzxRRm16 p reg rm => Sys2Proof.Machine.execMovzxRRm16 p reg rm s

end Sys2Proof.Machine
end

