-- ==== Sys2Proof/Machine/Step.lean ====
section
/-! DEFINITION. One step of the engine (40_engine_and_operands.md R150, R151). -/

namespace Sys2Proof.Machine

/-- Fetch at pc, decode, dispatch, advance. Both no-row results, `Invalid` and `Undecodable`, raise InvalidInstruction
(R151 cases 3 and 4), so the length oracle is not asked. -/
def step (s : State) : Host.Outcome State Fault Refusal :=
  match fetchWindow s.bus s.rip with
  | .error e => raiseAccess e s
  | .ok window =>
    match decodeRow window with
    | .truncated => .fault (.decodeFault s.rip s)
    | .noRow => runInvalid s
    | .row i => finishStep s.rip i.length (exec i s)

/-- The state in which the next step fetches the instruction of an opcode-table word, zeros up to 15 bytes. It stands
for the host that builds the bus (60_exceptions.md R290). Log entry 7. -/
def State.withFetchWord (s : State) (nbits w : Nat) : State := placeAtPc s (tableBytes nbits w)

end Sys2Proof.Machine
end

