-- ==== Sys2Proof/Machine/Stream.lean ====
section
/-! DEFINITION. The decoder's stream mode (30_encoding.md R135 to R141): the sequence it yields, and the buffered iterator
that yields it. -/

namespace Sys2Proof.Machine

/-! ## The sequence (R136, R137) -/

/-- At most `n` items of the sequence of R136: item k is the decode of the first min(15, remaining) bytes, and the
sequence ends where decode gives no item. DESIGN CHOICE (log entry 17): an item address that passes 2^64 wraps; R136 gives
only `a_{k+1} = a_k + length`, and decision D10 does not name the stream. -/
def streamItems : Nat → List Byte → Word → List Instruction
  | 0, _, _ => []
  | n + 1, bytes, a =>
    match decode (bytes.take Config.maxLen) a with
    | .decoded ins => ins :: streamItems n (bytes.drop ins.length) (a + BitVec.ofNat 64 ins.length)
    | _ => []

/-- The whole sequence: every item takes at least one byte. -/
def streamSequence (bytes : List Byte) (a : Word) : List Instruction := streamItems bytes.length bytes a

/-! ## The iterator (R135, R138) -/

/-- A stream over a byte source from a starting address (R135, 70_reset_and_hazards.md R303). -/
def streamCreate (bytes : List Byte) (a : Word) (chunk : Nat) : Stream :=
  ⟨bytes, a, chunk, [], [], Config.avg0, []⟩

/-- CHUNK is at least 15 and the buffer holds at most CHUNK bytes (10_state.md R40, 70_reset_and_hazards.md R303). -/
def Stream.wf (st : Stream) : Bool :=
  decide (Config.maxLen ≤ st.chunk) && decide (st.buffer.length + st.leftover.length ≤ st.chunk)

/-- What decoding at the head of the buffer gives: an item, the need of the next fill, or the end. -/
inductive Head where
  | item (ins : Instruction)
  | needBytes
  | ended

/-- Decode at the head of the buffer. While bytes are still to come, a window of fewer than 15 bytes is not the window of
R136, so only an admitted instruction is taken from it; anything else waits for the next fill (R136, R138; log entry
9). -/
def streamHead (buffer : List Byte) (last : Bool) (a : Word) : Head :=
  let short := decide (buffer.length < Config.maxLen) && !last
  match decode (buffer.take Config.maxLen) a with
  | .decoded ins => if short && ins.kind == .invalid then .needBytes else .item ins
  | .truncated => if last then .ended else .needBytes
  | .undecodable => if short then .needBytes else .ended

/-- Decode at most `n` instructions from the buffer into the queue; an undecoded tail is set aside as leftover (R138).
The address wraps modulo 2^64 as in `streamItems` (DESIGN CHOICE, log entry 17). -/
def streamBatch : Nat → Stream → Stream
  | 0, st => st
  | n + 1, st =>
    match streamHead st.buffer st.source.isEmpty st.address with
    | .item ins =>
      streamBatch n
        { st with
          buffer := st.buffer.drop ins.length
          address := st.address + BitVec.ofNat 64 ins.length
          average := Config.nextAverage st.average ins.length
          queue := st.queue ++ [ins] }
    | .needBytes => { st with buffer := [], leftover := st.leftover ++ st.buffer }
    | .ended => st

/-- `count = max(1, buffer_len / running_average_instruction_length)`, integer division (R138). -/
def batchCount (st : Stream) : Nat := max 1 (st.buffer.length / st.average)

/-- One fill: the leftover, then the newly read bytes, at most CHUNK in all (R138, 10_state.md R40). -/
def streamFill (st : Stream) : Stream :=
  let tail := st.leftover ++ st.buffer
  { st with
    buffer := tail ++ st.source.take (st.chunk - tail.length)
    leftover := []
    source := st.source.drop (st.chunk - tail.length) }

/-- The next queued item. -/
def streamPop (st : Stream) : Option Instruction × Stream :=
  match st.queue with
  | [] => (none, st)
  | ins :: q => (some ins, { st with queue := q })

/-- Pull the next item: from the queue, else from a batch of the buffer, else from a batch after one fill; no item is
the end of the stream (R135, R137, R138). -/
def streamPull (st : Stream) : Option Instruction × Stream :=
  if st.queue.isEmpty then
    let st1 := if st.buffer.isEmpty then st else streamBatch (batchCount st) st
    if st1.queue.isEmpty then
      let st2 := streamFill st1
      streamPop (streamBatch (batchCount st2) st2)
    else streamPop st1
  else streamPop st

/-- The items of at most `n` pulls. -/
def streamPulls : Nat → Stream → List Instruction
  | 0, _ => []
  | n + 1, st =>
    match streamPull st with
    | (some ins, st') => ins :: streamPulls n st'
    | (none, _) => []

end Sys2Proof.Machine
end

