-- ==== Sys2Proof/Machine/HostInterface.lean ====
section
/-! DEFINITION. What the host may do between steps (60_exceptions.md R290). Stepping is `step`; reading registers, flags and
rip is reading State; writing them is `State.setReg`, `State.setFlags`, `State.setRip`. -/

namespace Sys2Proof.Machine

/-- A region as the host supplies it: its range, name and tags, and its byte content (10_state.md R34). -/
structure RegionInit where
  region : Region
  bytes : List Byte
  deriving DecidableEq, Repr

/-- INIT: sixteen register values, rip and the flags word, taken as given (R290). -/
structure Init where
  regs : Vector Word 16
  rip : Word
  flags : Word
  deriving DecidableEq, Repr

/-- INIT when the host supplies nothing (10_state.md R50). -/
def Init.zero : Init := ⟨Vector.replicate 16 0, 0, 0⟩

/-- Add one region. A region that overlaps one already there, or whose byte content does not fill its range, is refused
(20_memory.md R79, 10_state.md R34; log entry 6). -/
def busAdd (b : Bus) (x : RegionInit) : Option Bus :=
  if x.region.startAddr.toNat + x.bytes.length = x.region.endAddr.toNat ∧
      b.regions.all (·.disjoint x.region) = true then
    some ⟨b.regions ++ [x.region], Memory.writeAll b.cells x.region.startAddr.toNat x.bytes⟩
  else none

/-- Build the bus from REGIONS, in order (R79). -/
def busBuild : List RegionInit → Bus → Option Bus
  | [], b => some b
  | x :: xs, b => (busAdd b x).bind (busBuild xs)

/-- A machine with INIT and REGIONS loaded (R50, R290). -/
def loadInit (i : Init) (regions : List RegionInit) : Option State :=
  (busBuild regions ⟨[], []⟩).map fun b => ⟨i.regs, i.rip, i.flags, b, Stream.idle, 0⟩

/-- `read_exact` by the host (20_memory.md R66). -/
def hostRead (s : State) (a : Word) (n : Nat) : Except AccessError (List Byte) := s.bus.readExact a n .read

/-- `write_bytes` by the host (20_memory.md R66). -/
def hostWrite (s : State) (a : Word) (bytes : List Byte) : Except AccessError State :=
  (s.bus.writeBytes a bytes).map fun b => { s with bus := b }

/-- Create a stream; CHUNK is at least 15 (70_reset_and_hazards.md R303). DESIGN CHOICE (log entry 18): State holds one
stream, and creating one drops the stream there with its queued items; R290 does not say how many the host may hold. -/
def hostCreateStream (s : State) (bytes : List Byte) (a : Word) (chunk : Nat) : Option State :=
  if Config.maxLen ≤ chunk then some { s with stream := streamCreate bytes a chunk } else none

/-- Pull an item of the stream; nothing else of the state takes part (R290). -/
def hostPull (s : State) : Option Instruction × State :=
  ((streamPull s.stream).1, { s with stream := (streamPull s.stream).2 })

/-- Output (a) of R293: the line "address: mnemonic operand-string" of one instruction (30_encoding.md R142). The three
texts in it are free (log entry 10). -/
def outputLine (ins : Instruction) : String :=
  Config.addressText ins.address ++ ": " ++ ins.mnemonicText ++ " " ++ ins.operandText

end Sys2Proof.Machine
end

