-- ==== Sys2Proof/Machine/Kinds.lean ====
section
/-! DEFINITION. The dispatch by classified kind: the rule of each of the 25 variants (40_engine_and_operands.md R152). The
arms of exec give each row's meaning; this is what they must agree with. -/

namespace Sys2Proof.Machine

/-- The meaning of a kind for an instruction of `len` bytes (R152). -/
def runKind (len : Nat) (k : InstructionType) (s : State) : Result :=
  match k with
  | .mov dst src => runMov len dst src s
  | .movzx dst src => runMovzx len dst src s
  | .add dst src => runAdd len dst src s
  | .adc dst src => runAdc len dst src s
  | .sub dst src => runSub len dst src s
  | .cmp a b => runCmp len a b s
  | .test a b => runTest len a b s
  | .inc dst => runInc len dst s
  | .dec dst => runDec len dst s
  | .push src => runPush len src s
  | .pop dst => runPop len dst s
  | .lea dst src => runLea len dst src s
  | .xor dst src => runXor len dst src s
  | .shl dst count => runShl len dst count s
  | .shr dst count => runShr len dst count s
  | .nop => runNop s
  | .cld => runCld s
  | .leave => runLeave s
  | .int3 => runInt3 s
  | .conditionalJump c target => runConditionalJump c target s
  | .unconditionalJump op => runJump len op s
  | .call op => runCall len op s
  | .ret => runRet s
  | .rep .mov => runRepMov s
  | .rep .stos => runRepStos s
  | .rep .lods => runRepLods s
  | .rep .scas => runRepScas s
  | .invalid => runInvalid s

end Sys2Proof.Machine
end

