-- ==== Sys2Proof/WellFormed.lean ====
section
/-! DEFINITION. Which terms of `Instr` stand for an admitted instruction. The row's columns are read from the one copy of
the opcode table in Decode.lean. -/

namespace Sys2Proof

/-- The three-bit fields of an r/m form do not name another form (30_encoding.md R100, R101). -/
def Rm.wf : Rm → Bool
  | .reg _ => true
  | .ripRel _ => true
  | .base rm d => rm != 4 && !(rm == 5 && d == .none)
  | .sib _ _ bs d => !(bs == 5 && d == .none)
  | .sibNoBase _ _ _ => true

/-- The r/m form is one the row admits: LEA has none with mod 11 (R94). -/
def RowInfo.rmOk (r : RowInfo) : Option Rm → Bool
  | none => true
  | some (.reg _) => !r.memOnly
  | some rm => rm.wf

/-- The immediate has the size the row and the prefixes give it (R118). -/
def RowInfo.immOk (r : RowInfo) (p : Prefixes) (imm : Imm) : Bool :=
  match r.imm, r.opsize.width p, imm with
  | .none, _, .none => true
  | .ib, _, .i8 _ => true
  | .rel8, _, .i8 _ => true
  | .rel32, _, .i32 _ => true
  | .iz, w, .i16 _ => w == .w16
  | .iz, w, .i32 _ => w != .w16
  | .iv, w, .i16 _ => w == .w16
  | .iv, w, .i32 _ => w == .w32 || w == .w8
  | .iv, w, .i64 _ => w == .w64
  | _, _, _ => false

/-- An instruction of opcode_table.json: the prefix conditions of its row (R92, R125, R126), a legal r/m form, an
immediate of the right size, and at most 15 bytes in all (R115). -/
def Instr.wf (i : Instr) : Bool :=
  i.row.info.prefixesOk i.pieces.prefixes && i.row.info.rmOk i.pieces.rm &&
    i.row.info.immOk i.pieces.prefixes i.pieces.imm && i.length ≤ Config.maxLen

end Sys2Proof
end

