-- ==== Sys2Proof/Safety.lean ====
section
/-! DEFINITION. The terms in which claims are made: the invariant of a running machine, accessible operands and their
values, and what an instruction leaves unchanged. -/

namespace Sys2Proof.Machine

/-! ## The invariant -/

/-- What holds of every machine the host built: the bus invariant of 20_memory.md R79 with its bytes in canonical form,
and a stream whose buffer fits CHUNK (10_state.md R40). -/
def State.Inv (s : State) : Prop := s.bus.wf = true ∧ Stream.wf s.stream = true

/-! ## Accessible operands and their values -/

/-- One region contains the whole span (20_memory.md R61). -/
def mapped (s : State) (a : Word) (n : Nat) : Prop := ∃ r ∈ s.bus.regions, r.contains a n = true

/-- An operand whose access cannot fault: a register, an immediate, or a memory operand with no FS or GS override whose
span is mapped (40_engine_and_operands.md R156, R157). -/
def accessible (len : Nat) (o : Operand) (s : State) : Prop :=
  match o with
  | .reg _ => True
  | .imm _ => True
  | .mem m => m.segment ≠ some .fs ∧ m.segment ≠ some .gs ∧ mapped s (ea0 len m s) m.size.bytes

/-- The bytes of a span, in address order. -/
def bytesAt (s : State) (a : Word) (n : Nat) : List Byte := (List.range n).map fun k => s.bus.byteAt (a.toNat + k)

/-- The little-endian value of a span (20_memory.md R64). -/
def valueAt (w : Width) (s : State) (a : Word) : BitVec w.bits := BitVec.ofNat w.bits (fromLE (bytesAt s a w.bytes))

/-- The value of an operand at a width (R157). -/
def operandValue (len : Nat) (w : Width) (o : Operand) (s : State) : BitVec w.bits :=
  match o with
  | .reg r => (s.regRead r).setWidth w.bits
  | .imm v => v.setWidth w.bits
  | .mem m => valueAt w s (ea0 len m s)

/-- The widths an operand may be used at: its own, and for an immediate any (R157). -/
def fits (w : Width) : Operand → Prop
  | .reg r => View.width r.view = w
  | .imm _ => True
  | .mem m => m.size = w

/-- The state after a mapped store (20_memory.md R65). -/
def stored (w : Width) (a : Word) (v : BitVec w.bits) (s : State) : State :=
  { s with bus := { s.bus with cells := Memory.writeAll s.bus.cells a.toNat (toLE w.bytes v.toNat) } }

/-- The state after a write of an operand that may be written (40_engine_and_operands.md R158). -/
def written (len : Nat) (w : Width) (o : Operand) (v : BitVec w.bits) (s : State) : State :=
  match o with
  | .reg r => s.regWrite r (v.setWidth (View.width r.view).bits)
  | .mem m => stored w (ea0 len m s) v s
  | .imm _ => s

/-- The instruction goes on to a next state, of which `P` holds. -/
def completes (i : Instr) (s : State) (P : State → Prop) : Prop := ∃ t, exec i s = .next t ∧ P t

/-- What the instruction does when its memory operand cannot be accessed: an FS or GS override raises SegmentFault before
any access, and a span that no region holds raises BusFault with its first address and length; the state is as before
(60_exceptions.md R273, R276). `u` is the state whose registers form the address. -/
def faultsOn (i : Instr) (kind : AccessKind) (m : MemOperand) (u s : State) : Prop :=
  (∀ g, m.segment = some g → g = .fs ∨ g = .gs → exec i s = .fault (.segmentFault g s)) ∧
  (m.segment ≠ some .fs → m.segment ≠ some .gs → ¬ mapped s (ea0 i.length m u) m.size.bytes →
    exec i s = .fault (.busFault (ea0 i.length m u) m.size.bytes kind s))

/-! ## Frames -/

/-- The bits of a slot that a write of the view must leave, and the zero-extension of a 32-bit write (10_state.md
R24). -/
def keptOutside (v : View) (old new : Word) : Prop :=
  match v with
  | .low8 => ∀ i, 8 ≤ i → new.getLsbD i = old.getLsbD i
  | .high8 => ∀ i, i < 8 ∨ 16 ≤ i → new.getLsbD i = old.getLsbD i
  | .w16 => ∀ i, 16 ≤ i → new.getLsbD i = old.getLsbD i
  | .w32 => ∀ i, 32 ≤ i → new.getLsbD i = false
  | .w64 => True

/-- Every register outside the list is as before. -/
def sameRegsExcept (slots : List (Fin 16)) (s t : State) : Prop := ∀ i, i ∉ slots → t.reg i = s.reg i

/-- The regions are as before, and so is every byte outside the `n` bytes from `a`. -/
def sameBytesExcept (a : Word) (n : Nat) (s t : State) : Prop :=
  t.bus.regions = s.bus.regions ∧
    ∀ k : Nat, k < a.toNat ∨ a.toNat + n ≤ k → t.bus.byteAt k = s.bus.byteAt k

/-- Every bit of the flags word outside the list is as before (10_state.md R29). -/
def sameFlagsExcept (bits : List Nat) (s t : State) : Prop :=
  ∀ i, i ∉ bits → t.flags.getLsbD i = s.flags.getLsbD i

/-- What no instruction but a control transfer changes, and what no instruction changes: pc, and the stream. -/
def samePcAndStream (s t : State) : Prop := t.rip = s.rip ∧ t.stream = s.stream

/-- Only the destination was written: a register's view, or a memory operand's bytes. -/
def onlyDestination (len : Nat) (dst : Operand) (s t : State) : Prop :=
  match dst with
  | .reg r => sameRegsExcept [r.slot] s t ∧ keptOutside r.view (s.reg r.slot) (t.reg r.slot) ∧ t.bus = s.bus
  | .mem m => t.regs = s.regs ∧ sameBytesExcept (ea0 len m s) m.size.bytes s t
  | .imm _ => False

/-- The flags an add, subtract or carry-add writes (42_arithmetic.md R181, R183, R185). -/
def arithmeticBits : List Nat := [bitCF, bitPF, bitAF, bitZF, bitSF, bitOF]

/-- The flags Inc and Dec write (R182, R184). -/
def noCarryBits : List Nat := [bitPF, bitAF, bitZF, bitSF, bitOF]

/-- The flags a logic instruction writes: not AF (43_logic_shift.md R200). -/
def logicBits : List Nat := [bitCF, bitPF, bitZF, bitSF, bitOF]

/-- The named bits of the flags word (10_state.md R28). -/
def namedBits : List Nat := [bitCF, bitPF, bitAF, bitZF, bitSF, bitDF, bitOF]

/-- The number of 1 bits among the low eight. -/
def lowOnes {n : Nat} (r : BitVec n) : Nat := ((List.range 8).map fun i => (r.getLsbD i).toNat).sum

/-- ZF, SF and PF are those of the result (42_arithmetic.md R180). -/
def resultFlags {n : Nat} (r : BitVec n) (t : State) : Prop :=
  (t.flags.getLsbD bitZF = true ↔ r = 0) ∧ t.flags.getLsbD bitSF = r.msb ∧
    (t.flags.getLsbD bitPF = true ↔ lowOnes r % 2 = 0)

/-- ZF, SF, PF, AF and OF are those of a sum `r` of `a` and `b` (R181, R182, R185). -/
def sumFlags {n : Nat} (a b r : BitVec n) (t : State) : Prop :=
  resultFlags r t ∧ t.flags.getLsbD bitAF = (a ^^^ b ^^^ r).getLsbD 4 ∧
    t.flags.getLsbD bitOF = ((a ^^^ r) &&& (b ^^^ r)).msb

/-- ZF, SF, PF, AF and OF are those of a difference `r` of `a` and `b` (R183, R184). -/
def differenceFlags {n : Nat} (a b r : BitVec n) (t : State) : Prop :=
  resultFlags r t ∧ t.flags.getLsbD bitAF = (a ^^^ b ^^^ r).getLsbD 4 ∧
    t.flags.getLsbD bitOF = ((a ^^^ b) &&& (a ^^^ r)).msb

/-- ZF, SF and PF are those of the result, CF and OF are 0 (43_logic_shift.md R200). -/
def logicFlags {n : Nat} (r : BitVec n) (t : State) : Prop :=
  resultFlags r t ∧ t.flags.getLsbD bitCF = false ∧ t.flags.getLsbD bitOF = false

/-- Only the destination and the flags of the list were written. -/
def onlyDestinationAndFlags (len : Nat) (dst : Operand) (bits : List Nat) (s t : State) : Prop :=
  onlyDestination len dst s t ∧ sameFlagsExcept bits s t ∧ samePcAndStream s t

/-- Only the flags of the list were written. -/
def onlyFlags (bits : List Nat) (s t : State) : Prop :=
  t.regs = s.regs ∧ t.bus = s.bus ∧ sameFlagsExcept bits s t ∧ samePcAndStream s t

/-- Only pc was written. -/
def onlyPc (s t : State) : Prop :=
  t.regs = s.regs ∧ t.bus = s.bus ∧ t.flags = s.flags ∧ t.stream = s.stream

/-! ## Conditions -/

/-- The predicate of each condition code, from the bits of the flags word and rcx (45_control_transfer.md R221 to
R237). -/
def conditionHolds (c : ConditionCode) (s : State) : Prop :=
  let F := fun k => s.flags.getLsbD k
  match c with
  | .o => F 11 = true
  | .no => F 11 = false
  | .b => F 0 = true
  | .ae => F 0 = false
  | .e => F 6 = true
  | .ne => F 6 = false
  | .be => F 0 = true ∨ F 6 = true
  | .a => F 0 = false ∧ F 6 = false
  | .s => F 7 = true
  | .ns => F 7 = false
  | .p => F 2 = true
  | .np => F 2 = false
  | .l => F 7 ≠ F 11
  | .ge => F 7 = F 11
  | .le => F 6 = true ∨ F 7 ≠ F 11
  | .g => F 6 = false ∧ F 7 = F 11
  | .cxz => s.reg 1 = 0

/-! ## Which kinds do what -/

/-- The kinds that write the flags word (10_state.md R30). -/
def writesFlags : InstructionType → Bool
  | .add _ _ => true
  | .adc _ _ => true
  | .sub _ _ => true
  | .cmp _ _ => true
  | .inc _ => true
  | .dec _ => true
  | .test _ _ => true
  | .xor _ _ => true
  | .shl _ _ => true
  | .shr _ _ => true
  | .rep .scas => true
  | .cld => true
  | _ => false

/-- The kinds that write pc (10_state.md R27). -/
def writesPc : InstructionType → Bool
  | .conditionalJump _ _ => true
  | .unconditionalJump _ => true
  | .call _ => true
  | .ret => true
  | _ => false

/-- The kinds whose fault may leave a partly executed instruction: Rep, and Call with a memory operand
(40_engine_and_operands.md R154). -/
def mayFaultLate : InstructionType → Bool
  | .rep _ => true
  | .call (.mem _) => true
  | _ => false

/-! ## Repeated strings -/

/-- The address of byte `k` of a string that starts at `a`: up when DF = 0, down when DF = 1 (46_string.md R250). -/
def stringAddr (s : State) (a : Word) (k : Nat) : Word :=
  if s.flags.getLsbD bitDF then a - BitVec.ofNat 64 k else a + BitVec.ofNat 64 k

/-- Everything but the listed registers and the bytes at the given addresses is as before; pc, flags, regions and stream
are. -/
def onlyString (slots : List (Fin 16)) (addrs : Nat → Word) (n : Nat) (s t : State) : Prop :=
  sameRegsExcept slots s t ∧ t.rip = s.rip ∧ t.stream = s.stream ∧ t.bus.regions = s.bus.regions ∧
    ∀ a : Nat, (∀ k < n, a ≠ (addrs k).toNat) → t.bus.byteAt a = s.bus.byteAt a

/-- What `k` performed iterations of a repeated string instruction make of the state `s`, rcx and the pointers apart
(46_string.md R250 (e), R251 to R254): the bytes, al or the flags that the instruction writes, and everything else as
before. Rep(Scas) goes on only after bytes equal to al. -/
def iterationsPerformed (r : Repeatable) (k : Nat) (s t : State) : Prop :=
  let src := stringAddr s (s.reg rsi)
  let dst := stringAddr s (s.reg rdi)
  let al : BitVec 8 := (s.reg rax).setWidth 8
  match r with
  | .mov =>
    t.flags = s.flags ∧
      ((∀ j < k, ∀ l < k, src j ≠ dst l) →
        ∀ j < k, t.bus.byteAt (dst j).toNat = s.bus.byteAt (src j).toNat) ∧
      onlyString [rcx, rsi, rdi] dst k s t
  | .stos =>
    t.flags = s.flags ∧ (∀ j < k, t.bus.byteAt (dst j).toNat = al) ∧
      onlyString [rcx, rdi] dst k s t
  | .lods =>
    t.flags = s.flags ∧ (0 < k → (t.reg rax).setWidth 8 = s.bus.byteAt (src (k - 1)).toNat) ∧
      keptOutside .low8 (s.reg rax) (t.reg rax) ∧ onlyString [rcx, rsi, rax] src 0 s t
  | .scas =>
    (∀ j < k, s.bus.byteAt (dst j).toNat = al) ∧
      (0 < k → differenceFlags al al (al - al) t ∧ t.flags.getLsbD bitCF = false) ∧
      sameFlagsExcept (if k = 0 then [] else arithmeticBits) s t ∧ onlyString [rcx, rdi] dst 0 s t

/-- The access that ended a repeated string instruction in the state `t`: the byte at rsi could not be read, or the byte
at rdi could not be written or, by Rep(Scas), read (R251 to R254). -/
def failedAccess (r : Repeatable) (t : State) (f : Fault) : Prop :=
  match r with
  | .mov => f = .busFault (t.reg rsi) 1 .read t ∨ f = .busFault (t.reg rdi) 1 .write t
  | .stos => f = .busFault (t.reg rdi) 1 .write t
  | .lods => f = .busFault (t.reg rsi) 1 .read t
  | .scas => f = .busFault (t.reg rdi) 1 .read t

end Sys2Proof.Machine
end

