-- ==== Sys2Proof/Certificates/Slice0/Obligations.lean ====
section
/-! DEFINITION. The statements about the model, one for each obligation of OBLIGATIONS.json. -/

open Sys2Proof Sys2Proof.Machine

/-! ## Setup (10_state.md R50, 20_memory.md R79) -/

/-- R50: with nothing supplied, the sixteen slots, rip and all 64 bits of F are 0 (decision D23), the bus is empty,
the stream's buffer, leftover and queue are empty and its running average is AVG0 = 7; what INIT and REGIONS supply is
taken as given, regions with their names and tags, and every byte at its address. Every INIT is accepted, with any
regions that fill their ranges and do not overlap. -/
def Obligations.SetupState : Prop :=
  ((∀ i, State.reset.reg i = 0) ∧ State.reset.rip = 0 ∧ State.reset.flags = 0 ∧ State.reset.bus.regions = [] ∧
    State.reset.stream.buffer = [] ∧ State.reset.stream.leftover = [] ∧ State.reset.stream.queue = [] ∧
    State.reset.stream.average = 7) ∧
  (∀ (init : Init) (regions : List RegionInit) (s : State), loadInit init regions = some s →
    (∀ i, s.reg i = init.regs[i]) ∧ s.rip = init.rip ∧ s.flags = init.flags ∧
    s.bus.regions = regions.map (·.region) ∧
    (∀ x ∈ regions, ∀ k b, x.bytes[k]? = some b → s.bus.byteAt (x.region.startAddr.toNat + k) = b) ∧
    s.stream.buffer = [] ∧ s.stream.leftover = [] ∧ s.stream.queue = [] ∧ s.stream.average = 7) ∧
  ∀ (init : Init) (regions : List RegionInit),
    (∀ x ∈ regions, x.region.startAddr.toNat + x.bytes.length = x.region.endAddr.toNat) →
    (regions.Pairwise fun x y => x.region.endAddr ≤ y.region.startAddr ∨ y.region.endAddr ≤ x.region.startAddr) →
    ∃ s, loadInit init regions = some s

/-- R79: a bus that the constructor built has no two regions that overlap; it meets the invariant. A region that overlaps
one already there is refused (what a refusal looks like is the model's choice: decision D32, log entry 6). A region whose
content fills its range and that lies before or after each of the others, adjacent to one or empty as it may be, is
accepted beside them; so is a whole list of such regions. -/
def Obligations.BusConstruction : Prop :=
  (∀ (regions : List RegionInit) (b : Bus), busBuild regions ⟨[], []⟩ = some b →
    b.wf = true ∧ b.regions.Pairwise fun r q => r.endAddr ≤ q.startAddr ∨ q.endAddr ≤ r.startAddr) ∧
  (∀ (b : Bus) (x : RegionInit) (r : Region), r ∈ b.regions → r.startAddr < x.region.endAddr →
    x.region.startAddr < r.endAddr → busAdd b x = none) ∧
  (∀ (b : Bus) (x : RegionInit), x.region.startAddr.toNat + x.bytes.length = x.region.endAddr.toNat →
    (∀ r ∈ b.regions, r.endAddr ≤ x.region.startAddr ∨ x.region.endAddr ≤ r.startAddr) →
    ∃ b', busAdd b x = some b' ∧ ∀ r, r ∈ b'.regions ↔ r ∈ b.regions ∨ r = x.region) ∧
  ∀ regions : List RegionInit,
    (∀ x ∈ regions, x.region.startAddr.toNat + x.bytes.length = x.region.endAddr.toNat) →
    (regions.Pairwise fun x y => x.region.endAddr ≤ y.region.startAddr ∨ y.region.endAddr ≤ x.region.startAddr) →
    ∃ b, busBuild regions ⟨[], []⟩ = some b ∧ b.regions = regions.map (·.region)

/-- The state after setup with nothing supplied meets the invariant. -/
def Obligations.ResetMeetsInvariant : Prop := State.reset.Inv

/-- Every step keeps the invariant: regions in order and disjoint, the bytes in canonical form and inside regions, the
stream within CHUNK. A fault leaves a state that meets it too. -/
def Obligations.StepKeepsInvariant : Prop :=
  ∀ s : State, s.Inv → (∀ t, step s = .next t → t.Inv) ∧ ∀ f, step s = .fault f → f.left.Inv

/-! ## Encoding (30_encoding.md) -/

/-- Decoding the bytes of any well-formed instruction, whatever bytes follow them, gives it back with every field. -/
def Obligations.DecodeOfEncode : Prop :=
  ∀ (i : Instr), i.wf = true → ∀ rest : List Byte, decodeRow (encode i ++ rest) = .row i

/-- Whatever the decoder admits is well formed, and the window begins with exactly its bytes: no two byte strings are
read as one instruction. -/
def Obligations.EncodeOfDecode : Prop :=
  ∀ (window : List Byte) (i : Instr), decodeRow window = .row i →
    i.wf = true ∧ ∃ rest, window = encode i ++ rest

/-- R133: a window that ends inside an admitted instruction gives Truncated, never a shorter admitted instruction; an
empty window gives Truncated. -/
def Obligations.TruncatedWindow : Prop :=
  decodeRow [] = .truncated ∧
    ∀ (i : Instr) (n : Nat), i.wf = true → n < i.length → decodeRow ((encode i).take n) = .truncated

/-- Words of the spec's vectors, written out byte by byte, decode to the instructions they stand for, of the length
the bytes have, and at 0x1000 to the kinds and operands the vectors name; CPUID and a movsb without F3 have no row. -/
def Obligations.SampleWords : Prop :=
  let reads := fun (bytes : List Byte) (i : Instr) (k : InstructionType) =>
    decodeRow bytes = .row i ∧ i.length = bytes.length ∧ i.kind 0x1000 = k
  let rexW : Prefixes := ⟨[], some ⟨true, false, false, false⟩⟩
  reads [0x48, 0xC7, 0xC0, 0x05, 0x00, 0x00, 0x00] (.movRmImm rexW (.reg 0) (.i32 5))
    (.mov (.reg ⟨0, .w64⟩) (.imm 5)) ∧
  reads [0x48, 0x83, 0xC0, 0x03] (.addRmImm8 rexW (.reg 0) 3) (.add (.reg ⟨0, .w64⟩) (.imm 3)) ∧
  reads [0xF3, 0xA4] (.repMovsb ⟨[.rep], none⟩) (.rep .mov) ∧
  reads [0x74, 0x05] (.jeRel8 ⟨[], none⟩ 5) (.conditionalJump .e 0x1007) ∧
  reads [0x0F, 0xB6, 0xC3] (.movzxRRm8 ⟨[], none⟩ 0 (.reg 3)) (.movzx (.reg ⟨0, .w32⟩) (.reg ⟨3, .low8⟩)) ∧
  reads [0x48, 0xC1, 0xE0, 0x04] (.shlRmImm8 rexW (.reg 0) 4) (.shl (.reg ⟨0, .w64⟩) (.imm 4)) ∧
  decodeRow [0x0F, 0xA2] = .noRow ∧ decodeRow [0xA4] = .noRow

/-! ## The step (40_engine_and_operands.md, 20_memory.md) -/

/-- When the bytes at pc are those of a well-formed instruction inside one region, the step is exec of it: on a next
state, pc advances by the length exactly when it was left as it was; a fault is passed on with no advance (R153). -/
def Obligations.StepRunsDecodedInstruction : Prop :=
  ∀ (s : State) (i : Instr), s.bus.wf = true → i.wf = true → mapped s s.rip i.length →
    bytesAt s s.rip i.length = encode i →
    step s = match exec i s with
      | .next t => .next (if t.rip = s.rip then t.setRip (s.rip + BitVec.ofNat 64 i.length) else t)
      | .fault f => .fault f
      | .refused r => .refused r

/-- R151: the outcomes of fetch and decode in the order they are tested (cases 2 and 3 are decisions D24 and D30). In
cases 1 to 4 the fault leaves the state as it was; in case 5 the rule of the kind is dispatched. -/
def Obligations.FetchAndDecodeOutcomes : Prop :=
  ∀ s : State,
    ((∀ r ∈ s.bus.regions, ¬ (r.startAddr ≤ s.rip ∧ s.rip < r.endAddr)) →
      step s = .fault (.busFault s.rip 1 .fetch s)) ∧
    ∀ window, fetchWindow s.bus s.rip = .ok window →
      (decode window s.rip = .truncated → step s = .fault (.decodeFault s.rip s)) ∧
      (decode window s.rip = .undecodable → step s = .fault (.invalidInstruction s.rip s)) ∧
      ∀ ins, decode window s.rip = .decoded ins →
        (ins.kind = .invalid → step s = .fault (.invalidInstruction s.rip s)) ∧
        (ins.kind ≠ .invalid → step s = finishStep s.rip ins.length (runKind ins.length ins.kind s))

/-- R78: the fetch window is at most 15 bytes, the bytes at pc of the one region that holds pc (decision D24); with no
such region the fetch fails at pc with span 1. -/
def Obligations.FetchWindowRule : Prop :=
  ∀ (b : Bus) (pc : Word),
    (b.wf = true → ∀ r ∈ b.regions, r.startAddr ≤ pc → pc < r.endAddr →
      fetchWindow b pc =
        .ok ((List.range (min 15 (r.endAddr.toNat - pc.toNat))).map fun k => b.byteAt (pc.toNat + k))) ∧
    ((∀ r ∈ b.regions, ¬ (r.startAddr ≤ pc ∧ pc < r.endAddr)) → fetchWindow b pc = .error (.bus pc 1 .fetch))

/-- R64: a read of a span inside one region gives its bytes, the lowest address least significant; no region holding
the whole span is a BusFault for a read. -/
def Obligations.MemReadRule : Prop :=
  ∀ (s : State) (w : Width) (a : Word),
    (mapped s a w.bytes → ∃ v, memRead w a s = .ok v ∧
      ∀ k j, k < w.bytes → j < 8 → v.getLsbD (8 * k + j) = (s.bus.byteAt (a.toNat + k)).getLsbD j) ∧
    (¬ mapped s a w.bytes → memRead w a s = .error (.bus a w.bytes .read))

/-- R65: a write of a span inside one region stores byte k of the value at a + k and changes no other byte, no
region, no register, no flag, neither pc nor the stream; no region holding the whole span is a BusFault for a write. -/
def Obligations.MemWriteRule : Prop :=
  ∀ (s : State) (w : Width) (a : Word) (v : BitVec w.bits), s.bus.wf = true →
    (mapped s a w.bytes → ∃ t, memWrite w a v s = .ok t ∧
      (∀ k j, k < w.bytes → j < 8 → (t.bus.byteAt (a.toNat + k)).getLsbD j = v.getLsbD (8 * k + j)) ∧
      sameBytesExcept a w.bytes s t ∧ t.regs = s.regs ∧ t.flags = s.flags ∧ samePcAndStream s t) ∧
    (¬ mapped s a w.bytes → memWrite w a v s = .error (.bus a w.bytes .write))

/-- R66: the host's reads and writes of a span of any length: a span inside one region gives or takes its bytes in
ascending order and nothing else changes; no region holding the whole span is a BusFault and nothing is stored. A span
of no bytes succeeds at every address, mapped or not, and moves nothing (R62, decision D32). -/
def Obligations.HostBytes : Prop :=
  (∀ (s : State) (a : Word), hostRead s a 0 = .ok [] ∧ hostWrite s a [] = .ok s) ∧
  ∀ (s : State) (a : Word) (bytes : List Byte), s.bus.wf = true → bytes ≠ [] →
    (mapped s a bytes.length →
      hostRead s a bytes.length = .ok (bytesAt s a bytes.length) ∧
      ∃ t, hostWrite s a bytes = .ok t ∧ bytesAt t a bytes.length = bytes ∧
        sameBytesExcept a bytes.length s t ∧ t.regs = s.regs ∧ t.flags = s.flags ∧ samePcAndStream s t) ∧
    (¬ mapped s a bytes.length →
      hostRead s a bytes.length = .error (.bus a bytes.length .read) ∧
      hostWrite s a bytes = .error (.bus a bytes.length .write))

/-- R24: a register write of each view changes the view's bits, keeps the others, zero-extends at 32 bits, and leaves
every other slot. -/
def Obligations.RegWriteRule : Prop :=
  ∀ (s : State) (r : Gpr) (v : BitVec (View.width r.view).bits),
    (∀ j, j ≠ r.slot → (s.regWrite r v).reg j = s.reg j) ∧
    ∀ k, k < 64 → ((s.regWrite r v).reg r.slot).getLsbD k =
      match r.view with
      | .low8 => if k < 8 then v.getLsbD k else (s.reg r.slot).getLsbD k
      | .high8 => if k < 8 ∨ 16 ≤ k then (s.reg r.slot).getLsbD k else v.getLsbD (k - 8)
      | .w16 => if k < 16 then v.getLsbD k else (s.reg r.slot).getLsbD k
      | .w32 => if k < 32 then v.getLsbD k else false
      | .w64 => v.getLsbD k

/-- R156: the effective address is the sum of base, scaled index and signed displacement modulo 2^64 (decision D10),
the RIP-relative base being pc plus the length; an FS or GS override raises SegmentFault (decision D7), any other
segment adds nothing. -/
def Obligations.EffectiveAddressRule : Prop :=
  ∀ (len : Nat) (m : MemOperand) (s : State),
    ((ea0 len m s).toNat : Int) =
      ((match m.base with
          | .absent => 0
          | .gpr i => ((s.reg i).toNat : Int)
          | .rip => (s.rip.toNat : Int) + len) +
        (match m.index with
          | none => 0
          | some (j, c) =>
            ((s.reg j).toNat : Int) * (match c with | .s1 => 1 | .s2 => 2 | .s4 => 4 | .s8 => 8)) +
        m.disp.toInt) % 2 ^ 64 ∧
    ea len m s =
      match m.segment with
      | some .fs => .error (.segment .fs)
      | some .gs => .error (.segment .gs)
      | _ => .ok (ea0 len m s)

/-! ## Data movement (41_data_movement.md) -/

/-- R170, for the eight constructors of kind Mov: with both operands accessible the destination becomes the source's
value at the destination's width, and nothing else changes; a memory operand that cannot be accessed faults, on the
read or on the write. -/
def Obligations.MovResult : Prop :=
  ∀ (i : Instr) (s : State) (dst src : Operand), i.kind s.rip = .mov dst src →
    (s.bus.wf = true → accessible i.length dst s → accessible i.length src s →
      completes i s fun t =>
        operandValue i.length (Operand.width dst) dst t = operandValue i.length (Operand.width dst) src s ∧
        onlyDestinationAndFlags i.length dst [] s t) ∧
    (∀ m, src = .mem m → faultsOn i .read m s s) ∧ ∀ m, dst = .mem m → faultsOn i .write m s s

/-- R172, for movzxRRm8 and movzxRRm16: the source at its own width is zero-extended into the destination; a memory
source that cannot be read faults. -/
def Obligations.MovzxResult : Prop :=
  ∀ (i : Instr) (s : State) (dst src : Operand), i.kind s.rip = .movzx dst src →
    (s.bus.wf = true → accessible i.length dst s → accessible i.length src s →
      completes i s fun t =>
        (operandValue i.length (Operand.width dst) dst t).toNat =
          (operandValue i.length (Operand.width src) src s).toNat ∧
        onlyDestinationAndFlags i.length dst [] s t) ∧
    ∀ m, src = .mem m → faultsOn i .read m s s

/-- R173, for leaRM: the destination becomes the address, truncated to its width; no segment check and no access, so
it completes in every state. -/
def Obligations.LeaResult : Prop :=
  ∀ (i : Instr) (s : State) (dst src : Operand), i.kind s.rip = .lea dst src → i.wf = true →
    ∃ m, src = .mem m ∧ completes i s fun t =>
      operandValue i.length (Operand.width dst) dst t = (ea0 i.length m s).setWidth (Operand.width dst).bits ∧
      onlyDestinationAndFlags i.length dst [] s t

/-! ## Arithmetic (42_arithmetic.md) -/

/-- R187 with R181, for the nine constructors of kind Add: the sum, its flags, nothing else; a memory operand that
cannot be read faults. PF's polarity is decision D13 of the spec. -/
def Obligations.AddResult : Prop :=
  ∀ (i : Instr) (s : State) (dst src : Operand), i.kind s.rip = .add dst src →
    (s.bus.wf = true → accessible i.length dst s → accessible i.length src s →
      completes i s fun t =>
        let w := Operand.width dst
        let a := operandValue i.length w dst s
        let b := operandValue i.length w src s
        operandValue i.length w dst t = a + b ∧ sumFlags a b (a + b) t ∧
        (t.flags.getLsbD bitCF = true ↔ a + b < a) ∧ onlyDestinationAndFlags i.length dst arithmeticBits s t) ∧
    ∀ m, dst = .mem m ∨ src = .mem m → faultsOn i .read m s s

/-- R188 with R185, for the nine constructors of kind Adc: the carry in is CF of before; faults as AddResult. -/
def Obligations.AdcResult : Prop :=
  ∀ (i : Instr) (s : State) (dst src : Operand), i.kind s.rip = .adc dst src →
    (s.bus.wf = true → accessible i.length dst s → accessible i.length src s →
      completes i s fun t =>
        let w := Operand.width dst
        let a := operandValue i.length w dst s
        let b := operandValue i.length w src s
        let c := (s.flags.getLsbD bitCF).toNat
        let r := a + b + BitVec.ofNat w.bits c
        operandValue i.length w dst t = r ∧ sumFlags a b r t ∧
        (t.flags.getLsbD bitCF = true ↔ a.toNat + b.toNat + c > 2 ^ w.bits - 1) ∧
        onlyDestinationAndFlags i.length dst arithmeticBits s t) ∧
    ∀ m, dst = .mem m ∨ src = .mem m → faultsOn i .read m s s

/-- R189 with R183, for the nine constructors of kind Sub; faults as AddResult. -/
def Obligations.SubResult : Prop :=
  ∀ (i : Instr) (s : State) (dst src : Operand), i.kind s.rip = .sub dst src →
    (s.bus.wf = true → accessible i.length dst s → accessible i.length src s →
      completes i s fun t =>
        let w := Operand.width dst
        let a := operandValue i.length w dst s
        let b := operandValue i.length w src s
        operandValue i.length w dst t = a - b ∧ differenceFlags a b (a - b) t ∧
        (t.flags.getLsbD bitCF = true ↔ a < b) ∧ onlyDestinationAndFlags i.length dst arithmeticBits s t) ∧
    ∀ m, dst = .mem m ∨ src = .mem m → faultsOn i .read m s s

/-- R190 with R183, for the nine constructors of kind Cmp: the flags of the difference, nothing written (that Cmp uses
them is decision D17); faults as AddResult. -/
def Obligations.CmpResult : Prop :=
  ∀ (i : Instr) (s : State) (x y : Operand), i.kind s.rip = .cmp x y →
    (accessible i.length x s → accessible i.length y s →
      completes i s fun t =>
        let w := Operand.width x
        let a := operandValue i.length w x s
        let b := operandValue i.length w y s
        differenceFlags a b (a - b) t ∧ (t.flags.getLsbD bitCF = true ↔ a < b) ∧ onlyFlags arithmeticBits s t) ∧
    ∀ m, x = .mem m ∨ y = .mem m → faultsOn i .read m s s

/-- R191 with R182 for incRm8 and incRm (decision D12), R192 with R184 for decRm8 and decRm: CF is not written; faults
as AddResult. -/
def Obligations.IncDecResult : Prop :=
  ∀ (i : Instr) (s : State) (dst : Operand),
    (i.kind s.rip = .inc dst →
      (s.bus.wf = true → accessible i.length dst s → completes i s fun t =>
        let w := Operand.width dst
        let a := operandValue i.length w dst s
        operandValue i.length w dst t = a + 1 ∧ sumFlags a 1 (a + 1) t ∧
        onlyDestinationAndFlags i.length dst noCarryBits s t) ∧
      ∀ m, dst = .mem m → faultsOn i .read m s s) ∧
    (i.kind s.rip = .dec dst →
      (s.bus.wf = true → accessible i.length dst s → completes i s fun t =>
        let w := Operand.width dst
        let a := operandValue i.length w dst s
        operandValue i.length w dst t = a - 1 ∧ differenceFlags a 1 (a - 1) t ∧
        onlyDestinationAndFlags i.length dst noCarryBits s t) ∧
      ∀ m, dst = .mem m → faultsOn i .read m s s)

/-- The arithmetic meaning of the flags of Add and Adc: CF is the carry out of the width, OF says that the signed sum
does not fit, AF is the carry out of bit 3 (R28, R181, R185, R193). -/
def Obligations.SumFlagsMeaning : Prop :=
  ∀ (w : Width) (a b : BitVec w.bits) (c : Bool) (f : Word),
    let r := a + b + BitVec.ofNat w.bits c.toNat
    ((updateAdc a b c r f).getLsbD bitCF = true ↔ 2 ^ w.bits ≤ a.toNat + b.toNat + c.toNat) ∧
    ((updateAdc a b c r f).getLsbD bitOF = true ↔ r.toInt ≠ a.toInt + b.toInt + c.toNat) ∧
    ((updateAdc a b c r f).getLsbD bitAF = true ↔ 16 ≤ a.toNat % 16 + b.toNat % 16 + c.toNat) ∧
    (c = false → updateAdd a b (a + b) f = updateAdc a b c r f)

/-- The arithmetic meaning of the flags of Sub and Cmp: CF is the borrow, OF says that the signed difference does not
fit, AF is the borrow into bit 3 (R28, R183, R193). -/
def Obligations.DifferenceFlagsMeaning : Prop :=
  ∀ (w : Width) (a b : BitVec w.bits) (f : Word),
    ((updateSub a b (a - b) f).getLsbD bitCF = true ↔ a.toNat < b.toNat) ∧
    ((updateSub a b (a - b) f).getLsbD bitOF = true ↔ (a - b).toInt ≠ a.toInt - b.toInt) ∧
    ((updateSub a b (a - b) f).getLsbD bitAF = true ↔ a.toNat % 16 < b.toNat % 16)

/-- R190's pairing with the conditions: after `cmp a, b` the conditions compare a with b, unsigned and signed. -/
def Obligations.CmpThenConditions : Prop :=
  ∀ (i : Instr) (s t : State) (x y : Operand), i.kind s.rip = .cmp x y → exec i s = .next t →
    let a := operandValue i.length (Operand.width x) x s
    let b := operandValue i.length (Operand.width x) y s
    (conditionHolds .b t ↔ a.toNat < b.toNat) ∧ (conditionHolds .ae t ↔ b.toNat ≤ a.toNat) ∧
    (conditionHolds .e t ↔ a = b) ∧ (conditionHolds .ne t ↔ a ≠ b) ∧
    (conditionHolds .be t ↔ a.toNat ≤ b.toNat) ∧ (conditionHolds .a t ↔ b.toNat < a.toNat) ∧
    (conditionHolds .l t ↔ a.toInt < b.toInt) ∧ (conditionHolds .ge t ↔ b.toInt ≤ a.toInt) ∧
    (conditionHolds .le t ↔ a.toInt ≤ b.toInt) ∧ (conditionHolds .g t ↔ b.toInt < a.toInt)

/-- R194: the boundary table, each row with its result and its six flags, whatever the other bits of F were. -/
def Obligations.BoundaryTable : Prop :=
  ∀ f : Word,
    let row := fun (r : Word) => [bitCF, bitPF, bitAF, bitZF, bitSF, bitOF].map fun k => r.getLsbD k
    (0#64 + 0#64 = 0#64 ∧ row (updateAdd 0#64 0#64 0#64 f) = [false, true, false, true, false, false]) ∧
    (0xFFFFFFFFFFFFFFFF#64 + 1#64 = 0#64 ∧
      row (updateAdd 0xFFFFFFFFFFFFFFFF#64 1#64 0#64 f) = [true, true, true, true, false, false]) ∧
    (0x8000000000000000#64 - 1#64 = 0x7FFFFFFFFFFFFFFF#64 ∧
      row (updateSub 0x8000000000000000#64 1#64 0x7FFFFFFFFFFFFFFF#64 f) =
        [false, true, true, false, false, true]) ∧
    (0x7F#64 + 0x01#64 = 0x80#64 ∧
      row (updateAdd 0x7F#64 0x01#64 0x80#64 f) = [false, false, true, false, false, false]) ∧
    (0x7F#8 + 0x01#8 = 0x80#8 ∧
      row (updateAdd 0x7F#8 0x01#8 0x80#8 f) = [false, false, true, false, true, true])

/-! ## Logic and shifts (43_logic_shift.md) -/

/-- R201 with R200, for the six constructors of kind Test: the flags of the conjunction, AF and every register and
byte as before (decisions D16, D17); a memory operand that cannot be read faults. -/
def Obligations.TestResult : Prop :=
  ∀ (i : Instr) (s : State) (x y : Operand), i.kind s.rip = .test x y →
    (accessible i.length x s → accessible i.length y s →
      completes i s fun t =>
        let w := Operand.width x
        logicFlags (operandValue i.length w x s &&& operandValue i.length w y s) t ∧ onlyFlags logicBits s t) ∧
    ∀ m, x = .mem m → faultsOn i .read m s s

/-- R202 with R200, for the nine constructors of kind Xor (decisions D16, D17); faults as AddResult. -/
def Obligations.XorResult : Prop :=
  ∀ (i : Instr) (s : State) (dst src : Operand), i.kind s.rip = .xor dst src →
    (s.bus.wf = true → accessible i.length dst s → accessible i.length src s →
      completes i s fun t =>
        let w := Operand.width dst
        let r := operandValue i.length w dst s ^^^ operandValue i.length w src s
        operandValue i.length w dst t = r ∧ logicFlags r t ∧ onlyDestinationAndFlags i.length dst logicBits s t) ∧
    ∀ m, dst = .mem m ∨ src = .mem m → faultsOn i .read m s s

/-- R205 with R203 and R204, for the six constructors of kind Shl. Where R204 draws a bit (AF for n > 0, OF for n > 1,
CF for n > W) the statement says nothing of it (decision D18, log entry 3); a count masked to 0 still writes (D34). A
memory operand that cannot be read faults. -/
def Obligations.ShlResult : Prop :=
  ∀ (i : Instr) (s : State) (dst count : Operand), i.kind s.rip = .shl dst count →
    (s.bus.wf = true → accessible i.length dst s → accessible i.length count s →
      completes i s fun t =>
        let w := Operand.width dst
        let a := operandValue i.length w dst s
        let n := (operandValue i.length .w8 count s).toNat % (if w = .w64 then 64 else 32)
        let r := operandValue i.length w dst t
        r.toNat = a.toNat * 2 ^ n % 2 ^ w.bits ∧
        onlyDestinationAndFlags i.length dst (if n = 0 then [] else arithmeticBits) s t ∧
        (0 < n → resultFlags r t) ∧
        (0 < n → n ≤ w.bits → t.flags.getLsbD bitCF = a.getLsbD (w.bits - n)) ∧
        (n = 1 → t.flags.getLsbD bitOF = (r.msb ^^ t.flags.getLsbD bitCF))) ∧
    ∀ m, dst = .mem m → faultsOn i .read m s s

/-- R206 with R203 and R204, for the six constructors of kind Shr; drawn bits, count 0 and faults as in ShlResult. -/
def Obligations.ShrResult : Prop :=
  ∀ (i : Instr) (s : State) (dst count : Operand), i.kind s.rip = .shr dst count →
    (s.bus.wf = true → accessible i.length dst s → accessible i.length count s →
      completes i s fun t =>
        let w := Operand.width dst
        let a := operandValue i.length w dst s
        let n := (operandValue i.length .w8 count s).toNat % (if w = .w64 then 64 else 32)
        let r := operandValue i.length w dst t
        r.toNat = a.toNat / 2 ^ n ∧
        onlyDestinationAndFlags i.length dst (if n = 0 then [] else arithmeticBits) s t ∧
        (0 < n → resultFlags r t) ∧
        (0 < n → n ≤ w.bits → t.flags.getLsbD bitCF = a.getLsbD (n - 1)) ∧
        (n = 1 → t.flags.getLsbD bitOF = a.msb)) ∧
    ∀ m, dst = .mem m → faultsOn i .read m s s

/-! ## Stack (44_stack.md) -/

/-- R210, for pushR64, pushImm32, pushImm8, pushRm64: the value read with the rsp of before is stored 8 bytes below
it, then rsp is that address; a source that cannot be read, or else an unmapped slot, faults. -/
def Obligations.PushResult : Prop :=
  ∀ (i : Instr) (s : State) (src : Operand), i.kind s.rip = .push src →
    (s.bus.wf = true → accessible i.length src s → mapped s (s.reg rsp - 8) 8 →
      completes i s fun t =>
        valueAt .w64 t (s.reg rsp - 8) = operandValue i.length .w64 src s ∧ t.reg rsp = s.reg rsp - 8 ∧
        sameRegsExcept [rsp] s t ∧ sameBytesExcept (s.reg rsp - 8) 8 s t ∧ t.flags = s.flags ∧
        samePcAndStream s t) ∧
    (∀ m, src = .mem m → faultsOn i .read m s s) ∧
    (accessible i.length src s → ¬ mapped s (s.reg rsp - 8) 8 →
      exec i s = .fault (.busFault (s.reg rsp - 8) 8 .write s))

/-- R211, for popR64 and popRm64: the top of stack goes to the destination, whose address uses the incremented rsp;
rsp ends 8 higher, except that `pop rsp` leaves the popped value. An unmapped top of stack, or else a memory
destination that cannot be written, faults. -/
def Obligations.PopResult : Prop :=
  ∀ (i : Instr) (s : State) (dst : Operand), i.kind s.rip = .pop dst →
    (s.bus.wf = true → mapped s (s.reg rsp) 8 → accessible i.length dst (s.setReg rsp (s.reg rsp + 8)) →
      completes i s fun t =>
        t.flags = s.flags ∧ samePcAndStream s t ∧
        match dst with
        | .reg r =>
          t.reg r.slot = valueAt .w64 s (s.reg rsp) ∧ (r.slot ≠ rsp → t.reg rsp = s.reg rsp + 8) ∧
          sameRegsExcept [rsp, r.slot] s t ∧ t.bus = s.bus
        | .mem m =>
          let a := ea0 i.length m (s.setReg rsp (s.reg rsp + 8))
          valueAt .w64 t a = valueAt .w64 s (s.reg rsp) ∧ t.reg rsp = s.reg rsp + 8 ∧
          sameRegsExcept [rsp] s t ∧ sameBytesExcept a 8 s t
        | .imm _ => False) ∧
    (¬ mapped s (s.reg rsp) 8 → exec i s = .fault (.busFault (s.reg rsp) 8 .read s)) ∧
    (mapped s (s.reg rsp) 8 → ∀ m, dst = .mem m → faultsOn i .write m (s.setReg rsp (s.reg rsp + 8)) s)

/-- R212, for leave: rsp becomes rbp plus 8, rbp the value read at the old rbp; an unmapped frame pointer faults. -/
def Obligations.LeaveResult : Prop :=
  ∀ (i : Instr) (s : State), i.kind s.rip = .leave →
    (mapped s (s.reg rbp) 8 → completes i s fun t =>
        t.reg rsp = s.reg rbp + 8 ∧ t.reg rbp = valueAt .w64 s (s.reg rbp) ∧ sameRegsExcept [rsp, rbp] s t ∧
        t.bus = s.bus ∧ t.flags = s.flags ∧ samePcAndStream s t) ∧
    (¬ mapped s (s.reg rbp) 8 → exec i s = .fault (.busFault (s.reg rbp) 8 .read s))

/-- R211's corner case: Push of a register then Pop of the same register restores that register and rsp. -/
def Obligations.PushThenPop : Prop :=
  ∀ (i j : Instr) (s t u : State) (r : Gpr), i.kind s.rip = .push (.reg r) → j.kind t.rip = .pop (.reg r) →
    s.bus.wf = true → exec i s = .next t → exec j t = .next u → ∀ k, u.reg k = s.reg k

/-! ## Control transfer (45_control_transfer.md) -/

/-- R220 with the predicates R221 to R237, for the 33 constructors of kind ConditionalJump: they complete in every
state; pc becomes the target exactly when the predicate holds, and nothing else changes. -/
def Obligations.ConditionalJumpResult : Prop :=
  ∀ (i : Instr) (s : State) (c : ConditionCode) (target : Word), i.kind s.rip = .conditionalJump c target →
    completes i s fun t =>
      (conditionHolds c s → t.rip = target) ∧ (¬ conditionHolds c s → t.rip = s.rip) ∧ onlyPc s t

/-- R240, for jmpRel32, jmpRel8, jmpRm64: pc becomes the operand's value (decision D27); a memory operand that cannot
be read faults. -/
def Obligations.JumpResult : Prop :=
  ∀ (i : Instr) (s : State) (op : Operand), i.kind s.rip = .unconditionalJump op →
    (accessible i.length op s →
      completes i s fun t => t.rip = operandValue i.length .w64 op s ∧ onlyPc s t) ∧
    ∀ m, op = .mem m → faultsOn i .read m s s

/-- R241, for callRel32 and callRm64: the return address is pushed, then the target is read with the rsp and the
memory of after the push, pc still being the call's own address. -/
def Obligations.CallResult : Prop :=
  ∀ (i : Instr) (s : State) (op : Operand), i.kind s.rip = .call op → s.bus.wf = true →
    mapped s (s.reg rsp - 8) 8 → accessible i.length op (s.setReg rsp (s.reg rsp - 8)) →
    completes i s fun t =>
      valueAt .w64 t (s.reg rsp - 8) = s.rip + BitVec.ofNat 64 i.length ∧ t.reg rsp = s.reg rsp - 8 ∧
      t.rip = operandValue i.length .w64 op (t.setRip s.rip) ∧
      sameRegsExcept [rsp] s t ∧ sameBytesExcept (s.reg rsp - 8) 8 s t ∧ t.flags = s.flags ∧ t.stream = s.stream

/-- R242, for ret: pc becomes the top of stack and rsp grows by 8; an unmapped top of stack faults. -/
def Obligations.RetResult : Prop :=
  ∀ (i : Instr) (s : State), i.kind s.rip = .ret →
    (mapped s (s.reg rsp) 8 → completes i s fun t =>
        t.rip = valueAt .w64 s (s.reg rsp) ∧ t.reg rsp = s.reg rsp + 8 ∧ sameRegsExcept [rsp] s t ∧
        t.bus = s.bus ∧ t.flags = s.flags ∧ t.stream = s.stream) ∧
    (¬ mapped s (s.reg rsp) 8 → exec i s = .fault (.busFault (s.reg rsp) 8 .read s))

/-- R242's property: a Call followed at once by a Ret comes back to the instruction after the Call with rsp as before,
and with every other register and flag as before. -/
def Obligations.CallThenRet : Prop :=
  ∀ (i j : Instr) (s t u : State) (op : Operand), i.kind s.rip = .call op → j.kind t.rip = .ret →
    s.bus.wf = true → exec i s = .next t → exec j t = .next u →
    u.rip = s.rip + BitVec.ofNat 64 i.length ∧ (∀ k, u.reg k = s.reg k) ∧ u.flags = s.flags

/-- R310: a transfer whose destination is its own address is followed by the advance, whichever of the four kinds it
is; a conditional or direct jump to itself does nothing but that. -/
def Obligations.SelfTargetFallsThrough : Prop :=
  ∀ (s : State) (i : Instr), s.bus.wf = true → i.wf = true → mapped s s.rip i.length →
    bytesAt s s.rip i.length = encode i →
    (∀ t, writesPc (i.kind s.rip) = true → exec i s = .next t → t.rip = s.rip →
      step s = .next (t.setRip (s.rip + BitVec.ofNat 64 i.length))) ∧
    ((∃ c, i.kind s.rip = .conditionalJump c s.rip) ∨ i.kind s.rip = .unconditionalJump (.imm s.rip) →
      step s = .next (s.setRip (s.rip + BitVec.ofNat 64 i.length)))

/-! ## Repeated strings (46_string.md) -/

/-- R251 with R250, for repMovsb: with rcx = 0 nothing happens; else an unmapped source or destination byte ends the
step with the state as it is, and otherwise the loop goes on from the state in which one byte is copied, rsi and rdi
have moved by +1 or -1 as DF says, and rcx is one less. -/
def Obligations.RepMovLoop : Prop :=
  ∀ (i : Instr) (s : State), i.kind s.rip = .rep .mov → s.bus.wf = true →
    let d : Word := if s.flags.getLsbD bitDF then -1 else 1
    (s.reg rcx = 0 → exec i s = .next s) ∧
    (s.reg rcx ≠ 0 →
      (¬ mapped s (s.reg rsi) 1 → exec i s = .fault (.busFault (s.reg rsi) 1 .read s)) ∧
      (mapped s (s.reg rsi) 1 → ¬ mapped s (s.reg rdi) 1 →
        exec i s = .fault (.busFault (s.reg rdi) 1 .write s)) ∧
      (mapped s (s.reg rsi) 1 → mapped s (s.reg rdi) 1 →
        ∃ u, exec i s = exec i u ∧ u.reg rcx = s.reg rcx - 1 ∧ u.reg rsi = s.reg rsi + d ∧
          u.reg rdi = s.reg rdi + d ∧ u.bus.byteAt (s.reg rdi).toNat = s.bus.byteAt (s.reg rsi).toNat ∧
          sameBytesExcept (s.reg rdi) 1 s u ∧ sameRegsExcept [rcx, rsi, rdi] s u ∧ u.flags = s.flags ∧
          samePcAndStream s u))

/-- R252 with R250, for repStosb: as RepMovLoop, storing al. -/
def Obligations.RepStosLoop : Prop :=
  ∀ (i : Instr) (s : State), i.kind s.rip = .rep .stos → s.bus.wf = true →
    let d : Word := if s.flags.getLsbD bitDF then -1 else 1
    (s.reg rcx = 0 → exec i s = .next s) ∧
    (s.reg rcx ≠ 0 →
      (¬ mapped s (s.reg rdi) 1 → exec i s = .fault (.busFault (s.reg rdi) 1 .write s)) ∧
      (mapped s (s.reg rdi) 1 →
        ∃ u, exec i s = exec i u ∧ u.reg rcx = s.reg rcx - 1 ∧ u.reg rdi = s.reg rdi + d ∧
          u.bus.byteAt (s.reg rdi).toNat = (s.reg rax).setWidth 8 ∧ sameBytesExcept (s.reg rdi) 1 s u ∧
          sameRegsExcept [rcx, rdi] s u ∧ u.flags = s.flags ∧ samePcAndStream s u))

/-- R253 with R250, for repLodsb: as RepMovLoop, loading al and keeping the rest of rax. -/
def Obligations.RepLodsLoop : Prop :=
  ∀ (i : Instr) (s : State), i.kind s.rip = .rep .lods →
    let d : Word := if s.flags.getLsbD bitDF then -1 else 1
    (s.reg rcx = 0 → exec i s = .next s) ∧
    (s.reg rcx ≠ 0 →
      (¬ mapped s (s.reg rsi) 1 → exec i s = .fault (.busFault (s.reg rsi) 1 .read s)) ∧
      (mapped s (s.reg rsi) 1 →
        ∃ u, exec i s = exec i u ∧ u.reg rcx = s.reg rcx - 1 ∧ u.reg rsi = s.reg rsi + d ∧
          (u.reg rax).setWidth 8 = s.bus.byteAt (s.reg rsi).toNat ∧ keptOutside .low8 (s.reg rax) (u.reg rax) ∧
          sameRegsExcept [rcx, rsi, rax] s u ∧ u.bus = s.bus ∧ u.flags = s.flags ∧ samePcAndStream s u))

/-- R254 with R250 and R183, for repeScasb: each iteration sets the flags of `cmp al, [rdi]`, moves rdi and counts;
the loop is left after the first byte that differs. -/
def Obligations.RepScasLoop : Prop :=
  ∀ (i : Instr) (s : State), i.kind s.rip = .rep .scas →
    let d : Word := if s.flags.getLsbD bitDF then -1 else 1
    let a : BitVec 8 := (s.reg rax).setWidth 8
    let b : BitVec 8 := s.bus.byteAt (s.reg rdi).toNat
    (s.reg rcx = 0 → exec i s = .next s) ∧
    (s.reg rcx ≠ 0 →
      (¬ mapped s (s.reg rdi) 1 → exec i s = .fault (.busFault (s.reg rdi) 1 .read s)) ∧
      (mapped s (s.reg rdi) 1 →
        ∃ u, exec i s = (if a = b then exec i u else .next u) ∧ u.reg rcx = s.reg rcx - 1 ∧
          u.reg rdi = s.reg rdi + d ∧ differenceFlags a b (a - b) u ∧ (u.flags.getLsbD bitCF = true ↔ a < b) ∧
          sameFlagsExcept arithmeticBits s u ∧ sameRegsExcept [rcx, rdi] s u ∧ u.bus = s.bus ∧
          samePcAndStream s u))

/-- Rep(Mov), Rep(Stos) and Rep(Lods) complete when every byte they name is mapped: rcx ends at 0, the pointers have
moved by the count, no byte outside the destination string has changed, and a source that shares no byte with the
destination has been copied (R251 to R253, R315). -/
def Obligations.RepCompletes : Prop :=
  ∀ (i : Instr) (s : State), s.bus.wf = true →
    let n := (s.reg rcx).toNat
    let src := stringAddr s (s.reg rsi)
    let dst := stringAddr s (s.reg rdi)
    (i.kind s.rip = .rep .mov → (∀ k < n, mapped s (src k) 1 ∧ mapped s (dst k) 1) →
      completes i s fun t =>
        t.reg rcx = 0 ∧ t.reg rsi = src n ∧ t.reg rdi = dst n ∧ t.flags = s.flags ∧
        ((∀ j < n, ∀ k < n, src j ≠ dst k) →
          ∀ k < n, t.bus.byteAt (dst k).toNat = s.bus.byteAt (src k).toNat) ∧
        onlyString [rcx, rsi, rdi] dst n s t) ∧
    (i.kind s.rip = .rep .stos → (∀ k < n, mapped s (dst k) 1) →
      completes i s fun t =>
        t.reg rcx = 0 ∧ t.reg rdi = dst n ∧ t.flags = s.flags ∧
        (∀ k < n, t.bus.byteAt (dst k).toNat = (s.reg rax).setWidth 8) ∧ onlyString [rcx, rdi] dst n s t) ∧
    (i.kind s.rip = .rep .lods → (∀ k < n, mapped s (src k) 1) →
      completes i s fun t =>
        t.reg rcx = 0 ∧ t.reg rsi = src n ∧ t.flags = s.flags ∧
        (0 < n → (t.reg rax).setWidth 8 = s.bus.byteAt (src (n - 1)).toNat) ∧
        keptOutside .low8 (s.reg rax) (t.reg rax) ∧ onlyString [rcx, rsi, rax] src 0 s t)

/-- Rep(Scas) completes when every byte it may examine is mapped: it stops after the first byte that differs from al,
or after all rcx bytes when none does (R254). -/
def Obligations.ScasCompletes : Prop :=
  ∀ (i : Instr) (s : State), i.kind s.rip = .rep .scas →
    let n := (s.reg rcx).toNat
    let addr := stringAddr s (s.reg rdi)
    let a : BitVec 8 := (s.reg rax).setWidth 8
    (∀ k < n, mapped s (addr k) 1) →
    completes i s fun t =>
      ∃ m ≤ n, t.reg rcx = s.reg rcx - BitVec.ofNat 64 m ∧ t.reg rdi = addr m ∧
        (∀ k, k + 1 < m → s.bus.byteAt (addr k).toNat = a) ∧
        (m < n → 0 < m ∧ s.bus.byteAt (addr (m - 1)).toNat ≠ a) ∧
        (0 < m → (t.flags.getLsbD bitZF = true ↔ s.bus.byteAt (addr (m - 1)).toNat = a)) ∧
        sameFlagsExcept (if n = 0 then [] else arithmeticBits) s t ∧ sameRegsExcept [rcx, rdi] s t ∧
        t.bus = s.bus ∧ samePcAndStream s t

/-! ## Miscellaneous (47_misc.md) -/

/-- R260, for nop and nopRm: nothing but the advance; it completes in every state, its memory operand unresolved.
R261, for cld: DF becomes 0 and every other bit of F, every register and every byte is as before. Both are decision
D17. -/
def Obligations.NopCldResult : Prop :=
  ∀ (i : Instr) (s : State),
    (i.kind s.rip = .nop → exec i s = .next s) ∧
    (i.kind s.rip = .cld → completes i s fun t =>
      t.flags.getLsbD bitDF = false ∧ onlyFlags [bitDF] s t)

/-- R262, for int3: always Breakpoint(pc), with no state changed (decision D19). -/
def Obligations.Int3Stops : Prop :=
  ∀ (i : Instr) (s : State), i.kind s.rip = .int3 → exec i s = .fault (.breakpoint s.rip s)

/-! ## The whole machine -/

/-- R29: no instruction changes a bit of F outside the named seven, whether it completes or faults (decision D33), and
DF is changed only by Cld, which clears it. -/
def Obligations.UnnamedFlagsKept : Prop :=
  ∀ (i : Instr) (s : State),
    (∀ t, exec i s = .next t →
      sameFlagsExcept namedBits s t ∧
      (t.flags.getLsbD bitDF ≠ s.flags.getLsbD bitDF → i.kind s.rip = .cld ∧ t.flags.getLsbD bitDF = false)) ∧
    ∀ f, exec i s = .fault f → sameFlagsExcept (namedBits.erase bitDF) s f.left

/-- R30: the instructions that write flags are the listed ones (decision D17); every other leaves F unchanged, on a
fault as well. -/
def Obligations.FlagWriters : Prop :=
  ∀ (i : Instr) (s : State), writesFlags (i.kind s.rip) = false →
    (∀ t, exec i s = .next t → t.flags = s.flags) ∧ ∀ f, exec i s = .fault f → f.left.flags = s.flags

/-- R33: the regions, with their ranges, names and tags, never change during execution; the stream takes no part in it
(R40). -/
def Obligations.RegionsFixed : Prop :=
  ∀ s : State,
    (∀ t, step s = .next t → t.bus.regions = s.bus.regions ∧ t.stream = s.stream) ∧
    ∀ f, step s = .fault f → f.left.bus.regions = s.bus.regions ∧ f.left.stream = s.stream

/-- R313: only ConditionalJump, UnconditionalJump, Call and Ret write pc; and no fault moves it. -/
def Obligations.PcWriters : Prop :=
  ∀ (i : Instr) (s : State),
    (∀ t, exec i s = .next t → writesPc (i.kind s.rip) = false → t.rip = s.rip) ∧
    ∀ f, exec i s = .fault f → f.left.rip = s.rip

/-- R154: for every instruction except the Rep family and a memory-indirect Call a fault leaves the state exactly as
it was before the instruction. -/
def Obligations.FaultsArePrecise : Prop :=
  ∀ (i : Instr) (s : State) (f : Fault), mayFaultLate (i.kind s.rip) = false → exec i s = .fault f → f.left = s

/-- R241 on a fault: a Call whose stack slot is unmapped changes nothing; a Call whose memory operand cannot be read
has stored the return address and moved rsp, and they stay, whichever of the two faults it is. -/
def Obligations.CallFaultLeavesPush : Prop :=
  ∀ (i : Instr) (s : State) (op : Operand), i.kind s.rip = .call op → s.bus.wf = true →
    (¬ mapped s (s.reg rsp - 8) 8 → exec i s = .fault (.busFault (s.reg rsp - 8) 8 .write s)) ∧
    (mapped s (s.reg rsp - 8) 8 → ∀ m, op = .mem m →
      let u := s.setReg rsp (s.reg rsp - 8)
      ¬ accessible i.length op u →
      ∃ t,
        exec i s = .fault (match m.segment with
          | some .fs => .segmentFault .fs t
          | some .gs => .segmentFault .gs t
          | _ => .busFault (ea0 i.length m u) 8 .read t) ∧
        valueAt .w64 t (s.reg rsp - 8) = s.rip + BitVec.ofNat 64 i.length ∧ t.reg rsp = s.reg rsp - 8 ∧
        sameRegsExcept [rsp] s t ∧ sameBytesExcept (s.reg rsp - 8) 8 s t ∧ t.flags = s.flags ∧ samePcAndStream s t)

/-- R250 (e): a fault of a Rep leaves the iterations before it performed: k of them, fewer than rcx, with everything
they did and nothing else; the failing iteration has changed nothing, so the instruction faults at once if it is run
again. Whatever the strings share, what is left is what the same instruction with a count of k leaves when it completes,
with the rest of the count still in rcx. -/
def Obligations.RepFaultKeepsIterations : Prop :=
  ∀ (i : Instr) (s : State) (r : Repeatable) (f : Fault), i.kind s.rip = .rep r → exec i s = .fault f →
    ∃ k < (s.reg rcx).toNat,
      let u := f.left
      u.reg rcx = s.reg rcx - BitVec.ofNat 64 k ∧
      u.reg rsi = (if r = .mov ∨ r = .lods then stringAddr s (s.reg rsi) k else s.reg rsi) ∧
      u.reg rdi = (if r = .lods then s.reg rdi else stringAddr s (s.reg rdi) k) ∧
      (s.bus.wf = true ∨ r = .lods ∨ r = .scas → iterationsPerformed r k s u) ∧
      failedAccess r u f ∧ exec i u = .fault f ∧
      exec i (s.setReg rcx (BitVec.ofNat 64 k)) = .next (u.setReg rcx 0)

/-- R277: no instruction of the decoder raises OperandFault. -/
def Obligations.OperandFaultUnreachable : Prop :=
  ∀ (i : Instr) (s t : State), i.wf = true → exec i s ≠ .fault (.operandFault t)

/-! ## The stream (30_encoding.md R135 to R141) -/

/-- R136 and R139: the items pulled are those of the sequence, whatever CHUNK, the running average and the batch size
are. -/
def Obligations.StreamYieldsSequence : Prop :=
  ∀ (bytes : List Byte) (a : Word) (chunk n : Nat), 15 ≤ chunk →
    streamPulls n (streamCreate bytes a chunk) = (streamSequence bytes a).take n

/-- R136's property with R137: exactly N whole instructions, and a tail whose window decodes to no item, yield exactly
the N instructions in address order, each at the previous address plus the previous length (past 2^64 it wraps, which is
the model's choice: log entry 17). -/
def Obligations.StreamOfWholeInstructions : Prop :=
  ∀ (is : List Instr) (tail : List Byte) (a : Word), (∀ i ∈ is, i.wf = true) →
    (∀ b ins, decode (tail.take 15) b ≠ .decoded ins) →
    let out := streamSequence (is.flatMap encode ++ tail) a
    out.length = is.length ∧
      (∀ k (h : k < out.length) (h' : k < is.length),
        out[k].length = is[k].length ∧ out[k].kind = is[k].kind out[k].address ∧
        out[k].address = a + BitVec.ofNat 64 ((is.take k).map Instr.length).sum)
end

