-- ==== Sys2Proof/Laws/Memory.lean ====
section
/-! SUPPORT. The laws of the canonical byte list and of the bus (20_memory.md R61 to R66). -/

namespace Sys2Proof.Machine

/-! ## One byte -/

theorem Memory.read_write (m : Memory) (hm : m.Pairwise fun c d => c.1 < d.1) (a b : Nat) (v : Byte) :
    Memory.read (Memory.write m a v) b = if b = a then v else Memory.read m b := by
  induction m with
  | nil =>
    simp only [Memory.write]
    split <;> by_cases h : b = a <;> simp_all [Memory.read, eq_comm]
  | cons c m ih =>
    obtain ⟨k, w⟩ := c
    obtain ⟨hk, hm'⟩ := List.pairwise_cons.1 hm
    have below : ∀ x : Nat, x ≤ k → Memory.read m x = Memory.unlisted := by
      intro x hx
      have : ∀ m : Memory, (∀ d ∈ m, k < d.1) → Memory.read m x = Memory.unlisted := by
        intro m
        induction m with
        | nil => intro _; rfl
        | cons d m ihm =>
          intro hd
          have h1 := hd d (by simp)
          simp only [Memory.read]
          rw [if_neg (by omega)]
          exact ihm fun e he => hd e (by simp [he])
      exact this m hk
    have ih := ih hm'
    simp only [Memory.write]
    by_cases h1 : a < k
    · simp only [h1, if_true]
      by_cases hv : v = Memory.unlisted
      · simp only [hv, if_true]
        by_cases hb : b = a
        · subst hb
          simp only [Memory.read, if_true]
          rw [if_neg (by omega)]; exact below b (by omega)
        · simp [hb]
      · simp only [hv, if_false, Memory.read]
        by_cases hb : b = a
        · subst hb; simp
        · simp [hb, Ne.symm hb]
    · simp only [h1, if_false]
      by_cases h2 : a = k
      · subst h2
        simp only [if_true]
        by_cases hv : v = Memory.unlisted
        · simp only [hv, if_true, Memory.read]
          by_cases hb : b = a
          · subst hb; simp [below b (by omega)]
          · simp [hb, Ne.symm hb]
        · simp only [hv, if_false, Memory.read]
          by_cases hb : b = a
          · subst hb; simp
          · simp [hb, Ne.symm hb]
      · simp only [h2, if_false, Memory.read]
        by_cases hkb : k = b
        · subst hkb; simp [Ne.symm h2]
        · simp only [hkb, if_false]; exact ih

theorem Memory.mem_write {m : Memory} {a : Nat} {v : Byte} {c : Host.Cell} (h : c ∈ Memory.write m a v) :
    c = (a, v) ∨ c ∈ m := by
  induction m with
  | nil =>
    simp only [Memory.write] at h
    split at h <;> simp_all
  | cons d m ih =>
    simp only [Memory.write] at h
    split at h
    · split at h <;> simp_all
    · split at h
      · split at h
        · exact .inr (by simp [h])
        · simp only [List.mem_cons] at h ⊢; tauto
      · simp only [List.mem_cons] at h ⊢
        rcases h with h | h
        · tauto
        · have := ih h; tauto

theorem Memory.write_wf {m : Memory} (h : Memory.wf m = true) (a : Nat) (v : Byte) :
    Memory.wf (Memory.write m a v) = true := by
  simp only [Memory.wf, Bool.and_eq_true, decide_eq_true_eq, List.all_eq_true, bne_iff_ne] at h ⊢
  obtain ⟨hp, hn⟩ := h
  induction m with
  | nil =>
    simp only [Memory.write]
    split <;> simp_all
  | cons d m ih =>
    obtain ⟨hk, hp'⟩ := List.pairwise_cons.1 hp
    have hnd := hn d (by simp)
    have hnm : ∀ x ∈ m, x.2 ≠ Memory.unlisted := fun x hx => hn x (by simp [hx])
    obtain ⟨ihp, ihn⟩ := ih hp' hnm
    simp only [Memory.write]
    split
    · split
      · exact ⟨hp, hn⟩
      · refine ⟨List.pairwise_cons.2 ⟨fun x hx => ?_, hp⟩, fun x hx => ?_⟩
        · rcases List.mem_cons.1 hx with rfl | hx
          · assumption
          · have := hk x hx; simp only; omega
        · rcases List.mem_cons.1 hx with rfl | hx
          · assumption
          · exact hn x hx
    · split
      · split
        · exact ⟨hp', hnm⟩
        · refine ⟨List.pairwise_cons.2 ⟨fun x hx => ?_, hp'⟩, fun x hx => ?_⟩
          · have := hk x hx; simp only; omega
          · rcases List.mem_cons.1 hx with rfl | hx
            · assumption
            · exact hnm x hx
      · refine ⟨List.pairwise_cons.2 ⟨fun x hx => ?_, ihp⟩, fun x hx => ?_⟩
        · rcases Memory.mem_write hx with rfl | hx
          · simp only; omega
          · exact hk x hx
        · rcases List.mem_cons.1 hx with rfl | hx
          · exact hnd
          · exact ihn x hx

theorem Memory.wf_pairwise {m : Memory} (h : Memory.wf m = true) : m.Pairwise fun c d => c.1 < d.1 := by
  simp only [Memory.wf, Bool.and_eq_true, decide_eq_true_eq] at h; exact h.1

/-! ## Consecutive bytes -/

theorem Memory.writeAll_wf (bs : List Byte) : ∀ {m : Memory} (_ : Memory.wf m = true) (a : Nat),
    Memory.wf (Memory.writeAll m a bs) = true := by
  induction bs with
  | nil => intro m h a; exact h
  | cons b bs ih => intro m h a; exact ih (Memory.write_wf h a b) (a + 1)

theorem Memory.mem_writeAll (bs : List Byte) : ∀ {m : Memory} {a : Nat} {c : Host.Cell},
    c ∈ Memory.writeAll m a bs → (a ≤ c.1 ∧ c.1 < a + bs.length) ∨ c ∈ m := by
  induction bs with
  | nil => intro m a c h; exact .inr h
  | cons b bs ih =>
    intro m a c h
    rcases ih h with h | h
    · exact .inl (by simp only [List.length_cons]; omega)
    · rcases Memory.mem_write h with rfl | h
      · exact .inl (by simp only [List.length_cons]; omega)
      · exact .inr h

/-- A byte read after consecutive bytes are written: the one written there, else the old one. -/
theorem Memory.read_writeAll (bs : List Byte) : ∀ {m : Memory} (_ : Memory.wf m = true) (a k : Nat),
    Memory.read (Memory.writeAll m a bs) k =
      if a ≤ k then (bs[k - a]?).getD (Memory.read m k) else Memory.read m k := by
  induction bs with
  | nil => intro m _ a k; simp [Memory.writeAll]
  | cons b bs ih =>
    intro m h a k
    simp only [Memory.writeAll]
    rw [ih (Memory.write_wf h a b), Memory.read_write m (Memory.wf_pairwise h)]
    by_cases h1 : a + 1 ≤ k
    · have h3 : ¬ k = a := by omega
      have h4 : a ≤ k := by omega
      have h5 : k - a = (k - (a + 1)) + 1 := by omega
      simp only [h1, h3, h4, if_true, if_false, h5, List.getElem?_cons_succ]
    · rw [if_neg h1]
      by_cases h2 : k = a
      · subst h2; simp
      · rw [if_neg h2, if_neg (by omega)]

/-! ## Byte order -/

@[simp] theorem toLE_length (n v : Nat) : (toLE n v).length = n := by
  induction n generalizing v with
  | zero => rfl
  | succ n ih => simp [toLE, ih]

theorem fromLE_toLE (n v : Nat) : fromLE (toLE n v) = v % 256 ^ n := by
  induction n generalizing v with
  | zero => simp [toLE, fromLE, Nat.mod_one]
  | succ n ih =>
    simp only [toLE, fromLE, ih, BitVec.toNat_ofNat]
    rw [show 256 ^ (n + 1) = 256 * 256 ^ n by ring, Nat.mod_mul]

theorem fromLE_lt (bs : List Byte) : fromLE bs < 256 ^ bs.length := by
  induction bs with
  | nil => simp [fromLE]
  | cons b bs ih =>
    simp only [fromLE, List.length_cons, Nat.pow_succ]
    have := b.isLt
    omega

/-- Bytes read back as they were laid out. -/
theorem toLE_fromLE (bs : List Byte) : toLE bs.length (fromLE bs) = bs := by
  induction bs with
  | nil => rfl
  | cons b bs ih =>
    have hb := b.isLt
    simp only [List.length_cons, toLE, fromLE]
    rw [show (b.toNat + 256 * fromLE bs) / 256 = fromLE bs by omega, ih]
    congr 1
    apply BitVec.eq_of_toNat_eq
    simp only [BitVec.toNat_ofNat]
    omega

theorem Width.bits_bytes (w : Width) : 2 ^ w.bits = 256 ^ w.bytes := by cases w <;> rfl

/-! ## The bus -/

theorem Bus.regionFor_some {b : Bus} {a : Word} {n : Nat} {r : Region} (h : b.regionFor a n = some r) :
    r ∈ b.regions ∧ r.contains a n = true :=
  ⟨List.mem_of_find?_eq_some h, by simpa using List.find?_some h⟩

theorem Bus.regionFor_isSome (b : Bus) (a : Word) (n : Nat) :
    (∃ r, b.regionFor a n = some r) ↔ ∃ r ∈ b.regions, r.contains a n = true := by
  constructor
  · rintro ⟨r, h⟩; exact ⟨r, Bus.regionFor_some h⟩
  · rintro ⟨r, hr, hc⟩
    exact Option.isSome_iff_exists.1 (by rw [Bus.regionFor, List.find?_isSome]; exact ⟨r, hr, hc⟩)

/-- A read of at least one byte: the bytes of a mapped span, or BusFault. -/
theorem Bus.readExact_cases (b : Bus) (a : Word) (n : Nat) (k : AccessKind) (hn : 0 < n) :
    ((∃ r ∈ b.regions, r.contains a n = true) ∧
        b.readExact a n k = .ok ((List.range n).map fun i => b.byteAt (a.toNat + i))) ∨
      ((∀ r ∈ b.regions, r.contains a n = false) ∧ b.readExact a n k = .error (.bus a n k)) := by
  unfold Bus.readExact
  rw [if_neg (by omega)]
  cases h : b.regionFor a n with
  | some r => exact .inl ⟨⟨r, Bus.regionFor_some h⟩, rfl⟩
  | none =>
    refine .inr ⟨fun r hr => ?_, rfl⟩
    have := List.find?_eq_none.1 h r hr
    simpa using this

/-- A write of at least one byte: all the bytes of a mapped span, or BusFault. -/
theorem Bus.writeBytes_cases (b : Bus) (a : Word) (bs : List Byte) (hn : 0 < bs.length) :
    ((∃ r ∈ b.regions, r.contains a bs.length = true) ∧
        b.writeBytes a bs = .ok { b with cells := Memory.writeAll b.cells a.toNat bs }) ∨
      ((∀ r ∈ b.regions, r.contains a bs.length = false) ∧
        b.writeBytes a bs = .error (.bus a bs.length .write)) := by
  unfold Bus.writeBytes
  rw [if_neg (by omega)]
  cases h : b.regionFor a bs.length with
  | some r => exact .inl ⟨⟨r, Bus.regionFor_some h⟩, rfl⟩
  | none =>
    refine .inr ⟨fun r hr => ?_, rfl⟩
    have := List.find?_eq_none.1 h r hr
    simpa using this

theorem Bus.wf_cells {b : Bus} (h : b.wf = true) : Memory.wf b.cells = true := by
  simp only [Bus.wf, Bool.and_eq_true] at h; exact h.1.2

/-- Every write of the bus keeps its invariant and its regions. -/
theorem Bus.writeBytes_wf {b b' : Bus} {a : Word} {bs : List Byte} (h : b.wf = true)
    (hw : b.writeBytes a bs = .ok b') : b'.wf = true ∧ b'.regions = b.regions := by
  by_cases hn : bs.length = 0
  · simp only [Bus.writeBytes, hn, if_true, Except.ok.injEq] at hw
    subst hw; exact ⟨h, rfl⟩
  · rcases Bus.writeBytes_cases b a bs (by omega) with ⟨⟨r, hr, hc⟩, he⟩ | ⟨_, he⟩
    · rw [he] at hw
      simp only [Except.ok.injEq] at hw
      subst hw
      refine ⟨?_, rfl⟩
      have hc' := hc
      simp only [Region.contains, Bool.and_eq_true, decide_eq_true_eq] at hc'
      simp only [Bus.wf, Bool.and_eq_true, List.all_eq_true, List.any_eq_true, decide_eq_true_eq] at h ⊢
      refine ⟨⟨h.1.1, Memory.writeAll_wf bs h.1.2 _⟩, fun c hcell => ?_⟩
      rcases Memory.mem_writeAll bs hcell with hin | hold
      · exact ⟨r, hr, by omega, by omega⟩
      · exact h.2 c hold
    · rw [he] at hw; simp at hw

/-- At most one region holds an address (20_memory.md R79). -/
theorem Bus.region_unique {b : Bus} (hb : b.wf = true) {r q : Region} (hr : r ∈ b.regions) (hq : q ∈ b.regions) {a : Nat}
    (h1 : r.startAddr.toNat ≤ a) (h2 : a < r.endAddr.toNat) (h3 : q.startAddr.toNat ≤ a) (h4 : a < q.endAddr.toNat) :
    r = q := by
  simp only [Bus.wf, Bool.and_eq_true, decide_eq_true_eq] at hb
  obtain ⟨⟨⟨_, hp⟩, _⟩, _⟩ := hb
  by_contra hne
  have hd : Region.disjoint r q = true ∨ Region.disjoint q r = true := by
    rw [List.pairwise_iff_getElem] at hp
    obtain ⟨i, hi, rfl⟩ := List.getElem_of_mem hr
    obtain ⟨j, hj, rfl⟩ := List.getElem_of_mem hq
    rcases Nat.lt_trichotomy i j with h | h | h
    · exact .inl (hp i j hi hj h)
    · subst h; exact absurd rfl hne
    · exact .inr (hp j i hj hi h)
  simp only [Region.disjoint, Bool.or_eq_true, decide_eq_true_eq] at hd
  omega

theorem Memory.reset_wf : Memory.wf State.reset.bus.cells = true := rfl

/-- A sublist of a canonical memory is canonical. -/
theorem Memory.filter_wf {m : Memory} (h : Memory.wf m = true) (p : Host.Cell → Bool) : Memory.wf (m.filter p) = true := by
  simp only [Memory.wf, Bool.and_eq_true, decide_eq_true_eq, List.all_eq_true] at h ⊢
  exact ⟨h.1.filter p, fun c hc => h.2 c (List.mem_filter.1 hc).1⟩

/-- Bit `j` of byte `k` of a little-endian value (20_memory.md R63). -/
theorem fromLE_bit (bs : List Byte) (k j : Nat) (hj : j < 8) :
    (fromLE bs).testBit (8 * k + j) = (bs[k]?.getD 0).getLsbD j := by
  induction bs generalizing k with
  | nil => simp [fromLE]
  | cons b bs ih =>
    have hd : fromLE (b :: bs) = 2 ^ 8 * fromLE bs + b.toNat := by simp [fromLE]; omega
    rw [hd, Nat.testBit_two_pow_mul_add _ b.isLt]
    cases k with
    | zero => simp [hj]; rfl
    | succ k =>
      rw [if_neg (by omega), show 8 * (k + 1) + j - 8 = 8 * k + j by omega, ih]
      simp

/-- Placing bytes at pc keeps the bus invariant. -/
theorem placeAtPc_wf {s : State} (h : s.bus.wf = true) (bytes : List Byte) : (placeAtPc s bytes).bus.wf = true := by
  simp only [placeAtPc]
  have hl : (bytes.take (2 ^ 64 - 1 - s.rip.toNat)).length ≤ 2 ^ 64 - 1 - s.rip.toNat := by
    rw [List.length_take]; omega
  generalize bytes.take (2 ^ 64 - 1 - s.rip.toNat) = bs at hl
  cases hf : s.bus.regionFor s.rip bs.length with
  | some r =>
    by_cases h0 : bs.length = 0
    · rw [List.length_eq_zero_iff] at h0
      subst h0
      exact h
    · have hw : s.bus.writeBytes s.rip bs =
          .ok { s.bus with cells := Memory.writeAll s.bus.cells s.rip.toNat bs } := by
        simp [Bus.writeBytes, h0, hf]
      exact (Bus.writeBytes_wf h hw).1
  | none =>
    have he : (s.rip + BitVec.ofNat 64 bs.length).toNat = s.rip.toNat + bs.length := by
      have := s.rip.isLt
      rw [BitVec.toNat_add, BitVec.toNat_ofNat]
      omega
    simp only [Bus.wf, Bool.and_eq_true, decide_eq_true_eq, List.all_eq_true, List.any_eq_true] at h ⊢
    obtain ⟨⟨⟨w1, w2⟩, w3⟩, w4⟩ := h
    refine ⟨⟨⟨?_, ?_⟩, Memory.writeAll_wf _ (Memory.filter_wf w3 _) _⟩, ?_⟩
    · intro r hr
      rcases List.mem_cons.1 hr with rfl | hr
      · simp only [he]; omega
      · exact w1 r (List.mem_filter.1 hr).1
    · refine List.pairwise_cons.2 ⟨fun q hq => ?_, w2.filter _⟩
      have := (List.mem_filter.1 hq).2
      simp only [Region.disjoint, Bool.or_eq_true, decide_eq_true_eq] at this ⊢
      omega
    · intro c hc
      rcases Memory.mem_writeAll _ hc with hc | hc
      · exact ⟨_, List.mem_cons_self, by simpa using hc.1, by simp only [he]; exact hc.2⟩
      · have := (List.mem_filter.1 hc).2
        simp only [List.any_eq_true, Bool.and_eq_true, decide_eq_true_eq] at this
        obtain ⟨r, hr, h⟩ := this
        exact ⟨r, List.mem_cons_of_mem _ hr, h⟩

end Sys2Proof.Machine
end

