-- ==== Sys2Proof/Laws/State.lean ====
section
/-! SUPPORT. One lemma for each field and each update of State. -/

namespace Sys2Proof.Machine

/-- The named slots are their numbers (10_state.md R25), so that simp tells them apart. -/
@[simp] theorem rax_eq : rax = 0 := rfl
@[simp] theorem rcx_eq : rcx = 1 := rfl
@[simp] theorem rsp_eq : rsp = 4 := rfl
@[simp] theorem rbp_eq : rbp = 5 := rfl
@[simp] theorem rsi_eq : rsi = 6 := rfl
@[simp] theorem rdi_eq : rdi = 7 := rfl

variable (s : State)

@[simp] theorem State.reg_setReg (i j : Fin 16) (v : Word) :
    (s.setReg i v).reg j = if j = i then v else s.reg j := by
  unfold State.setReg State.reg
  by_cases h : j = i
  · subst h; simp
  · simp only [h, if_false]
    exact Vector.getElem_set_ne _ _ fun e => h (Fin.ext e.symm)

/-- Two states whose registers read the same and whose other fields agree are one state. -/
theorem State.ext_reg {s t : State} (hr : ∀ i, s.reg i = t.reg i) (hp : s.rip = t.rip) (hf : s.flags = t.flags)
    (hb : s.bus = t.bus) (hst : s.stream = t.stream) (hd : s.draws = t.draws) : s = t := by
  cases s; cases t
  simp only [State.mk.injEq]
  exact ⟨Vector.ext fun i hi => hr ⟨i, hi⟩, hp, hf, hb, hst, hd⟩

@[simp] theorem State.setReg_rip (i : Fin 16) (v : Word) : (s.setReg i v).rip = s.rip := rfl
@[simp] theorem State.setReg_flags (i : Fin 16) (v : Word) : (s.setReg i v).flags = s.flags := rfl
@[simp] theorem State.setReg_bus (i : Fin 16) (v : Word) : (s.setReg i v).bus = s.bus := rfl
@[simp] theorem State.setReg_stream (i : Fin 16) (v : Word) : (s.setReg i v).stream = s.stream := rfl
@[simp] theorem State.setReg_draws (i : Fin 16) (v : Word) : (s.setReg i v).draws = s.draws := rfl

@[simp] theorem State.setRip_rip (t : Word) : (s.setRip t).rip = t := rfl
@[simp] theorem State.setRip_regs (t : Word) : (s.setRip t).regs = s.regs := rfl
@[simp] theorem State.setRip_reg (t : Word) (i : Fin 16) : (s.setRip t).reg i = s.reg i := rfl
@[simp] theorem State.setRip_flags (t : Word) : (s.setRip t).flags = s.flags := rfl
@[simp] theorem State.setRip_bus (t : Word) : (s.setRip t).bus = s.bus := rfl
@[simp] theorem State.setRip_stream (t : Word) : (s.setRip t).stream = s.stream := rfl
@[simp] theorem State.setRip_draws (t : Word) : (s.setRip t).draws = s.draws := rfl

@[simp] theorem State.setFlags_flags (f : Word) : (s.setFlags f).flags = f := rfl
@[simp] theorem State.setFlags_regs (f : Word) : (s.setFlags f).regs = s.regs := rfl
@[simp] theorem State.setFlags_reg (f : Word) (i : Fin 16) : (s.setFlags f).reg i = s.reg i := rfl
@[simp] theorem State.setFlags_rip (f : Word) : (s.setFlags f).rip = s.rip := rfl
@[simp] theorem State.setFlags_bus (f : Word) : (s.setFlags f).bus = s.bus := rfl
@[simp] theorem State.setFlags_stream (f : Word) : (s.setFlags f).stream = s.stream := rfl
@[simp] theorem State.setFlags_draws (f : Word) : (s.setFlags f).draws = s.draws := rfl

/-- A state with another bus keeps its registers. -/
@[simp] theorem State.withBus_reg (b : Bus) (i : Fin 16) : ({ s with bus := b } : State).reg i = s.reg i := rfl

/-- Every register is 0 at reset (10_state.md R50). -/
@[simp] theorem State.reset_reg (i : Fin 16) : State.reset.reg i = 0 := by
  simp [State.reset, State.reg]

/-- Two states with the same fields are equal. -/
theorem State.ext_fields {t : State} (h1 : ∀ i, t.reg i = s.reg i) (h2 : t.rip = s.rip)
    (h3 : t.flags = s.flags) (h4 : t.bus = s.bus) (h5 : t.stream = s.stream) (h6 : t.draws = s.draws) :
    t = s := by
  cases t; cases s
  simp only [State.mk.injEq] at *
  refine ⟨Vector.ext fun i hi => ?_, h2, h3, h4, h5, h6⟩
  exact h1 ⟨i, hi⟩

end Sys2Proof.Machine
end

