-- ==== Sys2Proof/Laws/Access.lean ====
section
/-! SUPPORT. What each shared access can answer: raising, MemRead, MemWrite, effective addresses, ReadOp, WriteOp. -/

namespace Sys2Proof.Machine

/-! ## Raising (60_exceptions.md R272) -/

@[simp] theorem access_ok {α : Type} (v : α) (s : State) (go : α → Result) : access (.ok v) s go = go v := rfl

@[simp] theorem access_error {α : Type} (e : AccessError) (s : State) (go : α → Result) :
    access (.error e) s go = raiseAccess e s := rfl

/-- An access that goes on to a next state succeeded. -/
theorem access_eq_next {α : Type} {x : Except AccessError α} {s t : State} {go : α → Result}
    (h : access x s go = .next t) : ∃ v, x = .ok v ∧ go v = .next t := by
  cases x with
  | ok v => exact ⟨v, rfl, h⟩
  | error e => cases e <;> simp [access, raiseAccess] at h

/-- An access that ends in a fault either failed, leaving the state it was given, or what followed it faulted. -/
theorem access_eq_fault {α : Type} {x : Except AccessError α} {s : State} {f : Fault} {go : α → Result}
    (h : access x s go = .fault f) :
    (∃ e, x = .error e ∧ raiseAccess e s = .fault f ∧ f.left = s) ∨ ∃ v, x = .ok v ∧ go v = .fault f := by
  cases x with
  | ok v => exact .inr ⟨v, rfl, h⟩
  | error e =>
    refine .inl ⟨e, rfl, h, ?_⟩
    cases e <;> simp [access, raiseAccess] at h <;> subst h <;> rfl

theorem raiseAccess_ne_next (e : AccessError) (s t : State) : raiseAccess e s ≠ .next t := by
  cases e <;> simp [raiseAccess]

theorem raiseAccess_ne_refused (e : AccessError) (s : State) (r : Refusal) : raiseAccess e s ≠ .refused r := by
  cases e <;> simp [raiseAccess]

/-! ## MemRead and MemWrite (20_memory.md R64, R65) -/

theorem Width.bytes_pos (w : Width) : 0 < w.bytes := by cases w <;> decide

theorem memRead_mapped {s : State} {w : Width} {a : Word} (h : mapped s a w.bytes) :
    memRead w a s = .ok (valueAt w s a) := by
  rcases s.bus.readExact_cases a w.bytes .read (Width.bytes_pos w) with ⟨_, he⟩ | ⟨hno, _⟩
  · simp [memRead, he, Except.map, valueAt, bytesAt]
  · obtain ⟨r, hr, hc⟩ := h
    simp [hno r hr] at hc

theorem memRead_unmapped {s : State} {w : Width} {a : Word} (h : ¬ mapped s a w.bytes) :
    memRead w a s = .error (.bus a w.bytes .read) := by
  rcases s.bus.readExact_cases a w.bytes .read (Width.bytes_pos w) with ⟨hm, _⟩ | ⟨_, he⟩
  · exact absurd hm h
  · simp [memRead, he, Except.map]

theorem memWrite_mapped {s : State} {w : Width} {a : Word} (v : BitVec w.bits) (h : mapped s a w.bytes) :
    memWrite w a v s = .ok (stored w a v s) := by
  have hl : (toLE w.bytes v.toNat).length = w.bytes := toLE_length _ _
  rcases s.bus.writeBytes_cases a (toLE w.bytes v.toNat) (by rw [hl]; exact Width.bytes_pos w) with
    ⟨_, he⟩ | ⟨hno, _⟩
  · simp [memWrite, he, Except.map, stored]
  · obtain ⟨r, hr, hc⟩ := h
    rw [hl] at hno
    simp [hno r hr] at hc

theorem memWrite_unmapped {s : State} {w : Width} {a : Word} (v : BitVec w.bits) (h : ¬ mapped s a w.bytes) :
    memWrite w a v s = .error (.bus a w.bytes .write) := by
  have hl : (toLE w.bytes v.toNat).length = w.bytes := toLE_length _ _
  rcases s.bus.writeBytes_cases a (toLE w.bytes v.toNat) (by rw [hl]; exact Width.bytes_pos w) with
    ⟨hm, _⟩ | ⟨_, he⟩
  · rw [hl] at hm; exact absurd hm h
  · rw [hl] at he; simp [memWrite, he, Except.map]

/-- Everything a store that answers can do: the span was mapped, and only its bytes changed. -/
theorem memWrite_ok {s t : State} {w : Width} {a : Word} {v : BitVec w.bits} (h : memWrite w a v s = .ok t) :
    mapped s a w.bytes ∧ t = stored w a v s := by
  by_cases hm : mapped s a w.bytes
  · rw [memWrite_mapped v hm] at h; exact ⟨hm, by simpa using h.symm⟩
  · rw [memWrite_unmapped v hm] at h; simp at h

@[simp] theorem stored_reg (w : Width) (a : Word) (v : BitVec w.bits) (s : State) (i : Fin 16) :
    (stored w a v s).reg i = s.reg i := rfl
@[simp] theorem stored_regs (w : Width) (a : Word) (v : BitVec w.bits) (s : State) :
    (stored w a v s).regs = s.regs := rfl
@[simp] theorem stored_rip (w : Width) (a : Word) (v : BitVec w.bits) (s : State) :
    (stored w a v s).rip = s.rip := rfl
@[simp] theorem stored_flags (w : Width) (a : Word) (v : BitVec w.bits) (s : State) :
    (stored w a v s).flags = s.flags := rfl
@[simp] theorem stored_stream (w : Width) (a : Word) (v : BitVec w.bits) (s : State) :
    (stored w a v s).stream = s.stream := rfl
@[simp] theorem stored_draws (w : Width) (a : Word) (v : BitVec w.bits) (s : State) :
    (stored w a v s).draws = s.draws := rfl
@[simp] theorem stored_regions (w : Width) (a : Word) (v : BitVec w.bits) (s : State) :
    (stored w a v s).bus.regions = s.bus.regions := rfl

/-- Mapping depends on the regions alone. -/
theorem mapped_congr {s t : State} (h : t.bus.regions = s.bus.regions) (a : Word) (n : Nat) :
    mapped t a n ↔ mapped s a n := by
  simp [mapped, h]

/-- A stored span's bytes change, no other byte does (R65). -/
theorem stored_byteAt_outside {s : State} (hs : s.bus.wf = true) (w : Width) (a : Word) (v : BitVec w.bits)
    {k : Nat} (hk : k < a.toNat ∨ a.toNat + w.bytes ≤ k) :
    (stored w a v s).bus.byteAt k = s.bus.byteAt k := by
  simp only [stored, Bus.byteAt]
  rw [Memory.read_writeAll _ (Bus.wf_cells hs)]
  rcases hk with hk | hk
  · rw [if_neg (by omega)]
  · rw [if_pos (by omega), List.getElem?_eq_none (by rw [toLE_length]; omega)]; rfl

/-- A stored value reads back (R63). -/
theorem stored_valueAt {s : State} (hs : s.bus.wf = true) (w : Width) (a : Word) (v : BitVec w.bits) :
    valueAt w (stored w a v s) a = v := by
  have hb : bytesAt (stored w a v s) a w.bytes = toLE w.bytes v.toNat := by
    apply List.ext_getElem?
    intro i
    simp only [bytesAt, List.getElem?_map, stored, Bus.byteAt]
    by_cases hi : i < w.bytes
    · rw [List.getElem?_range hi]
      simp only [Option.map_some]
      rw [Memory.read_writeAll _ (Bus.wf_cells hs), if_pos (by omega), show a.toNat + i - a.toNat = i by omega]
      rw [List.getElem?_eq_getElem (by rw [toLE_length]; exact hi)]
      rfl
    · rw [List.getElem?_eq_none (by simpa using hi), List.getElem?_eq_none (by rw [toLE_length]; omega)]
      rfl
  simp only [valueAt, hb, fromLE_toLE]
  apply BitVec.eq_of_toNat_eq
  rw [← Width.bits_bytes]
  simp only [BitVec.toNat_ofNat, Nat.mod_mod]
  exact Nat.mod_eq_of_lt v.isLt

/-- Bit `j` of byte `k` of the value of a span (R63). -/
theorem valueAt_bit (w : Width) (s : State) (a : Word) (k j : Nat) (hk : k < w.bytes) (hj : j < 8) :
    (valueAt w s a).getLsbD (8 * k + j) = (s.bus.byteAt (a.toNat + k)).getLsbD j := by
  have : 8 * k + j < w.bits := by cases w <;> simp only [Width.bytes, Width.bits] at hk ⊢ <;> omega
  simp only [valueAt, BitVec.getLsbD_ofNat, this, decide_true, Bool.true_and]
  rw [fromLE_bit _ _ _ hj, bytesAt]
  simp [hk]

/-- Every store keeps the bus invariant. -/
theorem stored_wf {s : State} (hs : s.bus.wf = true) {w : Width} {a : Word} (v : BitVec w.bits)
    (hm : mapped s a w.bytes) : (stored w a v s).bus.wf = true := by
  have hl : (toLE w.bytes v.toNat).length = w.bytes := toLE_length _ _
  rcases s.bus.writeBytes_cases a (toLE w.bytes v.toNat) (by rw [hl]; exact Width.bytes_pos w) with
    ⟨_, he⟩ | ⟨hno, _⟩
  · exact (Bus.writeBytes_wf hs he).1
  · obtain ⟨r, hr, hc⟩ := hm
    rw [hl] at hno
    simp [hno r hr] at hc

/-! ## Operands (40_engine_and_operands.md R156 to R158) -/

theorem ea_ok {len : Nat} {m : MemOperand} {s : State} (h1 : m.segment ≠ some .fs) (h2 : m.segment ≠ some .gs) :
    ea len m s = .ok (ea0 len m s) := by
  unfold ea
  split <;> simp_all

theorem ea_cases (len : Nat) (m : MemOperand) (s : State) :
    (m.segment ≠ some .fs ∧ m.segment ≠ some .gs ∧ ea len m s = .ok (ea0 len m s)) ∨
      ∃ g, m.segment = some g ∧ (g = .fs ∨ g = .gs) ∧ ea len m s = .error (.segment g) := by
  unfold ea
  split
  · exact .inr ⟨_, by assumption, .inl rfl, rfl⟩
  · exact .inr ⟨_, by assumption, .inr rfl, rfl⟩
  · exact .inl ⟨by simp_all, by simp_all, rfl⟩

/-- Everything a read of an operand that fits can answer. -/
theorem readOp_accessible {len : Nat} {w : Width} {o : Operand} {s : State} (hf : fits w o)
    (h : accessible len o s) : readOp len w o s = .ok (operandValue len w o s) := by
  cases o with
  | reg r => simp only [fits] at hf; simp [readOp, hf, operandValue]
  | imm v => rfl
  | mem m =>
    simp only [fits] at hf
    obtain ⟨h1, h2, h3⟩ := h
    subst hf
    simp [readOp, ea_ok h1 h2, Except.bind, memRead_mapped h3, operandValue]

theorem readOp_ok {len : Nat} {w : Width} {o : Operand} {s : State} {v : BitVec w.bits}
    (h : readOp len w o s = .ok v) : fits w o ∧ accessible len o s ∧ v = operandValue len w o s := by
  cases o with
  | reg r =>
    simp only [readOp] at h
    split at h
    · exact ⟨by assumption, trivial, by simpa [operandValue] using h.symm⟩
    · simp at h
  | imm v' => exact ⟨trivial, trivial, by simpa [readOp, operandValue] using h.symm⟩
  | mem m =>
    simp only [readOp] at h
    split at h
    · rename_i hw
      subst hw
      rcases ea_cases len m s with ⟨h1, h2, he⟩ | ⟨g, _, _, he⟩
      · rw [he] at h
        simp only [Except.bind] at h
        by_cases hm : mapped s (ea0 len m s) m.size.bytes
        · rw [memRead_mapped hm] at h
          exact ⟨rfl, ⟨h1, h2, hm⟩, by simpa [operandValue] using h.symm⟩
        · rw [memRead_unmapped hm] at h; simp at h
      · rw [he] at h; simp [Except.bind] at h
    · simp at h

/-- Everything a write of an operand that fits can answer; an immediate cannot be written (R158). -/
theorem writeOp_accessible {len : Nat} {w : Width} {o : Operand} {s : State} (v : BitVec w.bits) (hf : fits w o)
    (h : accessible len o s) (hi : ∀ x, o ≠ .imm x) : writeOp len w o v s = .ok (written len w o v s) := by
  cases o with
  | reg r => simp only [fits] at hf; simp [writeOp, hf, written]
  | imm x => exact absurd rfl (hi x)
  | mem m =>
    simp only [fits] at hf
    obtain ⟨h1, h2, h3⟩ := h
    subst hf
    simp [writeOp, ea_ok h1 h2, Except.bind, memWrite_mapped v h3, written]

theorem writeOp_ok {len : Nat} {w : Width} {o : Operand} {s t : State} {v : BitVec w.bits}
    (h : writeOp len w o v s = .ok t) :
    fits w o ∧ accessible len o s ∧ (∀ x, o ≠ .imm x) ∧ t = written len w o v s := by
  cases o with
  | reg r =>
    simp only [writeOp] at h
    split at h
    · exact ⟨by assumption, trivial, by simp, by simpa [written] using h.symm⟩
    · simp at h
  | imm v' => simp [writeOp] at h
  | mem m =>
    simp only [writeOp] at h
    split at h
    · rename_i hw
      subst hw
      rcases ea_cases len m s with ⟨h1, h2, he⟩ | ⟨g, _, _, he⟩
      · rw [he] at h
        simp only [Except.bind] at h
        obtain ⟨hm, ht⟩ := memWrite_ok h
        exact ⟨rfl, ⟨h1, h2, hm⟩, by simp, by simpa [written] using ht⟩
      · rw [he] at h; simp [Except.bind] at h
    · simp at h

/-- A read through an FS or GS override faults before any access (R156). -/
theorem readOp_segment {len : Nat} {w : Width} {m : MemOperand} {s : State} (hf : m.size = w) {g : Seg}
    (hg : m.segment = some g) (h : g = .fs ∨ g = .gs) : readOp len w (.mem m) s = .error (.segment g) := by
  have : ea len m s = .error (.segment g) := by unfold ea; rcases h with rfl | rfl <;> simp [hg]
  simp [readOp, hf, this, Except.bind]

theorem readOp_unmapped {len : Nat} {m : MemOperand} {s : State} (h1 : m.segment ≠ some .fs)
    (h2 : m.segment ≠ some .gs) (h : ¬ mapped s (ea0 len m s) m.size.bytes) :
    readOp len m.size (.mem m) s = .error (.bus (ea0 len m s) m.size.bytes .read) := by
  simp [readOp, ea_ok h1 h2, Except.bind, memRead_unmapped h]

@[simp] theorem written_rip (len : Nat) (w : Width) (o : Operand) (v : BitVec w.bits) (s : State) :
    (written len w o v s).rip = s.rip := by cases o <;> rfl
@[simp] theorem written_flags (len : Nat) (w : Width) (o : Operand) (v : BitVec w.bits) (s : State) :
    (written len w o v s).flags = s.flags := by cases o <;> rfl
@[simp] theorem written_stream (len : Nat) (w : Width) (o : Operand) (v : BitVec w.bits) (s : State) :
    (written len w o v s).stream = s.stream := by cases o <;> rfl
@[simp] theorem written_draws (len : Nat) (w : Width) (o : Operand) (v : BitVec w.bits) (s : State) :
    (written len w o v s).draws = s.draws := by cases o <;> rfl
@[simp] theorem written_regions (len : Nat) (w : Width) (o : Operand) (v : BitVec w.bits) (s : State) :
    (written len w o v s).bus.regions = s.bus.regions := by cases o <;> rfl

/-! ## Views (10_state.md R23, R24) -/

/-- Bit `i` of a slot after a write of a view: the written value's, the kept one, or 0 (R24). -/
theorem View.getLsbD_put (v : View) (x : Word) (y : BitVec (View.width v).bits) (i : Nat) (hi : i < 64) :
    (View.put v x y).getLsbD i =
      match v with
      | .low8 => if i < 8 then y.getLsbD i else x.getLsbD i
      | .high8 => if i < 8 then x.getLsbD i else if i < 16 then y.getLsbD (i - 8) else x.getLsbD i
      | .w16 => if i < 16 then y.getLsbD i else x.getLsbD i
      | .w32 => if i < 32 then y.getLsbD i else false
      | .w64 => y.getLsbD i := by
  cases v with
  | low8 =>
    refine (@BitVec.getLsbD_append 56 8 i (x.extractLsb' 8 56) y).trans ?_
    by_cases h : i < 8
    · simp only [h, if_true]
    · simp only [h, if_false, BitVec.getLsbD_extractLsb']
      rw [show 8 + (i - 8) = i by omega, decide_eq_true (show i - 8 < 56 by omega)]
      simp
  | high8 =>
    refine (@BitVec.getLsbD_append 56 8 i (x.extractLsb' 16 48 ++ (show BitVec 8 from y)) (x.extractLsb' 0 8)).trans ?_
    by_cases h : i < 8
    · simp [h]
    · simp only [h, if_false]
      refine (@BitVec.getLsbD_append 48 8 (i - 8) (x.extractLsb' 16 48) y).trans ?_
      simp only [BitVec.getLsbD_extractLsb']
      by_cases h' : i < 16
      · rw [if_pos (show i - 8 < 8 by omega), if_pos h']
      · rw [if_neg (show ¬ i - 8 < 8 by omega), if_neg h', show 16 + (i - 8 - 8) = i by omega,
          decide_eq_true (show i - 8 - 8 < 48 by omega)]
        simp
  | w16 =>
    refine (@BitVec.getLsbD_append 48 16 i (x.extractLsb' 16 48) y).trans ?_
    by_cases h : i < 16
    · simp only [h, if_true]
    · simp only [h, if_false, BitVec.getLsbD_extractLsb']
      rw [show 16 + (i - 16) = i by omega, decide_eq_true (show i - 16 < 48 by omega)]
      simp
  | w32 =>
    refine (BitVec.getLsbD_setWidth ..).trans ?_
    rw [decide_eq_true hi, Bool.true_and]
    by_cases h : i < 32
    · simp [h]
    · simp only [h, if_false]
      exact BitVec.getLsbD_of_ge _ _ (show 32 ≤ i by omega)
  | w64 => rfl

/-- Bit `i` of a view's value (R23). -/
theorem View.getLsbD_get (v : View) (x : Word) (i : Nat) (hi : i < (View.width v).bits) :
    (View.get v x).getLsbD i = x.getLsbD (match v with | .high8 => 8 + i | _ => i) := by
  cases v <;> simp only [View.get, View.width, Width.bits] at hi ⊢ <;>
    simp [hi]

/-- A view reads what was written to it (R23, R24). -/
theorem View.get_put (v : View) (x : Word) (y : BitVec (View.width v).bits) : View.get v (View.put v x y) = y := by
  apply BitVec.eq_of_getLsbD_eq
  intro i hi
  rw [View.getLsbD_get v _ i hi]
  cases v <;> simp only [View.width, Width.bits] at hi ⊢ <;> rw [View.getLsbD_put _ _ _ _ (by omega)] <;> dsimp only
  · rw [if_pos hi]
  · rw [if_neg (by omega), if_pos (by omega), show 8 + i - 8 = i by omega]
  · rw [if_pos hi]
  · rw [if_pos hi]

theorem View.put_keptOutside (v : View) (x : Word) (y : BitVec (View.width v).bits) :
    keptOutside v x (View.put v x y) := by
  cases v <;> simp only [keptOutside] <;> intros <;> rename_i i hi <;>
    (by_cases h : i < 64
     · rw [View.getLsbD_put _ _ _ _ h]; dsimp only; split_ifs <;> first | rfl | omega
     · simp [BitVec.getLsbD_of_ge _ i (show 64 ≤ i by omega)])

@[simp] theorem State.regWrite_reg (s : State) (r : Gpr) (v : BitVec (View.width r.view).bits) (i : Fin 16) :
    (s.regWrite r v).reg i = if i = r.slot then View.put r.view (s.reg r.slot) v else s.reg i := by
  simp [State.regWrite]
@[simp] theorem State.regWrite_bus (s : State) (r : Gpr) (v : BitVec (View.width r.view).bits) :
    (s.regWrite r v).bus = s.bus := rfl

end Sys2Proof.Machine
end

