-- ==== Sys2Proof/Laws/Decode.lean ====
section
/-! SUPPORT. The parts of the decoder and of the encoder are inverse to each other, part by part, and the opcode table's
rows do not overlap. -/

namespace Sys2Proof

open Sys2Proof.Machine (toLE_length fromLE_toLE toLE_fromLE fromLE_lt)

/-! ## Little-endian fields -/

theorem nextLE_toLE {w n : Nat} (h : 2 ^ w = 256 ^ n) (v : BitVec w) (rest : List Byte) :
    nextLE w n (toLE n v.toNat ++ rest) = .ok (v, rest) := by
  unfold nextLE
  rw [if_pos (by simp), List.take_left' (toLE_length n _), List.drop_left' (toLE_length n _), fromLE_toLE, ← h,
    Nat.mod_eq_of_lt v.isLt]
  simp

theorem nextLE_ok {w n : Nat} (h : 2 ^ w = 256 ^ n) {bs rest : List Byte} {v : BitVec w}
    (hn : nextLE w n bs = .ok (v, rest)) : bs = toLE n v.toNat ++ rest := by
  unfold nextLE at hn
  split at hn
  · simp only [Except.ok.injEq, Prod.mk.injEq] at hn
    obtain ⟨rfl, rfl⟩ := hn
    have hl : (bs.take n).length = n := by simp; omega
    have hlt := fromLE_lt (bs.take n)
    rw [hl, ← h] at hlt
    rw [BitVec.toNat_ofNat, Nat.mod_eq_of_lt hlt]
    conv_lhs => rw [← List.take_append_drop n bs]
    conv_lhs => rw [← toLE_fromLE (bs.take n)]
    rw [hl]
  · simp at hn

/-! ## Prefixes (30_encoding.md R91 to R93) -/

@[simp] theorem LegacyPrefix.ofByte_byte (x : LegacyPrefix) : LegacyPrefix.ofByte x.byte = some x := by
  rcases x with _ | _ | s | _ | _ | _ <;> try rfl
  cases s <;> rfl

theorem LegacyPrefix.byte_of_ofByte {b : Byte} {x : LegacyPrefix} (h : LegacyPrefix.ofByte b = some x) :
    x.byte = b := by
  unfold LegacyPrefix.ofByte at h
  apply BitVec.eq_of_toNat_eq
  split at h <;> simp only [Option.some.injEq, reduceCtorEq] at h <;> subst h <;>
    simp only [LegacyPrefix.byte, Seg.byte] <;> rename_i hb <;> rw [hb] <;> rfl

theorem Rex.ofByte_byte (r : Rex) : Rex.ofByte r.byte = some r := by
  obtain ⟨w, r, x, b⟩ := r
  cases w <;> cases r <;> cases x <;> cases b <;> rfl

theorem Rex.byte_notLegacy (r : Rex) : LegacyPrefix.ofByte r.byte = none := by
  obtain ⟨w, r, x, b⟩ := r
  cases w <;> cases r <;> cases x <;> cases b <;> rfl

set_option maxRecDepth 10000 in
theorem Rex.byte_of_ofByte {b : Byte} {r : Rex} (h : Rex.ofByte b = some r) : r.byte = b := by
  have key : ∀ b : Byte, (Rex.ofByte b).all (fun r => r.byte == b) = true := by
    intro b
    have : ∀ n : Fin 256, (Rex.ofByte (BitVec.ofFin n)).all (fun r => r.byte == BitVec.ofFin n) = true := by decide
    exact this b.toFin
  have := key b
  rw [h] at this
  simpa using this

theorem takeLegacy_bytes (ls : List LegacyPrefix) {bs : List Byte}
    (h : ∀ b tl, bs = b :: tl → LegacyPrefix.ofByte b = none) :
    takeLegacy (ls.map LegacyPrefix.byte ++ bs) = (ls, bs) := by
  induction ls with
  | nil =>
    cases bs with
    | nil => rfl
    | cons b tl => simp [takeLegacy, h b tl rfl]
  | cons x ls ih => simp [takeLegacy, ih]

theorem takeLegacy_spec (bs : List Byte) :
    bs = (takeLegacy bs).1.map LegacyPrefix.byte ++ (takeLegacy bs).2 := by
  induction bs with
  | nil => rfl
  | cons b bs ih =>
    simp only [takeLegacy]
    split
    · rename_i h
      simp only [List.map_cons, List.cons_append, LegacyPrefix.byte_of_ofByte h, ← ih]
    · rfl

/-- The prefix bytes read back, before a byte that is no prefix. -/
theorem takePrefixes_bytes (p : Prefixes) {b : Byte} (rest : List Byte) (h1 : LegacyPrefix.ofByte b = none)
    (h2 : Rex.ofByte b = none) : takePrefixes (p.bytes ++ b :: rest) = (p, b :: rest) := by
  obtain ⟨ls, rex⟩ := p
  unfold takePrefixes Prefixes.bytes
  cases rex with
  | none =>
    rw [show ls.map LegacyPrefix.byte ++ (Option.map Rex.byte none).toList ++ b :: rest =
      ls.map LegacyPrefix.byte ++ b :: rest by simp,
      takeLegacy_bytes ls (by rintro _ _ ⟨⟩; exact h1)]
    simp [takeRex, h2]
  | some r =>
    rw [show ls.map LegacyPrefix.byte ++ (Option.map Rex.byte (some r)).toList ++ b :: rest =
      ls.map LegacyPrefix.byte ++ r.byte :: b :: rest by simp,
      takeLegacy_bytes ls (by rintro _ _ ⟨⟩; exact r.byte_notLegacy)]
    simp [takeRex, r.ofByte_byte]

/-- What the prefix reader takes off is the bytes of what it answers. -/
theorem takePrefixes_spec (bs : List Byte) : bs = (takePrefixes bs).1.bytes ++ (takePrefixes bs).2 := by
  have h := takeLegacy_spec bs
  unfold takePrefixes Prefixes.bytes
  conv_lhs => rw [h]
  rw [List.append_assoc]
  congr 1
  generalize (takeLegacy bs).2 = cs
  cases cs with
  | nil => rfl
  | cons b cs =>
    cases h' : Rex.ofByte b with
    | none => simp [takeRex, h']
    | some r => simp [takeRex, h', Rex.byte_of_ofByte h']

/-! ## The r/m form (R96 to R103) -/

theorem takeDisp_bytes (d : Disp) (rest : List Byte) : takeDisp d.mod (d.bytes ++ rest) = .ok (d, rest) := by
  cases d with
  | none => rfl
  | d8 v => simp [takeDisp, Disp.mod, Disp.bytes, nextLE_toLE (w := 8) (n := 1) (by decide) v, bind, Except.bind,
      pure, Except.pure]
  | d32 v => simp [takeDisp, Disp.mod, Disp.bytes, nextLE_toLE (w := 32) (n := 4) (by decide) v, bind, Except.bind,
      pure, Except.pure]

theorem takeDisp_ok {m : BitVec 2} (hm : m ≠ 3) {bs rest : List Byte} {d : Disp}
    (h : takeDisp m bs = .ok (d, rest)) : d.mod = m ∧ bs = d.bytes ++ rest := by
  unfold takeDisp at h
  split at h
  · simp only [Except.ok.injEq, Prod.mk.injEq] at h
    obtain ⟨rfl, rfl⟩ := h
    exact ⟨by simp_all [Disp.mod], rfl⟩
  · split at h
    · cases hn : nextLE 8 1 bs with
      | error e => simp [hn, bind, Except.bind] at h
      | ok x =>
        obtain ⟨v, bs'⟩ := x
        simp only [hn, bind, Except.bind, pure, Except.pure, Except.ok.injEq, Prod.mk.injEq] at h
        obtain ⟨rfl, rfl⟩ := h
        exact ⟨by simp_all [Disp.mod], nextLE_ok (by decide) hn⟩
    · cases hn : nextLE 32 4 bs with
      | error e => simp [hn, bind, Except.bind] at h
      | ok x =>
        obtain ⟨v, bs'⟩ := x
        simp only [hn, bind, Except.bind, pure, Except.pure, Except.ok.injEq, Prod.mk.injEq] at h
        obtain ⟨rfl, rfl⟩ := h
        refine ⟨?_, nextLE_ok (by decide) hn⟩
        simp only [Disp.mod]
        revert m
        decide

/-- The three fields of a ModRM or SIB byte. -/
theorem fields_of_byte (a : BitVec 2) (b c : BitVec 3) :
    (a ++ b ++ c : BitVec 8).extractLsb' 6 2 = a ∧ (a ++ b ++ c : BitVec 8).extractLsb' 3 3 = b ∧
      (a ++ b ++ c : BitVec 8).extractLsb' 0 3 = c := by
  revert a b c
  decide

set_option maxRecDepth 10000 in
theorem byte_of_fields (x : Byte) :
    ((x.extractLsb' 6 2 : BitVec 2) ++ (x.extractLsb' 3 3 : BitVec 3) ++ (x.extractLsb' 0 3 : BitVec 3) : BitVec 8) = x := by
  have : ∀ n : Fin 256, (((BitVec.ofFin n : Byte).extractLsb' 6 2 : BitVec 2) ++
      ((BitVec.ofFin n : Byte).extractLsb' 3 3 : BitVec 3) ++ ((BitVec.ofFin n : Byte).extractLsb' 0 3 : BitVec 3)
      : BitVec 8) = BitVec.ofFin n := by decide
  exact this x.toFin

/-- The r/m bytes read back. -/
theorem takeRm_bytes {rm : Rm} (h : rm.wf = true) (reg : BitVec 3) (rest : List Byte) :
    ∃ b tl, rm.bytes reg = b :: tl ∧ b.extractLsb' 3 3 = reg ∧
      ((b.extractLsb' 6 2 : BitVec 2) = 3 ↔ ∃ r, rm = .reg r) ∧ takeRm b (tl ++ rest) = .ok (rm, rest) := by
  cases rm with
  | reg r =>
    obtain ⟨h1, h2, h3⟩ := fields_of_byte 3#2 reg r
    exact ⟨_, _, rfl, h2, by simp [h1], by simp [takeRm, h1, h3]⟩
  | ripRel d =>
    obtain ⟨h1, h2, h3⟩ := fields_of_byte 0#2 reg 5#3
    refine ⟨_, _, rfl, h2, by simp [h1], ?_⟩
    simp [takeRm, h1, h3, nextLE_toLE (w := 32) (n := 4) (by decide) d, bind, Except.bind, pure, Except.pure]
  | base r d =>
    obtain ⟨h1, h2, h3⟩ := fields_of_byte d.mod reg r
    have hm : d.mod ≠ 3 := by cases d <;> simp [Disp.mod]
    have h0 : d.mod = 0 → d = .none := by cases d <;> simp [Disp.mod]
    simp only [Rm.wf, Bool.and_eq_true, bne_iff_ne, Bool.not_eq_true', Bool.and_eq_false_imp, beq_iff_eq,
      beq_eq_false_iff_ne] at h
    refine ⟨_, _, rfl, h2, by simpa [h1] using hm, ?_⟩
    have hn : ¬ (r = 5 ∧ d.mod = 0) := fun ⟨a, b⟩ => h.2 a (h0 b)
    simp only [takeRm, h1, h3, hm, h.1, hn, if_false, takeDisp_bytes, bind, Except.bind, pure, Except.pure]
  | sib ss idx bs d =>
    obtain ⟨h1, h2, h3⟩ := fields_of_byte d.mod reg 4#3
    obtain ⟨g1, g2, g3⟩ := fields_of_byte ss idx bs
    have hm : d.mod ≠ 3 := by cases d <;> simp [Disp.mod]
    have h0 : d.mod = 0 → d = .none := by cases d <;> simp [Disp.mod]
    simp only [Rm.wf, Bool.not_eq_true', Bool.and_eq_false_imp, beq_iff_eq, beq_eq_false_iff_ne] at h
    refine ⟨_, _, rfl, h2, by simpa [h1] using hm, ?_⟩
    have hn : ¬ (bs = 5 ∧ d.mod = 0) := fun ⟨a, b⟩ => h a (h0 b)
    simp only [takeRm, h1, h3, hm, if_false, List.cons_append, nextByte, bind, Except.bind, g1, g2, g3, hn,
      takeDisp_bytes, pure, Except.pure]
    rfl
  | sibNoBase ss idx d =>
    obtain ⟨h1, h2, h3⟩ := fields_of_byte 0#2 reg 4#3
    obtain ⟨g1, g2, g3⟩ := fields_of_byte ss idx 5#3
    refine ⟨_, _, rfl, h2, by simp [h1], ?_⟩
    simp [takeRm, h1, h3, g1, g2, g3, nextByte, nextLE_toLE (w := 32) (n := 4) (by decide) d, bind, Except.bind,
      pure, Except.pure]

/-- Taking apart a computation that answers. -/
theorem Except.bind_ok {α β ε : Type} {x : Except ε α} {f : α → Except ε β} {b : β} (h : x >>= f = .ok b) :
    ∃ a, x = .ok a ∧ f a = .ok b := by
  cases x with
  | error e => simp [bind, Except.bind] at h
  | ok a => exact ⟨a, rfl, h⟩

/-- Everything the r/m reader answers comes from the bytes of a legal form. -/
theorem takeRm_ok {b : Byte} {bs rest : List Byte} {rm : Rm} (h : takeRm b bs = .ok (rm, rest)) :
    rm.wf = true ∧ b :: bs = rm.bytes (b.extractLsb' 3 3) ++ rest ∧
      ((b.extractLsb' 6 2 : BitVec 2) = 3 → ∃ r, rm = .reg r) := by
  unfold takeRm at h
  have hb := byte_of_fields b
  generalize hm : (b.extractLsb' 6 2 : BitVec 2) = m at *
  generalize hr : (b.extractLsb' 0 3 : BitVec 3) = r at *
  generalize hg : (b.extractLsb' 3 3 : BitVec 3) = g at *
  simp only at h
  split at h
  · rename_i h3
    simp only [Except.ok.injEq, Prod.mk.injEq] at h
    obtain ⟨rfl, rfl⟩ := h
    subst h3
    exact ⟨rfl, by rw [← hb]; rfl, fun _ => ⟨_, rfl⟩⟩
  rename_i h3
  split at h
  · rename_i h4
    subst h4
    obtain ⟨⟨sib, bs1⟩, h1, h⟩ := Except.bind_ok h
    cases bs with
    | nil => simp [nextByte] at h1
    | cons c bs =>
      simp only [nextByte, Except.ok.injEq, Prod.mk.injEq] at h1
      obtain ⟨rfl, rfl⟩ := h1
      have hc := byte_of_fields c
      simp only at h
      split at h
      · rename_i h5
        obtain ⟨⟨d, bs2⟩, h2, h⟩ := Except.bind_ok h
        simp only [pure, Except.pure, Except.ok.injEq, Prod.mk.injEq] at h
        obtain ⟨rfl, rfl⟩ := h
        obtain ⟨h5, rfl⟩ := h5
        rw [h5] at hc
        refine ⟨rfl, ?_, fun h => absurd h h3⟩
        rw [nextLE_ok (w := 32) (n := 4) (by decide) h2, ← hb, ← hc, fields_of_byte _ _ _ |>.1,
          (fields_of_byte _ _ _).2.1]
        rfl
      · rename_i h5
        obtain ⟨⟨d, bs2⟩, h2, h⟩ := Except.bind_ok h
        simp only [pure, Except.pure, Except.ok.injEq, Prod.mk.injEq] at h
        obtain ⟨rfl, rfl⟩ := h
        obtain ⟨rfl, he⟩ := takeDisp_ok h3 h2
        refine ⟨?_, ?_, fun h => absurd h h3⟩
        · simp only [Rm.wf, Bool.not_eq_true', Bool.and_eq_false_imp, beq_iff_eq, beq_eq_false_iff_ne]
          rintro hbs rfl
          exact h5 ⟨hbs, rfl⟩
        · rw [he, ← hb]
          simp only [Rm.bytes, hc]
          rfl
  · rename_i h4
    split at h
    · rename_i h5
      obtain ⟨rfl, rfl⟩ := h5
      obtain ⟨⟨d, bs2⟩, h2, h⟩ := Except.bind_ok h
      simp only [pure, Except.pure, Except.ok.injEq, Prod.mk.injEq] at h
      obtain ⟨rfl, rfl⟩ := h
      refine ⟨rfl, ?_, fun h => absurd h h3⟩
      rw [nextLE_ok (w := 32) (n := 4) (by decide) h2, ← hb]
      rfl
    · rename_i h5
      obtain ⟨⟨d, bs2⟩, h2, h⟩ := Except.bind_ok h
      simp only [pure, Except.pure, Except.ok.injEq, Prod.mk.injEq] at h
      obtain ⟨rfl, rfl⟩ := h
      obtain ⟨rfl, he⟩ := takeDisp_ok h3 h2
      refine ⟨?_, ?_, fun h => absurd h h3⟩
      · simp only [Rm.wf, Bool.and_eq_true, bne_iff_ne, ne_eq, h4, not_false_eq_true, Bool.not_eq_true',
          Bool.and_eq_false_imp, beq_iff_eq, beq_eq_false_iff_ne, true_and]
        rintro rfl rfl
        exact h5 ⟨rfl, rfl⟩
      · rw [he, ← hb]
        rfl

/-! ## Immediates (R118) -/

/-- The immediate bytes read back. -/
theorem takeImm_bytes {r : RowInfo} {p : Prefixes} {imm : Imm} (h : r.immOk p imm = true) (rest : List Byte) :
    takeImm r.imm (r.opsize.width p) (imm.bytes ++ rest) = .ok (imm, rest) := by
  unfold RowInfo.immOk at h
  generalize r.opsize.width p = w at *
  generalize r.imm = k at *
  cases k <;> cases imm <;> cases w <;>
    first
    | exact absurd h Bool.false_ne_true
    | (simp only [takeImm, Imm.bytes, List.nil_append]; done)
    | simp [takeImm, Imm.bytes, nextLE_toLE (w := 8) (n := 1) (by decide), nextLE_toLE (w := 16) (n := 2) (by decide),
        nextLE_toLE (w := 32) (n := 4) (by decide), nextLE_toLE (w := 64) (n := 8) (by decide), bind, Except.bind,
        pure, Except.pure]

/-- Everything the immediate reader answers comes from the bytes of an immediate of the right size. -/
theorem takeImm_ok {r : RowInfo} {p : Prefixes} {imm : Imm} {bs rest : List Byte}
    (h : takeImm r.imm (r.opsize.width p) bs = .ok (imm, rest)) :
    r.immOk p imm = true ∧ bs = imm.bytes ++ rest := by
  unfold RowInfo.immOk
  generalize r.opsize.width p = w at *
  generalize r.imm = k at *
  cases k <;> cases w <;> simp only [takeImm] at h <;>
    first
    | (simp only [Except.ok.injEq, Prod.mk.injEq] at h
       obtain ⟨rfl, rfl⟩ := h
       exact ⟨rfl, rfl⟩)
    | (obtain ⟨⟨v, bs'⟩, h1, h⟩ := Except.bind_ok h
       simp only [pure, Except.pure, Except.ok.injEq, Prod.mk.injEq] at h
       obtain ⟨rfl, rfl⟩ := h
       exact ⟨rfl, nextLE_ok (by decide) h1⟩)

/-! ## Rows (R94) -/

/-- What the decoder relies on in one row: its opcode byte finds it, together only with rows that another digit
distinguishes, and no byte before it is taken for a prefix. -/
def Row.check (r : Row) (opreg : BitVec 3) : Bool :=
  let b := r.info.opcodeByte opreg
  let c := Row.candidates r.info.map b
  c.contains r &&
    (c.all fun x => (x.info.modrm == r.info.modrm) &&
      (x == r || (r.info.digit.isSome && x.info.digit.isSome && x.info.digit != r.info.digit && r.info.modrm))) &&
    (match r.info.map with
      | .oneByte => LegacyPrefix.ofByte b == none && Rex.ofByte b == none && b != 0x0F#8
      | .twoByte => true) &&
    (if r.info.mask = 0xF8 then (b.extractLsb' 0 3 : BitVec 3) == opreg else true) &&
    r.info.digit.all (· < 8)

set_option maxRecDepth 100000 in
theorem Row.check_all : (Row.all.all fun r =>
    if r.info.mask = 0xF8 then (List.range 8).all fun k => r.check (BitVec.ofNat 3 k) else r.check 0) = true := by
  decide +kernel
theorem Row.mem_all (r : Row) : r ∈ Row.all := by
  cases r <;> decide

theorem Row.check_ok (r : Row) (opreg : BitVec 3) (h : r.info.mask ≠ 0xF8 → opreg = 0) : r.check opreg = true := by
  have := List.all_eq_true.1 Row.check_all r (Row.mem_all r)
  split at this
  · have := List.all_eq_true.1 this opreg.toNat (by simpa using opreg.isLt)
    simpa using this
  · rename_i hm
    rw [h hm]
    exact this

/-- The parts an instruction has are the ones its row has. -/
theorem Instr.pieces_ok (i : Instr) :
    i.pieces.rm.isSome = i.row.info.modrm ∧ (i.row.info.digit.isSome = true → i.pieces.reg = 0) ∧
      (i.row.info.mask ≠ 0xF8 → i.pieces.opreg = 0) := by
  cases i <;> refine ⟨rfl, ?_, ?_⟩ <;> intro h <;> first | rfl | exact absurd rfl h | cases h

theorem RowInfo.immOk_none {r : RowInfo} {p : Prefixes} {imm : Imm} (hr : r.imm = .none) (h : r.immOk p imm = true) :
    imm = .none := by
  unfold RowInfo.immOk at h
  rw [hr] at h
  cases imm <;> first | rfl | exact absurd h Bool.false_ne_true

section
variable {q : Pieces} {i : Instr}

theorem takeMR_spec {f : Prefixes → BitVec 3 → Rm → Instr} (h : takeMR f q = some i) (ho : q.opreg = 0)
    (hi : q.imm = .none) : ∃ rm, i = f q.prefixes q.reg rm ∧ giveMR q.prefixes q.reg rm = q := by
  obtain ⟨p, opreg, reg, rm, imm⟩ := q
  cases rm with
  | none => simp [takeMR] at h
  | some rm => simp only at ho hi; subst ho hi; exact ⟨rm, by simpa [takeMR] using h.symm, rfl⟩

theorem takeM_spec {f : Prefixes → Rm → Instr} (h : takeM f q = some i) (ho : q.opreg = 0) (hr : q.reg = 0)
    (hi : q.imm = .none) : ∃ rm, i = f q.prefixes rm ∧ giveM q.prefixes rm = q := by
  obtain ⟨p, opreg, reg, rm, imm⟩ := q
  cases rm with
  | none => simp [takeM] at h
  | some rm => simp only at ho hi hr; subst ho hi hr; exact ⟨rm, by simpa [takeM] using h.symm, rfl⟩

theorem takeM8_spec {f : Prefixes → Rm → BitVec 8 → Instr} (h : takeM8 f q = some i) (ho : q.opreg = 0)
    (hr : q.reg = 0) : ∃ rm v, i = f q.prefixes rm v ∧ giveM8 q.prefixes rm v = q := by
  obtain ⟨p, opreg, reg, rm, imm⟩ := q
  simp only at ho hr
  subst ho hr
  cases rm <;> cases imm <;> simp only [takeM8, reduceCtorEq, Option.some.injEq] at h
  exact ⟨_, _, h.symm, rfl⟩

theorem takeMZ_spec {f : Prefixes → Rm → ImmZ → Instr} (h : takeMZ f q = some i) (ho : q.opreg = 0)
    (hr : q.reg = 0) : ∃ rm v, i = f q.prefixes rm v ∧ giveMZ q.prefixes rm v = q := by
  obtain ⟨p, opreg, reg, rm, imm⟩ := q
  simp only at ho hr
  subst ho hr
  cases rm <;> cases imm <;> simp only [takeMZ, reduceCtorEq, Option.some.injEq] at h <;>
    exact ⟨_, _, h.symm, rfl⟩

theorem takeI8_spec {f : Prefixes → BitVec 8 → Instr} (h : takeI8 f q = some i) (ho : q.opreg = 0)
    (hr : q.reg = 0) (hm : q.rm = none) : ∃ v, i = f q.prefixes v ∧ giveI8 q.prefixes v = q := by
  obtain ⟨p, opreg, reg, rm, imm⟩ := q
  simp only at ho hr hm
  subst ho hr hm
  cases imm <;> simp only [takeI8, reduceCtorEq, Option.some.injEq] at h
  exact ⟨_, h.symm, rfl⟩

theorem takeI32_spec {f : Prefixes → BitVec 32 → Instr} (h : takeI32 f q = some i) (ho : q.opreg = 0)
    (hr : q.reg = 0) (hm : q.rm = none) : ∃ v, i = f q.prefixes v ∧ giveI32 q.prefixes v = q := by
  obtain ⟨p, opreg, reg, rm, imm⟩ := q
  simp only at ho hr hm
  subst ho hr hm
  cases imm <;> simp only [takeI32, reduceCtorEq, Option.some.injEq] at h
  exact ⟨_, h.symm, rfl⟩

theorem takeIZ_spec {f : Prefixes → ImmZ → Instr} (h : takeIZ f q = some i) (ho : q.opreg = 0)
    (hr : q.reg = 0) (hm : q.rm = none) : ∃ v, i = f q.prefixes v ∧ giveIZ q.prefixes v = q := by
  obtain ⟨p, opreg, reg, rm, imm⟩ := q
  simp only at ho hr hm
  subst ho hr hm
  cases imm <;> simp only [takeIZ, reduceCtorEq, Option.some.injEq] at h <;> exact ⟨_, h.symm, rfl⟩

theorem takeO_spec {f : Prefixes → BitVec 3 → Instr} (h : takeO f q = some i)
    (hr : q.reg = 0) (hm : q.rm = none) (hi : q.imm = .none) :
    i = f q.prefixes q.opreg ∧ giveO q.prefixes q.opreg = q := by
  obtain ⟨p, opreg, reg, rm, imm⟩ := q
  simp only at hr hm hi
  subst hr hm hi
  exact ⟨by simpa [takeO] using h.symm, rfl⟩

theorem takeO8_spec {f : Prefixes → BitVec 3 → BitVec 8 → Instr} (h : takeO8 f q = some i)
    (hr : q.reg = 0) (hm : q.rm = none) : ∃ v, i = f q.prefixes q.opreg v ∧ giveO8 q.prefixes q.opreg v = q := by
  obtain ⟨p, opreg, reg, rm, imm⟩ := q
  simp only at hr hm
  subst hr hm
  cases imm <;> simp only [takeO8, reduceCtorEq, Option.some.injEq] at h
  exact ⟨_, h.symm, rfl⟩

theorem takeOV_spec {f : Prefixes → BitVec 3 → ImmV → Instr} (h : takeOV f q = some i)
    (hr : q.reg = 0) (hm : q.rm = none) : ∃ v, i = f q.prefixes q.opreg v ∧ giveOV q.prefixes q.opreg v = q := by
  obtain ⟨p, opreg, reg, rm, imm⟩ := q
  simp only at hr hm
  subst hr hm
  cases imm <;> simp only [takeOV, reduceCtorEq, Option.some.injEq] at h <;> exact ⟨_, h.symm, rfl⟩

theorem takeZ0_spec {f : Prefixes → Instr} (h : takeZ0 f q = some i) (ho : q.opreg = 0)
    (hr : q.reg = 0) (hm : q.rm = none) (hi : q.imm = .none) : i = f q.prefixes ∧ giveZ0 q.prefixes = q := by
  obtain ⟨p, opreg, reg, rm, imm⟩ := q
  simp only at ho hr hm hi
  subst ho hr hm hi
  exact ⟨by simpa [takeZ0] using h.symm, rfl⟩

/-- An instruction that was assembled has the row and the parts it was assembled from. -/
theorem Row.assemble_spec {r : Row} (h : r.assemble q = some i) (h1 : q.rm.isSome = r.info.modrm)
    (h2 : r.info.digit.isSome = true → q.reg = 0) (h3 : r.info.mask ≠ 0xF8 → q.opreg = 0)
    (h4 : r.info.modrm = false → q.reg = 0) (h5 : r.info.immOk q.prefixes q.imm = true) : i.row = r ∧ i.pieces = q := by
  have hm : r.info.modrm = false → q.rm = none := by
    intro hf
    rw [hf] at h1
    exact Option.not_isSome_iff_eq_none.1 (by simp [h1])
  have hi := fun hn => RowInfo.immOk_none (r := r.info) hn h5
  clear h1 h5
  cases r <;> first
    | (obtain ⟨rm, rfl, hq⟩ := takeMR_spec h (h3 (by decide)) (hi rfl); exact ⟨rfl, hq⟩)
    | (obtain ⟨rm, rfl, hq⟩ := takeM_spec h (h3 (by decide)) (h2 rfl) (hi rfl); exact ⟨rfl, hq⟩)
    | (obtain ⟨rm, v, rfl, hq⟩ := takeM8_spec h (h3 (by decide)) (h2 rfl); exact ⟨rfl, hq⟩)
    | (obtain ⟨rm, v, rfl, hq⟩ := takeMZ_spec h (h3 (by decide)) (h2 rfl); exact ⟨rfl, hq⟩)
    | (obtain ⟨v, rfl, hq⟩ := takeI8_spec h (h3 (by decide)) (h4 rfl) (hm rfl); exact ⟨rfl, hq⟩)
    | (obtain ⟨v, rfl, hq⟩ := takeI32_spec h (h3 (by decide)) (h4 rfl) (hm rfl); exact ⟨rfl, hq⟩)
    | (obtain ⟨v, rfl, hq⟩ := takeIZ_spec h (h3 (by decide)) (h4 rfl) (hm rfl); exact ⟨rfl, hq⟩)
    | (obtain ⟨rfl, hq⟩ := takeO_spec h (h4 rfl) (hm rfl) (hi rfl); exact ⟨rfl, hq⟩)
    | (obtain ⟨v, rfl, hq⟩ := takeO8_spec h (h4 rfl) (hm rfl); exact ⟨rfl, hq⟩)
    | (obtain ⟨v, rfl, hq⟩ := takeOV_spec h (h4 rfl) (hm rfl); exact ⟨rfl, hq⟩)
    | (obtain ⟨rfl, hq⟩ := takeZ0_spec h (h3 (by decide)) (h4 rfl) (hm rfl) (hi rfl); exact ⟨rfl, hq⟩)

end

end Sys2Proof
end

