-- ==== Sys2Proof/Laws/Flags.lean ====
section
/-! SUPPORT. The bits of the flags word after each update function, and the condition codes. -/

namespace Sys2Proof.Machine

/-- One bit is set, the others are kept (10_state.md R29). -/
theorem getLsbD_putBit (f : Word) (i j : Nat) (b : Bool) (hi : i < 64) :
    (putBit f i b).getLsbD j = if j = i then b else f.getLsbD j := by
  unfold putBit
  by_cases h : j = i
  · subst h; cases b <;> simp [hi]
  · cases b
    · simp only [Bool.false_eq_true, if_false, BitVec.getLsbD_and, BitVec.getLsbD_not, BitVec.getLsbD_twoPow, h]
      by_cases hj : j < 64
      · simp [hj, Ne.symm h]
      · simp [BitVec.getLsbD_of_ge f j (by omega)]
    · simp [BitVec.getLsbD_twoPow, h, Ne.symm h]

theorem pfOf_iff {n : Nat} (r : BitVec n) : pfOf r = true ↔ lowOnes r % 2 = 0 := by
  have h : (List.range 8).countP (fun i => r.getLsbD i) = lowOnes r := by
    rw [lowOnes, List.countP_eq_length_filter]
    generalize List.range 8 = l
    induction l with
    | nil => rfl
    | cons a l ih => cases h : r.getLsbD a <;> simp_all; omega
  simp [pfOf, h]

theorem zfOf_iff {n : Nat} (r : BitVec n) : zfOf r = true ↔ r = 0 := by simp [zfOf]

theorem sfOf_eq {n : Nat} (r : BitVec n) : sfOf r = r.msb := by simp [sfOf, BitVec.msb_eq_getLsbD_last]

/-! ## Every bit after an update -/

theorem getLsbD_putZSP {n : Nat} (r : BitVec n) (f : Word) (j : Nat) :
    (putZSP r f).getLsbD j =
      if j = bitPF then pfOf r else if j = bitSF then sfOf r else if j = bitZF then zfOf r else f.getLsbD j := by
  rw [putZSP, getLsbD_putBit, getLsbD_putBit, getLsbD_putBit] <;> decide

theorem getLsbD_updateAddNoCf {n : Nat} (a b r : BitVec n) (f : Word) (j : Nat) :
    (updateAddNoCf a b r f).getLsbD j =
      if j = bitOF then ((a ^^^ r) &&& (b ^^^ r)).getLsbD (n - 1)
      else if j = bitAF then afOf a b r else (putZSP r f).getLsbD j := by
  rw [updateAddNoCf, getLsbD_putBit, getLsbD_putBit] <;> decide

theorem getLsbD_updateSubNoCf {n : Nat} (a b r : BitVec n) (f : Word) (j : Nat) :
    (updateSubNoCf a b r f).getLsbD j =
      if j = bitOF then ((a ^^^ b) &&& (a ^^^ r)).getLsbD (n - 1)
      else if j = bitAF then afOf a b r else (putZSP r f).getLsbD j := by
  rw [updateSubNoCf, getLsbD_putBit, getLsbD_putBit] <;> decide

theorem getLsbD_updateAdd {n : Nat} (a b r : BitVec n) (f : Word) (j : Nat) :
    (updateAdd a b r f).getLsbD j = if j = bitCF then decide (r < a) else (updateAddNoCf a b r f).getLsbD j := by
  rw [updateAdd, getLsbD_putBit]
  decide

theorem getLsbD_updateSub {n : Nat} (a b r : BitVec n) (f : Word) (j : Nat) :
    (updateSub a b r f).getLsbD j = if j = bitCF then decide (a < b) else (updateSubNoCf a b r f).getLsbD j := by
  rw [updateSub, getLsbD_putBit]
  decide

theorem getLsbD_updateAdc {n : Nat} (a b : BitVec n) (c : Bool) (r : BitVec n) (f : Word) (j : Nat) :
    (updateAdc a b c r f).getLsbD j =
      if j = bitCF then decide (a.toNat + b.toNat + c.toNat > 2 ^ n - 1)
      else (updateAddNoCf a b r f).getLsbD j := by
  rw [updateAdc, getLsbD_putBit]
  decide

theorem getLsbD_updateLogic {n : Nat} (r : BitVec n) (f : Word) (j : Nat) :
    (updateLogic r f).getLsbD j =
      if j = bitOF then false else if j = bitCF then false else (putZSP r f).getLsbD j := by
  rw [updateLogic, getLsbD_putBit, getLsbD_putBit] <;> decide

theorem getLsbD_updateShift {n : Nat} (d : ShiftDir) (a r : BitVec n) (k : Nat) (dc dv da : Bool) (f : Word)
    (j : Nat) :
    (updateShift d a r k dc dv da f).getLsbD j =
      if j = bitCF then shiftCf d a k dc
      else if j = bitOF then shiftOf d a r k (shiftCf d a k dc) dv
      else if j = bitAF then da else (putZSP r f).getLsbD j := by
  rw [updateShift, getLsbD_putBit, getLsbD_putBit, getLsbD_putBit] <;> decide

/-! ## What a state whose flags were updated says -/

section
variable {n : Nat} {a b r : BitVec n} {t : State} {f : Word}

theorem resultFlags_of_putZSP (hz : t.flags.getLsbD bitZF = (putZSP r f).getLsbD bitZF)
    (hs : t.flags.getLsbD bitSF = (putZSP r f).getLsbD bitSF)
    (hp : t.flags.getLsbD bitPF = (putZSP r f).getLsbD bitPF) : resultFlags r t := by
  refine ⟨?_, ?_, ?_⟩
  · rw [hz, getLsbD_putZSP]; exact zfOf_iff r
  · rw [hs, getLsbD_putZSP]; exact sfOf_eq r
  · rw [hp, getLsbD_putZSP]; exact pfOf_iff r

theorem sumFlags_of_noCf (h : ∀ j, j ≠ bitCF → t.flags.getLsbD j = (updateAddNoCf a b r f).getLsbD j) :
    sumFlags a b r t := by
  refine ⟨resultFlags_of_putZSP (f := f) ?_ ?_ ?_, ?_, ?_⟩ <;>
    rw [h _ (by decide), getLsbD_updateAddNoCf] <;> simp [afOf, BitVec.msb_eq_getLsbD_last]

theorem differenceFlags_of_noCf (h : ∀ j, j ≠ bitCF → t.flags.getLsbD j = (updateSubNoCf a b r f).getLsbD j) :
    differenceFlags a b r t := by
  refine ⟨resultFlags_of_putZSP (f := f) ?_ ?_ ?_, ?_, ?_⟩ <;>
    rw [h _ (by decide), getLsbD_updateSubNoCf] <;> simp [afOf, BitVec.msb_eq_getLsbD_last]

theorem sumFlags_updateAddNoCf (h : t.flags = updateAddNoCf a b r f) : sumFlags a b r t :=
  sumFlags_of_noCf (f := f) fun j _ => by rw [h]

theorem sumFlags_updateAdd (h : t.flags = updateAdd a b r f) :
    sumFlags a b r t ∧ (t.flags.getLsbD bitCF = true ↔ r < a) :=
  ⟨sumFlags_of_noCf (f := f) fun j hj => by rw [h, getLsbD_updateAdd, if_neg hj],
    by rw [h, getLsbD_updateAdd]; simp⟩

theorem sumFlags_updateAdc {c : Bool} (h : t.flags = updateAdc a b c r f) :
    sumFlags a b r t ∧ (t.flags.getLsbD bitCF = true ↔ 2 ^ n ≤ a.toNat + b.toNat + c.toNat) := by
  refine ⟨sumFlags_of_noCf (f := f) fun j hj => by rw [h, getLsbD_updateAdc, if_neg hj], ?_⟩
  rw [h, getLsbD_updateAdc]
  simp only [if_true, decide_eq_true_eq]
  have := Nat.two_pow_pos n
  omega

theorem differenceFlags_updateSubNoCf (h : t.flags = updateSubNoCf a b r f) : differenceFlags a b r t :=
  differenceFlags_of_noCf (f := f) fun j _ => by rw [h]

theorem differenceFlags_updateSub (h : t.flags = updateSub a b r f) :
    differenceFlags a b r t ∧ (t.flags.getLsbD bitCF = true ↔ a < b) :=
  ⟨differenceFlags_of_noCf (f := f) fun j hj => by rw [h, getLsbD_updateSub, if_neg hj],
    by rw [h, getLsbD_updateSub]; simp⟩

theorem resultFlags_updateShift {d : ShiftDir} {k : Nat} {dc dv da : Bool}
    (h : t.flags = updateShift d a r k dc dv da f) : resultFlags r t := by
  refine resultFlags_of_putZSP (f := f) ?_ ?_ ?_ <;> rw [h, getLsbD_updateShift] <;> simp

theorem logicFlags_updateLogic (h : t.flags = updateLogic r f) : logicFlags r t := by
  refine ⟨resultFlags_of_putZSP (f := f) ?_ ?_ ?_, ?_, ?_⟩ <;> rw [h, getLsbD_updateLogic] <;> simp

end

/-! ## What an update leaves (R29) -/

section
variable {n : Nat} (a b r : BitVec n) (f : Word) {j : Nat}

theorem putZSP_keeps (h : j ∉ [bitPF, bitZF, bitSF]) : (putZSP r f).getLsbD j = f.getLsbD j := by
  simp only [List.mem_cons, List.not_mem_nil, or_false, not_or] at h
  rw [getLsbD_putZSP, if_neg h.1, if_neg h.2.2, if_neg h.2.1]

theorem updateAddNoCf_keeps (h : j ∉ noCarryBits) : (updateAddNoCf a b r f).getLsbD j = f.getLsbD j := by
  simp only [noCarryBits, List.mem_cons, List.not_mem_nil, or_false, not_or] at h
  rw [getLsbD_updateAddNoCf, if_neg (by tauto), if_neg (by tauto), putZSP_keeps _ _ (by simp; tauto)]

theorem updateSubNoCf_keeps (h : j ∉ noCarryBits) : (updateSubNoCf a b r f).getLsbD j = f.getLsbD j := by
  simp only [noCarryBits, List.mem_cons, List.not_mem_nil, or_false, not_or] at h
  rw [getLsbD_updateSubNoCf, if_neg (by tauto), if_neg (by tauto), putZSP_keeps _ _ (by simp; tauto)]

theorem updateAdd_keeps (h : j ∉ arithmeticBits) : (updateAdd a b r f).getLsbD j = f.getLsbD j := by
  simp only [arithmeticBits, List.mem_cons, List.not_mem_nil, or_false, not_or] at h
  rw [getLsbD_updateAdd, if_neg (by tauto), updateAddNoCf_keeps _ _ _ _ (by simp [noCarryBits]; tauto)]

theorem updateSub_keeps (h : j ∉ arithmeticBits) : (updateSub a b r f).getLsbD j = f.getLsbD j := by
  simp only [arithmeticBits, List.mem_cons, List.not_mem_nil, or_false, not_or] at h
  rw [getLsbD_updateSub, if_neg (by tauto), updateSubNoCf_keeps _ _ _ _ (by simp [noCarryBits]; tauto)]

theorem updateAdc_keeps (c : Bool) (h : j ∉ arithmeticBits) : (updateAdc a b c r f).getLsbD j = f.getLsbD j := by
  simp only [arithmeticBits, List.mem_cons, List.not_mem_nil, or_false, not_or] at h
  rw [getLsbD_updateAdc, if_neg (by tauto), updateAddNoCf_keeps _ _ _ _ (by simp [noCarryBits]; tauto)]

theorem updateLogic_keeps (h : j ∉ logicBits) : (updateLogic r f).getLsbD j = f.getLsbD j := by
  simp only [logicBits, List.mem_cons, List.not_mem_nil, or_false, not_or] at h
  rw [getLsbD_updateLogic, if_neg (by tauto), if_neg (by tauto), putZSP_keeps _ _ (by simp; tauto)]

theorem updateShift_keeps (d : ShiftDir) (k : Nat) (dc dv da : Bool) (h : j ∉ arithmeticBits) :
    (updateShift d a r k dc dv da f).getLsbD j = f.getLsbD j := by
  simp only [arithmeticBits, List.mem_cons, List.not_mem_nil, or_false, not_or] at h
  rw [getLsbD_updateShift, if_neg (by tauto), if_neg (by tauto), if_neg (by tauto),
    putZSP_keeps _ _ (by simp; tauto)]

end

/-! ## Shifts (43_logic_shift.md R203, R204) -/

theorem shiftCount_eq (w : Width) (c : BitVec 8) : shiftCount w c = c.toNat % (if w = .w64 then 64 else 32) := by
  unfold shiftCount
  split
  · rw [BitVec.toNat_and]; exact Nat.and_two_pow_sub_one_eq_mod c.toNat 6
  · rw [BitVec.toNat_and]; exact Nat.and_two_pow_sub_one_eq_mod c.toNat 5

/-- Everything the flag part of a shift can do. -/
theorem shiftFlags_cases {n : Nat} (d : ShiftDir) (a r : BitVec n) (k : Nat) (s : State) :
    (k = 0 ∧ shiftFlags d a r k s = s) ∨
      (0 < k ∧ ∃ dc dv da, shiftFlags d a r k s =
        { s with flags := updateShift d a r k dc dv da s.flags, draws := s.draws + 3 }) := by
  unfold shiftFlags
  split
  · exact .inl ⟨by assumption, rfl⟩
  · exact .inr ⟨by omega, _, _, _, rfl⟩

/-! ## Condition codes (45_control_transfer.md R221 to R237) -/

theorem cond_iff (c : ConditionCode) (s : State) : cond c s.flags (s.reg rcx) = true ↔ conditionHolds c s := by
  cases c <;> simp [cond, conditionHolds, bitCF, bitZF, bitSF, bitPF, bitOF]

end Sys2Proof.Machine
end

