-- ==== Sys2Proof/Laws/Kinds.lean ====
section
/-! SUPPORT. Every arm of exec is the rule of its kind, and every operand the classifier gives fits its use. -/

namespace Sys2Proof.Machine

/-- The arm of an instruction is the rule of its kind (40_engine_and_operands.md R152). -/
theorem exec_eq_runKind (i : Instr) (s : State) : exec i s = runKind i.length (i.kind s.rip) s := by
  cases i <;> rfl

/-! ## Widths of operands (30_encoding.md R95, R97, R104) -/

def Operand.notImm (o : Operand) : Prop := ∀ x, o ≠ .imm x

@[simp] theorem Operand.notImm_reg (r : Gpr) : Operand.notImm (.reg r) := by simp [Operand.notImm]
@[simp] theorem Operand.notImm_mem (m : MemOperand) : Operand.notImm (.mem m) := by simp [Operand.notImm]

@[simp] theorem gprOf_width (b : Bool) (n : Fin 16) (w : Width) : View.width (gprOf b n w).view = w := by
  cases w <;> try rfl
  by_cases h : b = false ∧ 4 ≤ n.val ∧ n.val ≤ 7 <;> simp [gprOf, h, View.width]

@[simp] theorem gprOf_slot_of_ne {b : Bool} {n : Fin 16} {w : Width} (h : w ≠ .w8) : (gprOf b n w).slot = n := by
  cases w <;> simp_all [gprOf]

@[simp] theorem regOperand_width (p : Prefixes) (w : Width) (r : BitVec 3) :
    Operand.width (regOperand p w r) = w := by simp [regOperand, Operand.width]
@[simp] theorem opregOperand_width (p : Prefixes) (w : Width) (r : BitVec 3) :
    Operand.width (opregOperand p w r) = w := by simp [opregOperand, Operand.width]
@[simp] theorem rmOperand_width (p : Prefixes) (w : Width) (rm : Rm) : Operand.width (rmOperand p w rm) = w := by
  cases rm <;> simp [rmOperand, Operand.width]
@[simp] theorem accOperand_width (w : Width) : Operand.width (accOperand w) = w := by cases w <;> rfl

@[simp] theorem regOperand_fits (p : Prefixes) (w : Width) (r : BitVec 3) : fits w (regOperand p w r) := by
  simp [regOperand, fits]
@[simp] theorem opregOperand_fits (p : Prefixes) (w : Width) (r : BitVec 3) : fits w (opregOperand p w r) := by
  simp [opregOperand, fits]
@[simp] theorem rmOperand_fits (p : Prefixes) (w : Width) (rm : Rm) : fits w (rmOperand p w rm) := by
  cases rm <;> simp [rmOperand, fits]
@[simp] theorem imm_fits (w : Width) (v : BitVec 64) : fits w (.imm v) := trivial
@[simp] theorem clOperand_fits : fits .w8 clOperand := rfl

theorem fits_width {o : Operand} (h : Operand.notImm o) : fits (Operand.width o) o := by
  cases o with
  | reg r => rfl
  | imm x => exact absurd rfl (h x)
  | mem m => rfl

@[simp] theorem regOperand_notImm (p : Prefixes) (w : Width) (r : BitVec 3) : Operand.notImm (regOperand p w r) := by
  simp [regOperand]
@[simp] theorem opregOperand_notImm (p : Prefixes) (w : Width) (r : BitVec 3) :
    Operand.notImm (opregOperand p w r) := by simp [opregOperand]
@[simp] theorem rmOperand_notImm (p : Prefixes) (w : Width) (rm : Rm) : Operand.notImm (rmOperand p w rm) := by
  cases rm <;> simp [rmOperand]
@[simp] theorem accOperand_notImm (w : Width) : Operand.notImm (accOperand w) := by cases w <;> simp [accOperand]

/-- What the rules of files 41 to 45 ask of the operands of a kind. -/
def kindFits : InstructionType → Prop
  | .mov dst src => Operand.notImm dst ∧ fits (Operand.width dst) src
  | .movzx dst src => Operand.notImm dst ∧ Operand.notImm src
  | .add dst src => Operand.notImm dst ∧ fits (Operand.width dst) src
  | .adc dst src => Operand.notImm dst ∧ fits (Operand.width dst) src
  | .sub dst src => Operand.notImm dst ∧ fits (Operand.width dst) src
  | .cmp a b => Operand.notImm a ∧ fits (Operand.width a) b
  | .test a b => Operand.notImm a ∧ fits (Operand.width a) b
  | .inc dst => Operand.notImm dst
  | .dec dst => Operand.notImm dst
  | .push src => fits .w64 src
  | .pop dst => Operand.notImm dst ∧ fits .w64 dst
  | .lea dst _ => Operand.notImm dst
  | .xor dst src => Operand.notImm dst ∧ fits (Operand.width dst) src
  | .shl dst count => Operand.notImm dst ∧ fits .w8 count
  | .shr dst count => Operand.notImm dst ∧ fits .w8 count
  | .unconditionalJump op => fits .w64 op
  | .call op => fits .w64 op
  | _ => True

/-- Every operand the classifier gives fits its use. -/
theorem Instr.kind_fits (i : Instr) (a : Word) : kindFits (i.kind a) := by
  cases i <;> simp [Instr.kind, kindFits]

/-- A memory source of Lea is what a well-formed instruction has. -/
theorem Instr.lea_source {i : Instr} (h : i.wf = true) {a : Word} {dst src : Operand} (hk : i.kind a = .lea dst src) :
    ∃ m, src = .mem m := by
  cases i <;> simp only [Instr.kind, reduceCtorEq, InstructionType.lea.injEq] at hk
  rename_i p reg rm
  obtain ⟨-, rfl⟩ := hk
  cases rm with
  | reg rm => simp [Instr.wf, Instr.row, Instr.pieces, giveMR, Row.info, RowInfo.rmOk] at h
  | ripRel d => exact ⟨_, rfl⟩
  | base rm d => exact ⟨_, rfl⟩
  | sib ss idx bs d => exact ⟨_, rfl⟩
  | sibNoBase ss idx d => exact ⟨_, rfl⟩

/-- The destination of Lea is a register. -/
theorem Instr.lea_destination {i : Instr} {a : Word} {dst src : Operand} (hk : i.kind a = .lea dst src) :
    ∃ r, dst = .reg r := by
  cases i <;> simp only [Instr.kind, reduceCtorEq, InstructionType.lea.injEq] at hk
  exact ⟨_, hk.1.symm⟩

/-- No instruction is classified Invalid: that kind is the absence of a row. -/
theorem Instr.kind_ne_invalid (i : Instr) (a : Word) : i.kind a ≠ .invalid := by
  cases i <;> simp [Instr.kind]

end Sys2Proof.Machine
end

