-- ==== Sys2Proof/Laws/Run.lean ====
section
/-! SUPPORT. For each shared operation of the instruction rules, everything it can answer: the state it goes on with, and
what a fault leaves. -/

namespace Sys2Proof.Machine

variable {len : Nat} {s t : State}

/-! ## A written operand -/

theorem ea0_congr {m : MemOperand} (hr : ∀ i, t.reg i = s.reg i) (hp : t.rip = s.rip) : ea0 len m t = ea0 len m s := by
  simp only [ea0]
  congr 2
  · cases m.base <;> simp [baseValue, hr, hp]
  · rcases m.index with _ | ⟨j, c⟩ <;> simp [indexValue, hr]

theorem State.reg_of_regs (h : t.regs = s.regs) (i : Fin 16) : t.reg i = s.reg i := by simp [State.reg, h]

@[simp] theorem stored_ea0 (w : Width) (a : Word) (v : BitVec w.bits) (m : MemOperand) :
    ea0 len m (stored w a v s) = ea0 len m s := rfl

@[simp] theorem valueAt_setFlags (w : Width) (f : Word) (a : Word) : valueAt w (s.setFlags f) a = valueAt w s a := rfl
@[simp] theorem valueAt_setReg (w : Width) (i : Fin 16) (v : Word) (a : Word) :
    valueAt w (s.setReg i v) a = valueAt w s a := rfl
@[simp] theorem valueAt_setRip (w : Width) (v : Word) (a : Word) : valueAt w (s.setRip v) a = valueAt w s a := rfl
@[simp] theorem mapped_setReg (i : Fin 16) (v : Word) (a : Word) (n : Nat) :
    mapped (s.setReg i v) a n ↔ mapped s a n := Iff.rfl
@[simp] theorem mapped_setFlags (f : Word) (a : Word) (n : Nat) : mapped (s.setFlags f) a n ↔ mapped s a n := Iff.rfl
@[simp] theorem mapped_setRip (v : Word) (a : Word) (n : Nat) : mapped (s.setRip v) a n ↔ mapped s a n := Iff.rfl
@[simp] theorem mapped_stored (w : Width) (b : Word) (v : BitVec w.bits) (a : Word) (n : Nat) :
    mapped (stored w b v s) a n ↔ mapped s a n := Iff.rfl

theorem operandValue_setFlags (w : Width) (o : Operand) (f : Word) :
    operandValue len w o (s.setFlags f) = operandValue len w o s := by
  cases o <;> rfl

/-- A register destination holds what was written to it; the bus takes no part. -/
theorem written_reg_value (r : Gpr) (v : BitVec (View.width r.view).bits) :
    operandValue len (View.width r.view) (.reg r) (written len (View.width r.view) (.reg r) v s) = v := by
  simp only [operandValue, written, State.regRead, State.regWrite_reg, if_true, BitVec.setWidth_eq, View.get_put]

/-- Nothing but a register destination was written. -/
theorem written_reg_onlyDestination (w : Width) (r : Gpr) (v : BitVec w.bits) :
    onlyDestination len (.reg r) s (written len w (.reg r) v s) := by
  refine ⟨fun i hi => ?_, ?_, rfl⟩
  · simp only [List.mem_singleton] at hi
    simp [written, hi]
  · simp only [written, State.regWrite_reg, if_true]
    exact View.put_keptOutside _ _ _

/-- The destination holds what was written to it. -/
theorem written_value (hs : s.bus.wf = true) {w : Width} {o : Operand} (ho : Operand.notImm o) (hf : fits w o)
    (v : BitVec w.bits) : operandValue len w o (written len w o v s) = v := by
  cases o with
  | reg r =>
    simp only [fits] at hf
    subst hf
    exact written_reg_value r v
  | imm x => exact absurd rfl (ho x)
  | mem m => exact stored_valueAt hs w _ v

/-- Nothing but the destination was written. -/
theorem written_onlyDestination (hs : s.bus.wf = true) {w : Width} {o : Operand} (ho : Operand.notImm o)
    (hf : fits w o) (v : BitVec w.bits) : onlyDestination len o s (written len w o v s) := by
  cases o with
  | reg r => exact written_reg_onlyDestination w r v
  | imm x => exact absurd rfl (ho x)
  | mem m =>
    simp only [fits] at hf
    subst hf
    exact ⟨rfl, rfl, fun k hk => stored_byteAt_outside hs _ _ v hk⟩

theorem written_wf (hs : s.bus.wf = true) {w : Width} {o : Operand} (hf : fits w o) (ha : accessible len o s)
    (v : BitVec w.bits) : (written len w o v s).bus.wf = true := by
  cases o with
  | reg r => exact hs
  | imm x => exact hs
  | mem m =>
    simp only [fits] at hf
    subst hf
    exact stored_wf hs v ha.2.2

/-- Only the destination and the flags of the list differ after a write and a flags update. -/
theorem onlyDestinationAndFlags_of (hs : s.bus.wf = true) {w : Width} {o : Operand} (ho : Operand.notImm o)
    (hf : fits w o) (v : BitVec w.bits) {f : Word} {bits : List Nat}
    (hk : ∀ j, j ∉ bits → f.getLsbD j = s.flags.getLsbD j) :
    onlyDestinationAndFlags len o bits s ((written len w o v s).setFlags f) := by
  refine ⟨?_, hk, by simp [samePcAndStream]⟩
  have := written_onlyDestination (len := len) hs ho hf v
  cases o <;> exact this

/-! ## Arithmetic and logic (40_engine_and_operands.md R160) -/

section
variable {dst src : Operand} {f : (w : Width) → BitVec w.bits → BitVec w.bits → BitVec w.bits}
  {upd : (w : Width) → BitVec w.bits → BitVec w.bits → BitVec w.bits → Word → Word}

theorem binaryWrite_completes (hd : Operand.notImm dst) (hf : fits (Operand.width dst) src)
    (ha : accessible len dst s) (hb : accessible len src s) :
    binaryWrite len dst src s f upd =
      let w := Operand.width dst
      let a := operandValue len w dst s
      let b := operandValue len w src s
      .next ((written len w dst (f w a b) s).setFlags (upd w a b (f w a b) s.flags)) := by
  simp only [binaryWrite, readOp_accessible (fits_width hd) ha, readOp_accessible hf hb, access_ok,
    writeOp_accessible _ (fits_width hd) ha hd, written_flags]

/-- Everything a read-compute-write instruction that goes on did. -/
theorem binaryWrite_next (h : binaryWrite len dst src s f upd = .next t) :
    Operand.notImm dst ∧ fits (Operand.width dst) src ∧ accessible len dst s ∧ accessible len src s ∧
      let w := Operand.width dst
      let a := operandValue len w dst s
      let b := operandValue len w src s
      t = (written len w dst (f w a b) s).setFlags (upd w a b (f w a b) s.flags) := by
  obtain ⟨a, ha, h⟩ := access_eq_next h
  obtain ⟨b, hb, h⟩ := access_eq_next h
  obtain ⟨u, hu, h⟩ := access_eq_next h
  obtain ⟨_, had, rfl⟩ := readOp_ok ha
  obtain ⟨hfs, hbs, rfl⟩ := readOp_ok hb
  obtain ⟨_, _, hi, rfl⟩ := writeOp_ok hu
  refine ⟨hi, hfs, had, hbs, ?_⟩
  simp only [Host.Outcome.next.injEq] at h
  rw [← h, written_flags]

theorem binaryWrite_fault {x : Fault} (h : binaryWrite len dst src s f upd = .fault x) : x.left = s := by
  rcases access_eq_fault h with ⟨_, _, _, hl⟩ | ⟨_, _, h⟩
  · exact hl
  rcases access_eq_fault h with ⟨_, _, _, hl⟩ | ⟨_, _, h⟩
  · exact hl
  rcases access_eq_fault h with ⟨_, _, _, hl⟩ | ⟨_, _, h⟩
  · exact hl
  · simp at h

theorem binaryTest_completes (hd : Operand.notImm dst) (hf : fits (Operand.width dst) src)
    (ha : accessible len dst s) (hb : accessible len src s) :
    binaryTest len dst src s f upd =
      let w := Operand.width dst
      let a := operandValue len w dst s
      let b := operandValue len w src s
      .next (s.setFlags (upd w a b (f w a b) s.flags)) := by
  simp only [binaryTest, readOp_accessible (fits_width hd) ha, readOp_accessible hf hb, access_ok]

theorem binaryTest_next (h : binaryTest len dst src s f upd = .next t) :
    let w := Operand.width dst
    let a := operandValue len w dst s
    let b := operandValue len w src s
    t = s.setFlags (upd w a b (f w a b) s.flags) := by
  obtain ⟨a, ha, h⟩ := access_eq_next h
  obtain ⟨b, hb, h⟩ := access_eq_next h
  obtain ⟨_, _, rfl⟩ := readOp_ok ha
  obtain ⟨_, _, rfl⟩ := readOp_ok hb
  simpa using h.symm

theorem binaryTest_fault {x : Fault} (h : binaryTest len dst src s f upd = .fault x) : x.left = s := by
  rcases access_eq_fault h with ⟨_, _, _, hl⟩ | ⟨_, _, h⟩
  · exact hl
  rcases access_eq_fault h with ⟨_, _, _, hl⟩ | ⟨_, _, h⟩
  · exact hl
  · simp at h

end

section
variable {dst src op : Operand}

theorem runAdd_completes (hd : Operand.notImm dst) (hf : fits (Operand.width dst) src)
    (ha : accessible len dst s) (hb : accessible len src s) :
    runAdd len dst src s =
      let w := Operand.width dst
      let a := operandValue len w dst s
      let b := operandValue len w src s
      .next ((written len w dst (a + b) s).setFlags (updateAdd a b (a + b) s.flags)) := by
  unfold runAdd; exact binaryWrite_completes hd hf ha hb

theorem runAdc_completes (hd : Operand.notImm dst) (hf : fits (Operand.width dst) src)
    (ha : accessible len dst s) (hb : accessible len src s) :
    runAdc len dst src s =
      let w := Operand.width dst
      let a := operandValue len w dst s
      let b := operandValue len w src s
      let c := s.flags.getLsbD bitCF
      let r := a + b + BitVec.ofNat w.bits c.toNat
      .next ((written len w dst r s).setFlags (updateAdc a b c r s.flags)) := by
  unfold runAdc; exact binaryWrite_completes hd hf ha hb

theorem runSub_completes (hd : Operand.notImm dst) (hf : fits (Operand.width dst) src)
    (ha : accessible len dst s) (hb : accessible len src s) :
    runSub len dst src s =
      let w := Operand.width dst
      let a := operandValue len w dst s
      let b := operandValue len w src s
      .next ((written len w dst (a - b) s).setFlags (updateSub a b (a - b) s.flags)) := by
  unfold runSub; exact binaryWrite_completes hd hf ha hb

theorem runXor_completes (hd : Operand.notImm dst) (hf : fits (Operand.width dst) src)
    (ha : accessible len dst s) (hb : accessible len src s) :
    runXor len dst src s =
      let w := Operand.width dst
      let a := operandValue len w dst s
      let b := operandValue len w src s
      .next ((written len w dst (a ^^^ b) s).setFlags (updateLogic (a ^^^ b) s.flags)) := by
  unfold runXor; exact binaryWrite_completes hd hf ha hb

theorem runCmp_completes (hd : Operand.notImm dst) (hf : fits (Operand.width dst) src)
    (ha : accessible len dst s) (hb : accessible len src s) :
    runCmp len dst src s =
      let w := Operand.width dst
      let a := operandValue len w dst s
      let b := operandValue len w src s
      .next (s.setFlags (updateSub a b (a - b) s.flags)) := by
  unfold runCmp; exact binaryTest_completes hd hf ha hb

theorem runTest_completes (hd : Operand.notImm dst) (hf : fits (Operand.width dst) src)
    (ha : accessible len dst s) (hb : accessible len src s) :
    runTest len dst src s =
      let w := Operand.width dst
      let r := operandValue len w dst s &&& operandValue len w src s
      .next (s.setFlags (updateLogic r s.flags)) := by
  unfold runTest; exact binaryTest_completes hd hf ha hb

theorem runInc_completes (hd : Operand.notImm dst) (ha : accessible len dst s) :
    runInc len dst s =
      let w := Operand.width dst
      let a := operandValue len w dst s
      .next ((written len w dst (a + 1) s).setFlags (updateAddNoCf a 1 (a + 1) s.flags)) := by
  simp only [runInc, readOp_accessible (fits_width hd) ha, access_ok, writeOp_accessible _ (fits_width hd) ha hd,
    written_flags]

theorem runInc_next (h : runInc len dst s = .next t) : Operand.notImm dst ∧ accessible len dst s ∧
    let w := Operand.width dst
    let a := operandValue len w dst s
    t = (written len w dst (a + 1) s).setFlags (updateAddNoCf a 1 (a + 1) s.flags) := by
  obtain ⟨a, ha, h⟩ := access_eq_next h
  obtain ⟨u, hu, h⟩ := access_eq_next h
  obtain ⟨_, had, rfl⟩ := readOp_ok ha
  obtain ⟨_, _, hi, rfl⟩ := writeOp_ok hu
  refine ⟨hi, had, ?_⟩
  simp only [Host.Outcome.next.injEq] at h
  rw [← h, written_flags]

theorem runInc_fault {x : Fault} (h : runInc len dst s = .fault x) : x.left = s := by
  rcases access_eq_fault h with ⟨_, _, _, hl⟩ | ⟨_, _, h⟩
  · exact hl
  rcases access_eq_fault h with ⟨_, _, _, hl⟩ | ⟨_, _, h⟩
  · exact hl
  · simp at h

theorem runDec_completes (hd : Operand.notImm dst) (ha : accessible len dst s) :
    runDec len dst s =
      let w := Operand.width dst
      let a := operandValue len w dst s
      .next ((written len w dst (a - 1) s).setFlags (updateSubNoCf a 1 (a - 1) s.flags)) := by
  simp only [runDec, readOp_accessible (fits_width hd) ha, access_ok, writeOp_accessible _ (fits_width hd) ha hd,
    written_flags]

theorem runDec_next (h : runDec len dst s = .next t) : Operand.notImm dst ∧ accessible len dst s ∧
    let w := Operand.width dst
    let a := operandValue len w dst s
    t = (written len w dst (a - 1) s).setFlags (updateSubNoCf a 1 (a - 1) s.flags) := by
  obtain ⟨a, ha, h⟩ := access_eq_next h
  obtain ⟨u, hu, h⟩ := access_eq_next h
  obtain ⟨_, had, rfl⟩ := readOp_ok ha
  obtain ⟨_, _, hi, rfl⟩ := writeOp_ok hu
  refine ⟨hi, had, ?_⟩
  simp only [Host.Outcome.next.injEq] at h
  rw [← h, written_flags]

theorem runDec_fault {x : Fault} (h : runDec len dst s = .fault x) : x.left = s := by
  rcases access_eq_fault h with ⟨_, _, _, hl⟩ | ⟨_, _, h⟩
  · exact hl
  rcases access_eq_fault h with ⟨_, _, _, hl⟩ | ⟨_, _, h⟩
  · exact hl
  · simp at h

/-! ## Shifts (43_logic_shift.md R203 to R206) -/

theorem runShift_completes (d : ShiftDir) (hd : Operand.notImm dst) (hf : fits .w8 src)
    (ha : accessible len dst s) (hb : accessible len src s) :
    runShift d len dst src s =
      let w := Operand.width dst
      let a := operandValue len w dst s
      let k := shiftCount w (operandValue len .w8 src s)
      .next (shiftFlags d a (shiftValue d a k) k (written len w dst (shiftValue d a k) s)) := by
  simp only [runShift, readOp_accessible (fits_width hd) ha, readOp_accessible hf hb, access_ok,
    writeOp_accessible _ (fits_width hd) ha hd]

theorem runShift_next {d : ShiftDir} (h : runShift d len dst src s = .next t) :
    Operand.notImm dst ∧ accessible len dst s ∧
    let w := Operand.width dst
    let a := operandValue len w dst s
    let k := shiftCount w (operandValue len .w8 src s)
    t = shiftFlags d a (shiftValue d a k) k (written len w dst (shiftValue d a k) s) := by
  obtain ⟨a, ha, h⟩ := access_eq_next h
  obtain ⟨c, hc, h⟩ := access_eq_next h
  obtain ⟨u, hu, h⟩ := access_eq_next h
  obtain ⟨_, had, rfl⟩ := readOp_ok ha
  obtain ⟨_, _, rfl⟩ := readOp_ok hc
  obtain ⟨_, _, hi, rfl⟩ := writeOp_ok hu
  exact ⟨hi, had, by simpa using h.symm⟩

/-- What a shift of an accessible operand does: the value, what it leaves, and flags up to the three drawn bits (R203,
R204). -/
theorem runShift_spec {d : ShiftDir} (hd : Operand.notImm dst) (hf : fits .w8 src) (hs : s.bus.wf = true)
    (ha : accessible len dst s) (hb : accessible len src s) :
    ∃ t, runShift d len dst src s = .next t ∧
      let w := Operand.width dst
      let a := operandValue len w dst s
      let n := (operandValue len .w8 src s).toNat % (if w = .w64 then 64 else 32)
      operandValue len w dst t = shiftValue d a n ∧
      onlyDestinationAndFlags len dst (if n = 0 then [] else arithmeticBits) s t ∧
      (0 < n → ∃ dc dv da, t.flags = updateShift d a (shiftValue d a n) n dc dv da s.flags) := by
  refine ⟨_, runShift_completes d hd hf ha hb, ?_⟩
  intro w a n
  have hn : shiftCount (Operand.width dst) (operandValue len Width.w8 src s) = n := shiftCount_eq _ _
  rw [hn]
  have hv := written_value (len := len) hs hd (fits_width hd) (shiftValue d a n)
  have ho := written_onlyDestination (len := len) hs hd (fits_width hd) (shiftValue d a n)
  rcases shiftFlags_cases d a (shiftValue d a n) n (written len w dst (shiftValue d a n) s) with
    ⟨h0, he⟩ | ⟨hp, dc, dv, da, he⟩
  · erw [he]
    exact ⟨hv, ⟨ho, fun j _ => by simp, by simp [samePcAndStream]⟩, fun h => absurd h0 (by omega)⟩
  · erw [he]
    refine ⟨by cases dst <;> exact hv, ⟨by cases dst <;> exact ho, ?_, by simp [samePcAndStream]⟩,
      fun _ => ⟨dc, dv, da, by simp⟩⟩
    rw [if_neg (by omega)]
    intro j hj
    exact (updateShift_keeps _ _ _ _ _ _ _ _ hj).trans (by simp)

theorem runShift_fault {d : ShiftDir} {x : Fault} (h : runShift d len dst src s = .fault x) : x.left = s := by
  rcases access_eq_fault h with ⟨_, _, _, hl⟩ | ⟨_, _, h⟩
  · exact hl
  rcases access_eq_fault h with ⟨_, _, _, hl⟩ | ⟨_, _, h⟩
  · exact hl
  rcases access_eq_fault h with ⟨_, _, _, hl⟩ | ⟨_, _, h⟩
  · exact hl
  · simp at h

/-! ## Data movement (41_data_movement.md) -/

theorem runMov_completes (hd : Operand.notImm dst) (hf : fits (Operand.width dst) src)
    (ha : accessible len dst s) (hb : accessible len src s) :
    runMov len dst src s =
      let w := Operand.width dst
      .next (written len w dst (operandValue len w src s) s) := by
  simp only [runMov, readOp_accessible hf hb, access_ok, writeOp_accessible _ (fits_width hd) ha hd]

theorem runMov_next (h : runMov len dst src s = .next t) : Operand.notImm dst ∧ accessible len dst s ∧
    let w := Operand.width dst
    t = written len w dst (operandValue len w src s) s := by
  obtain ⟨a, ha, h⟩ := access_eq_next h
  obtain ⟨u, hu, h⟩ := access_eq_next h
  obtain ⟨_, _, rfl⟩ := readOp_ok ha
  obtain ⟨_, had, hi, rfl⟩ := writeOp_ok hu
  exact ⟨hi, had, by simpa using h.symm⟩

theorem runMov_fault {x : Fault} (h : runMov len dst src s = .fault x) : x.left = s := by
  rcases access_eq_fault h with ⟨_, _, _, hl⟩ | ⟨_, _, h⟩
  · exact hl
  rcases access_eq_fault h with ⟨_, _, _, hl⟩ | ⟨_, _, h⟩
  · exact hl
  · simp at h

theorem runMovzx_completes (hd : Operand.notImm dst) (hsrc : Operand.notImm src)
    (ha : accessible len dst s) (hb : accessible len src s) :
    runMovzx len dst src s =
      .next (written len (Operand.width dst) dst
        ((operandValue len (Operand.width src) src s).zeroExtend (Operand.width dst).bits) s) := by
  simp only [runMovzx, readOp_accessible (fits_width hsrc) hb, access_ok,
    writeOp_accessible _ (fits_width hd) ha hd]

theorem runMovzx_next (h : runMovzx len dst src s = .next t) : Operand.notImm dst ∧ accessible len dst s ∧
    t = written len (Operand.width dst) dst
      ((operandValue len (Operand.width src) src s).zeroExtend (Operand.width dst).bits) s := by
  obtain ⟨a, ha, h⟩ := access_eq_next h
  obtain ⟨u, hu, h⟩ := access_eq_next h
  obtain ⟨_, _, rfl⟩ := readOp_ok ha
  obtain ⟨_, had, hi, rfl⟩ := writeOp_ok hu
  exact ⟨hi, had, by simpa using h.symm⟩

theorem runMovzx_fault {x : Fault} (h : runMovzx len dst src s = .fault x) : x.left = s := by
  rcases access_eq_fault h with ⟨_, _, _, hl⟩ | ⟨_, _, h⟩
  · exact hl
  rcases access_eq_fault h with ⟨_, _, _, hl⟩ | ⟨_, _, h⟩
  · exact hl
  · simp at h

theorem runLea_completes {m : MemOperand} (hd : Operand.notImm dst) (ha : accessible len dst s) :
    runLea len dst (.mem m) s =
      .next (written len (Operand.width dst) dst ((ea0 len m s).setWidth (Operand.width dst).bits) s) := by
  simp only [runLea, access_ok, writeOp_accessible _ (fits_width hd) ha hd]

theorem runLea_next (h : runLea len dst src s = .next t) : Operand.notImm dst ∧ accessible len dst s ∧
    ∃ m, src = .mem m ∧
      t = written len (Operand.width dst) dst ((ea0 len m s).setWidth (Operand.width dst).bits) s := by
  cases src with
  | reg r => simp [runLea, raiseAccess] at h
  | imm v => simp [runLea, raiseAccess] at h
  | mem m =>
    obtain ⟨u, hu, h⟩ := access_eq_next h
    obtain ⟨_, had, hi, rfl⟩ := writeOp_ok hu
    exact ⟨hi, had, m, rfl, by simpa using h.symm⟩

theorem runLea_fault {x : Fault} (h : runLea len dst src s = .fault x) : x.left = s := by
  cases src with
  | reg r => simp only [runLea, raiseAccess, Host.Outcome.fault.injEq] at h; subst h; rfl
  | imm v => simp only [runLea, raiseAccess, Host.Outcome.fault.injEq] at h; subst h; rfl
  | mem m =>
    rcases access_eq_fault h with ⟨_, _, _, hl⟩ | ⟨_, _, h⟩
    · exact hl
    · simp at h

/-! ## Stack (44_stack.md) -/

@[simp] theorem slotBytes_eq : slotBytes = 8 := rfl

/-- The state after a push into a mapped slot. -/
def pushed (v : Word) (s : State) : State := (stored .w64 (s.reg rsp - 8) v s).setReg rsp (s.reg rsp - 8)

theorem pushWord_completes {v : Word} {go : State → Result} (h : mapped s (s.reg rsp - 8) 8) :
    pushWord v s go = go (pushed v s) := by
  have h' : mapped s (s.reg rsp - 8) Width.w64.bytes := h
  simp only [pushWord, slotBytes_eq]
  erw [memWrite_mapped (w := .w64) v h', access_ok]
  rfl

theorem pushWord_next {v : Word} {go : State → Result} (h : pushWord v s go = .next t) :
    mapped s (s.reg rsp - 8) 8 ∧ go (pushed v s) = .next t := by
  by_cases hm : mapped s (s.reg rsp - 8) 8
  · exact ⟨hm, (pushWord_completes hm).symm.trans h⟩
  · have h' : ¬ mapped s (s.reg rsp - 8) Width.w64.bytes := hm
    simp only [pushWord, slotBytes_eq] at h
    erw [memWrite_unmapped (w := .w64) v h'] at h
    simp [raiseAccess] at h

/-- A push either faults before it changes anything, or what follows it does. -/
theorem pushWord_fault {v : Word} {go : State → Result} {x : Fault} (h : pushWord v s go = .fault x) :
    (¬ mapped s (s.reg rsp - 8) 8 ∧ x = .busFault (s.reg rsp - 8) 8 .write s) ∨
      (mapped s (s.reg rsp - 8) 8 ∧ go (pushed v s) = .fault x) := by
  by_cases hm : mapped s (s.reg rsp - 8) 8
  · exact .inr ⟨hm, (pushWord_completes hm).symm.trans h⟩
  · have h' : ¬ mapped s (s.reg rsp - 8) Width.w64.bytes := hm
    simp only [pushWord, slotBytes_eq] at h
    erw [memWrite_unmapped (w := .w64) v h'] at h
    simp only [access_error, raiseAccess, Host.Outcome.fault.injEq] at h
    exact .inl ⟨hm, h.symm⟩

/-- What a push does: the value in the slot, rsp below it, and nothing else. -/
theorem pushed_spec (hs : s.bus.wf = true) (v : Word) :
    valueAt .w64 (pushed v s) (s.reg rsp - 8) = v ∧ (pushed v s).reg rsp = s.reg rsp - 8 ∧
      sameRegsExcept [rsp] s (pushed v s) ∧ sameBytesExcept (s.reg rsp - 8) 8 s (pushed v s) ∧
      (pushed v s).rip = s.rip ∧ (pushed v s).flags = s.flags ∧ (pushed v s).stream = s.stream := by
  refine ⟨?_, ?_, ?_, ⟨rfl, ?_⟩, rfl, rfl, rfl⟩
  · exact stored_valueAt hs .w64 (s.reg rsp - 8) v
  · simp [pushed]
  · intro i hi
    simp only [List.mem_singleton] at hi
    simp only [pushed, State.reg_setReg, hi, if_false]
    rfl
  · intro k hk
    exact stored_byteAt_outside hs .w64 (s.reg rsp - 8) v hk

theorem pushed_wf (hs : s.bus.wf = true) (v : Word) (hm : mapped s (s.reg rsp - 8) 8) :
    (pushed v s).bus.wf = true := stored_wf (w := .w64) hs v hm

/-- An operand is accessible after a push exactly when it is with the rsp of after the push. -/
theorem accessible_pushed {op : Operand} {v : Word} :
    accessible len op (pushed v s) ↔ accessible len op (s.setReg rsp (s.reg rsp - 8)) := by
  cases op <;> exact Iff.rfl

theorem runPush_completes {src : Operand} (hf : fits .w64 src) (ha : accessible len src s)
    (hm : mapped s (s.reg rsp - 8) 8) :
    runPush len src s = .next (pushed (operandValue len .w64 src s) s) := by
  simp only [runPush, readOp_accessible hf ha, access_ok]
  exact pushWord_completes hm

theorem runPush_next (h : runPush len src s = .next t) :
    mapped s (s.reg rsp - 8) 8 ∧ t = pushed (operandValue len .w64 src s) s := by
  obtain ⟨a, ha, h⟩ := access_eq_next h
  obtain ⟨_, _, rfl⟩ := readOp_ok ha
  obtain ⟨hm, h⟩ := pushWord_next h
  exact ⟨hm, by simpa using h.symm⟩

theorem runPush_fault {x : Fault} (h : runPush len src s = .fault x) : x.left = s := by
  rcases access_eq_fault h with ⟨_, _, _, hl⟩ | ⟨_, _, h⟩
  · exact hl
  rcases pushWord_fault h with ⟨_, rfl⟩ | ⟨_, h⟩
  · rfl
  · simp at h

/-- The state after Pop (44_stack.md R211). -/
def popped (len : Nat) (dst : Operand) (s : State) : State :=
  let v := valueAt .w64 s (s.reg rsp)
  match dst with
  | .reg r => (s.setReg rsp (s.reg rsp + 8)).regWrite r (v.setWidth (View.width r.view).bits)
  | .mem m => (stored .w64 (ea0 len m (s.setReg rsp (s.reg rsp + 8))) v s).setReg rsp (s.reg rsp + 8)
  | .imm _ => s

theorem runPop_completes (hd : Operand.notImm dst) (hf : fits .w64 dst) (hm : mapped s (s.reg rsp) 8)
    (ha : accessible len dst (s.setReg rsp (s.reg rsp + 8))) : runPop len dst s = .next (popped len dst s) := by
  have h' : mapped s (s.reg rsp) Width.w64.bytes := hm
  unfold runPop
  rw [memRead_mapped h', access_ok]
  cases dst with
  | reg r =>
    simp only [fits] at hf
    simp only [slotBytes_eq, writeOp, hf, if_true, access_ok]
    rfl
  | imm x => exact absurd rfl (hd x)
  | mem m =>
    obtain ⟨h1, h2, h3⟩ := ha
    simp only [fits] at hf
    rw [hf] at h3
    simp only [slotBytes_eq, ea_ok h1 h2, access_ok]
    erw [memWrite_mapped (w := .w64) (s := s) _ h3]
    rfl

theorem runPop_next (h : runPop len dst s = .next t) :
    Operand.notImm dst ∧ mapped s (s.reg rsp) 8 ∧ t = popped len dst s ∧
      ∀ m, dst = .mem m → mapped s (ea0 len m (s.setReg rsp (s.reg rsp + 8))) 8 := by
  obtain ⟨v, hv, h⟩ := access_eq_next h
  have hm : mapped s (s.reg rsp) Width.w64.bytes := by
    by_contra hc
    rw [memRead_unmapped hc] at hv
    simp at hv
  rw [memRead_mapped hm] at hv
  simp only [Except.ok.injEq] at hv
  subst hv
  cases dst with
  | reg r =>
    refine ⟨by simp, hm, ?_, by simp⟩
    obtain ⟨u, hu, h⟩ := access_eq_next h
    obtain ⟨_, _, _, rfl⟩ := writeOp_ok hu
    simpa [popped, written] using h.symm
  | imm x => simp [raiseAccess] at h
  | mem m =>
    obtain ⟨a, ha, h⟩ := access_eq_next h
    obtain ⟨u, hu, h⟩ := access_eq_next h
    obtain ⟨hm', rfl⟩ := memWrite_ok hu
    rcases ea_cases len m (s.setReg rsp (s.reg rsp + 8)) with ⟨_, _, he⟩ | ⟨_, _, _, he⟩
    · simp only [slotBytes_eq] at ha
      rw [he] at ha
      simp only [Except.ok.injEq] at ha
      subst ha
      refine ⟨by simp, hm, by simpa [popped] using h.symm, ?_⟩
      intro m' hm''
      cases hm''
      exact hm'
    · simp only [slotBytes_eq] at ha
      rw [he] at ha
      simp at ha

theorem runPop_fault (hf : fits .w64 dst) {x : Fault} (h : runPop len dst s = .fault x) : x.left = s := by
  rcases access_eq_fault h with ⟨_, _, _, hl⟩ | ⟨v, _, h⟩
  · exact hl
  cases dst with
  | reg r => simp only [fits] at hf; simp [writeOp, hf] at h
  | imm y => simp only [raiseAccess, Host.Outcome.fault.injEq] at h; subst h; rfl
  | mem m =>
    rcases access_eq_fault h with ⟨_, _, _, hl⟩ | ⟨_, _, h⟩
    · exact hl
    rcases access_eq_fault h with ⟨_, _, _, hl⟩ | ⟨_, _, h⟩
    · exact hl
    · simp at h

theorem runLeave_completes (hm : mapped s (s.reg rbp) 8) :
    runLeave s = .next ((s.setReg rsp (s.reg rbp + 8)).setReg rbp (valueAt .w64 s (s.reg rbp))) := by
  have h' : mapped s (s.reg rbp) Width.w64.bytes := hm
  unfold runLeave
  rw [memRead_mapped h', access_ok]
  rfl

theorem runLeave_next (h : runLeave s = .next t) :
    t = (s.setReg rsp (s.reg rbp + 8)).setReg rbp (valueAt .w64 s (s.reg rbp)) := by
  by_cases hm : mapped s (s.reg rbp) Width.w64.bytes
  · rw [runLeave_completes hm] at h; simpa using h.symm
  · simp [runLeave, memRead_unmapped hm, raiseAccess] at h

theorem runLeave_fault {x : Fault} (h : runLeave s = .fault x) : x.left = s := by
  rcases access_eq_fault h with ⟨_, _, _, hl⟩ | ⟨_, _, h⟩
  · exact hl
  · simp at h

/-! ## Control transfer (45_control_transfer.md) -/

theorem runJump_completes (hf : fits .w64 op) (ha : accessible len op s) :
    runJump len op s = .next (s.setRip (operandValue len .w64 op s)) := by
  simp only [runJump, readOp_accessible hf ha, access_ok]

theorem runJump_next (h : runJump len op s = .next t) : t = s.setRip (operandValue len .w64 op s) := by
  obtain ⟨a, ha, h⟩ := access_eq_next h
  obtain ⟨_, _, rfl⟩ := readOp_ok ha
  simpa using h.symm

theorem runJump_fault {x : Fault} (h : runJump len op s = .fault x) : x.left = s := by
  rcases access_eq_fault h with ⟨_, _, _, hl⟩ | ⟨_, _, h⟩
  · exact hl
  · simp at h

theorem runCall_completes (hf : fits .w64 op) (hm : mapped s (s.reg rsp - 8) 8)
    (ha : accessible len op (pushed (s.rip + BitVec.ofNat 64 len) s)) :
    runCall len op s =
      let u := pushed (s.rip + BitVec.ofNat 64 len) s
      .next (u.setRip (operandValue len .w64 op u)) := by
  unfold runCall
  rw [pushWord_completes hm, readOp_accessible hf ha, access_ok]

theorem runCall_next (h : runCall len op s = .next t) :
    mapped s (s.reg rsp - 8) 8 ∧
    let u := pushed (s.rip + BitVec.ofNat 64 len) s
    t = u.setRip (operandValue len .w64 op u) := by
  obtain ⟨hm, h⟩ := pushWord_next h
  obtain ⟨a, ha, h⟩ := access_eq_next h
  obtain ⟨_, _, rfl⟩ := readOp_ok ha
  exact ⟨hm, by simpa using h.symm⟩

/-- A Call's fault leaves the state of before the push, or the one of after it. -/
theorem runCall_fault {x : Fault} (h : runCall len op s = .fault x) :
    (¬ mapped s (s.reg rsp - 8) 8 ∧ x = .busFault (s.reg rsp - 8) 8 .write s) ∨
      (mapped s (s.reg rsp - 8) 8 ∧ x.left = pushed (s.rip + BitVec.ofNat 64 len) s ∧
        ∃ e, readOp len .w64 op (pushed (s.rip + BitVec.ofNat 64 len) s) = .error e) := by
  rcases pushWord_fault h with h | ⟨hm, h⟩
  · exact .inl h
  rcases access_eq_fault h with ⟨e, he, _, hl⟩ | ⟨_, _, h⟩
  · exact .inr ⟨hm, hl, e, he⟩
  · simp at h

theorem runRet_completes (hm : mapped s (s.reg rsp) 8) :
    runRet s = .next ((s.setRip (valueAt .w64 s (s.reg rsp))).setReg rsp (s.reg rsp + 8)) := by
  have h' : mapped s (s.reg rsp) Width.w64.bytes := hm
  unfold runRet
  rw [memRead_mapped h', access_ok]
  rfl

theorem runRet_next (h : runRet s = .next t) :
    t = (s.setRip (valueAt .w64 s (s.reg rsp))).setReg rsp (s.reg rsp + 8) := by
  by_cases hm : mapped s (s.reg rsp) Width.w64.bytes
  · rw [runRet_completes hm] at h; simpa using h.symm
  · simp [runRet, memRead_unmapped hm, raiseAccess] at h

theorem runRet_fault {x : Fault} (h : runRet s = .fault x) : x.left = s := by
  rcases access_eq_fault h with ⟨_, _, _, hl⟩ | ⟨_, _, h⟩
  · exact hl
  · simp at h

end

end Sys2Proof.Machine
end

