-- ==== Sys2Proof/Laws/Strings.lean ====
section
/-! SUPPORT. The loop of a repeated string instruction, and what each iteration can answer. -/

namespace Sys2Proof.Machine

variable {s t : State} {body : State → Iteration}

/-! ## The loop (46_string.md R250) -/

theorem runRep_zero (h : s.reg rcx = 0) : runRep body s = .next s := by
  simp [runRep, h, repLoop]

theorem rcx_pred {x : Word} (h : x ≠ 0) : x.toNat = (x - 1).toNat + 1 := by
  have h0 : x.toNat ≠ 0 := fun h' => h (BitVec.eq_of_toNat_eq (by simpa using h'))
  have h2 : (x - 1#64).toNat = (2 ^ 64 - 1 + x.toNat) % 2 ^ 64 := BitVec.toNat_sub ..
  have := x.isLt
  have h3 : (x - 1).toNat = (2 ^ 64 - 1 + x.toNat) % 2 ^ 64 := h2
  omega

/-- The loop goes round once. -/
theorem runRep_again (h : s.reg rcx ≠ 0) (hb : body s = .again t) (hc : t.reg rcx = s.reg rcx - 1) :
    runRep body s = runRep body t := by
  unfold runRep
  rw [rcx_pred h, repLoop, if_neg h, hb, hc]

theorem runRep_leave (h : s.reg rcx ≠ 0) (hb : body s = .leave t) : runRep body s = .next t := by
  unfold runRep
  rw [rcx_pred h, repLoop, if_neg h, hb]

theorem runRep_stop {r : Result} (h : s.reg rcx ≠ 0) (hb : body s = .stop r) : runRep body s = r := by
  unfold runRep
  rw [rcx_pred h, repLoop, if_neg h, hb]

/-- A relation that every iteration has, and that composes, holds from the first state to the last. -/
theorem repLoop_next {R : State → State → Prop} (hr : ∀ u, R u u) (ht : ∀ {u v w}, R u v → R v w → R u w)
    (ha : ∀ {u v}, body u = .again v → R u v) (hl : ∀ {u v}, body u = .leave v → R u v)
    (hs : ∀ {u r}, body u = .stop r → ∃ f, r = .fault f) (n : Nat) :
    ∀ {s t : State}, repLoop body n s = .next t → R s t := by
  induction n with
  | zero => intro s t h; simp only [repLoop, Host.Outcome.next.injEq] at h; exact h ▸ hr s
  | succ n ih =>
    intro s t h
    simp only [repLoop] at h
    split at h
    · simp only [Host.Outcome.next.injEq] at h; exact h ▸ hr s
    · split at h
      · exact ht (ha (by assumption)) (ih h)
      · simp only [Host.Outcome.next.injEq] at h; exact h ▸ hl (by assumption)
      · obtain ⟨f, rfl⟩ := hs (by assumption); simp at h

/-- A fault of the loop is the fault of an iteration, in a state that some iterations led to. -/
theorem repLoop_fault {R : State → State → Prop} (hr : ∀ u, R u u) (ht : ∀ {u v w}, R u v → R v w → R u w)
    (ha : ∀ {u v}, body u = .again v → R u v) (n : Nat) :
    ∀ {s : State} {f : Fault}, repLoop body n s = .fault f → ∃ u, R s u ∧ body u = .stop (.fault f) := by
  induction n with
  | zero => intro s f h; simp [repLoop] at h
  | succ n ih =>
    intro s f h
    simp only [repLoop] at h
    split at h
    · simp at h
    · split at h
      · obtain ⟨u, h1, h2⟩ := ih h
        exact ⟨u, ht (ha (by assumption)) h1, h2⟩
      · simp at h
      · rename_i hb; exact ⟨s, hr s, by rw [hb, h]⟩

/-- A fault of the loop comes after `k` whole iterations, in a state that has what every iteration adds to `R`; with a
count of `k` the loop completes in that state. An iteration asks nothing of rcx. -/
theorem runRep_fault {R : Nat → State → State → Prop} (h0 : ∀ u, R 0 u u)
    (hn : ∀ {u v w k}, body u = .again v → k < (v.reg rcx).toNat → v.reg rcx = u.reg rcx - 1 → R k v w → R (k + 1) u w)
    (ha : ∀ {u v}, body u = .again v →
      v.reg rcx = u.reg rcx - 1 ∧ ∀ x, body (u.setReg rcx x) = .again (v.setReg rcx (x - 1))) (n : Nat) :
    ∀ {s : State} {f : Fault}, (s.reg rcx).toNat = n → runRep body s = .fault f →
      ∃ k < n, ∃ u, R k s u ∧ body u = .stop (.fault f) ∧ u.reg rcx = s.reg rcx - BitVec.ofNat 64 k ∧
        runRep body (s.setReg rcx (BitVec.ofNat 64 k)) = .next (u.setReg rcx 0) := by
  induction n with
  | zero => intro s f hs h; rw [runRep_zero (BitVec.eq_of_toNat_eq (by simpa using hs))] at h; simp at h
  | succ n ih =>
    intro s f hs h
    have hne : s.reg rcx ≠ 0 := fun h' => by rw [h'] at hs; simp at hs
    cases hb : body s with
    | leave t => rw [runRep_leave hne hb] at h; simp at h
    | stop r =>
      rw [runRep_stop hne hb] at h
      subst h
      exact ⟨0, n.succ_pos, s, h0 s, hb, by simp, runRep_zero (by simp)⟩
    | again t =>
      obtain ⟨hc, hx⟩ := ha hb
      have ht : (t.reg rcx).toNat = n := by have := rcx_pred hne; rw [hc]; omega
      rw [runRep_again hne hb hc] at h
      obtain ⟨k, hk, u, hr, hu, hcu, hrun⟩ := ih ht h
      have e : BitVec.ofNat 64 (k + 1) = BitVec.ofNat 64 k + 1 := by simp [BitVec.ofNat_add]
      have hlt := (s.reg rcx).isLt
      refine ⟨k + 1, by omega, u, hn hb (by omega) hc hr, hu, by rw [hcu, hc, e]; ring, ?_⟩
      have hk0 : (s.setReg rcx (BitVec.ofNat 64 (k + 1))).reg rcx ≠ 0 := by
        rw [State.reg_setReg, if_pos rfl]
        intro h'
        have := congrArg BitVec.toNat h'
        rw [BitVec.toNat_ofNat, Nat.mod_eq_of_lt (by omega)] at this
        simp at this
      rw [runRep_again hk0 (hx _) (by simp), e, show BitVec.ofNat 64 k + 1 - 1 = BitVec.ofNat 64 k by ring]
      exact hrun

theorem repLoop_not_refused (hs : ∀ {u r}, body u = .stop r → ∃ f, r = .fault f) (n : Nat) :
    ∀ {s : State} {x : Refusal}, repLoop body n s ≠ .refused x := by
  induction n with
  | zero => intro s x h; simp [repLoop] at h
  | succ n ih =>
    intro s x h
    simp only [repLoop] at h
    split at h
    · simp at h
    · split at h
      · exact ih h
      · simp at h
      · obtain ⟨f, rfl⟩ := hs (by assumption); simp at h

/-! ## The iterations (R251 to R254) -/

theorem raiseAccess_fault (e : AccessError) (s : State) : ∃ f, raiseAccess e s = .fault f ∧ f.left = s := by
  cases e <;> exact ⟨_, rfl, rfl⟩

theorem iterAccess_again {α : Type} {x : Except AccessError α} {go : α → Iteration}
    (h : iterAccess x s go = .again t) : ∃ v, x = .ok v ∧ go v = .again t := by
  cases x with
  | ok v => exact ⟨v, rfl, h⟩
  | error e => simp [iterAccess] at h

theorem iterAccess_leave {α : Type} {x : Except AccessError α} {go : α → Iteration}
    (h : iterAccess x s go = .leave t) : ∃ v, x = .ok v ∧ go v = .leave t := by
  cases x with
  | ok v => exact ⟨v, rfl, h⟩
  | error e => simp [iterAccess] at h

theorem iterAccess_stop {α : Type} {x : Except AccessError α} {go : α → Iteration} {r : Result}
    (h : iterAccess x s go = .stop r) :
    (∃ f, r = .fault f ∧ f.left = s) ∨ ∃ v, x = .ok v ∧ go v = .stop r := by
  cases x with
  | ok v => exact .inr ⟨v, rfl, h⟩
  | error e =>
    simp only [iterAccess, Iteration.stop.injEq] at h
    obtain ⟨f, hf, hl⟩ := raiseAccess_fault e s
    exact .inl ⟨f, by rw [← h, hf], hl⟩

/-- The state after an iteration of Rep(Mov). -/
def movsNext (s : State) : State :=
  (((stored .w8 (s.reg rdi) (valueAt .w8 s (s.reg rsi)) s).setReg rsi (s.reg rsi + stringStep s)).setReg rdi
    (s.reg rdi + stringStep s)).setReg rcx (s.reg rcx - 1)

/-- The state after an iteration of Rep(Stos). -/
def stosNext (s : State) : State :=
  ((stored .w8 (s.reg rdi) ((s.reg rax).extractLsb' 0 8) s).setReg rdi (s.reg rdi + stringStep s)).setReg rcx
    (s.reg rcx - 1)

/-- The state after an iteration of Rep(Lods). -/
def lodsNext (s : State) : State :=
  ((s.regWrite ⟨rax, .low8⟩ (valueAt .w8 s (s.reg rsi))).setReg rsi (s.reg rsi + stringStep s)).setReg rcx
    (s.reg rcx - 1)

/-- The state after an iteration of Rep(Scas) that read `b`. -/
def scasWith (b : BitVec 8) (s : State) : State :=
  let a : BitVec 8 := (s.reg rax).extractLsb' 0 8
  ((s.setFlags (updateSub a b (a - b) s.flags)).setReg rdi (s.reg rdi + stringStep s)).setReg rcx (s.reg rcx - 1)

/-- The state after an iteration of Rep(Scas). -/
def scasNext (s : State) : State := scasWith (valueAt .w8 s (s.reg rdi)) s

theorem iterAccess_ok {α : Type} {x : Except AccessError α} {v : α} {go : α → Iteration} (h : x = .ok v) :
    iterAccess x s go = go v := by subst h; rfl

theorem iterAccess_error {α : Type} {x : Except AccessError α} {e : AccessError} {go : α → Iteration}
    (h : x = .error e) : iterAccess x s go = .stop (raiseAccess e s) := by subst h; rfl

theorem movsIteration_mapped (h1 : mapped s (s.reg rsi) 1) (h2 : mapped s (s.reg rdi) 1) :
    movsIteration s = .again (movsNext s) :=
  (iterAccess_ok (memRead_mapped (w := .w8) h1)).trans (iterAccess_ok (memWrite_mapped (w := .w8) _ h2))

theorem movsIteration_noSource (h1 : ¬ mapped s (s.reg rsi) 1) :
    movsIteration s = .stop (.fault (.busFault (s.reg rsi) 1 .read s)) :=
  iterAccess_error (memRead_unmapped (w := .w8) h1)

theorem movsIteration_noDestination (h1 : mapped s (s.reg rsi) 1) (h2 : ¬ mapped s (s.reg rdi) 1) :
    movsIteration s = .stop (.fault (.busFault (s.reg rdi) 1 .write s)) :=
  (iterAccess_ok (memRead_mapped (w := .w8) h1)).trans (iterAccess_error (memWrite_unmapped (w := .w8) _ h2))

theorem stosIteration_mapped (h : mapped s (s.reg rdi) 1) : stosIteration s = .again (stosNext s) :=
  iterAccess_ok (memWrite_mapped (w := .w8) _ h)

theorem stosIteration_unmapped (h : ¬ mapped s (s.reg rdi) 1) :
    stosIteration s = .stop (.fault (.busFault (s.reg rdi) 1 .write s)) :=
  iterAccess_error (memWrite_unmapped (w := .w8) _ h)

theorem lodsIteration_mapped (h : mapped s (s.reg rsi) 1) : lodsIteration s = .again (lodsNext s) :=
  iterAccess_ok (memRead_mapped (w := .w8) h)

theorem lodsIteration_unmapped (h : ¬ mapped s (s.reg rsi) 1) :
    lodsIteration s = .stop (.fault (.busFault (s.reg rsi) 1 .read s)) :=
  iterAccess_error (memRead_unmapped (w := .w8) h)

theorem scasIteration_mapped (h : mapped s (s.reg rdi) 1) :
    scasIteration s = if (scasNext s).flags.getLsbD bitZF then .again (scasNext s) else .leave (scasNext s) := by
  have hstep : ∀ a b : BitVec 8, stringStep (s.setFlags (updateSub a b (a - b) s.flags)) = stringStep s := by
    intro a b
    simp only [stringStep, State.setFlags_flags, updateSub_keeps (j := bitDF) a b (a - b) s.flags (by decide)]
  have hgo : ∀ b : BitVec 8,
      (let a : BitVec 8 := (s.reg rax).extractLsb' 0 8
       let t := s.setFlags (updateSub a b (a - b) s.flags)
       let u := (t.setReg rdi (t.reg rdi + stringStep t)).setReg rcx (t.reg rcx - 1)
       if u.flags.getLsbD bitZF then Iteration.again u else Iteration.leave u) =
      if (scasWith b s).flags.getLsbD bitZF then .again (scasWith b s) else .leave (scasWith b s) := by
    intro b
    simp only [hstep, State.setFlags_reg, scasWith]
    rfl
  exact (iterAccess_ok (memRead_mapped (w := .w8) h)).trans (hgo _)

theorem scasIteration_unmapped (h : ¬ mapped s (s.reg rdi) 1) :
    scasIteration s = .stop (.fault (.busFault (s.reg rdi) 1 .read s)) :=
  iterAccess_error (memRead_unmapped (w := .w8) h)

/-- Everything an iteration can answer. -/
theorem movsIteration_cases (s : State) :
    (mapped s (s.reg rsi) 1 ∧ mapped s (s.reg rdi) 1 ∧ movsIteration s = .again (movsNext s)) ∨
      ∃ f, movsIteration s = .stop (.fault f) ∧ f.left = s := by
  by_cases h1 : mapped s (s.reg rsi) 1
  · by_cases h2 : mapped s (s.reg rdi) 1
    · exact .inl ⟨h1, h2, movsIteration_mapped h1 h2⟩
    · exact .inr ⟨_, movsIteration_noDestination h1 h2, rfl⟩
  · exact .inr ⟨_, movsIteration_noSource h1, rfl⟩

theorem stosIteration_cases (s : State) :
    (mapped s (s.reg rdi) 1 ∧ stosIteration s = .again (stosNext s)) ∨
      ∃ f, stosIteration s = .stop (.fault f) ∧ f.left = s := by
  by_cases h : mapped s (s.reg rdi) 1
  · exact .inl ⟨h, stosIteration_mapped h⟩
  · exact .inr ⟨_, stosIteration_unmapped h, rfl⟩

theorem lodsIteration_cases (s : State) :
    (mapped s (s.reg rsi) 1 ∧ lodsIteration s = .again (lodsNext s)) ∨
      ∃ f, lodsIteration s = .stop (.fault f) ∧ f.left = s := by
  by_cases h : mapped s (s.reg rsi) 1
  · exact .inl ⟨h, lodsIteration_mapped h⟩
  · exact .inr ⟨_, lodsIteration_unmapped h, rfl⟩

theorem scasIteration_cases (s : State) :
    (mapped s (s.reg rdi) 1 ∧
        (scasIteration s = .again (scasNext s) ∨ scasIteration s = .leave (scasNext s))) ∨
      ∃ f, scasIteration s = .stop (.fault f) ∧ f.left = s := by
  by_cases h : mapped s (s.reg rdi) 1
  · refine .inl ⟨h, ?_⟩
    rw [scasIteration_mapped h]
    split
    · exact .inl rfl
    · exact .inr rfl
  · exact .inr ⟨_, scasIteration_unmapped h, rfl⟩

/-- The next iteration's state but for rcx does not depend on rcx. -/
theorem movsNext_setRcx (s : State) (x : Word) : movsNext (s.setReg rcx x) = (movsNext s).setReg rcx (x - 1) := by
  refine State.ext_reg (fun i => ?_) rfl rfl (by simp [movsNext, stored, valueAt, bytesAt]) rfl rfl
  by_cases h : i = rcx
  · simp [movsNext, h]
  · simp [movsNext, stringStep, h]
    rfl

theorem stosNext_setRcx (s : State) (x : Word) : stosNext (s.setReg rcx x) = (stosNext s).setReg rcx (x - 1) := by
  refine State.ext_reg (fun i => ?_) rfl rfl (by simp [stosNext, stored]) rfl rfl
  by_cases h : i = rcx
  · simp [stosNext, h]
  · simp [stosNext, stringStep, h]
    rfl

theorem lodsNext_setRcx (s : State) (x : Word) : lodsNext (s.setReg rcx x) = (lodsNext s).setReg rcx (x - 1) := by
  refine State.ext_reg (fun i => ?_) rfl rfl rfl rfl rfl
  simp only [lodsNext, State.reg_setReg, State.regWrite_reg, stringStep, State.setReg_flags]
  split <;> rfl

theorem scasNext_setRcx (s : State) (x : Word) : scasNext (s.setReg rcx x) = (scasNext s).setReg rcx (x - 1) := by
  refine State.ext_reg (fun i => ?_) rfl (by simp [scasNext, scasWith, valueAt, bytesAt]) rfl rfl rfl
  simp only [scasNext, scasWith, State.reg_setReg, State.setFlags_reg, stringStep, State.setReg_flags]
  split <;> rfl

/-- An iteration that goes on lowers rcx by one, and does the same whatever rcx holds. -/
theorem movsIteration_again (h : movsIteration s = .again t) :
    mapped s (s.reg rdi) 1 ∧ t = movsNext s ∧ ∀ x, movsIteration (s.setReg rcx x) = .again (t.setReg rcx (x - 1)) := by
  rcases movsIteration_cases s with ⟨h1, h2, e⟩ | ⟨f, e, -⟩ <;> rw [e] at h <;>
    simp only [Iteration.again.injEq, reduceCtorEq] at h
  subst h
  refine ⟨h2, rfl, fun x => ?_⟩
  rw [← movsNext_setRcx]
  exact movsIteration_mapped (by simpa [mapped] using h1) (by simpa [mapped] using h2)

theorem stosIteration_again (h : stosIteration s = .again t) :
    mapped s (s.reg rdi) 1 ∧ t = stosNext s ∧ ∀ x, stosIteration (s.setReg rcx x) = .again (t.setReg rcx (x - 1)) := by
  rcases stosIteration_cases s with ⟨h1, e⟩ | ⟨f, e, -⟩ <;> rw [e] at h <;>
    simp only [Iteration.again.injEq, reduceCtorEq] at h
  subst h
  refine ⟨h1, rfl, fun x => ?_⟩
  rw [← stosNext_setRcx]
  exact stosIteration_mapped (by simpa [mapped] using h1)

theorem lodsIteration_again (h : lodsIteration s = .again t) :
    t = lodsNext s ∧ ∀ x, lodsIteration (s.setReg rcx x) = .again (t.setReg rcx (x - 1)) := by
  rcases lodsIteration_cases s with ⟨h1, e⟩ | ⟨f, e, -⟩ <;> rw [e] at h <;>
    simp only [Iteration.again.injEq, reduceCtorEq] at h
  subst h
  refine ⟨rfl, fun x => ?_⟩
  rw [← lodsNext_setRcx]
  exact lodsIteration_mapped (by simpa [mapped] using h1)

/-- Rep(Scas) goes on only with ZF set. -/
theorem scasIteration_again (h : scasIteration s = .again t) :
    (scasNext s).flags.getLsbD bitZF = true ∧ t = scasNext s ∧
      ∀ x, scasIteration (s.setReg rcx x) = .again (t.setReg rcx (x - 1)) := by
  by_cases h1 : mapped s (s.reg rdi) 1
  · rw [scasIteration_mapped h1] at h
    by_cases hz : (scasNext s).flags.getLsbD bitZF = true
    · rw [if_pos hz, Iteration.again.injEq] at h
      subst h
      refine ⟨hz, rfl, fun x => ?_⟩
      have h2 := scasIteration_mapped (s := s.setReg rcx x) (by simpa [mapped] using h1)
      rwa [scasNext_setRcx, State.setReg_flags, if_pos hz] at h2
    · rw [if_neg hz] at h; simp at h
  · rw [scasIteration_unmapped h1] at h; simp at h

/-! ## Strings of bytes (R250) -/

/-- The first byte of a string is where it starts. -/
@[simp] theorem stringAddr_zero (s : State) (a : Word) : stringAddr s a 0 = a := by
  unfold stringAddr; split <;> simp

/-- The string after its first byte, from a state whose DF is the same. -/
theorem stringAddr_succ {s u : State} (h : u.flags.getLsbD bitDF = s.flags.getLsbD bitDF) (a : Word) (k : Nat) :
    stringAddr u (a + stringStep s) k = stringAddr s a (k + 1) := by
  have e : BitVec.ofNat 64 (k + 1) = BitVec.ofNat 64 k + 1 := by simp [BitVec.ofNat_add]
  unfold stringAddr stringStep
  rw [h, e]
  split
  · ring
  · ring

/-- The bytes of a string are at different addresses. -/
theorem stringAddr_inj {s : State} {a : Word} {j k : Nat} (hj : j < 2 ^ 64) (hk : k < 2 ^ 64)
    (h : stringAddr s a j = stringAddr s a k) : j = k := by
  have e : BitVec.ofNat 64 j = BitVec.ofNat 64 k := by
    unfold stringAddr at h
    split at h
    · exact sub_right_injective h
    · exact add_right_injective a h
  have := congrArg BitVec.toNat e
  rwa [BitVec.toNat_ofNat, BitVec.toNat_ofNat, Nat.mod_eq_of_lt hj, Nat.mod_eq_of_lt hk] at this

/-! ## What an iteration changed -/

/-- A one-byte value is the byte at its address. -/
theorem valueAt_w8 (u : State) (a : Word) : valueAt .w8 u a = u.bus.byteAt a.toNat := by
  simp [valueAt, bytesAt, fromLE, List.range_succ]

theorem lowByte_eq (x : Word) : x.extractLsb' 0 8 = x.setWidth 8 := by
  apply BitVec.eq_of_getLsbD_eq
  intro i hi
  simp [hi]

theorem movsNext_wf (hs : s.bus.wf = true) (h : mapped s (s.reg rdi) 1) : (movsNext s).bus.wf = true :=
  stored_wf (w := .w8) hs _ h

theorem stosNext_wf (hs : s.bus.wf = true) (h : mapped s (s.reg rdi) 1) : (stosNext s).bus.wf = true :=
  stored_wf (w := .w8) hs _ h

/-- An iteration of Rep(Mov): one byte copied, both pointers moved, the count lowered, nothing else changed. -/
theorem movsNext_spec (hs : s.bus.wf = true) :
    (movsNext s).reg rcx = s.reg rcx - 1 ∧ (movsNext s).reg rsi = s.reg rsi + stringStep s ∧
      (movsNext s).reg rdi = s.reg rdi + stringStep s ∧
      (movsNext s).bus.byteAt (s.reg rdi).toNat = s.bus.byteAt (s.reg rsi).toNat ∧
      sameBytesExcept (s.reg rdi) 1 s (movsNext s) ∧ sameRegsExcept [rcx, rsi, rdi] s (movsNext s) ∧
      (movsNext s).flags = s.flags ∧ samePcAndStream s (movsNext s) := by
  refine ⟨by simp [movsNext], by simp [movsNext], by simp [movsNext], ?_, ⟨rfl, ?_⟩, ?_, rfl, rfl, rfl⟩
  · show (stored .w8 (s.reg rdi) (valueAt .w8 s (s.reg rsi)) s).bus.byteAt _ = _
    rw [← valueAt_w8, stored_valueAt hs, valueAt_w8]
  · intro k hk
    exact stored_byteAt_outside hs .w8 _ _ hk
  · intro k hk
    simp only [List.mem_cons, List.not_mem_nil, or_false, not_or] at hk
    simp only [movsNext, State.reg_setReg, hk.1, hk.2.1, hk.2.2, if_false]
    rfl

/-- An iteration of Rep(Stos): al stored, the pointer moved, the count lowered, nothing else changed. -/
theorem stosNext_spec (hs : s.bus.wf = true) :
    (stosNext s).reg rcx = s.reg rcx - 1 ∧ (stosNext s).reg rdi = s.reg rdi + stringStep s ∧
      (stosNext s).bus.byteAt (s.reg rdi).toNat = (s.reg rax).setWidth 8 ∧
      sameBytesExcept (s.reg rdi) 1 s (stosNext s) ∧ sameRegsExcept [rcx, rdi] s (stosNext s) ∧
      (stosNext s).flags = s.flags ∧ samePcAndStream s (stosNext s) := by
  refine ⟨by simp [stosNext], by simp [stosNext], ?_, ⟨rfl, ?_⟩, ?_, rfl, rfl, rfl⟩
  · show (stored .w8 (s.reg rdi) _ s).bus.byteAt _ = _
    rw [← valueAt_w8, stored_valueAt hs]
    exact lowByte_eq _
  · intro k hk
    exact stored_byteAt_outside hs .w8 _ _ hk
  · intro k hk
    simp only [List.mem_cons, List.not_mem_nil, or_false, not_or] at hk
    simp only [stosNext, State.reg_setReg, hk.1, hk.2, if_false]
    rfl

/-- An iteration of Rep(Lods): al loaded, the rest of rax kept, the pointer moved, the count lowered, nothing else
changed. -/
theorem lodsNext_spec (s : State) :
    (lodsNext s).reg rcx = s.reg rcx - 1 ∧ (lodsNext s).reg rsi = s.reg rsi + stringStep s ∧
      ((lodsNext s).reg rax).setWidth 8 = s.bus.byteAt (s.reg rsi).toNat ∧
      keptOutside .low8 (s.reg rax) ((lodsNext s).reg rax) ∧ sameRegsExcept [rcx, rsi, rax] s (lodsNext s) ∧
      (lodsNext s).bus = s.bus ∧ (lodsNext s).flags = s.flags ∧ samePcAndStream s (lodsNext s) := by
  have hal : (lodsNext s).reg rax = View.put .low8 (s.reg rax) (valueAt .w8 s (s.reg rsi)) := by simp [lodsNext]
  refine ⟨by simp [lodsNext], by simp [lodsNext], ?_, ?_, ?_, rfl, rfl, rfl, rfl⟩
  · rw [hal, ← valueAt_w8, ← lowByte_eq]
    exact View.get_put .low8 (s.reg rax) _
  · rw [hal]
    exact View.put_keptOutside .low8 (s.reg rax) _
  · intro k hk
    simp only [List.mem_cons, List.not_mem_nil, or_false, not_or] at hk
    simp only [lodsNext, State.reg_setReg, State.regWrite_reg, hk.1, hk.2.1, hk.2.2, if_false]

/-- An iteration of Rep(Scas): the flags of al minus the byte, the pointer moved, the count lowered, nothing else
changed; ZF says whether they were equal. -/
theorem scasNext_spec (s : State) :
    let a : BitVec 8 := (s.reg rax).setWidth 8
    let b : BitVec 8 := s.bus.byteAt (s.reg rdi).toNat
    (scasNext s).reg rcx = s.reg rcx - 1 ∧ (scasNext s).reg rdi = s.reg rdi + stringStep s ∧
      (scasNext s).flags = updateSub a b (a - b) s.flags ∧
      ((scasNext s).flags.getLsbD bitZF = true ↔ a = b) ∧ sameRegsExcept [rcx, rdi] s (scasNext s) ∧
      (scasNext s).bus = s.bus ∧ samePcAndStream s (scasNext s) := by
  intro a b
  have hf : (scasNext s).flags = updateSub a b (a - b) s.flags := by
    have hb : valueAt .w8 s (s.reg rdi) = b := valueAt_w8 _ _
    have ha : (s.reg rax).extractLsb' 0 8 = a := lowByte_eq _
    simp only [scasNext, scasWith, State.setReg_flags, State.setFlags_flags, hb, ha]
  refine ⟨by simp [scasNext, scasWith], by simp [scasNext, scasWith], hf, ?_, ?_, rfl, rfl, rfl⟩
  · refine (differenceFlags_updateSub hf).1.1.1.trans ?_
    exact ⟨fun h => BitVec.sub_eq_iff_eq_add.1 h |>.trans (BitVec.zero_add b), fun h => by rw [h]; exact BitVec.sub_self b⟩
  · intro k hk
    simp only [List.mem_cons, List.not_mem_nil, or_false, not_or] at hk
    simp only [scasNext, scasWith, State.reg_setReg, State.setFlags_reg, hk.1, hk.2, if_false]

end Sys2Proof.Machine
end

