-- ==== Sys2Proof/Laws/Step.lean ====
section
/-! SUPPORT. What exec and step can answer: what every instruction keeps, what a fault leaves, and how a step follows from
its fetch window. -/

namespace Sys2Proof.Machine

/-! ## What every instruction keeps -/

/-- The regions and the stream are as before, and the bus invariant is kept. -/
def Keeps (s t : State) : Prop :=
  t.bus.regions = s.bus.regions ∧ t.stream = s.stream ∧ (s.bus.wf = true → t.bus.wf = true)

theorem Keeps.refl (s : State) : Keeps s s := ⟨rfl, rfl, id⟩
theorem Keeps.trans {s t u : State} (h : Keeps s t) (h' : Keeps t u) : Keeps s u :=
  ⟨h'.1.trans h.1, h'.2.1.trans h.2.1, fun hs => h'.2.2 (h.2.2 hs)⟩
theorem Keeps.of_bus {s t : State} (h : t.bus = s.bus) (h' : t.stream = s.stream) : Keeps s t :=
  ⟨by rw [h], h', fun hs => by rw [h]; exact hs⟩

theorem written_keeps {len : Nat} {s : State} {w : Width} {o : Operand} (hf : fits w o) (ha : accessible len o s)
    (v : BitVec w.bits) : Keeps s (written len w o v s) := ⟨by simp, by simp, fun hs => written_wf hs hf ha v⟩

theorem setFlags_keeps {s t : State} (h : Keeps s t) (f : Word) : Keeps s (t.setFlags f) := h
theorem pushed_keeps {s : State} (v : Word) (hm : mapped s (s.reg rsp - 8) 8) : Keeps s (pushed v s) :=
  ⟨rfl, rfl, fun hs => pushed_wf hs v hm⟩

theorem popped_keeps {len : Nat} {dst : Operand} {s : State}
    (h : ∀ m, dst = .mem m → mapped s (ea0 len m (s.setReg rsp (s.reg rsp + 8))) 8) : Keeps s (popped len dst s) := by
  cases dst with
  | reg r => exact Keeps.of_bus rfl rfl
  | imm x => exact Keeps.refl s
  | mem m => exact ⟨rfl, rfl, fun hs => stored_wf (w := .w64) hs _ (h m rfl)⟩

theorem movsNext_keeps {s : State} (h : mapped s (s.reg rdi) 1) : Keeps s (movsNext s) :=
  ⟨rfl, rfl, fun hs => movsNext_wf hs h⟩

theorem stosNext_keeps {s : State} (h : mapped s (s.reg rdi) 1) : Keeps s (stosNext s) :=
  ⟨rfl, rfl, fun hs => stosNext_wf hs h⟩

/-- The flags of a shift change no other field than the count of draws. -/
theorem shiftFlags_fields {n : Nat} (d : ShiftDir) (a r : BitVec n) (k : Nat) (s : State) :
    (shiftFlags d a r k s).regs = s.regs ∧ (shiftFlags d a r k s).rip = s.rip ∧
      (shiftFlags d a r k s).bus = s.bus ∧ (shiftFlags d a r k s).stream = s.stream := by
  rcases shiftFlags_cases d a r k s with ⟨_, h⟩ | ⟨_, _, _, _, h⟩ <;> rw [h] <;> exact ⟨rfl, rfl, rfl, rfl⟩

/-! ## Relations kept by a repeated string -/

/-- A relation that every iteration keeps, the loop keeps. -/
theorem runRep_next_rel {body : State → Iteration} {s t : State} (R : State → State → Prop) (hr : ∀ u, R u u)
    (ht : ∀ {u v w}, R u v → R v w → R u w)
    (hb : ∀ u, (∃ v, (body u = .again v ∨ body u = .leave v) ∧ R u v) ∨ ∃ f, body u = .stop (.fault f) ∧ f.left = u)
    (h : runRep body s = .next t) : R s t := by
  refine repLoop_next hr ht ?_ ?_ ?_ _ h
  · intro u v he
    rcases hb u with ⟨w, h1 | h1, h2⟩ | ⟨f, h1, _⟩ <;> rw [h1] at he <;> simp at he
    exact he ▸ h2
  · intro u v he
    rcases hb u with ⟨w, h1 | h1, h2⟩ | ⟨f, h1, _⟩ <;> rw [h1] at he <;> simp at he
    exact he ▸ h2
  · intro u r he
    rcases hb u with ⟨w, h1 | h1, h2⟩ | ⟨f, h1, _⟩ <;> rw [h1] at he <;> simp at he
    exact ⟨f, he.symm⟩

/-- So does a loop that faults, up to the state it leaves. -/
theorem runRep_fault_rel {body : State → Iteration} {s : State} {x : Fault} (R : State → State → Prop)
    (hr : ∀ u, R u u) (ht : ∀ {u v w}, R u v → R v w → R u w)
    (hb : ∀ u, (∃ v, (body u = .again v ∨ body u = .leave v) ∧ R u v) ∨ ∃ f, body u = .stop (.fault f) ∧ f.left = u)
    (h : runRep body s = .fault x) : R s x.left := by
  obtain ⟨u, hu, hs⟩ := repLoop_fault (body := body) hr ht (by
    intro u v he
    rcases hb u with ⟨w, h1 | h1, h2⟩ | ⟨f, h1, _⟩ <;> rw [h1] at he <;> simp at he
    exact he ▸ h2) _ h
  rcases hb u with ⟨w, h1 | h1, h2⟩ | ⟨f, h1, hl⟩ <;> rw [h1] at hs <;> simp at hs
  rw [← hs, hl]; exact hu


theorem movs_body (R : State → State → Prop) (h : ∀ u, mapped u (u.reg rdi) 1 → R u (movsNext u)) (u : State) :
    (∃ v, (movsIteration u = .again v ∨ movsIteration u = .leave v) ∧ R u v) ∨
      ∃ f, movsIteration u = .stop (.fault f) ∧ f.left = u := by
  rcases movsIteration_cases u with ⟨_, h1, h2⟩ | h2
  · exact .inl ⟨_, .inl h2, h u h1⟩
  · exact .inr h2

theorem stos_body (R : State → State → Prop) (h : ∀ u, mapped u (u.reg rdi) 1 → R u (stosNext u)) (u : State) :
    (∃ v, (stosIteration u = .again v ∨ stosIteration u = .leave v) ∧ R u v) ∨
      ∃ f, stosIteration u = .stop (.fault f) ∧ f.left = u := by
  rcases stosIteration_cases u with ⟨h1, h2⟩ | h2
  · exact .inl ⟨_, .inl h2, h u h1⟩
  · exact .inr h2

theorem lods_body (R : State → State → Prop) (h : ∀ u, R u (lodsNext u)) (u : State) :
    (∃ v, (lodsIteration u = .again v ∨ lodsIteration u = .leave v) ∧ R u v) ∨
      ∃ f, lodsIteration u = .stop (.fault f) ∧ f.left = u := by
  rcases lodsIteration_cases u with ⟨h1, h2⟩ | h2
  · exact .inl ⟨_, .inl h2, h u⟩
  · exact .inr h2

theorem scas_body (R : State → State → Prop) (h : ∀ u, R u (scasNext u)) (u : State) :
    (∃ v, (scasIteration u = .again v ∨ scasIteration u = .leave v) ∧ R u v) ∨
      ∃ f, scasIteration u = .stop (.fault f) ∧ f.left = u := by
  rcases scasIteration_cases u with ⟨h1, h2 | h2⟩ | h2
  · exact .inl ⟨_, .inl h2, h u⟩
  · exact .inl ⟨_, .inr h2, h u⟩
  · exact .inr h2

/-! ## exec -/

/-- What an instruction that completes keeps. -/
theorem exec_next_keeps {i : Instr} {s t : State} (h : exec i s = .next t) : Keeps s t := by
  have hk := Instr.kind_fits i s.rip
  rw [exec_eq_runKind] at h
  generalize i.kind s.rip = k at h hk
  cases k <;> simp only [runKind, runAdd, runAdc, runSub, runXor, runCmp, runTest, runShl, runShr] at h
  case mov d x => obtain ⟨h1, h2, rfl⟩ := runMov_next h; exact written_keeps (fits_width h1) h2 _
  case movzx d x => obtain ⟨h1, h2, rfl⟩ := runMovzx_next h; exact written_keeps (fits_width h1) h2 _
  case lea d x => obtain ⟨h1, h2, _, rfl, rfl⟩ := runLea_next h; exact written_keeps (fits_width h1) h2 _
  case add d x =>
    obtain ⟨h1, _, h2, _, rfl⟩ := binaryWrite_next h
    exact setFlags_keeps (written_keeps (fits_width h1) h2 _) _
  case adc d x =>
    obtain ⟨h1, _, h2, _, rfl⟩ := binaryWrite_next h
    exact setFlags_keeps (written_keeps (fits_width h1) h2 _) _
  case sub d x =>
    obtain ⟨h1, _, h2, _, rfl⟩ := binaryWrite_next h
    exact setFlags_keeps (written_keeps (fits_width h1) h2 _) _
  case xor d x =>
    obtain ⟨h1, _, h2, _, rfl⟩ := binaryWrite_next h
    exact setFlags_keeps (written_keeps (fits_width h1) h2 _) _
  case cmp d x =>
    have h := binaryTest_next h
    simp only at h; subst h; exact setFlags_keeps (Keeps.refl s) _
  case test d x =>
    have h := binaryTest_next h
    simp only at h; subst h; exact setFlags_keeps (Keeps.refl s) _
  case inc d =>
    obtain ⟨h1, h2, rfl⟩ := runInc_next h
    exact setFlags_keeps (written_keeps (fits_width h1) h2 _) _
  case dec d =>
    obtain ⟨h1, h2, rfl⟩ := runDec_next h
    exact setFlags_keeps (written_keeps (fits_width h1) h2 _) _
  case shl d c =>
    obtain ⟨h1, h2, rfl⟩ := runShift_next h
    obtain ⟨_, _, hb, hs⟩ := shiftFlags_fields .left (operandValue i.length (Operand.width d) d s) _ _ _
    exact (written_keeps (fits_width h1) h2 _).trans (Keeps.of_bus hb hs)
  case shr d c =>
    obtain ⟨h1, h2, rfl⟩ := runShift_next h
    obtain ⟨_, _, hb, hs⟩ := shiftFlags_fields .right (operandValue i.length (Operand.width d) d s) _ _ _
    exact (written_keeps (fits_width h1) h2 _).trans (Keeps.of_bus hb hs)
  case push x => obtain ⟨hm, rfl⟩ := runPush_next h; exact pushed_keeps _ hm
  case pop d => obtain ⟨_, _, rfl, hm⟩ := runPop_next h; exact popped_keeps hm
  case leave => rw [runLeave_next h]; exact Keeps.of_bus rfl rfl
  case nop => simp only [runNop, Host.Outcome.next.injEq] at h; subst h; exact Keeps.refl s
  case cld => simp only [runCld, Host.Outcome.next.injEq] at h; subst h; exact Keeps.of_bus rfl rfl
  case int3 => simp [runInt3] at h
  case conditionalJump c x =>
    simp only [runConditionalJump] at h
    split at h <;> simp only [Host.Outcome.next.injEq] at h <;> subst h <;> exact Keeps.of_bus rfl rfl
  case unconditionalJump x => rw [runJump_next h]; exact Keeps.of_bus rfl rfl
  case call x =>
    obtain ⟨hm, ht⟩ := runCall_next h
    simp only at ht
    have hp := pushed_keeps (s.rip + BitVec.ofNat 64 i.length) hm
    rw [ht]
    exact ⟨hp.1, hp.2.1, hp.2.2⟩
  case ret => rw [runRet_next h]; exact Keeps.of_bus (by simp) (by simp)
  case invalid => simp [runInvalid] at h
  case rep r =>
    cases r with
    | mov =>
      exact runRep_next_rel Keeps Keeps.refl Keeps.trans (movs_body _ fun u hu => movsNext_keeps hu) h
    | stos =>
      exact runRep_next_rel Keeps Keeps.refl Keeps.trans (stos_body _ fun u hu => stosNext_keeps hu) h
    | lods =>
      exact runRep_next_rel Keeps Keeps.refl Keeps.trans (lods_body _ fun u => Keeps.of_bus rfl rfl) h
    | scas =>
      exact runRep_next_rel Keeps Keeps.refl Keeps.trans (scas_body _ fun u => Keeps.of_bus rfl rfl) h

/-- Everything a fault can leave: the state of before, a Call's push, or the iterations of a repeated string (R154). -/
theorem exec_fault_cases {i : Instr} {s : State} {f : Fault} (h : exec i s = .fault f) :
    f.left = s ∨
      (∃ op e, i.kind s.rip = .call op ∧ mapped s (s.reg rsp - 8) 8 ∧
        f.left = pushed (s.rip + BitVec.ofNat 64 i.length) s ∧
        readOp i.length .w64 op (pushed (s.rip + BitVec.ofNat 64 i.length) s) = .error e) ∨
      ∃ r, i.kind s.rip = .rep r ∧ Keeps s f.left ∧ f.left.rip = s.rip ∧
        sameFlagsExcept (if r = .scas then arithmeticBits else []) s f.left := by
  have hk := Instr.kind_fits i s.rip
  rw [exec_eq_runKind] at h
  generalize i.kind s.rip = k at h hk
  cases k <;> simp only [runKind, runAdd, runAdc, runSub, runXor, runCmp, runTest, runShl, runShr] at h
  case mov d x => exact .inl (runMov_fault h)
  case movzx d x => exact .inl (runMovzx_fault h)
  case lea d x => exact .inl (runLea_fault h)
  case add d x => exact .inl (binaryWrite_fault h)
  case adc d x => exact .inl (binaryWrite_fault h)
  case sub d x => exact .inl (binaryWrite_fault h)
  case xor d x => exact .inl (binaryWrite_fault h)
  case cmp d x => exact .inl (binaryTest_fault h)
  case test d x => exact .inl (binaryTest_fault h)
  case inc d => exact .inl (runInc_fault h)
  case dec d => exact .inl (runDec_fault h)
  case shl d c => exact .inl (runShift_fault h)
  case shr d c => exact .inl (runShift_fault h)
  case push x => exact .inl (runPush_fault h)
  case pop d => exact .inl (runPop_fault hk.2 h)
  case leave => exact .inl (runLeave_fault h)
  case nop => simp [runNop] at h
  case cld => simp [runCld] at h
  case int3 => simp only [runInt3, Host.Outcome.fault.injEq] at h; subst h; exact .inl rfl
  case conditionalJump c x => simp only [runConditionalJump] at h; split at h <;> simp at h
  case unconditionalJump x => exact .inl (runJump_fault h)
  case call x =>
    rcases runCall_fault h with ⟨_, rfl⟩ | ⟨h1, h2, e, h3⟩
    · exact .inl rfl
    · exact .inr (.inl ⟨_, _, rfl, h1, h2, h3⟩)
  case ret => exact .inl (runRet_fault h)
  case invalid => simp only [runInvalid, Host.Outcome.fault.injEq] at h; subst h; exact .inl rfl
  case rep r =>
    let bits := if r = .scas then arithmeticBits else []
    let R : State → State → Prop := fun u v => Keeps u v ∧ v.rip = u.rip ∧ sameFlagsExcept bits u v
    have hr : ∀ u, R u u := fun u => ⟨Keeps.refl u, rfl, fun _ _ => rfl⟩
    have ht : ∀ {u v w}, R u v → R v w → R u w := fun h1 h2 =>
      ⟨h1.1.trans h2.1, h2.2.1.trans h1.2.1, fun j hj => (h2.2.2 j hj).trans (h1.2.2 j hj)⟩
    refine .inr (.inr ⟨r, rfl, ?_⟩)
    cases r with
    | mov =>
      exact runRep_fault_rel R hr ht (movs_body R fun u hu => ⟨movsNext_keeps hu, rfl, fun _ _ => rfl⟩) h
    | stos =>
      exact runRep_fault_rel R hr ht (stos_body R fun u hu => ⟨stosNext_keeps hu, rfl, fun _ _ => rfl⟩) h
    | lods =>
      exact runRep_fault_rel R hr ht (lods_body R fun u => ⟨Keeps.of_bus rfl rfl, rfl, fun _ _ => rfl⟩) h
    | scas =>
      exact runRep_fault_rel R hr ht (scas_body R fun u =>
        ⟨Keeps.of_bus rfl rfl, rfl, fun j hj => updateSub_keeps _ _ _ _ hj⟩) h

/-- The flags and the pc an instruction that completes may change, by kind. -/
theorem exec_next_flags {i : Instr} {s t : State} (h : exec i s = .next t) :
    sameFlagsExcept (match i.kind s.rip with
      | .cld => [bitDF]
      | k => if writesFlags k then arithmeticBits else []) s t ∧
    (i.kind s.rip = .cld → t.flags.getLsbD bitDF = false) ∧ (writesPc (i.kind s.rip) = false → t.rip = s.rip) := by
  have hk := Instr.kind_fits i s.rip
  rw [exec_eq_runKind] at h
  generalize i.kind s.rip = k at h hk
  cases k <;> simp only [runKind, runAdd, runAdc, runSub, runXor, runCmp, runTest, runShl, runShr] at h
  case mov d x =>
    obtain ⟨h1, h2, rfl⟩ := runMov_next h
    exact ⟨fun _ _ => by simp, by simp, by simp⟩
  case movzx d x =>
    obtain ⟨h1, h2, rfl⟩ := runMovzx_next h
    exact ⟨fun _ _ => by simp, by simp, by simp⟩
  case lea d x =>
    obtain ⟨h1, h2, _, rfl, rfl⟩ := runLea_next h
    exact ⟨fun _ _ => by simp, by simp, by simp⟩
  case add d x =>
    obtain ⟨h1, _, h2, _, rfl⟩ := binaryWrite_next h
    exact ⟨fun j hj => updateAdd_keeps _ _ _ _ hj, by simp, by simp⟩
  case adc d x =>
    obtain ⟨h1, _, h2, _, rfl⟩ := binaryWrite_next h
    exact ⟨fun j hj => updateAdc_keeps _ _ _ _ _ hj, by simp, by simp⟩
  case sub d x =>
    obtain ⟨h1, _, h2, _, rfl⟩ := binaryWrite_next h
    exact ⟨fun j hj => updateSub_keeps _ _ _ _ hj, by simp, by simp⟩
  case xor d x =>
    obtain ⟨h1, _, h2, _, rfl⟩ := binaryWrite_next h
    exact ⟨fun j hj => updateLogic_keeps _ _ (by revert hj; simp [logicBits, arithmeticBits, writesFlags]; tauto),
      by simp, by simp⟩
  case cmp d x =>
    have h := binaryTest_next h
    simp only at h; subst h
    exact ⟨fun j hj => updateSub_keeps _ _ _ _ hj, by simp, by simp⟩
  case test d x =>
    have h := binaryTest_next h
    simp only at h; subst h
    exact ⟨fun j hj => updateLogic_keeps _ _ (by revert hj; simp [logicBits, arithmeticBits, writesFlags]; tauto),
      by simp, by simp⟩
  case inc d =>
    obtain ⟨h1, h2, rfl⟩ := runInc_next h
    exact ⟨fun j hj => updateAddNoCf_keeps _ _ _ _ (by revert hj; simp [noCarryBits, arithmeticBits, writesFlags]),
      by simp, by simp⟩
  case dec d =>
    obtain ⟨h1, h2, rfl⟩ := runDec_next h
    exact ⟨fun j hj => updateSubNoCf_keeps _ _ _ _ (by revert hj; simp [noCarryBits, arithmeticBits, writesFlags]),
      by simp, by simp⟩
  case shl d c =>
    obtain ⟨h1, h2, rfl⟩ := runShift_next h
    refine ⟨?_, by simp, fun _ => ?_⟩
    · intro j hj
      rcases shiftFlags_cases .left (operandValue i.length (Operand.width d) d s) _ _ _ with
        ⟨_, h⟩ | ⟨_, _, _, _, h⟩ <;> rw [h]
      · simp
      · simp only [written_flags]; exact updateShift_keeps _ _ _ _ _ _ _ _ hj
    · rw [(shiftFlags_fields _ _ _ _ _).2.1]; simp
  case shr d c =>
    obtain ⟨h1, h2, rfl⟩ := runShift_next h
    refine ⟨?_, by simp, fun _ => ?_⟩
    · intro j hj
      rcases shiftFlags_cases .right (operandValue i.length (Operand.width d) d s) _ _ _ with
        ⟨_, h⟩ | ⟨_, _, _, _, h⟩ <;> rw [h]
      · simp
      · simp only [written_flags]; exact updateShift_keeps _ _ _ _ _ _ _ _ hj
    · rw [(shiftFlags_fields _ _ _ _ _).2.1]; simp
  case push x => obtain ⟨hm, rfl⟩ := runPush_next h; exact ⟨fun _ _ => rfl, by simp, fun _ => rfl⟩
  case pop d =>
    obtain ⟨_, _, rfl, hm⟩ := runPop_next h
    cases d <;> exact ⟨fun _ _ => rfl, by simp, fun _ => rfl⟩
  case leave => rw [runLeave_next h]; exact ⟨fun _ _ => rfl, by simp, fun _ => rfl⟩
  case nop =>
    simp only [runNop, Host.Outcome.next.injEq] at h; subst h
    exact ⟨fun _ _ => rfl, by simp, fun _ => rfl⟩
  case cld =>
    simp only [runCld, Host.Outcome.next.injEq] at h; subst h
    refine ⟨fun j hj => ?_, fun _ => ?_, fun _ => rfl⟩
    · simp only [List.mem_singleton] at hj
      simp only [State.setFlags_flags]; rw [getLsbD_putBit _ _ _ _ (by decide), if_neg hj]
    · simp only [State.setFlags_flags]; rw [getLsbD_putBit _ _ _ _ (by decide)]; simp
  case int3 => simp [runInt3] at h
  case conditionalJump c x =>
    simp only [runConditionalJump] at h
    split at h <;> simp only [Host.Outcome.next.injEq] at h <;> subst h <;>
      exact ⟨fun _ _ => rfl, by simp, by simp [writesPc]⟩
  case unconditionalJump x => rw [runJump_next h]; exact ⟨fun _ _ => rfl, by simp, by simp [writesPc]⟩
  case call x =>
    obtain ⟨hm, ht⟩ := runCall_next h
    simp only at ht
    rw [ht]
    exact ⟨fun _ _ => rfl, by simp, by simp [writesPc]⟩
  case ret => rw [runRet_next h]; exact ⟨fun _ _ => by simp, by simp, by simp [writesPc]⟩
  case invalid => simp [runInvalid] at h
  case rep r =>
    let bits := if r = .scas then arithmeticBits else []
    let R : State → State → Prop := fun u v => v.rip = u.rip ∧ sameFlagsExcept bits u v
    have hr : ∀ u, R u u := fun u => ⟨rfl, fun _ _ => rfl⟩
    have ht : ∀ {u v w}, R u v → R v w → R u w := fun h1 h2 =>
      ⟨h2.1.trans h1.1, fun j hj => (h2.2 j hj).trans (h1.2 j hj)⟩
    have key : R s t := by
      cases r with
      | mov => exact runRep_next_rel R hr ht (movs_body R fun u hu => ⟨rfl, fun _ _ => rfl⟩) h
      | stos => exact runRep_next_rel R hr ht (stos_body R fun u hu => ⟨rfl, fun _ _ => rfl⟩) h
      | lods => exact runRep_next_rel R hr ht (lods_body R fun u => ⟨rfl, fun _ _ => rfl⟩) h
      | scas =>
        exact runRep_next_rel R hr ht (scas_body R fun u => ⟨rfl, fun j hj => updateSub_keeps _ _ _ _ hj⟩) h
    refine ⟨?_, by simp, fun _ => key.1⟩
    cases r <;> exact key.2

/-! ## Fetch (20_memory.md R78) -/

theorem fetchWindow_cases (b : Bus) (pc : Word) :
    (∃ w, fetchWindow b pc = .ok w) ∨ fetchWindow b pc = .error (.bus pc 1 .fetch) := by
  unfold fetchWindow
  cases h : b.regionFor pc 1 with
  | none => exact .inr rfl
  | some r =>
    left
    obtain ⟨hr, hc⟩ := Bus.regionFor_some h
    simp only [Region.contains, Bool.and_eq_true, decide_eq_true_eq] at hc
    rcases b.readExact_cases pc (min Config.maxLen (r.endAddr.toNat - pc.toNat)) .fetch
      (by simp only [Config.maxLen]; omega) with ⟨_, he⟩ | ⟨hno, _⟩
    · exact ⟨_, he⟩
    · have := hno r hr
      simp only [Region.contains, Bool.and_eq_false_iff, decide_eq_false_iff_not] at this
      simp only [Config.maxLen] at this; omega

/-- The window is cut at the end of the region that holds pc. -/
theorem fetchWindow_region {b : Bus} (hb : b.wf = true) {r : Region} (hr : r ∈ b.regions) {pc : Word}
    (h1 : r.startAddr.toNat ≤ pc.toNat) (h2 : pc.toNat < r.endAddr.toNat) :
    fetchWindow b pc =
      .ok ((List.range (min 15 (r.endAddr.toNat - pc.toNat))).map fun k => b.byteAt (pc.toNat + k)) := by
  unfold fetchWindow
  cases h : b.regionFor pc 1 with
  | none =>
    have := (Bus.regionFor_isSome b pc 1).2 ⟨r, hr, by simp [Region.contains]; omega⟩
    simp [h] at this
  | some q =>
    obtain ⟨hq, hc⟩ := Bus.regionFor_some h
    simp only [Region.contains, Bool.and_eq_true, decide_eq_true_eq] at hc
    have := Bus.region_unique hb hr hq h1 h2 hc.1 (by omega)
    subst this
    rcases b.readExact_cases pc (min Config.maxLen (r.endAddr.toNat - pc.toNat)) .fetch
      (by simp only [Config.maxLen]; omega) with ⟨_, he⟩ | ⟨hno, _⟩
    · exact he
    · have := hno r hr
      simp only [Region.contains, Bool.and_eq_false_iff, decide_eq_false_iff_not] at this
      simp only [Config.maxLen] at this; omega

theorem fetchWindow_none {b : Bus} {pc : Word} (h : ∀ r ∈ b.regions, ¬ (r.startAddr ≤ pc ∧ pc < r.endAddr)) :
    fetchWindow b pc = .error (.bus pc 1 .fetch) := by
  unfold fetchWindow
  cases h' : b.regionFor pc 1 with
  | none => rfl
  | some q =>
    obtain ⟨hq, hc⟩ := Bus.regionFor_some h'
    simp only [Region.contains, Bool.and_eq_true, decide_eq_true_eq] at hc
    exact absurd ⟨by simpa [BitVec.le_def] using hc.1, by simp [BitVec.lt_def]; omega⟩ (h q hq)

/-! ## step -/

theorem step_window {s : State} {w : List Byte} (h : fetchWindow s.bus s.rip = .ok w) :
    step s = match decodeRow w with
    | .truncated => .fault (.decodeFault s.rip s)
    | .noRow => runInvalid s
    | .row i => finishStep s.rip i.length (exec i s) := by
  simp only [step, h] <;> rfl

theorem step_fetch_error {s : State} {e : AccessError} (h : fetchWindow s.bus s.rip = .error e) :
    step s = raiseAccess e s := by
  simp only [step, h]

theorem finishStep_next {pc : Word} {n : Nat} {r : Result} {t : State} (h : finishStep pc n r = .next t) :
    ∃ u, r = .next u ∧ t = advance pc n u := by
  cases r <;> simp [finishStep] at h ⊢
  exact h.symm

theorem finishStep_fault {pc : Word} {n : Nat} {r : Result} {f : Fault} :
    finishStep pc n r = .fault f ↔ r = .fault f := by
  cases r <;> simp [finishStep]

theorem advance_cases (pc : Word) (n : Nat) (u : State) :
    advance pc n u = u ∨ advance pc n u = u.setRip (pc + BitVec.ofNat 64 n) := by
  unfold advance; split
  · exact .inr rfl
  · exact .inl rfl

/-- What a step that goes on was. -/
theorem step_next {s t : State} (h : step s = .next t) :
    ∃ w i u, fetchWindow s.bus s.rip = .ok w ∧ decodeRow w = .row i ∧ exec i s = .next u ∧
      t = advance s.rip i.length u := by
  rcases fetchWindow_cases s.bus s.rip with ⟨w, hw⟩ | hw
  · rw [step_window hw] at h
    cases hd : decodeRow w <;> rw [hd] at h <;> simp only [runInvalid, reduceCtorEq] at h
    obtain ⟨u, h1, h2⟩ := finishStep_next h
    exact ⟨w, _, u, hw, hd, h1, h2⟩
  · rw [step_fetch_error hw] at h
    simp [raiseAccess] at h

/-- What a step that faults was. -/
theorem step_fault {s : State} {f : Fault} (h : step s = .fault f) :
    f.left = s ∨ ∃ w i, fetchWindow s.bus s.rip = .ok w ∧ decodeRow w = .row i ∧ exec i s = .fault f := by
  rcases fetchWindow_cases s.bus s.rip with ⟨w, hw⟩ | hw
  · rw [step_window hw] at h
    cases hd : decodeRow w <;> rw [hd] at h
    · exact .inr ⟨w, _, hw, hd, finishStep_fault.1 h⟩
    · simp only [runInvalid, Host.Outcome.fault.injEq] at h; subst h; exact .inl rfl
    · simp only [Host.Outcome.fault.injEq] at h; subst h; exact .inl rfl
  · rw [step_fetch_error hw] at h
    simp only [raiseAccess, Host.Outcome.fault.injEq] at h; subst h; exact .inl rfl

end Sys2Proof.Machine
end

