-- ==== Sys2Proof/Laws/Faults.lean ====
section
/-! SUPPORT. Where an instruction faults: an operand in memory that cannot be accessed. -/

namespace Sys2Proof.Machine

/-- At most one operand of an instruction is in memory. -/
def oneMem : InstructionType → Prop
  | .add d s => ∀ m m', d = .mem m → s ≠ .mem m'
  | .adc d s => ∀ m m', d = .mem m → s ≠ .mem m'
  | .sub d s => ∀ m m', d = .mem m → s ≠ .mem m'
  | .cmp d s => ∀ m m', d = .mem m → s ≠ .mem m'
  | .test d s => ∀ m m', d = .mem m → s ≠ .mem m'
  | .xor d s => ∀ m m', d = .mem m → s ≠ .mem m'
  | .mov d s => ∀ m m', d = .mem m → s ≠ .mem m'
  | .movzx d s => ∀ m m', d = .mem m → s ≠ .mem m'
  | _ => True

theorem Instr.kind_oneMem (i : Instr) (a : Word) : oneMem (i.kind a) := by
  cases i <;> simp only [Instr.kind, oneMem, regOperand, opregOperand] <;> intro m m' <;> simp

variable {i : Instr} {s : State} {m : MemOperand} {w : Width}

/-- An instruction that begins by reading the operand. -/
theorem faultsOn_first (hf : m.size = w) {go : BitVec w.bits → Result}
    (h : exec i s = access (readOp i.length w (.mem m) s) s go) : faultsOn i .read m s s := by
  subst hf
  refine ⟨fun g hg hs => ?_, fun h1 h2 hm => ?_⟩
  · rw [h, readOp_segment rfl hg hs]; rfl
  · rw [h, readOp_unmapped h1 h2 hm]; rfl

/-- An operand that is not in memory is read without a fault. -/
theorem readOp_total {len : Nat} {o : Operand} (hf : fits w o) (hm : ∀ m, o ≠ .mem m) : ∃ v, readOp len w o s = .ok v := by
  cases o with
  | reg r => simp only [fits] at hf; subst hf; exact ⟨s.regRead r, by simp [readOp]⟩
  | imm v => exact ⟨_, rfl⟩
  | mem m => exact absurd rfl (hm m)

/-- An instruction that reads another operand first, one that is not in memory. -/
theorem faultsOn_second {d : Operand} (hd : fits w d) (hn : ∀ m', d ≠ .mem m') (hf : m.size = w)
    {go : BitVec w.bits → BitVec w.bits → Result}
    (h : exec i s = access (readOp i.length w d s) s fun a => access (readOp i.length w (.mem m) s) s (go a)) :
    faultsOn i .read m s s := by
  obtain ⟨v, hv⟩ := readOp_total (s := s) (len := i.length) hd hn
  rw [hv, access_ok] at h
  exact faultsOn_first hf h

/-- A store through an operand that cannot be accessed. -/
theorem writeOp_unmapped {len : Nat} (v : BitVec m.size.bits) (h1 : m.segment ≠ some .fs) (h2 : m.segment ≠ some .gs)
    (h : ¬ mapped s (ea0 len m s) m.size.bytes) :
    writeOp len m.size (.mem m) v s = .error (.bus (ea0 len m s) m.size.bytes .write) := by
  simp [writeOp, ea_ok h1 h2, Except.bind, memWrite_unmapped v h]

theorem ea_segment {len : Nat} {g : Seg} (hg : m.segment = some g) (h : g = .fs ∨ g = .gs) :
    ea len m s = .error (.segment g) := by
  unfold ea; rcases h with rfl | rfl <;> simp [hg]

/-- A push whose slot is unmapped. -/
theorem pushWord_unmapped {v : Word} {go : State → Result} (h : ¬ mapped s (s.reg rsp - 8) 8) :
    pushWord v s go = .fault (.busFault (s.reg rsp - 8) 8 .write s) := by
  have h' : ¬ mapped s (s.reg rsp - slotBytes) Width.w64.bytes := h
  unfold pushWord
  dsimp only
  rw [memWrite_unmapped v h']
  rfl

end Sys2Proof.Machine
end

