-- ==== Sys2Proof/Laws/Host.lean ====
section
/-! SUPPORT. What adding a region to a bus answers (20_memory.md R79). -/

namespace Sys2Proof.Machine

/-- Everything an added region did. -/
theorem busAdd_some {b b' : Bus} {x : RegionInit} (h : busAdd b x = some b') :
    x.region.startAddr.toNat + x.bytes.length = x.region.endAddr.toNat ∧
      (∀ r ∈ b.regions, r.disjoint x.region = true) ∧
      b' = ⟨b.regions ++ [x.region], Memory.writeAll b.cells x.region.startAddr.toNat x.bytes⟩ := by
  unfold busAdd at h
  split at h
  · rename_i hc
    simp only [Option.some.injEq] at h
    exact ⟨hc.1, by simpa [List.all_eq_true] using hc.2, h.symm⟩
  · simp at h

/-- A region whose content fills its range and that is disjoint from the others is accepted. -/
theorem busAdd_accepts {b : Bus} {x : RegionInit}
    (hl : x.region.startAddr.toNat + x.bytes.length = x.region.endAddr.toNat)
    (hd : ∀ r ∈ b.regions, r.disjoint x.region = true) :
    busAdd b x = some ⟨b.regions ++ [x.region], Memory.writeAll b.cells x.region.startAddr.toNat x.bytes⟩ := by
  unfold busAdd
  rw [if_pos ⟨hl, by simpa [List.all_eq_true] using hd⟩]

/-- Two regions are disjoint when one ends before the other starts. -/
theorem Region.disjoint_iff (r s : Region) :
    r.disjoint s = true ↔ r.endAddr ≤ s.startAddr ∨ s.endAddr ≤ r.startAddr := by
  simp [Region.disjoint, BitVec.le_def]

/-- A bus grows within its invariant. -/
theorem busAdd_wf {b b' : Bus} {x : RegionInit} (hb : b.wf = true) (h : busAdd b x = some b') : b'.wf = true := by
  obtain ⟨h1, h2, rfl⟩ := busAdd_some h
  simp only [Bus.wf, Bool.and_eq_true, decide_eq_true_eq, List.all_eq_true, List.any_eq_true] at hb ⊢
  obtain ⟨⟨⟨w1, w2⟩, w3⟩, w4⟩ := hb
  refine ⟨⟨⟨?_, ?_⟩, Memory.writeAll_wf _ w3 _⟩, ?_⟩
  · intro r hr
    rw [List.mem_append, List.mem_singleton] at hr
    rcases hr with hr | rfl
    · exact w1 r hr
    · omega
  · rw [List.pairwise_append]
    exact ⟨w2, List.pairwise_singleton _ _, fun r hr q hq => by rw [List.mem_singleton] at hq; subst hq; exact h2 r hr⟩
  · intro c hc
    rcases Memory.mem_writeAll _ hc with hc | hc
    · exact ⟨x.region, by simp, by omega, by omega⟩
    · obtain ⟨r, hr, h⟩ := w4 c hc
      exact ⟨r, by simp [hr], h⟩

end Sys2Proof.Machine
end

