-- ==== Sys2Proof/Laws/PerInstr.lean ====
section
/-! SUPPORT. Facts stated once for each instruction as syntax. -/

namespace Sys2Proof.Laws.RoundTrip

/-- Assembling the row and the parts of an instruction gives it back: no field is dropped or swapped. -/
def Statement (i : Instr) : Prop := i.row.assemble i.pieces = some i

end Sys2Proof.Laws.RoundTrip

theorem Sys2Proof.Laws.RoundTrip.addRm8R8 (p : Sys2Proof.Prefixes) (reg : BitVec 3) (rm : Sys2Proof.Rm) :
    Sys2Proof.Laws.RoundTrip.Statement (.addRm8R8 p reg rm) := rfl
theorem Sys2Proof.Laws.RoundTrip.addRmR (p : Sys2Proof.Prefixes) (reg : BitVec 3) (rm : Sys2Proof.Rm) :
    Sys2Proof.Laws.RoundTrip.Statement (.addRmR p reg rm) := rfl
theorem Sys2Proof.Laws.RoundTrip.addR8Rm8 (p : Sys2Proof.Prefixes) (reg : BitVec 3) (rm : Sys2Proof.Rm) :
    Sys2Proof.Laws.RoundTrip.Statement (.addR8Rm8 p reg rm) := rfl
theorem Sys2Proof.Laws.RoundTrip.addRRm (p : Sys2Proof.Prefixes) (reg : BitVec 3) (rm : Sys2Proof.Rm) :
    Sys2Proof.Laws.RoundTrip.Statement (.addRRm p reg rm) := rfl
theorem Sys2Proof.Laws.RoundTrip.addAlImm8 (p : Sys2Proof.Prefixes) (imm : BitVec 8) :
    Sys2Proof.Laws.RoundTrip.Statement (.addAlImm8 p imm) := rfl
theorem Sys2Proof.Laws.RoundTrip.addAccImm (p : Sys2Proof.Prefixes) (imm : Sys2Proof.ImmZ) :
    Sys2Proof.Laws.RoundTrip.Statement (.addAccImm p imm) := by cases imm <;> rfl
theorem Sys2Proof.Laws.RoundTrip.addRm8Imm8 (p : Sys2Proof.Prefixes) (rm : Sys2Proof.Rm) (imm : BitVec 8) :
    Sys2Proof.Laws.RoundTrip.Statement (.addRm8Imm8 p rm imm) := rfl
theorem Sys2Proof.Laws.RoundTrip.addRmImm (p : Sys2Proof.Prefixes) (rm : Sys2Proof.Rm) (imm : Sys2Proof.ImmZ) :
    Sys2Proof.Laws.RoundTrip.Statement (.addRmImm p rm imm) := by cases imm <;> rfl
theorem Sys2Proof.Laws.RoundTrip.addRmImm8 (p : Sys2Proof.Prefixes) (rm : Sys2Proof.Rm) (imm : BitVec 8) :
    Sys2Proof.Laws.RoundTrip.Statement (.addRmImm8 p rm imm) := rfl
theorem Sys2Proof.Laws.RoundTrip.adcRm8R8 (p : Sys2Proof.Prefixes) (reg : BitVec 3) (rm : Sys2Proof.Rm) :
    Sys2Proof.Laws.RoundTrip.Statement (.adcRm8R8 p reg rm) := rfl
theorem Sys2Proof.Laws.RoundTrip.adcRmR (p : Sys2Proof.Prefixes) (reg : BitVec 3) (rm : Sys2Proof.Rm) :
    Sys2Proof.Laws.RoundTrip.Statement (.adcRmR p reg rm) := rfl
theorem Sys2Proof.Laws.RoundTrip.adcR8Rm8 (p : Sys2Proof.Prefixes) (reg : BitVec 3) (rm : Sys2Proof.Rm) :
    Sys2Proof.Laws.RoundTrip.Statement (.adcR8Rm8 p reg rm) := rfl
theorem Sys2Proof.Laws.RoundTrip.adcRRm (p : Sys2Proof.Prefixes) (reg : BitVec 3) (rm : Sys2Proof.Rm) :
    Sys2Proof.Laws.RoundTrip.Statement (.adcRRm p reg rm) := rfl
theorem Sys2Proof.Laws.RoundTrip.adcAlImm8 (p : Sys2Proof.Prefixes) (imm : BitVec 8) :
    Sys2Proof.Laws.RoundTrip.Statement (.adcAlImm8 p imm) := rfl
theorem Sys2Proof.Laws.RoundTrip.adcAccImm (p : Sys2Proof.Prefixes) (imm : Sys2Proof.ImmZ) :
    Sys2Proof.Laws.RoundTrip.Statement (.adcAccImm p imm) := by cases imm <;> rfl
theorem Sys2Proof.Laws.RoundTrip.adcRm8Imm8 (p : Sys2Proof.Prefixes) (rm : Sys2Proof.Rm) (imm : BitVec 8) :
    Sys2Proof.Laws.RoundTrip.Statement (.adcRm8Imm8 p rm imm) := rfl
theorem Sys2Proof.Laws.RoundTrip.adcRmImm (p : Sys2Proof.Prefixes) (rm : Sys2Proof.Rm) (imm : Sys2Proof.ImmZ) :
    Sys2Proof.Laws.RoundTrip.Statement (.adcRmImm p rm imm) := by cases imm <;> rfl
theorem Sys2Proof.Laws.RoundTrip.adcRmImm8 (p : Sys2Proof.Prefixes) (rm : Sys2Proof.Rm) (imm : BitVec 8) :
    Sys2Proof.Laws.RoundTrip.Statement (.adcRmImm8 p rm imm) := rfl
theorem Sys2Proof.Laws.RoundTrip.subRm8R8 (p : Sys2Proof.Prefixes) (reg : BitVec 3) (rm : Sys2Proof.Rm) :
    Sys2Proof.Laws.RoundTrip.Statement (.subRm8R8 p reg rm) := rfl
theorem Sys2Proof.Laws.RoundTrip.subRmR (p : Sys2Proof.Prefixes) (reg : BitVec 3) (rm : Sys2Proof.Rm) :
    Sys2Proof.Laws.RoundTrip.Statement (.subRmR p reg rm) := rfl
theorem Sys2Proof.Laws.RoundTrip.subR8Rm8 (p : Sys2Proof.Prefixes) (reg : BitVec 3) (rm : Sys2Proof.Rm) :
    Sys2Proof.Laws.RoundTrip.Statement (.subR8Rm8 p reg rm) := rfl
theorem Sys2Proof.Laws.RoundTrip.subRRm (p : Sys2Proof.Prefixes) (reg : BitVec 3) (rm : Sys2Proof.Rm) :
    Sys2Proof.Laws.RoundTrip.Statement (.subRRm p reg rm) := rfl
theorem Sys2Proof.Laws.RoundTrip.subAlImm8 (p : Sys2Proof.Prefixes) (imm : BitVec 8) :
    Sys2Proof.Laws.RoundTrip.Statement (.subAlImm8 p imm) := rfl
theorem Sys2Proof.Laws.RoundTrip.subAccImm (p : Sys2Proof.Prefixes) (imm : Sys2Proof.ImmZ) :
    Sys2Proof.Laws.RoundTrip.Statement (.subAccImm p imm) := by cases imm <;> rfl
theorem Sys2Proof.Laws.RoundTrip.subRm8Imm8 (p : Sys2Proof.Prefixes) (rm : Sys2Proof.Rm) (imm : BitVec 8) :
    Sys2Proof.Laws.RoundTrip.Statement (.subRm8Imm8 p rm imm) := rfl
theorem Sys2Proof.Laws.RoundTrip.subRmImm (p : Sys2Proof.Prefixes) (rm : Sys2Proof.Rm) (imm : Sys2Proof.ImmZ) :
    Sys2Proof.Laws.RoundTrip.Statement (.subRmImm p rm imm) := by cases imm <;> rfl
theorem Sys2Proof.Laws.RoundTrip.subRmImm8 (p : Sys2Proof.Prefixes) (rm : Sys2Proof.Rm) (imm : BitVec 8) :
    Sys2Proof.Laws.RoundTrip.Statement (.subRmImm8 p rm imm) := rfl
theorem Sys2Proof.Laws.RoundTrip.xorRm8R8 (p : Sys2Proof.Prefixes) (reg : BitVec 3) (rm : Sys2Proof.Rm) :
    Sys2Proof.Laws.RoundTrip.Statement (.xorRm8R8 p reg rm) := rfl
theorem Sys2Proof.Laws.RoundTrip.xorRmR (p : Sys2Proof.Prefixes) (reg : BitVec 3) (rm : Sys2Proof.Rm) :
    Sys2Proof.Laws.RoundTrip.Statement (.xorRmR p reg rm) := rfl
theorem Sys2Proof.Laws.RoundTrip.xorR8Rm8 (p : Sys2Proof.Prefixes) (reg : BitVec 3) (rm : Sys2Proof.Rm) :
    Sys2Proof.Laws.RoundTrip.Statement (.xorR8Rm8 p reg rm) := rfl
theorem Sys2Proof.Laws.RoundTrip.xorRRm (p : Sys2Proof.Prefixes) (reg : BitVec 3) (rm : Sys2Proof.Rm) :
    Sys2Proof.Laws.RoundTrip.Statement (.xorRRm p reg rm) := rfl
theorem Sys2Proof.Laws.RoundTrip.xorAlImm8 (p : Sys2Proof.Prefixes) (imm : BitVec 8) :
    Sys2Proof.Laws.RoundTrip.Statement (.xorAlImm8 p imm) := rfl
theorem Sys2Proof.Laws.RoundTrip.xorAccImm (p : Sys2Proof.Prefixes) (imm : Sys2Proof.ImmZ) :
    Sys2Proof.Laws.RoundTrip.Statement (.xorAccImm p imm) := by cases imm <;> rfl
theorem Sys2Proof.Laws.RoundTrip.xorRm8Imm8 (p : Sys2Proof.Prefixes) (rm : Sys2Proof.Rm) (imm : BitVec 8) :
    Sys2Proof.Laws.RoundTrip.Statement (.xorRm8Imm8 p rm imm) := rfl
theorem Sys2Proof.Laws.RoundTrip.xorRmImm (p : Sys2Proof.Prefixes) (rm : Sys2Proof.Rm) (imm : Sys2Proof.ImmZ) :
    Sys2Proof.Laws.RoundTrip.Statement (.xorRmImm p rm imm) := by cases imm <;> rfl
theorem Sys2Proof.Laws.RoundTrip.xorRmImm8 (p : Sys2Proof.Prefixes) (rm : Sys2Proof.Rm) (imm : BitVec 8) :
    Sys2Proof.Laws.RoundTrip.Statement (.xorRmImm8 p rm imm) := rfl
theorem Sys2Proof.Laws.RoundTrip.cmpRm8R8 (p : Sys2Proof.Prefixes) (reg : BitVec 3) (rm : Sys2Proof.Rm) :
    Sys2Proof.Laws.RoundTrip.Statement (.cmpRm8R8 p reg rm) := rfl
theorem Sys2Proof.Laws.RoundTrip.cmpRmR (p : Sys2Proof.Prefixes) (reg : BitVec 3) (rm : Sys2Proof.Rm) :
    Sys2Proof.Laws.RoundTrip.Statement (.cmpRmR p reg rm) := rfl
theorem Sys2Proof.Laws.RoundTrip.cmpR8Rm8 (p : Sys2Proof.Prefixes) (reg : BitVec 3) (rm : Sys2Proof.Rm) :
    Sys2Proof.Laws.RoundTrip.Statement (.cmpR8Rm8 p reg rm) := rfl
theorem Sys2Proof.Laws.RoundTrip.cmpRRm (p : Sys2Proof.Prefixes) (reg : BitVec 3) (rm : Sys2Proof.Rm) :
    Sys2Proof.Laws.RoundTrip.Statement (.cmpRRm p reg rm) := rfl
theorem Sys2Proof.Laws.RoundTrip.cmpAlImm8 (p : Sys2Proof.Prefixes) (imm : BitVec 8) :
    Sys2Proof.Laws.RoundTrip.Statement (.cmpAlImm8 p imm) := rfl
theorem Sys2Proof.Laws.RoundTrip.cmpAccImm (p : Sys2Proof.Prefixes) (imm : Sys2Proof.ImmZ) :
    Sys2Proof.Laws.RoundTrip.Statement (.cmpAccImm p imm) := by cases imm <;> rfl
theorem Sys2Proof.Laws.RoundTrip.cmpRm8Imm8 (p : Sys2Proof.Prefixes) (rm : Sys2Proof.Rm) (imm : BitVec 8) :
    Sys2Proof.Laws.RoundTrip.Statement (.cmpRm8Imm8 p rm imm) := rfl
theorem Sys2Proof.Laws.RoundTrip.cmpRmImm (p : Sys2Proof.Prefixes) (rm : Sys2Proof.Rm) (imm : Sys2Proof.ImmZ) :
    Sys2Proof.Laws.RoundTrip.Statement (.cmpRmImm p rm imm) := by cases imm <;> rfl
theorem Sys2Proof.Laws.RoundTrip.cmpRmImm8 (p : Sys2Proof.Prefixes) (rm : Sys2Proof.Rm) (imm : BitVec 8) :
    Sys2Proof.Laws.RoundTrip.Statement (.cmpRmImm8 p rm imm) := rfl
theorem Sys2Proof.Laws.RoundTrip.pushR64 (p : Sys2Proof.Prefixes) (opreg : BitVec 3) :
    Sys2Proof.Laws.RoundTrip.Statement (.pushR64 p opreg) := rfl
theorem Sys2Proof.Laws.RoundTrip.popR64 (p : Sys2Proof.Prefixes) (opreg : BitVec 3) :
    Sys2Proof.Laws.RoundTrip.Statement (.popR64 p opreg) := rfl
theorem Sys2Proof.Laws.RoundTrip.pushImm32 (p : Sys2Proof.Prefixes) (imm : BitVec 32) :
    Sys2Proof.Laws.RoundTrip.Statement (.pushImm32 p imm) := rfl
theorem Sys2Proof.Laws.RoundTrip.pushImm8 (p : Sys2Proof.Prefixes) (imm : BitVec 8) :
    Sys2Proof.Laws.RoundTrip.Statement (.pushImm8 p imm) := rfl
theorem Sys2Proof.Laws.RoundTrip.joRel8 (p : Sys2Proof.Prefixes) (rel : BitVec 8) :
    Sys2Proof.Laws.RoundTrip.Statement (.joRel8 p rel) := rfl
theorem Sys2Proof.Laws.RoundTrip.jnoRel8 (p : Sys2Proof.Prefixes) (rel : BitVec 8) :
    Sys2Proof.Laws.RoundTrip.Statement (.jnoRel8 p rel) := rfl
theorem Sys2Proof.Laws.RoundTrip.jbRel8 (p : Sys2Proof.Prefixes) (rel : BitVec 8) :
    Sys2Proof.Laws.RoundTrip.Statement (.jbRel8 p rel) := rfl
theorem Sys2Proof.Laws.RoundTrip.jaeRel8 (p : Sys2Proof.Prefixes) (rel : BitVec 8) :
    Sys2Proof.Laws.RoundTrip.Statement (.jaeRel8 p rel) := rfl
theorem Sys2Proof.Laws.RoundTrip.jeRel8 (p : Sys2Proof.Prefixes) (rel : BitVec 8) :
    Sys2Proof.Laws.RoundTrip.Statement (.jeRel8 p rel) := rfl
theorem Sys2Proof.Laws.RoundTrip.jneRel8 (p : Sys2Proof.Prefixes) (rel : BitVec 8) :
    Sys2Proof.Laws.RoundTrip.Statement (.jneRel8 p rel) := rfl
theorem Sys2Proof.Laws.RoundTrip.jbeRel8 (p : Sys2Proof.Prefixes) (rel : BitVec 8) :
    Sys2Proof.Laws.RoundTrip.Statement (.jbeRel8 p rel) := rfl
theorem Sys2Proof.Laws.RoundTrip.jaRel8 (p : Sys2Proof.Prefixes) (rel : BitVec 8) :
    Sys2Proof.Laws.RoundTrip.Statement (.jaRel8 p rel) := rfl
theorem Sys2Proof.Laws.RoundTrip.jsRel8 (p : Sys2Proof.Prefixes) (rel : BitVec 8) :
    Sys2Proof.Laws.RoundTrip.Statement (.jsRel8 p rel) := rfl
theorem Sys2Proof.Laws.RoundTrip.jnsRel8 (p : Sys2Proof.Prefixes) (rel : BitVec 8) :
    Sys2Proof.Laws.RoundTrip.Statement (.jnsRel8 p rel) := rfl
theorem Sys2Proof.Laws.RoundTrip.jpRel8 (p : Sys2Proof.Prefixes) (rel : BitVec 8) :
    Sys2Proof.Laws.RoundTrip.Statement (.jpRel8 p rel) := rfl
theorem Sys2Proof.Laws.RoundTrip.jnpRel8 (p : Sys2Proof.Prefixes) (rel : BitVec 8) :
    Sys2Proof.Laws.RoundTrip.Statement (.jnpRel8 p rel) := rfl
theorem Sys2Proof.Laws.RoundTrip.jlRel8 (p : Sys2Proof.Prefixes) (rel : BitVec 8) :
    Sys2Proof.Laws.RoundTrip.Statement (.jlRel8 p rel) := rfl
theorem Sys2Proof.Laws.RoundTrip.jgeRel8 (p : Sys2Proof.Prefixes) (rel : BitVec 8) :
    Sys2Proof.Laws.RoundTrip.Statement (.jgeRel8 p rel) := rfl
theorem Sys2Proof.Laws.RoundTrip.jleRel8 (p : Sys2Proof.Prefixes) (rel : BitVec 8) :
    Sys2Proof.Laws.RoundTrip.Statement (.jleRel8 p rel) := rfl
theorem Sys2Proof.Laws.RoundTrip.jgRel8 (p : Sys2Proof.Prefixes) (rel : BitVec 8) :
    Sys2Proof.Laws.RoundTrip.Statement (.jgRel8 p rel) := rfl
theorem Sys2Proof.Laws.RoundTrip.testRm8R8 (p : Sys2Proof.Prefixes) (reg : BitVec 3) (rm : Sys2Proof.Rm) :
    Sys2Proof.Laws.RoundTrip.Statement (.testRm8R8 p reg rm) := rfl
theorem Sys2Proof.Laws.RoundTrip.testRmR (p : Sys2Proof.Prefixes) (reg : BitVec 3) (rm : Sys2Proof.Rm) :
    Sys2Proof.Laws.RoundTrip.Statement (.testRmR p reg rm) := rfl
theorem Sys2Proof.Laws.RoundTrip.movRm8R8 (p : Sys2Proof.Prefixes) (reg : BitVec 3) (rm : Sys2Proof.Rm) :
    Sys2Proof.Laws.RoundTrip.Statement (.movRm8R8 p reg rm) := rfl
theorem Sys2Proof.Laws.RoundTrip.movRmR (p : Sys2Proof.Prefixes) (reg : BitVec 3) (rm : Sys2Proof.Rm) :
    Sys2Proof.Laws.RoundTrip.Statement (.movRmR p reg rm) := rfl
theorem Sys2Proof.Laws.RoundTrip.movR8Rm8 (p : Sys2Proof.Prefixes) (reg : BitVec 3) (rm : Sys2Proof.Rm) :
    Sys2Proof.Laws.RoundTrip.Statement (.movR8Rm8 p reg rm) := rfl
theorem Sys2Proof.Laws.RoundTrip.movRRm (p : Sys2Proof.Prefixes) (reg : BitVec 3) (rm : Sys2Proof.Rm) :
    Sys2Proof.Laws.RoundTrip.Statement (.movRRm p reg rm) := rfl
theorem Sys2Proof.Laws.RoundTrip.leaRM (p : Sys2Proof.Prefixes) (reg : BitVec 3) (rm : Sys2Proof.Rm) :
    Sys2Proof.Laws.RoundTrip.Statement (.leaRM p reg rm) := rfl
theorem Sys2Proof.Laws.RoundTrip.popRm64 (p : Sys2Proof.Prefixes) (rm : Sys2Proof.Rm) :
    Sys2Proof.Laws.RoundTrip.Statement (.popRm64 p rm) := rfl
theorem Sys2Proof.Laws.RoundTrip.nop (p : Sys2Proof.Prefixes) :
    Sys2Proof.Laws.RoundTrip.Statement (.nop p) := rfl
theorem Sys2Proof.Laws.RoundTrip.repMovsb (p : Sys2Proof.Prefixes) :
    Sys2Proof.Laws.RoundTrip.Statement (.repMovsb p) := rfl
theorem Sys2Proof.Laws.RoundTrip.testAlImm8 (p : Sys2Proof.Prefixes) (imm : BitVec 8) :
    Sys2Proof.Laws.RoundTrip.Statement (.testAlImm8 p imm) := rfl
theorem Sys2Proof.Laws.RoundTrip.testAccImm (p : Sys2Proof.Prefixes) (imm : Sys2Proof.ImmZ) :
    Sys2Proof.Laws.RoundTrip.Statement (.testAccImm p imm) := by cases imm <;> rfl
theorem Sys2Proof.Laws.RoundTrip.repStosb (p : Sys2Proof.Prefixes) :
    Sys2Proof.Laws.RoundTrip.Statement (.repStosb p) := rfl
theorem Sys2Proof.Laws.RoundTrip.repLodsb (p : Sys2Proof.Prefixes) :
    Sys2Proof.Laws.RoundTrip.Statement (.repLodsb p) := rfl
theorem Sys2Proof.Laws.RoundTrip.repeScasb (p : Sys2Proof.Prefixes) :
    Sys2Proof.Laws.RoundTrip.Statement (.repeScasb p) := rfl
theorem Sys2Proof.Laws.RoundTrip.movR8Imm8 (p : Sys2Proof.Prefixes) (opreg : BitVec 3) (imm : BitVec 8) :
    Sys2Proof.Laws.RoundTrip.Statement (.movR8Imm8 p opreg imm) := rfl
theorem Sys2Proof.Laws.RoundTrip.movRImm (p : Sys2Proof.Prefixes) (opreg : BitVec 3) (imm : Sys2Proof.ImmV) :
    Sys2Proof.Laws.RoundTrip.Statement (.movRImm p opreg imm) := by cases imm <;> rfl
theorem Sys2Proof.Laws.RoundTrip.shlRm8Imm8 (p : Sys2Proof.Prefixes) (rm : Sys2Proof.Rm) (imm : BitVec 8) :
    Sys2Proof.Laws.RoundTrip.Statement (.shlRm8Imm8 p rm imm) := rfl
theorem Sys2Proof.Laws.RoundTrip.shrRm8Imm8 (p : Sys2Proof.Prefixes) (rm : Sys2Proof.Rm) (imm : BitVec 8) :
    Sys2Proof.Laws.RoundTrip.Statement (.shrRm8Imm8 p rm imm) := rfl
theorem Sys2Proof.Laws.RoundTrip.shlRmImm8 (p : Sys2Proof.Prefixes) (rm : Sys2Proof.Rm) (imm : BitVec 8) :
    Sys2Proof.Laws.RoundTrip.Statement (.shlRmImm8 p rm imm) := rfl
theorem Sys2Proof.Laws.RoundTrip.shrRmImm8 (p : Sys2Proof.Prefixes) (rm : Sys2Proof.Rm) (imm : BitVec 8) :
    Sys2Proof.Laws.RoundTrip.Statement (.shrRmImm8 p rm imm) := rfl
theorem Sys2Proof.Laws.RoundTrip.ret (p : Sys2Proof.Prefixes) :
    Sys2Proof.Laws.RoundTrip.Statement (.ret p) := rfl
theorem Sys2Proof.Laws.RoundTrip.movRm8Imm8 (p : Sys2Proof.Prefixes) (rm : Sys2Proof.Rm) (imm : BitVec 8) :
    Sys2Proof.Laws.RoundTrip.Statement (.movRm8Imm8 p rm imm) := rfl
theorem Sys2Proof.Laws.RoundTrip.movRmImm (p : Sys2Proof.Prefixes) (rm : Sys2Proof.Rm) (imm : Sys2Proof.ImmZ) :
    Sys2Proof.Laws.RoundTrip.Statement (.movRmImm p rm imm) := by cases imm <;> rfl
theorem Sys2Proof.Laws.RoundTrip.leave (p : Sys2Proof.Prefixes) :
    Sys2Proof.Laws.RoundTrip.Statement (.leave p) := rfl
theorem Sys2Proof.Laws.RoundTrip.int3 (p : Sys2Proof.Prefixes) :
    Sys2Proof.Laws.RoundTrip.Statement (.int3 p) := rfl
theorem Sys2Proof.Laws.RoundTrip.shlRm8One (p : Sys2Proof.Prefixes) (rm : Sys2Proof.Rm) :
    Sys2Proof.Laws.RoundTrip.Statement (.shlRm8One p rm) := rfl
theorem Sys2Proof.Laws.RoundTrip.shrRm8One (p : Sys2Proof.Prefixes) (rm : Sys2Proof.Rm) :
    Sys2Proof.Laws.RoundTrip.Statement (.shrRm8One p rm) := rfl
theorem Sys2Proof.Laws.RoundTrip.shlRmOne (p : Sys2Proof.Prefixes) (rm : Sys2Proof.Rm) :
    Sys2Proof.Laws.RoundTrip.Statement (.shlRmOne p rm) := rfl
theorem Sys2Proof.Laws.RoundTrip.shrRmOne (p : Sys2Proof.Prefixes) (rm : Sys2Proof.Rm) :
    Sys2Proof.Laws.RoundTrip.Statement (.shrRmOne p rm) := rfl
theorem Sys2Proof.Laws.RoundTrip.shlRm8Cl (p : Sys2Proof.Prefixes) (rm : Sys2Proof.Rm) :
    Sys2Proof.Laws.RoundTrip.Statement (.shlRm8Cl p rm) := rfl
theorem Sys2Proof.Laws.RoundTrip.shrRm8Cl (p : Sys2Proof.Prefixes) (rm : Sys2Proof.Rm) :
    Sys2Proof.Laws.RoundTrip.Statement (.shrRm8Cl p rm) := rfl
theorem Sys2Proof.Laws.RoundTrip.shlRmCl (p : Sys2Proof.Prefixes) (rm : Sys2Proof.Rm) :
    Sys2Proof.Laws.RoundTrip.Statement (.shlRmCl p rm) := rfl
theorem Sys2Proof.Laws.RoundTrip.shrRmCl (p : Sys2Proof.Prefixes) (rm : Sys2Proof.Rm) :
    Sys2Proof.Laws.RoundTrip.Statement (.shrRmCl p rm) := rfl
theorem Sys2Proof.Laws.RoundTrip.jrcxzRel8 (p : Sys2Proof.Prefixes) (rel : BitVec 8) :
    Sys2Proof.Laws.RoundTrip.Statement (.jrcxzRel8 p rel) := rfl
theorem Sys2Proof.Laws.RoundTrip.callRel32 (p : Sys2Proof.Prefixes) (rel : BitVec 32) :
    Sys2Proof.Laws.RoundTrip.Statement (.callRel32 p rel) := rfl
theorem Sys2Proof.Laws.RoundTrip.jmpRel32 (p : Sys2Proof.Prefixes) (rel : BitVec 32) :
    Sys2Proof.Laws.RoundTrip.Statement (.jmpRel32 p rel) := rfl
theorem Sys2Proof.Laws.RoundTrip.jmpRel8 (p : Sys2Proof.Prefixes) (rel : BitVec 8) :
    Sys2Proof.Laws.RoundTrip.Statement (.jmpRel8 p rel) := rfl
theorem Sys2Proof.Laws.RoundTrip.testRm8Imm8 (p : Sys2Proof.Prefixes) (rm : Sys2Proof.Rm) (imm : BitVec 8) :
    Sys2Proof.Laws.RoundTrip.Statement (.testRm8Imm8 p rm imm) := rfl
theorem Sys2Proof.Laws.RoundTrip.testRmImm (p : Sys2Proof.Prefixes) (rm : Sys2Proof.Rm) (imm : Sys2Proof.ImmZ) :
    Sys2Proof.Laws.RoundTrip.Statement (.testRmImm p rm imm) := by cases imm <;> rfl
theorem Sys2Proof.Laws.RoundTrip.cld (p : Sys2Proof.Prefixes) :
    Sys2Proof.Laws.RoundTrip.Statement (.cld p) := rfl
theorem Sys2Proof.Laws.RoundTrip.incRm8 (p : Sys2Proof.Prefixes) (rm : Sys2Proof.Rm) :
    Sys2Proof.Laws.RoundTrip.Statement (.incRm8 p rm) := rfl
theorem Sys2Proof.Laws.RoundTrip.decRm8 (p : Sys2Proof.Prefixes) (rm : Sys2Proof.Rm) :
    Sys2Proof.Laws.RoundTrip.Statement (.decRm8 p rm) := rfl
theorem Sys2Proof.Laws.RoundTrip.incRm (p : Sys2Proof.Prefixes) (rm : Sys2Proof.Rm) :
    Sys2Proof.Laws.RoundTrip.Statement (.incRm p rm) := rfl
theorem Sys2Proof.Laws.RoundTrip.decRm (p : Sys2Proof.Prefixes) (rm : Sys2Proof.Rm) :
    Sys2Proof.Laws.RoundTrip.Statement (.decRm p rm) := rfl
theorem Sys2Proof.Laws.RoundTrip.callRm64 (p : Sys2Proof.Prefixes) (rm : Sys2Proof.Rm) :
    Sys2Proof.Laws.RoundTrip.Statement (.callRm64 p rm) := rfl
theorem Sys2Proof.Laws.RoundTrip.jmpRm64 (p : Sys2Proof.Prefixes) (rm : Sys2Proof.Rm) :
    Sys2Proof.Laws.RoundTrip.Statement (.jmpRm64 p rm) := rfl
theorem Sys2Proof.Laws.RoundTrip.pushRm64 (p : Sys2Proof.Prefixes) (rm : Sys2Proof.Rm) :
    Sys2Proof.Laws.RoundTrip.Statement (.pushRm64 p rm) := rfl
theorem Sys2Proof.Laws.RoundTrip.nopRm (p : Sys2Proof.Prefixes) (rm : Sys2Proof.Rm) :
    Sys2Proof.Laws.RoundTrip.Statement (.nopRm p rm) := rfl
theorem Sys2Proof.Laws.RoundTrip.joRel32 (p : Sys2Proof.Prefixes) (rel : BitVec 32) :
    Sys2Proof.Laws.RoundTrip.Statement (.joRel32 p rel) := rfl
theorem Sys2Proof.Laws.RoundTrip.jnoRel32 (p : Sys2Proof.Prefixes) (rel : BitVec 32) :
    Sys2Proof.Laws.RoundTrip.Statement (.jnoRel32 p rel) := rfl
theorem Sys2Proof.Laws.RoundTrip.jbRel32 (p : Sys2Proof.Prefixes) (rel : BitVec 32) :
    Sys2Proof.Laws.RoundTrip.Statement (.jbRel32 p rel) := rfl
theorem Sys2Proof.Laws.RoundTrip.jaeRel32 (p : Sys2Proof.Prefixes) (rel : BitVec 32) :
    Sys2Proof.Laws.RoundTrip.Statement (.jaeRel32 p rel) := rfl
theorem Sys2Proof.Laws.RoundTrip.jeRel32 (p : Sys2Proof.Prefixes) (rel : BitVec 32) :
    Sys2Proof.Laws.RoundTrip.Statement (.jeRel32 p rel) := rfl
theorem Sys2Proof.Laws.RoundTrip.jneRel32 (p : Sys2Proof.Prefixes) (rel : BitVec 32) :
    Sys2Proof.Laws.RoundTrip.Statement (.jneRel32 p rel) := rfl
theorem Sys2Proof.Laws.RoundTrip.jbeRel32 (p : Sys2Proof.Prefixes) (rel : BitVec 32) :
    Sys2Proof.Laws.RoundTrip.Statement (.jbeRel32 p rel) := rfl
theorem Sys2Proof.Laws.RoundTrip.jaRel32 (p : Sys2Proof.Prefixes) (rel : BitVec 32) :
    Sys2Proof.Laws.RoundTrip.Statement (.jaRel32 p rel) := rfl
theorem Sys2Proof.Laws.RoundTrip.jsRel32 (p : Sys2Proof.Prefixes) (rel : BitVec 32) :
    Sys2Proof.Laws.RoundTrip.Statement (.jsRel32 p rel) := rfl
theorem Sys2Proof.Laws.RoundTrip.jnsRel32 (p : Sys2Proof.Prefixes) (rel : BitVec 32) :
    Sys2Proof.Laws.RoundTrip.Statement (.jnsRel32 p rel) := rfl
theorem Sys2Proof.Laws.RoundTrip.jpRel32 (p : Sys2Proof.Prefixes) (rel : BitVec 32) :
    Sys2Proof.Laws.RoundTrip.Statement (.jpRel32 p rel) := rfl
theorem Sys2Proof.Laws.RoundTrip.jnpRel32 (p : Sys2Proof.Prefixes) (rel : BitVec 32) :
    Sys2Proof.Laws.RoundTrip.Statement (.jnpRel32 p rel) := rfl
theorem Sys2Proof.Laws.RoundTrip.jlRel32 (p : Sys2Proof.Prefixes) (rel : BitVec 32) :
    Sys2Proof.Laws.RoundTrip.Statement (.jlRel32 p rel) := rfl
theorem Sys2Proof.Laws.RoundTrip.jgeRel32 (p : Sys2Proof.Prefixes) (rel : BitVec 32) :
    Sys2Proof.Laws.RoundTrip.Statement (.jgeRel32 p rel) := rfl
theorem Sys2Proof.Laws.RoundTrip.jleRel32 (p : Sys2Proof.Prefixes) (rel : BitVec 32) :
    Sys2Proof.Laws.RoundTrip.Statement (.jleRel32 p rel) := rfl
theorem Sys2Proof.Laws.RoundTrip.jgRel32 (p : Sys2Proof.Prefixes) (rel : BitVec 32) :
    Sys2Proof.Laws.RoundTrip.Statement (.jgRel32 p rel) := rfl
theorem Sys2Proof.Laws.RoundTrip.movzxRRm8 (p : Sys2Proof.Prefixes) (reg : BitVec 3) (rm : Sys2Proof.Rm) :
    Sys2Proof.Laws.RoundTrip.Statement (.movzxRRm8 p reg rm) := rfl
theorem Sys2Proof.Laws.RoundTrip.movzxRRm16 (p : Sys2Proof.Prefixes) (reg : BitVec 3) (rm : Sys2Proof.Rm) :
    Sys2Proof.Laws.RoundTrip.Statement (.movzxRRm16 p reg rm) := rfl
end

