-- ==== Sys2Proof/Laws/Rows.lean ====
section
/-! SUPPORT. How the decoder finds the row an instruction was encoded from, and what a finished parse says of its bytes. -/

namespace Sys2Proof

/-- Assembling the row and the parts of an instruction gives it back. -/
theorem Instr.assemble_pieces (i : Instr) : i.row.assemble i.pieces = some i := by
  cases i <;> first | rfl | (rename_i v; cases v <;> rfl)

/-! ## Encoding, then parsing -/

/-- The opcode bytes of a row read back. -/
theorem takeOpcode_row (r : Row) (opreg : BitVec 3) (h : r.info.mask ≠ 0xF8 → opreg = 0) (rest : List Byte) :
    takeOpcode (r.info.opcodeBytes opreg ++ rest) = .ok (r.info.map, r.info.opcodeByte opreg, rest) := by
  have hc := Row.check_ok r opreg h
  simp only [Row.check, Bool.and_eq_true] at hc
  unfold RowInfo.opcodeBytes
  cases hm : r.info.map with
  | oneByte =>
    rw [hm] at hc
    have h0 : r.info.opcodeByte opreg ≠ 0x0F#8 := by
      have := hc.1.1.2
      simp only [Bool.and_eq_true, bne_iff_ne] at this
      exact this.2
    simp only [RowInfo.opcodeByte] at h0 ⊢
    simp [OpMap.escape, takeOpcode, nextByte, h0, bind, Except.bind, pure, Except.pure]
  | twoByte => simp [OpMap.escape, takeOpcode, nextByte, RowInfo.opcodeByte, bind, Except.bind, pure, Except.pure]

/-- The first opcode byte of a row is no prefix. -/
theorem opcode_first (r : Row) (opreg : BitVec 3) (h : r.info.mask ≠ 0xF8 → opreg = 0) :
    ∃ b tl, r.info.opcodeBytes opreg = b :: tl ∧ LegacyPrefix.ofByte b = none ∧ Rex.ofByte b = none := by
  have hc := Row.check_ok r opreg h
  simp only [Row.check, Bool.and_eq_true] at hc
  unfold RowInfo.opcodeBytes
  cases hm : r.info.map with
  | oneByte =>
    rw [hm] at hc
    have := hc.1.1.2
    simp only [Bool.and_eq_true, beq_iff_eq] at this
    exact ⟨_, _, rfl, this.1.1, this.1.2⟩
  | twoByte => exact ⟨_, _, rfl, rfl, rfl⟩

/-- What the digit and mod columns ask of a ModRM byte (R94). -/
theorem modrmMatches_iff (r : RowInfo) (b : Byte) : r.modrmMatches b = true ↔
    (∀ d, r.digit = some d → (b.extractLsb' 3 3 : BitVec 3).toNat = d) ∧
      (r.memOnly = true → (b.extractLsb' 6 2 : BitVec 2) ≠ 3) := by
  unfold RowInfo.modrmMatches
  cases r.digit <;> cases r.memOnly <;> simp

/-- Among the rows of an opcode, a test that a row meets and rows of another digit fail finds that row. -/
theorem find_row (r : Row) (opreg : BitVec 3) (h : r.info.mask ≠ 0xF8 → opreg = 0) (P : Row → Bool)
    (hP : P r = true)
    (hQ : ∀ x, r.info.digit.isSome → x.info.digit.isSome → x.info.digit ≠ r.info.digit → P x = false) :
    (Row.candidates r.info.map (r.info.opcodeByte opreg)).find? P = some r := by
  have hc := Row.check_ok r opreg h
  simp only [Row.check, Bool.and_eq_true, List.all_eq_true] at hc
  obtain ⟨⟨⟨⟨hm, ha⟩, -⟩, -⟩, -⟩ := hc
  have hex : ((Row.candidates r.info.map (r.info.opcodeByte opreg)).find? P).isSome = true := by
    rw [List.find?_isSome]
    exact ⟨r, by simpa using hm, hP⟩
  obtain ⟨x, hx⟩ := Option.isSome_iff_exists.1 hex
  rw [hx]
  have hxm := List.mem_of_find?_eq_some hx
  have hxP := List.find?_some hx
  have := ha x hxm
  simp only [Bool.or_eq_true, beq_iff_eq, Bool.and_eq_true, bne_iff_ne] at this
  rcases this.2 with rfl | ⟨⟨⟨h1, h2⟩, h3⟩, -⟩
  · rfl
  · rw [hQ x h1 h2 h3] at hxP; simp at hxP

/-- The rows of an opcode agree on having a ModRM byte. -/
theorem cand_cons (r : Row) (opreg : BitVec 3) (h : r.info.mask ≠ 0xF8 → opreg = 0) :
    ∃ x xs, Row.candidates r.info.map (r.info.opcodeByte opreg) = x :: xs ∧ x.info.modrm = r.info.modrm := by
  have hc := Row.check_ok r opreg h
  simp only [Row.check, Bool.and_eq_true, List.all_eq_true] at hc
  obtain ⟨⟨⟨⟨hm, ha⟩, -⟩, -⟩, -⟩ := hc
  cases hl : Row.candidates r.info.map (r.info.opcodeByte opreg) with
  | nil => rw [hl] at hm; simp at hm
  | cons x xs =>
    have := ha x (by rw [hl]; simp)
    simp only [beq_iff_eq] at this
    exact ⟨x, xs, rfl, this.1⟩

/-- The rest of the parse gives back the instruction whose bytes it reads. -/
theorem finishParse_ok (i : Instr) (hi : i.row.info.immOk i.pieces.prefixes i.pieces.imm = true)
    (h : i.row.info.rmOk i.pieces.rm = true) (rest : List Byte) :
    let p := i.pieces.prefixes
    let op := i.row.info.opcodeByte i.pieces.opreg
    match i.pieces.rm with
    | none => finishParse p op i.row none (i.pieces.imm.bytes ++ rest) = .ok (i, rest)
    | some rm => ∃ b tl, rm.bytes (i.row.info.regField i.pieces.reg) = b :: tl ∧ i.row.info.modrmMatches b = true ∧
        (b.extractLsb' 3 3 : BitVec 3) = i.row.info.regField i.pieces.reg ∧
        finishParse p op i.row (some b) (tl ++ (i.pieces.imm.bytes ++ rest)) = .ok (i, rest) := by
  obtain ⟨h1, h2, h3⟩ := i.pieces_ok
  have ha := i.assemble_pieces
  have hreg : i.pieces.rm = none → i.pieces.reg = 0 := by
    cases i <;> intro h <;> first | rfl | cases h
  have hop : (if i.row.info.mask = 0xF8 then (i.row.info.opcodeByte i.pieces.opreg).extractLsb' 0 3 else 0) =
      i.pieces.opreg := by
    have hc := Row.check_ok i.row i.pieces.opreg h3
    simp only [Row.check, Bool.and_eq_true] at hc
    split
    · rename_i hm; have := hc.1.2; rw [if_pos hm] at this; simpa using this
    · rename_i hm; exact (h3 hm).symm
  have hdig : ∀ d, i.row.info.digit = some d → d < 8 := by
    have hc := Row.check_ok i.row i.pieces.opreg h3
    simp only [Row.check, Bool.and_eq_true] at hc
    intro d hd
    have := hc.2
    rw [hd] at this
    simpa using this
  generalize hq : i.pieces = q at *
  obtain ⟨p, opreg, reg, rm, imm⟩ := q
  cases rm with
  | none =>
    simp only at *
    simp only [finishParse, takeModrm, bind, Except.bind, takeImm_bytes hi, hop]
    rw [hreg trivial] at ha
    simp only [ha]
    rfl
  | some rm =>
    simp only at *
    have hwf : rm.wf = true := by
      cases rm <;> simp_all [RowInfo.rmOk, Rm.wf]
    obtain ⟨b, tl, hb, hf, hmod, ht⟩ := takeRm_bytes hwf (i.row.info.regField reg) (imm.bytes ++ rest)
    refine ⟨b, tl, hb, ?_, hf, ?_⟩
    · rw [modrmMatches_iff]
      refine ⟨?_, ?_⟩
      · intro d hd
        rw [hf, RowInfo.regField, hd]
        have := hdig d hd
        simp; omega
      · intro hmo h3'
        obtain ⟨r, rfl⟩ := hmod.1 h3'
        simp [RowInfo.rmOk, hmo] at h
    · simp only [finishParse, takeModrm, pure, Except.pure, ht, bind, Except.bind, takeImm_bytes hi, hop]
      have : (if i.row.info.digit.isSome = true then 0 else b.extractLsb' 3 3) = reg := by
        split
        · rename_i hd; exact (h2 hd).symm
        · rename_i hd
          rw [hf, RowInfo.regField]
          cases hdd : i.row.info.digit with
          | none => rfl
          | some d => simp [hdd] at hd
      rw [this]
      simp only [ha]

/-- Parsing the bytes of a well-formed instruction gives it back and leaves what follows. -/
theorem parse_encode (i : Instr) (h : i.wf = true) (rest : List Byte) :
    parse (encode i ++ rest) = .ok (i, rest) := by
  simp only [Instr.wf, Bool.and_eq_true] at h
  obtain ⟨⟨⟨hp, hrm⟩, him⟩, -⟩ := h
  obtain ⟨h1, h2, h3⟩ := i.pieces_ok
  obtain ⟨b, tl, hb, hb1, hb2⟩ := opcode_first i.row i.pieces.opreg h3
  have hto := takeOpcode_row i.row i.pieces.opreg h3
  obtain ⟨x, xs, hcand, hxm⟩ := cand_cons i.row i.pieces.opreg h3
  have hfin := finishParse_ok i him hrm rest
  unfold parse encode encodePieces
  rw [show i.pieces.prefixes.bytes ++ i.row.info.opcodeBytes i.pieces.opreg ++
      i.row.info.rmBytes i.pieces.reg i.pieces.rm ++
      i.pieces.imm.bytes ++ rest = i.pieces.prefixes.bytes ++ b :: (tl ++ (i.row.info.rmBytes i.pieces.reg i.pieces.rm ++
      (i.pieces.imm.bytes ++ rest))) by rw [hb]; simp]
  simp only [takePrefixes_bytes _ _ hb1 hb2]
  rw [← List.cons_append, ← hb, hto]
  simp only [bind, Except.bind, hcand]
  rw [hxm, ← h1]
  cases hrmq : i.pieces.rm with
  | none =>
    rw [hrmq] at hfin
    simp only [Option.isSome_none, Bool.false_eq_true, if_false, RowInfo.rmBytes, List.nil_append]
    rw [← hcand, find_row i.row i.pieces.opreg h3 _ hp]
    · exact hfin
    · intro x hd
      rw [hrmq] at h1
      have : i.row.info.digit.isSome = true → i.row.info.modrm = true := by
        generalize i.row = r; cases r <;> simp [Row.info]
      rw [← h1] at this
      exact absurd (this hd) (by simp)
  | some rm =>
    rw [hrmq] at hfin
    obtain ⟨c, tl2, hc, hmm, hfield, hfin⟩ := hfin
    simp only [Option.isSome_some, if_true, RowInfo.rmBytes, hc, List.cons_append, nextByte]
    rw [← hcand, find_row i.row i.pieces.opreg h3 _ (by rw [hmm, hp]; rfl)]
    · exact hfin
    · intro x hd hxd hne
      have : x.info.modrmMatches c = false := by
        by_contra hcon
        rw [Bool.not_eq_false, modrmMatches_iff] at hcon
        rw [modrmMatches_iff] at hmm
        obtain ⟨d, hd⟩ := Option.isSome_iff_exists.1 hd
        obtain ⟨d', hd'⟩ := Option.isSome_iff_exists.1 hxd
        have e1 := hcon.1 d' hd'
        have e2 := hmm.1 d hd
        rw [hd, hd', ← e1, e2] at hne
        exact hne rfl
      rw [this]; rfl

/-! ## Parsing, then encoding -/

/-- A row's opcode leaves none or three of its bits open. -/
theorem mask_cases (r : Row) : r.info.mask = 0xFF ∨ r.info.mask = 0xF8 := by
  cases r <;> simp [Row.info]

set_option maxRecDepth 10000 in
/-- A byte is its high five bits and its low three. -/
theorem op_split (op : Byte) : op = BitVec.ofNat 8 ((op.toNat &&& 0xF8) + (op.extractLsb' 0 3 : BitVec 3).toNat) := by
  have : ∀ n : Fin 256, (BitVec.ofFin n : Byte) = BitVec.ofNat 8 (((BitVec.ofFin n : Byte).toNat &&& 0xF8) +
      ((BitVec.ofFin n : Byte).extractLsb' 0 3 : BitVec 3).toNat) := by decide
  exact this op.toFin

/-- The opcode byte of a row that matches it (R94). -/
theorem opcodeMatches_byte {r : Row} {map : OpMap} {op : Byte} (h : r.info.opcodeMatches map op = true) :
    r.info.map = map ∧ r.info.opcodeByte (if r.info.mask = 0xF8 then op.extractLsb' 0 3 else 0) = op := by
  simp only [RowInfo.opcodeMatches, Bool.and_eq_true, beq_iff_eq] at h
  refine ⟨h.1, ?_⟩
  unfold RowInfo.opcodeByte
  rcases mask_cases r with hm | hm
  · rw [hm] at h ⊢
    rw [← h.2]
    simp only [show ¬ (0xFF = 0xF8) by decide, if_false]
    rw [show (0xFF : Nat) = 2 ^ 8 - 1 by rfl, Nat.and_two_pow_sub_one_eq_mod]
    exact BitVec.eq_of_toNat_eq (by simp; exact op.isLt)
  · rw [hm] at h ⊢
    rw [← h.2]
    simp only [if_true]
    exact (op_split op).symm

/-- The bytes an opcode was read from. -/
theorem takeOpcode_ok {bs rest : List Byte} {map : OpMap} {op : Byte} (h : takeOpcode bs = .ok (map, op, rest)) :
    bs = map.escape ++ op :: rest := by
  unfold takeOpcode at h
  obtain ⟨⟨b, bs1⟩, h1, h⟩ := Except.bind_ok h
  cases bs with
  | nil => simp [nextByte] at h1
  | cons c bs =>
    simp only [nextByte, Except.ok.injEq, Prod.mk.injEq] at h1
    obtain ⟨rfl, rfl⟩ := h1
    simp only at h
    split at h
    · rename_i h0
      obtain ⟨⟨b, bs2⟩, h1, h⟩ := Except.bind_ok h
      cases bs with
      | nil => simp [nextByte] at h1
      | cons d bs =>
        simp only [nextByte, Except.ok.injEq, Prod.mk.injEq] at h1
        obtain ⟨rfl, rfl⟩ := h1
        simp only [pure, Except.pure, Except.ok.injEq, Prod.mk.injEq] at h
        obtain ⟨rfl, rfl, rfl⟩ := h
        simp [h0, OpMap.escape]
    · simp only [pure, Except.pure, Except.ok.injEq, Prod.mk.injEq] at h
      obtain ⟨rfl, rfl, rfl⟩ := h
      simp [OpMap.escape]

/-- Everything a finished parse answers comes from the bytes of a well-formed instruction. -/
theorem finishParse_spec {p : Prefixes} {op : Byte} {row : Row} {m : Option Byte} {bs rest : List Byte} {i : Instr}
    (h : finishParse p op row m bs = .ok (i, rest)) (hm : m.isSome = row.info.modrm)
    (hmm : ∀ b, m = some b → row.info.modrmMatches b = true) :
    i.row = row ∧ i.pieces.prefixes = p ∧
      i.pieces.opreg = (if row.info.mask = 0xF8 then op.extractLsb' 0 3 else 0) ∧
      row.info.immOk p i.pieces.imm = true ∧ row.info.rmOk i.pieces.rm = true ∧
      m.toList ++ bs = row.info.rmBytes i.pieces.reg i.pieces.rm ++ i.pieces.imm.bytes ++ rest := by
  unfold finishParse at h
  obtain ⟨⟨rm, reg, bs1⟩, h1, h⟩ := Except.bind_ok h
  obtain ⟨⟨imm, bs2⟩, h2, h⟩ := Except.bind_ok h
  obtain ⟨himm, hb⟩ := takeImm_ok h2
  simp only at h
  split at h
  · rename_i ha
    simp only [pure, Except.pure, Except.ok.injEq, Prod.mk.injEq] at h
    obtain ⟨rfl, rfl⟩ := h
    cases m with
    | none =>
      simp only [takeModrm, Except.ok.injEq, Prod.mk.injEq] at h1
      obtain ⟨rfl, rfl, rfl⟩ := h1
      obtain ⟨hr, hq⟩ := Row.assemble_spec ha (by simpa using hm) (fun _ => rfl) (fun hne => by simp [hne])
        (fun _ => rfl) himm
      rw [hq]
      exact ⟨hr, rfl, rfl, himm, rfl, by simp [RowInfo.rmBytes, hb]⟩
    | some b =>
      obtain ⟨⟨rm', bs'⟩, hx, h1⟩ := Except.bind_ok h1
      simp only [pure, Except.pure, Except.ok.injEq, Prod.mk.injEq] at h1
      obtain ⟨rfl, rfl, rfl⟩ := h1
      obtain ⟨hw, hbytes, h3⟩ := takeRm_ok hx
      obtain ⟨hr, hq⟩ := Row.assemble_spec ha (by simpa using hm) (fun hd => by simp [hd]) (fun hne => by simp [hne])
        (fun hf => by rw [hf] at hm; simp at hm) himm
      rw [hq]
      have hmm := (modrmMatches_iff _ _).1 (hmm b rfl)
      refine ⟨hr, rfl, rfl, himm, ?_, ?_⟩
      · cases rm' with
        | reg r =>
          simp only [RowInfo.rmOk, Bool.not_eq_true']
          cases hmo : row.info.memOnly with
          | false => rfl
          | true =>
            exfalso
            apply hmm.2 hmo
            have := hbytes
            simp only [Rm.bytes, List.cons_append, List.nil_append, List.cons.injEq] at this
            have hh := this.1
            rw [hh]
            exact (fields_of_byte 3#2 _ r).1
        | ripRel d => exact hw
        | base r d => exact hw
        | sib ss idx bs d => exact hw
        | sibNoBase ss idx d => exact hw
      · simp only [Option.toList_some, List.singleton_append, RowInfo.rmBytes]
        rw [hbytes, hb]
        have : row.info.regField (if row.info.digit.isSome = true then 0 else b.extractLsb' 3 3) =
            b.extractLsb' 3 3 := by
          unfold RowInfo.regField
          cases hd : row.info.digit with
          | none => rfl
          | some d =>
            rw [← hmm.1 d hd]
            simp only [BitVec.ofNat_toNat, BitVec.setWidth_eq]
        rw [this]
        simp
  · simp at h

/-- Whatever is parsed stood at the front of the bytes, and meets the checks of its row. -/
theorem parse_ok {bs rest : List Byte} {i : Instr} (h : parse bs = .ok (i, rest)) :
    bs = encode i ++ rest ∧ i.row.info.prefixesOk i.pieces.prefixes = true ∧ i.row.info.rmOk i.pieces.rm = true ∧
      i.row.info.immOk i.pieces.prefixes i.pieces.imm = true := by
  unfold parse at h
  have hp := takePrefixes_spec bs
  generalize takePrefixes bs = pp at *
  obtain ⟨p, bs1⟩ := pp
  simp only at h hp
  obtain ⟨⟨map, op, bs2⟩, h1, h⟩ := Except.bind_ok h
  have ho := takeOpcode_ok h1
  simp only at h
  split at h
  · simp at h
  rename_i r rs hc
  have hcm : ∀ x ∈ r :: rs, x.info.opcodeMatches map op = true := by
    intro x hx
    rw [← hc] at hx
    exact (List.mem_filter.1 hx).2
  have hmod : ∀ x ∈ r :: rs, x.info.modrm = r.info.modrm := by
    intro x hx
    have h1 := opcodeMatches_byte (hcm r (by simp))
    have hk := Row.check_ok r (if r.info.mask = 0xF8 then op.extractLsb' 0 3 else 0) (fun h => by simp [h])
    simp only [Row.check, Bool.and_eq_true, List.all_eq_true] at hk
    have := hk.1.1.1.2 x (by rw [h1.2, h1.1, hc]; exact hx)
    simp only [beq_iff_eq] at this
    exact this.1
  have fin : ∀ (row : Row) (m : Option Byte) (bs3 : List Byte), row ∈ r :: rs → m.toList ++ bs3 = bs2 →
      m.isSome = row.info.modrm → (∀ b, m = some b → row.info.modrmMatches b = true) →
      row.info.prefixesOk p = true → finishParse p op row m bs3 = .ok (i, rest) →
      bs = encode i ++ rest ∧ i.row.info.prefixesOk i.pieces.prefixes = true ∧ i.row.info.rmOk i.pieces.rm = true ∧
        i.row.info.immOk i.pieces.prefixes i.pieces.imm = true := by
    intro row m bs3 hr hbs hm hmm hpo hf
    obtain ⟨e1, e2, e3, e4, e5, e6⟩ := finishParse_spec hf hm hmm
    obtain ⟨k1, k2⟩ := opcodeMatches_byte (hcm row hr)
    rw [e1, e2]
    refine ⟨?_, hpo, e5, e4⟩
    unfold encode encodePieces
    rw [e1, e2, e3, hp, ho, ← hbs, e6]
    have : map.escape ++ [op] = row.info.opcodeBytes (if row.info.mask = 0xF8 then op.extractLsb' 0 3 else 0) := by
      unfold RowInfo.opcodeBytes
      rw [k1, k2]
    rw [← this]
    simp
  split at h
  · rename_i hrm
    obtain ⟨⟨b, bs3⟩, h2, h⟩ := Except.bind_ok h
    cases bs2 with
    | nil => simp [nextByte] at h2
    | cons c bs2 =>
      simp only [nextByte, Except.ok.injEq, Prod.mk.injEq] at h2
      obtain ⟨rfl, rfl⟩ := h2
      simp only at h
      split at h
      · rename_i row hfind
        have hmem := List.mem_of_find?_eq_some hfind
        have hP := List.find?_some hfind
        simp only [Bool.and_eq_true] at hP
        exact fin row (some c) bs2 hmem rfl (by rw [hmod row hmem, hrm]; rfl) (by rintro _ ⟨⟩; exact hP.1) hP.2 h
      · simp at h
  · rename_i hrm
    split at h
    · rename_i row hfind
      have hmem := List.mem_of_find?_eq_some hfind
      have hP := List.find?_some hfind
      exact fin row none bs2 hmem rfl (by rw [hmod row hmem]; simp at hrm; simp [hrm]) (by simp) hP h
    · simp at h

end Sys2Proof
end

