-- ==== Sys2Proof/Laws/Parse.lean ====
section
/-! SUPPORT. More bytes at the end change what the parser answers only where it ran out of bytes (30_encoding.md R133). -/

namespace Sys2Proof

/-- More bytes at the end change what `f` answers only where it ran out of bytes; `extend` adds them to its rest. -/
def Stable {α : Type} (f : List Byte → Except Stop α) (extend : List Byte → α → α) : Prop :=
  ∀ bs x, f bs ≠ .error .outOfBytes → f (bs ++ x) = (f bs).map (extend x)

/-- The bytes added to what a parser left. -/
abbrev onRest {α : Type} (x : List Byte) (a : α × List Byte) : α × List Byte := (a.1, a.2 ++ x)

theorem nextByte_stable : Stable nextByte onRest := by
  intro bs x h
  cases bs with
  | nil => simp [nextByte] at h
  | cons b bs => rfl

theorem nextLE_stable (w n : Nat) : Stable (nextLE w n) onRest := by
  intro bs x h
  unfold nextLE at h ⊢
  split at h
  · rename_i hn
    rw [if_pos (by rw [List.length_append]; omega), if_pos hn]
    simp [Except.map, onRest, List.take_append_of_le_length hn, List.drop_append_of_le_length hn]
  · simp at h

theorem Stable.bind {α β : Type} {f : List Byte → Except Stop α} {g : α → Except Stop β}
    {e : List Byte → α → α} {e' : List Byte → β → β} (hf : Stable f e)
    (hg : ∀ a x, g a ≠ .error .outOfBytes → g (e x a) = (g a).map (e' x)) :
    Stable (fun bs => f bs >>= g) e' := by
  intro bs x h
  have hne : f bs ≠ .error .outOfBytes := by
    intro he; simp only [he] at h; exact h rfl
  show (f (bs ++ x) >>= g) = ((f bs >>= g).map (e' x))
  rw [hf bs x hne]
  cases hb : f bs with
  | error s => rfl
  | ok a =>
    simp only [hb] at h
    exact hg a x h

theorem Stable.after {α β : Type} {f : List Byte → Except Stop (α × List Byte)} {v : α → β}
    (hf : Stable f onRest) : Stable (fun bs => f bs >>= fun a => pure (v a.1, a.2)) onRest :=
  hf.bind fun _ _ _ => rfl

theorem takeDisp_stable (m : BitVec 2) : Stable (takeDisp m) onRest := by
  unfold takeDisp
  by_cases h0 : m = 0
  · simp only [h0, if_true]; exact fun _ _ _ => rfl
  · by_cases h1 : m = 1
    · simp only [h1, if_true]
      exact (nextLE_stable 8 1).after
    · simp only [h0, h1, if_false]
      exact (nextLE_stable 32 4).after

theorem takeRm_stable (b : Byte) : Stable (takeRm b) onRest := by
  unfold takeRm
  simp only
  split_ifs
  · exact fun _ _ _ => rfl
  · refine nextByte_stable.bind ?_
    rintro ⟨sib, r⟩ x h
    simp only at h ⊢
    by_cases hc : sib.extractLsb' 0 3 = (5 : BitVec 3) ∧ (b.extractLsb' 6 2 : BitVec 2) = 0
    · rw [if_pos hc] at h; rw [if_pos hc, if_pos hc]
      exact (nextLE_stable 32 4).after (v := fun d => Rm.sibNoBase _ _ d) r x h
    · rw [if_neg hc] at h; rw [if_neg hc, if_neg hc]
      exact (takeDisp_stable _).after (v := fun d => Rm.sib _ _ _ d) r x h
  · exact (nextLE_stable 32 4).after
  · exact (takeDisp_stable _).after

theorem takeImm_stable (k : ImmKind) (w : Width) : Stable (takeImm k w) onRest := by
  unfold takeImm
  cases k <;> cases w <;> first | exact fun _ _ _ => rfl | exact (nextLE_stable _ _).after

theorem takeModrm_stable (r : RowInfo) (m : Option Byte) :
    Stable (takeModrm r m) fun x a => (a.1, a.2.1, a.2.2 ++ x) := by
  unfold takeModrm
  cases m with
  | none => exact fun _ _ _ => rfl
  | some b => exact (takeRm_stable b).bind fun _ _ _ => rfl

theorem finishParse_stable (p : Prefixes) (op : Byte) (row : Row) (m : Option Byte) :
    Stable (finishParse p op row m) onRest := by
  unfold finishParse
  refine (takeModrm_stable row.info m).bind ?_
  rintro ⟨rm, reg, r⟩ x h
  simp only at h ⊢
  refine (takeImm_stable _ _).bind (e' := onRest) ?_ r x h
  rintro ⟨imm, r⟩ x h
  simp only
  split <;> rfl

theorem takeOpcode_stable : Stable takeOpcode fun x a => (a.1, a.2.1, a.2.2 ++ x) := by
  unfold takeOpcode
  refine nextByte_stable.bind ?_
  rintro ⟨op, r⟩ x h
  simp only at h ⊢
  by_cases hc : op = 0x0F#8
  · rw [if_pos hc] at h; rw [if_pos hc, if_pos hc]
    exact (nextByte_stable.bind (e' := fun x a => (a.1, a.2.1, a.2.2 ++ x)) fun _ _ _ => rfl) r x h
  · rw [if_neg hc, if_neg hc]; rfl

theorem takeLegacy_append (bs x : List Byte) (h : (takeLegacy bs).2 ≠ []) :
    takeLegacy (bs ++ x) = ((takeLegacy bs).1, (takeLegacy bs).2 ++ x) := by
  induction bs with
  | nil => simp [takeLegacy] at h
  | cons b bs ih =>
    simp only [takeLegacy, List.cons_append] at h ⊢
    split
    · rename_i y hy
      rw [hy] at h
      rw [ih h]
    · rfl

/-- What the parser answers for some bytes it answers for any bytes that begin with them, unless it ran out. -/
theorem parse_stable : Stable parse onRest := by
  intro bs x h
  unfold parse at h ⊢
  simp only at h ⊢
  by_cases he : (takePrefixes bs).2 = []
  · rw [he] at h; exact absurd rfl h
  · have hp : takePrefixes (bs ++ x) = ((takePrefixes bs).1, (takePrefixes bs).2 ++ x) := by
      unfold takePrefixes at he ⊢
      simp only at he ⊢
      have hl : (takeLegacy bs).2 ≠ [] := by intro h; rw [h] at he; exact he rfl
      rw [takeLegacy_append bs x hl]
      cases hb : (takeLegacy bs).2 with
      | nil => exact absurd hb hl
      | cons b r =>
        simp only [takeRex, List.cons_append]
        split <;> rfl
    rw [hp]
    refine takeOpcode_stable.bind (e' := onRest) ?_ (takePrefixes bs).2 x h
    rintro ⟨map, op, r⟩ x h
    simp only at h ⊢
    split
    · rfl
    · rename_i y ys hc
      rw [hc] at h
      simp only at h
      by_cases hm : y.info.modrm = true
      · rw [if_pos hm] at h; rw [if_pos hm, if_pos hm]
        refine nextByte_stable.bind (e' := onRest) ?_ r x h
        rintro ⟨c, r⟩ x h
        simp only at h ⊢
        split
        · rename_i row hrow
          rw [hrow] at h
          exact finishParse_stable _ _ _ _ r x h
        · rfl
      · rw [if_neg hm] at h; rw [if_neg hm, if_neg hm]
        split
        · rename_i row hrow
          rw [hrow] at h
          exact finishParse_stable _ _ _ _ r x h
        · rfl

end Sys2Proof
end

