-- ==== Sys2Proof/Laws/Stream.lean ====
section
/-! SUPPORT. What decode answers for longer windows, the sequence of R136 item by item, and what the head of the buffer
can be (30_encoding.md R136 to R138). -/

namespace Sys2Proof

/-- A row read from a window is that of an instruction whose bytes begin it. -/
theorem decodeRow_row {w : List Byte} {i : Instr} (h : decodeRow w = .row i) :
    ∃ rest, parse (w.take Config.maxLen) = .ok (i, rest) ∧ w.take Config.maxLen = encode i ++ rest := by
  unfold decodeRow at h
  split at h
  · rename_i j rest hp
    simp only [RowResult.row.injEq] at h
    subst h
    exact ⟨rest, hp, (parse_ok hp).1⟩
  · simp at h
  · split at h <;> simp at h

/-- An encoding is at least one byte. -/
theorem Instr.length_pos (i : Instr) : 0 < i.length := by
  have hb := (opcode_first i.row i.pieces.opreg i.pieces_ok.2.2)
  obtain ⟨b, tl, hb, _⟩ := hb
  simp only [Instr.length, encode, encodePieces, hb, List.length_append, List.length_cons]
  omega

/-- A row read from a window of at most 15 bytes is read from any longer one. -/
theorem decodeRow_extend {w : List Byte} {i : Instr} (hw : w.length ≤ Config.maxLen) (h : decodeRow w = .row i)
    (x : List Byte) : decodeRow (w ++ x) = .row i := by
  obtain ⟨rest, hp, _⟩ := decodeRow_row h
  rw [List.take_of_length_le hw] at hp
  have hs := parse_stable w (x.take (Config.maxLen - w.length)) (by rw [hp]; simp)
  unfold decodeRow
  rw [List.take_append, List.take_of_length_le hw, hs, hp]
  rfl

end Sys2Proof

namespace Sys2Proof.Machine

/-! ## decode -/

/-- An item takes at least one byte and at most the window (R132, R136). -/
theorem decode_length {w : List Byte} {a : Word} {ins : Instruction} (h : decode w a = .decoded ins) :
    1 ≤ ins.length ∧ ins.length ≤ w.length := by
  unfold decode at h
  cases hd : decodeRow w with
  | row i =>
    rw [hd] at h; simp only [DecodeResult.decoded.injEq] at h; subst h
    obtain ⟨rest, _, he⟩ := decodeRow_row hd
    have := congrArg List.length he
    rw [List.length_append, List.length_take] at this
    exact ⟨i.length_pos, by simp only [mkInstruction, Instr.length]; omega⟩
  | truncated => rw [hd] at h; simp at h
  | noRow =>
    rw [hd] at h; simp only at h
    split at h
    · rename_i n hn
      simp only [DecodeResult.decoded.injEq] at h; subst h
      simp only [mkInstruction]
      unfold Config.extLen at hn
      split at hn
      · split_ifs at hn with hc
        simp only [Option.some.injEq] at hn; subst hn
        simp only [List.length_take] at hc; omega
      · simp at hn
    · simp at h

theorem decode_truncated {w : List Byte} {a : Word} (h : decode w a = .truncated) : w.length < 15 := by
  unfold decode at h
  cases hd : decodeRow w with
  | row i => rw [hd] at h; simp at h
  | noRow => rw [hd] at h; simp only at h; split at h <;> simp at h
  | truncated =>
    unfold decodeRow at hd
    split at hd
    · simp at hd
    · simp at hd
    · split_ifs at hd with hc; exact hc

/-- An admitted instruction read from a short window is read from any longer one. -/
theorem decode_extend {w x : List Byte} {a : Word} {ins : Instruction} (hw : w.length ≤ Config.maxLen)
    (h : decode w a = .decoded ins) (hk : ins.kind ≠ .invalid) : decode (w ++ x) a = .decoded ins := by
  have hl := decode_length h
  unfold decode at h ⊢
  cases hd : decodeRow w with
  | row i =>
    rw [hd] at h; simp only [DecodeResult.decoded.injEq] at h; subst h
    rw [decodeRow_extend hw hd]
    simp only [mkInstruction] at hl ⊢
    rw [List.take_append_of_le_length hl.2]
  | truncated => rw [hd] at h; simp at h
  | noRow =>
    rw [hd] at h; simp only at h
    split at h
    · simp only [DecodeResult.decoded.injEq] at h; subst h; exact absurd rfl hk
    · simp at h

/-! ## The sequence -/

/-- A sequence needs no more fuel than it has bytes. -/
theorem streamItems_fuel (n : Nat) : ∀ (m : Nat) (bs : List Byte) (a : Word), bs.length ≤ n → bs.length ≤ m →
    streamItems n bs a = streamItems m bs a := by
  induction n with
  | zero =>
    intro m bs a hn _
    have : bs = [] := List.length_eq_zero_iff.1 (by omega)
    subst this
    cases m with
    | zero => rfl
    | succ m =>
      simp only [streamItems]
      cases hd : decode (List.take Config.maxLen []) a with
      | decoded ins => have := decode_length hd; simp at this; omega
      | _ => rfl
  | succ n ih =>
    intro m bs a hn hm
    cases m with
    | zero =>
      have : bs = [] := List.length_eq_zero_iff.1 (by omega)
      subst this
      simp only [streamItems]
      cases hd : decode (List.take Config.maxLen []) a with
      | decoded ins => have := decode_length hd; simp at this; omega
      | _ => rfl
    | succ m =>
      simp only [streamItems]
      cases hd : decode (bs.take Config.maxLen) a with
      | decoded ins =>
        have := decode_length hd
        simp only [List.length_take] at this
        simp only
        rw [ih m _ _ (by rw [List.length_drop]; omega) (by rw [List.length_drop]; omega)]
      | _ => rfl

/-- The first item, and the sequence from the byte after it (R136). -/
theorem streamSequence_eq (bs : List Byte) (a : Word) : streamSequence bs a =
    match decode (bs.take Config.maxLen) a with
    | .decoded ins => ins :: streamSequence (bs.drop ins.length) (a + BitVec.ofNat 64 ins.length)
    | _ => [] := by
  rw [streamSequence, streamItems_fuel _ (bs.length + 1) bs a (Nat.le_refl _) (by omega), streamItems]
  cases hd : decode (bs.take Config.maxLen) a with
  | decoded ins =>
    have := decode_length hd
    simp only [List.length_take] at this
    simp only
    rw [streamSequence, streamItems_fuel _ _ _ _ _ (Nat.le_refl _)]
    rw [List.length_drop]; omega
  | _ => rfl

/-! ## The head of the buffer (R138) -/

theorem take_window (b x : List Byte) (h : 15 ≤ b.length ∨ x = []) : (b ++ x).take Config.maxLen = b.take Config.maxLen := by
  rcases h with h | h
  · exact List.take_append_of_le_length h
  · rw [h, List.append_nil]

/-- An item at the head of the buffer is the next item of the sequence, whatever bytes `x` are still to come. -/
theorem streamHead_item {b x : List Byte} {last : Bool} {a : Word} {ins : Instruction} (hl : last = true → x = [])
    (h : streamHead b last a = .item ins) :
    decode ((b ++ x).take Config.maxLen) a = .decoded ins ∧ 1 ≤ ins.length ∧ ins.length ≤ b.length := by
  unfold streamHead at h
  cases hd : decode (b.take Config.maxLen) a with
  | truncated => rw [hd] at h; simp only at h; split at h <;> simp at h
  | undecodable => rw [hd] at h; simp only at h; split at h <;> simp at h
  | decoded j =>
    rw [hd] at h; simp only at h
    split at h
    · simp at h
    · rename_i hc
      simp only [Head.item.injEq] at h; subst h
      have hlen := decode_length hd
      simp only [List.length_take] at hlen
      refine ⟨?_, hlen.1, by omega⟩
      by_cases hs : 15 ≤ b.length ∨ x = []
      · rw [take_window _ _ hs]; exact hd
      · rw [not_or] at hs
        have hlast : last = false := by cases last; rfl; exact absurd (hl rfl) hs.2
        have hk : j.kind ≠ .invalid := by
          intro he; apply hc; simp [hlast, he, Config.maxLen]; exact decide_eq_true (Nat.lt_of_not_le hs.1)
        rw [List.take_append, List.take_of_length_le (show b.length ≤ Config.maxLen by simp [Config.maxLen]; omega)]
        rw [List.take_of_length_le (show b.length ≤ Config.maxLen by simp [Config.maxLen]; omega)] at hd
        exact decode_extend (by simp [Config.maxLen]; omega) hd hk

/-- The end at the head of the buffer is the end of the sequence (R137). -/
theorem streamHead_ended {b x : List Byte} {last : Bool} {a : Word} (hl : last = true → x = [])
    (h : streamHead b last a = .ended) : streamSequence (b ++ x) a = [] := by
  have : 15 ≤ b.length ∨ x = [] := by
    by_contra hs
    rw [not_or] at hs
    have hlast : last = false := by cases last; rfl; exact absurd (hl rfl) hs.2
    have hb : b.length < Config.maxLen := by simp [Config.maxLen]; omega
    unfold streamHead at h
    simp only [hlast, hb] at h
    cases hd : decode (b.take Config.maxLen) a <;> rw [hd] at h <;> simp at h
    split at h <;> simp at h
  rw [streamSequence_eq, take_window _ _ this]
  unfold streamHead at h
  cases hd : decode (b.take Config.maxLen) a with
  | decoded j => rw [hd] at h; simp only at h; split at h <;> simp at h
  | _ => rfl

/-- A head that needs bytes stands before the last fill, in fewer than 15 bytes. -/
theorem streamHead_needs {b : List Byte} {last : Bool} {a : Word} (h : streamHead b last a = .needBytes) :
    last = false ∧ b.length < 15 := by
  unfold streamHead at h
  cases hd : decode (b.take Config.maxLen) a with
  | truncated =>
    rw [hd] at h; simp only at h; split at h
    · simp at h
    · have := decode_truncated hd
      simp only [List.length_take, Config.maxLen] at this
      rename_i hn
      exact ⟨by simpa using hn, by omega⟩
  | undecodable =>
    rw [hd] at h; simp only at h; split at h
    · rename_i hn; simp [Config.maxLen] at hn; exact ⟨hn.2, of_decide_eq_true hn.1⟩
    · simp at h
  | decoded j =>
    rw [hd] at h; simp only at h; split at h
    · rename_i hn; simp [Config.maxLen] at hn; exact ⟨hn.1.2, of_decide_eq_true hn.1.1⟩
    · simp at h

end Sys2Proof.Machine
end

