-- ==== Sys2Proof/Tests/Slice0.lean ====
section
/-! SUPPORT. Tests: the decoder on words written out from the spec, ill-formed terms, one step on the spec's vectors, and
a witness for the hypotheses of every statement. Expected values come from 95_test_vectors.md and
96_test_vectors_decode.md. -/

namespace Sys2Proof.Tests

open Sys2Proof.Machine

set_option maxRecDepth 20000

/-! ## Decoding (30_encoding.md, opcode_table.json)

Each entry gives the bytes, the instruction, and the kind and operands it has at 0x1000; the immediate, displacement and
target values follow 30_encoding.md R105, R118, R119. -/

abbrev p0 : Prefixes := ⟨[], none⟩
abbrev p66 : Prefixes := ⟨[.opSize], none⟩
abbrev pF3 : Prefixes := ⟨[.rep], none⟩
abbrev pGs : Prefixes := ⟨[.seg .gs], none⟩
abbrev pX : Prefixes := ⟨[], some ⟨false, false, false, false⟩⟩
abbrev pW : Prefixes := ⟨[], some ⟨true, false, false, false⟩⟩
abbrev pB : Prefixes := ⟨[], some ⟨false, false, false, true⟩⟩

/-- Every word decodes to its instruction, of the word's length, whose kind at 0x1000 is the one named. -/
def readsAll (rows : List (List Byte × Instr × InstructionType)) : Bool :=
  rows.all fun x => decodeRow x.1 == .row x.2.1 && x.2.1.length == x.1.length && x.2.1.kind 0x1000 == x.2.2

/-- The nine rows of add: 00 to 05 and the groups 80, 81, 83 /0. -/
theorem test_decode_add :
  readsAll [([0x00, 0xD8], .addRm8R8 p0 3 (.reg 0), .add (.reg ⟨0, .low8⟩) (.reg ⟨3, .low8⟩)),
    ([0x48, 0x01, 0x03], .addRmR pW 0 (.base 3 .none),
      .add (.mem ⟨(.gpr 3), none, 0x0, none, .w64⟩) (.reg ⟨0, .w64⟩)),
    ([0x02, 0xE0], .addR8Rm8 p0 4 (.reg 0), .add (.reg ⟨0, .high8⟩) (.reg ⟨0, .low8⟩)),
    ([0x66, 0x03, 0x44, 0x8B, 0x08], .addRRm p66 0 (.sib 2 1 3 (.d8 8)),
      .add (.reg ⟨0, .w16⟩) (.mem ⟨(.gpr 3), (some (1, .s4)), 0x8, none, .w16⟩)),
    ([0x04, 0xFF], .addAlImm8 p0 0xFF, .add (.reg ⟨0, .low8⟩) (.imm 0xFFFFFFFFFFFFFFFF)),
    ([0x48, 0x05, 0xFF, 0xFF, 0xFF, 0x7F], .addAccImm pW (.i32 0x7FFFFFFF), .add (.reg ⟨0, .w64⟩) (.imm 0x7FFFFFFF))] &&
  readsAll [([0x80, 0x03, 0x7F], .addRm8Imm8 p0 (.base 3 .none) 0x7F,
      .add (.mem ⟨(.gpr 3), none, 0x0, none, .w8⟩) (.imm 0x7F)),
    ([0x66, 0x81, 0xC1, 0x34, 0x12], .addRmImm p66 (.reg 1) (.i16 0x1234), .add (.reg ⟨1, .w16⟩) (.imm 0x1234)),
    ([0x83, 0xC2, 0x80], .addRmImm8 p0 (.reg 2) 0x80, .add (.reg ⟨2,
      .w32⟩) (.imm 0xFFFFFFFFFFFFFF80))] = true := by decide

/-- The nine rows of adc: 10 to 15 and the groups 80, 81, 83 /2. -/
theorem test_decode_adc :
  readsAll [([0x10, 0xD8], .adcRm8R8 p0 3 (.reg 0), .adc (.reg ⟨0, .low8⟩) (.reg ⟨3, .low8⟩)),
    ([0x48, 0x11, 0x03], .adcRmR pW 0 (.base 3 .none),
      .adc (.mem ⟨(.gpr 3), none, 0x0, none, .w64⟩) (.reg ⟨0, .w64⟩)),
    ([0x12, 0xE0], .adcR8Rm8 p0 4 (.reg 0), .adc (.reg ⟨0, .high8⟩) (.reg ⟨0, .low8⟩)),
    ([0x66, 0x13, 0x44, 0x8B, 0x08], .adcRRm p66 0 (.sib 2 1 3 (.d8 8)),
      .adc (.reg ⟨0, .w16⟩) (.mem ⟨(.gpr 3), (some (1, .s4)), 0x8, none, .w16⟩)),
    ([0x14, 0xFF], .adcAlImm8 p0 0xFF, .adc (.reg ⟨0, .low8⟩) (.imm 0xFFFFFFFFFFFFFFFF)),
    ([0x48, 0x15, 0xFF, 0xFF, 0xFF, 0x7F], .adcAccImm pW (.i32 0x7FFFFFFF), .adc (.reg ⟨0, .w64⟩) (.imm 0x7FFFFFFF))] &&
  readsAll [([0x80, 0x13, 0x7F], .adcRm8Imm8 p0 (.base 3 .none) 0x7F,
      .adc (.mem ⟨(.gpr 3), none, 0x0, none, .w8⟩) (.imm 0x7F)),
    ([0x66, 0x81, 0xD1, 0x34, 0x12], .adcRmImm p66 (.reg 1) (.i16 0x1234), .adc (.reg ⟨1, .w16⟩) (.imm 0x1234)),
    ([0x83, 0xD2, 0x80], .adcRmImm8 p0 (.reg 2) 0x80, .adc (.reg ⟨2,
      .w32⟩) (.imm 0xFFFFFFFFFFFFFF80))] = true := by decide

/-- The nine rows of sub: 28 to 2D and the groups 80, 81, 83 /5. -/
theorem test_decode_sub :
  readsAll [([0x28, 0xD8], .subRm8R8 p0 3 (.reg 0), .sub (.reg ⟨0, .low8⟩) (.reg ⟨3, .low8⟩)),
    ([0x48, 0x29, 0x03], .subRmR pW 0 (.base 3 .none),
      .sub (.mem ⟨(.gpr 3), none, 0x0, none, .w64⟩) (.reg ⟨0, .w64⟩)),
    ([0x2A, 0xE0], .subR8Rm8 p0 4 (.reg 0), .sub (.reg ⟨0, .high8⟩) (.reg ⟨0, .low8⟩)),
    ([0x66, 0x2B, 0x44, 0x8B, 0x08], .subRRm p66 0 (.sib 2 1 3 (.d8 8)),
      .sub (.reg ⟨0, .w16⟩) (.mem ⟨(.gpr 3), (some (1, .s4)), 0x8, none, .w16⟩)),
    ([0x2C, 0xFF], .subAlImm8 p0 0xFF, .sub (.reg ⟨0, .low8⟩) (.imm 0xFFFFFFFFFFFFFFFF)),
    ([0x48, 0x2D, 0xFF, 0xFF, 0xFF, 0x7F], .subAccImm pW (.i32 0x7FFFFFFF), .sub (.reg ⟨0, .w64⟩) (.imm 0x7FFFFFFF))] &&
  readsAll [([0x80, 0x2B, 0x7F], .subRm8Imm8 p0 (.base 3 .none) 0x7F,
      .sub (.mem ⟨(.gpr 3), none, 0x0, none, .w8⟩) (.imm 0x7F)),
    ([0x66, 0x81, 0xE9, 0x34, 0x12], .subRmImm p66 (.reg 1) (.i16 0x1234), .sub (.reg ⟨1, .w16⟩) (.imm 0x1234)),
    ([0x83, 0xEA, 0x80], .subRmImm8 p0 (.reg 2) 0x80, .sub (.reg ⟨2,
      .w32⟩) (.imm 0xFFFFFFFFFFFFFF80))] = true := by decide

/-- The nine rows of xor: 30 to 35 and the groups 80, 81, 83 /6. -/
theorem test_decode_xor :
  readsAll [([0x30, 0xD8], .xorRm8R8 p0 3 (.reg 0), .xor (.reg ⟨0, .low8⟩) (.reg ⟨3, .low8⟩)),
    ([0x48, 0x31, 0x03], .xorRmR pW 0 (.base 3 .none),
      .xor (.mem ⟨(.gpr 3), none, 0x0, none, .w64⟩) (.reg ⟨0, .w64⟩)),
    ([0x32, 0xE0], .xorR8Rm8 p0 4 (.reg 0), .xor (.reg ⟨0, .high8⟩) (.reg ⟨0, .low8⟩)),
    ([0x66, 0x33, 0x44, 0x8B, 0x08], .xorRRm p66 0 (.sib 2 1 3 (.d8 8)),
      .xor (.reg ⟨0, .w16⟩) (.mem ⟨(.gpr 3), (some (1, .s4)), 0x8, none, .w16⟩)),
    ([0x34, 0xFF], .xorAlImm8 p0 0xFF, .xor (.reg ⟨0, .low8⟩) (.imm 0xFFFFFFFFFFFFFFFF)),
    ([0x48, 0x35, 0xFF, 0xFF, 0xFF, 0x7F], .xorAccImm pW (.i32 0x7FFFFFFF), .xor (.reg ⟨0, .w64⟩) (.imm 0x7FFFFFFF))] &&
  readsAll [([0x80, 0x33, 0x7F], .xorRm8Imm8 p0 (.base 3 .none) 0x7F,
      .xor (.mem ⟨(.gpr 3), none, 0x0, none, .w8⟩) (.imm 0x7F)),
    ([0x66, 0x81, 0xF1, 0x34, 0x12], .xorRmImm p66 (.reg 1) (.i16 0x1234), .xor (.reg ⟨1, .w16⟩) (.imm 0x1234)),
    ([0x83, 0xF2, 0x80], .xorRmImm8 p0 (.reg 2) 0x80, .xor (.reg ⟨2,
      .w32⟩) (.imm 0xFFFFFFFFFFFFFF80))] = true := by decide

/-- The nine rows of cmp: 38 to 3D and the groups 80, 81, 83 /7. -/
theorem test_decode_cmp :
  readsAll [([0x38, 0xD8], .cmpRm8R8 p0 3 (.reg 0), .cmp (.reg ⟨0, .low8⟩) (.reg ⟨3, .low8⟩)),
    ([0x48, 0x39, 0x03], .cmpRmR pW 0 (.base 3 .none),
      .cmp (.mem ⟨(.gpr 3), none, 0x0, none, .w64⟩) (.reg ⟨0, .w64⟩)),
    ([0x3A, 0xE0], .cmpR8Rm8 p0 4 (.reg 0), .cmp (.reg ⟨0, .high8⟩) (.reg ⟨0, .low8⟩)),
    ([0x66, 0x3B, 0x44, 0x8B, 0x08], .cmpRRm p66 0 (.sib 2 1 3 (.d8 8)),
      .cmp (.reg ⟨0, .w16⟩) (.mem ⟨(.gpr 3), (some (1, .s4)), 0x8, none, .w16⟩)),
    ([0x3C, 0xFF], .cmpAlImm8 p0 0xFF, .cmp (.reg ⟨0, .low8⟩) (.imm 0xFFFFFFFFFFFFFFFF)),
    ([0x48, 0x3D, 0xFF, 0xFF, 0xFF, 0x7F], .cmpAccImm pW (.i32 0x7FFFFFFF), .cmp (.reg ⟨0, .w64⟩) (.imm 0x7FFFFFFF))] &&
  readsAll [([0x80, 0x3B, 0x7F], .cmpRm8Imm8 p0 (.base 3 .none) 0x7F,
      .cmp (.mem ⟨(.gpr 3), none, 0x0, none, .w8⟩) (.imm 0x7F)),
    ([0x66, 0x81, 0xF9, 0x34, 0x12], .cmpRmImm p66 (.reg 1) (.i16 0x1234), .cmp (.reg ⟨1, .w16⟩) (.imm 0x1234)),
    ([0x83, 0xFA, 0x80], .cmpRmImm8 p0 (.reg 2) 0x80, .cmp (.reg ⟨2,
      .w32⟩) (.imm 0xFFFFFFFFFFFFFF80))] = true := by decide

/-- push and pop: 50+r with REX.B, 58+r, 68, 6A, FF /6, 8F /0. -/
theorem test_decode_push_pop :
  readsAll [([0x41, 0x57], .pushR64 pB 7, .push (.reg ⟨15, .w64⟩)),
    ([0x5D], .popR64 p0 5, .pop (.reg ⟨5, .w64⟩)),
    ([0x68, 0x78, 0x56, 0x34, 0x12], .pushImm32 p0 0x12345678, .push (.imm 0x12345678)),
    ([0x6A, 0xFF], .pushImm8 p0 0xFF, .push (.imm 0xFFFFFFFFFFFFFFFF)),
    ([0xFF, 0x30], .pushRm64 p0 (.base 0 .none), .push (.mem ⟨(.gpr 0), none, 0x0, none, .w64⟩)),
    ([0x8F, 0x04, 0x24], .popRm64 p0 (.sib 0 4 4 .none), .pop (.mem ⟨(.gpr 4), none, 0x0, none,
      .w64⟩))] = true := by decide

/-- Jcc rel8: 70 to 7F, and E3; the target is 0x1002 + 0x10. -/
theorem test_decode_jcc_rel8 :
  readsAll [([0x70, 0x10], .joRel8 p0 0x10, .conditionalJump .o 0x1012),
    ([0x71, 0x10], .jnoRel8 p0 0x10, .conditionalJump .no 0x1012),
    ([0x72, 0x10], .jbRel8 p0 0x10, .conditionalJump .b 0x1012),
    ([0x73, 0x10], .jaeRel8 p0 0x10, .conditionalJump .ae 0x1012),
    ([0x74, 0x10], .jeRel8 p0 0x10, .conditionalJump .e 0x1012),
    ([0x75, 0x10], .jneRel8 p0 0x10, .conditionalJump .ne 0x1012)] &&
  readsAll [([0x76, 0x10], .jbeRel8 p0 0x10, .conditionalJump .be 0x1012),
    ([0x77, 0x10], .jaRel8 p0 0x10, .conditionalJump .a 0x1012),
    ([0x78, 0x10], .jsRel8 p0 0x10, .conditionalJump .s 0x1012),
    ([0x79, 0x10], .jnsRel8 p0 0x10, .conditionalJump .ns 0x1012),
    ([0x7A, 0x10], .jpRel8 p0 0x10, .conditionalJump .p 0x1012),
    ([0x7B, 0x10], .jnpRel8 p0 0x10, .conditionalJump .np 0x1012)] &&
  readsAll [([0x7C, 0x10], .jlRel8 p0 0x10, .conditionalJump .l 0x1012),
    ([0x7D, 0x10], .jgeRel8 p0 0x10, .conditionalJump .ge 0x1012),
    ([0x7E, 0x10], .jleRel8 p0 0x10, .conditionalJump .le 0x1012),
    ([0x7F, 0x10], .jgRel8 p0 0x10, .conditionalJump .g 0x1012),
    ([0xE3, 0xFE], .jrcxzRel8 p0 0xFE, .conditionalJump .cxz 0x1000)] = true := by decide

/-- Jcc rel32: 0F 80 to 0F 8F; the target is 0x1006 - 6. -/
theorem test_decode_jcc_rel32 :
  readsAll [([0x0F, 0x80, 0xFA, 0xFF, 0xFF, 0xFF], .joRel32 p0 0xFFFFFFFA, .conditionalJump .o 0x1000),
    ([0x0F, 0x81, 0xFA, 0xFF, 0xFF, 0xFF], .jnoRel32 p0 0xFFFFFFFA, .conditionalJump .no 0x1000),
    ([0x0F, 0x82, 0xFA, 0xFF, 0xFF, 0xFF], .jbRel32 p0 0xFFFFFFFA, .conditionalJump .b 0x1000),
    ([0x0F, 0x83, 0xFA, 0xFF, 0xFF, 0xFF], .jaeRel32 p0 0xFFFFFFFA, .conditionalJump .ae 0x1000),
    ([0x0F, 0x84, 0xFA, 0xFF, 0xFF, 0xFF], .jeRel32 p0 0xFFFFFFFA, .conditionalJump .e 0x1000),
    ([0x0F, 0x85, 0xFA, 0xFF, 0xFF, 0xFF], .jneRel32 p0 0xFFFFFFFA, .conditionalJump .ne 0x1000)] &&
  readsAll [([0x0F, 0x86, 0xFA, 0xFF, 0xFF, 0xFF], .jbeRel32 p0 0xFFFFFFFA, .conditionalJump .be 0x1000),
    ([0x0F, 0x87, 0xFA, 0xFF, 0xFF, 0xFF], .jaRel32 p0 0xFFFFFFFA, .conditionalJump .a 0x1000),
    ([0x0F, 0x88, 0xFA, 0xFF, 0xFF, 0xFF], .jsRel32 p0 0xFFFFFFFA, .conditionalJump .s 0x1000),
    ([0x0F, 0x89, 0xFA, 0xFF, 0xFF, 0xFF], .jnsRel32 p0 0xFFFFFFFA, .conditionalJump .ns 0x1000),
    ([0x0F, 0x8A, 0xFA, 0xFF, 0xFF, 0xFF], .jpRel32 p0 0xFFFFFFFA, .conditionalJump .p 0x1000),
    ([0x0F, 0x8B, 0xFA, 0xFF, 0xFF, 0xFF], .jnpRel32 p0 0xFFFFFFFA, .conditionalJump .np 0x1000)] &&
  readsAll [([0x0F, 0x8C, 0xFA, 0xFF, 0xFF, 0xFF], .jlRel32 p0 0xFFFFFFFA, .conditionalJump .l 0x1000),
    ([0x0F, 0x8D, 0xFA, 0xFF, 0xFF, 0xFF], .jgeRel32 p0 0xFFFFFFFA, .conditionalJump .ge 0x1000),
    ([0x0F, 0x8E, 0xFA, 0xFF, 0xFF, 0xFF], .jleRel32 p0 0xFFFFFFFA, .conditionalJump .le 0x1000),
    ([0x0F, 0x8F, 0xFA, 0xFF, 0xFF, 0xFF], .jgRel32 p0 0xFFFFFFFA, .conditionalJump .g 0x1000)] = true := by decide

/-- test: 84, 85, A8, A9, F6 /0, F7 /0. -/
theorem test_decode_test :
  readsAll [([0x84, 0xC8], .testRm8R8 p0 1 (.reg 0), .test (.reg ⟨0, .low8⟩) (.reg ⟨1, .low8⟩)),
    ([0x48, 0x85, 0xC0], .testRmR pW 0 (.reg 0), .test (.reg ⟨0, .w64⟩) (.reg ⟨0, .w64⟩)),
    ([0xA8, 0x01], .testAlImm8 p0 1, .test (.reg ⟨0, .low8⟩) (.imm 0x1)),
    ([0x48, 0xA9, 0x00, 0x00, 0x00, 0x80], .testAccImm pW (.i32 0x80000000),
      .test (.reg ⟨0, .w64⟩) (.imm 0xFFFFFFFF80000000)),
    ([0xF6, 0xC1, 0x01], .testRm8Imm8 p0 (.reg 1) 1, .test (.reg ⟨1, .low8⟩) (.imm 0x1)),
    ([0xF7, 0x03, 0x01, 0x00, 0x00, 0x00], .testRmImm p0 (.base 3 .none) (.i32 1),
      .test (.mem ⟨(.gpr 3), none, 0x0, none, .w32⟩) (.imm 0x1))] = true := by decide

/-- mov: 88, 89, 8A, 8B, B0+r, B8+r, C6 /0, C7 /0. -/
theorem test_decode_mov :
  readsAll [([0x40, 0x88, 0xE0], .movRm8R8 pX 4 (.reg 0), .mov (.reg ⟨0, .low8⟩) (.reg ⟨4, .low8⟩)),
    ([0x48, 0x89, 0xE5], .movRmR pW 4 (.reg 5), .mov (.reg ⟨5, .w64⟩) (.reg ⟨4, .w64⟩)),
    ([0x8A, 0x27], .movR8Rm8 p0 4 (.base 7 .none), .mov (.reg ⟨0, .high8⟩) (.mem ⟨(.gpr 7), none, 0x0, none, .w8⟩)),
    ([0x48, 0x8B, 0x05, 0x10, 0x00, 0x00, 0x00], .movRRm pW 0 (.ripRel 0x10),
      .mov (.reg ⟨0, .w64⟩) (.mem ⟨.rip, none, 0x10, none, .w64⟩)),
    ([0x41, 0xB4, 0x7F], .movR8Imm8 pB 4 0x7F, .mov (.reg ⟨12, .low8⟩) (.imm 0x7F)),
    ([0x48, 0xB8, 0x88, 0x77, 0x66, 0x55, 0x44, 0x33, 0x22, 0x11], .movRImm pW 0 (.i64 0x1122334455667788),
      .mov (.reg ⟨0, .w64⟩) (.imm 0x1122334455667788))] &&
  readsAll [([0xC6, 0x00, 0xFF], .movRm8Imm8 p0 (.base 0 .none) 0xFF,
      .mov (.mem ⟨(.gpr 0), none, 0x0, none, .w8⟩) (.imm 0xFFFFFFFFFFFFFFFF)),
    ([0x66, 0xC7, 0x00, 0x34, 0x12], .movRmImm p66 (.base 0 .none) (.i16 0x1234),
      .mov (.mem ⟨(.gpr 0), none, 0x0, none, .w16⟩) (.imm 0x1234))] = true := by decide

/-- lea 8D, movzx 0F B6 and 0F B7. -/
theorem test_decode_lea_movzx :
  readsAll [([0x4D, 0x8D, 0x44, 0x24, 0x10], .leaRM ⟨[], some ⟨true, true, false, true⟩⟩ 0 (.sib 0 4 4 (.d8 0x10)),
      .lea (.reg ⟨8, .w64⟩) (.mem ⟨(.gpr 12), none, 0x10, none, .w64⟩)),
    ([0x66, 0x0F, 0xB6, 0xC4], .movzxRRm8 p66 0 (.reg 4), .movzx (.reg ⟨0, .w16⟩) (.reg ⟨0, .high8⟩)),
    ([0x48, 0x0F, 0xB7, 0x03], .movzxRRm16 pW 0 (.base 3 .none),
      .movzx (.reg ⟨0, .w64⟩) (.mem ⟨(.gpr 3), none, 0x0, none, .w16⟩))] = true := by decide

/-- shl and shr: C0, C1, D0 to D3, /4 and /5; the count immediate is zero-extended. -/
theorem test_decode_shift :
  readsAll [([0xC0, 0xE0, 0x08], .shlRm8Imm8 p0 (.reg 0) 8, .shl (.reg ⟨0, .low8⟩) (.imm 0x8)),
    ([0xC0, 0xE8, 0xFF], .shrRm8Imm8 p0 (.reg 0) 0xFF, .shr (.reg ⟨0, .low8⟩) (.imm 0xFF)),
    ([0x48, 0xC1, 0xE0, 0x04], .shlRmImm8 pW (.reg 0) 4, .shl (.reg ⟨0, .w64⟩) (.imm 0x4)),
    ([0xC1, 0xE8, 0x1F], .shrRmImm8 p0 (.reg 0) 0x1F, .shr (.reg ⟨0, .w32⟩) (.imm 0x1F)),
    ([0xD0, 0xE4], .shlRm8One p0 (.reg 4), .shl (.reg ⟨0, .high8⟩) (.imm 0x1)),
    ([0xD0, 0x2B], .shrRm8One p0 (.base 3 .none), .shr (.mem ⟨(.gpr 3), none, 0x0, none, .w8⟩) (.imm 0x1))] &&
  readsAll [([0x48, 0xD1, 0xE0], .shlRmOne pW (.reg 0), .shl (.reg ⟨0, .w64⟩) (.imm 0x1)),
    ([0xD1, 0xE8], .shrRmOne p0 (.reg 0), .shr (.reg ⟨0, .w32⟩) (.imm 0x1)),
    ([0xD2, 0xE3], .shlRm8Cl p0 (.reg 3), .shl (.reg ⟨3, .low8⟩) (.reg ⟨1, .low8⟩)),
    ([0xD2, 0xE8], .shrRm8Cl p0 (.reg 0), .shr (.reg ⟨0, .low8⟩) (.reg ⟨1, .low8⟩)),
    ([0x48, 0xD3, 0xE1], .shlRmCl pW (.reg 1), .shl (.reg ⟨1, .w64⟩) (.reg ⟨1, .low8⟩)),
    ([0x66, 0xD3, 0xE8], .shrRmCl p66 (.reg 0), .shr (.reg ⟨0, .w16⟩) (.reg ⟨1, .low8⟩))] = true := by decide

/-- inc and dec: FE and FF, /0 and /1. -/
theorem test_decode_inc_dec :
  readsAll [([0xFE, 0xC0], .incRm8 p0 (.reg 0), .inc (.reg ⟨0, .low8⟩)),
    ([0xFE, 0xC8], .decRm8 p0 (.reg 0), .dec (.reg ⟨0, .low8⟩)),
    ([0xFF, 0x00], .incRm p0 (.base 0 .none), .inc (.mem ⟨(.gpr 0), none, 0x0, none, .w32⟩)),
    ([0x66, 0xFF, 0x08], .decRm p66 (.base 0 .none), .dec (.mem ⟨(.gpr 0), none, 0x0, none, .w16⟩))] = true := by decide

/-- call, jmp, ret, leave: E8, FF /2, E9, EB, FF /4, C3, C9. -/
theorem test_decode_transfer :
  readsAll [([0xE8, 0xFB, 0xFF, 0xFF, 0xFF], .callRel32 p0 0xFFFFFFFB, .call (.imm 0x1000)),
    ([0xFF, 0x15, 0xFA, 0x0F, 0x00, 0x00], .callRm64 p0 (.ripRel 0xFFA),
      .call (.mem ⟨.rip, none, 0xFFA, none, .w64⟩)),
    ([0xE9, 0xFB, 0x0F, 0x00, 0x00], .jmpRel32 p0 0xFFB, .unconditionalJump (.imm 0x2000)),
    ([0xEB, 0xFE], .jmpRel8 p0 0xFE, .unconditionalJump (.imm 0x1000)),
    ([0xFF, 0x24, 0xC5, 0x00, 0x30, 0x00, 0x00], .jmpRm64 p0 (.sibNoBase 3 0 0x3000),
      .unconditionalJump (.mem ⟨.absent, (some (0, .s8)), 0x3000, none, .w64⟩)),
    ([0xC3], .ret p0, .ret)] &&
  readsAll [([0xC9], .leave p0, .leave)] = true := by decide

/-- rep rows F3 A4, AA, AC, AE; nop 90 and 0F 1F /0; cld FC; int3 CC. -/
theorem test_decode_string_misc :
  readsAll [([0xF3, 0xA4], .repMovsb pF3, .rep .mov),
    ([0xF3, 0xAA], .repStosb pF3, .rep .stos),
    ([0xF3, 0xAC], .repLodsb pF3, .rep .lods),
    ([0xF3, 0xAE], .repeScasb pF3, .rep .scas),
    ([0x66, 0x90], .nop p66, .nop),
    ([0x0F, 0x1F, 0x44, 0x00, 0x00], .nopRm p0 (.sib 0 0 0 (.d8 0)), .nop)] &&
  readsAll [([0xFC], .cld p0, .cld),
    ([0xCC], .int3 p0, .int3)] = true := by decide

/-- The free fields of the encoding, REX.R and REX.X where no field uses them, keep the row: mov ah and mov spl, 41 57
and 45 57 (R94, R99). -/
theorem test_decode_rex : readsAll
  [([0x88, 0xE0], .movRm8R8 p0 4 (.reg 0), .mov (.reg ⟨0, .low8⟩) (.reg ⟨0, .high8⟩)),
    ([0x40, 0x88, 0xE0], .movRm8R8 pX 4 (.reg 0), .mov (.reg ⟨0, .low8⟩) (.reg ⟨4, .low8⟩)),
    ([0x45, 0x57], .pushR64 ⟨[], some ⟨false, true, false, true⟩⟩ 7, .push (.reg ⟨15, .w64⟩)),
    ([0x65, 0x0F, 0x1F, 0x00], .nopRm pGs (.base 0 .none), .nop)] = true := by decide

/-- Every window has no row. -/
def noRows (windows : List (List Byte)) : Bool := windows.all fun w => decodeRow w == .noRow

/-- DI1 to DI14: prefixes a row forbids, and opcodes without a row. -/
theorem test_no_row_prefixes : noRows [[0xA4], [0xF3, 0x90], [0xF3, 0xC3], [0x66, 0x50], [0x66, 0xC3],
    [0x66, 0xE8, 0, 0, 0, 0], [0x66, 0xFC], [0xF0, 0x48, 0x01, 0x00], [0xF2, 0xA4], [0x67, 0x8B, 0x00], [0x41, 0x90],
    [0x48, 0x66, 0x90], [0x48, 0x48, 0x90], [0x0F, 0x05]] = true := by decide

/-- DI15 to DI37: digits without a row, wider strings, and more than 15 bytes. -/
theorem test_no_row_opcodes : noRows [[0xF4], [0x08, 0xC0], [0x80, 0xC8, 0x01], [0xFF, 0x18], [0xFF, 0xF8], [0x8D, 0xC0],
    [0xF3, 0xA5], [0x65, 0xF3, 0xA4], [0x66, 0xF3, 0xA4], [0x0F, 0x1F, 0x48, 0x00], [0xC1, 0xF8, 0x01], [0xC1, 0xF0, 0x01],
    [0xF7, 0xD8], [0x8F, 0xC8], [0xC2, 0x08, 0x00], [0xFD], [0xCD, 0x03],
    List.replicate 12 0x66 ++ [0x81, 0xC0, 0x34], List.replicate 15 0x66] = true := by decide

/-- DT1 to DT16. -/
theorem test_truncated : ([[], [0x48], [0x66], [0x0F], [0x48, 0x8B], [0x48, 0x8B, 0x04],
    [0x48, 0x8B, 0x05, 0x10, 0x00, 0x00], [0xE8, 0x00, 0x00], [0x48, 0xB8, 0x88, 0x77, 0x66, 0x55, 0x44, 0x33, 0x22],
    [0xF0], [0xF3], [0x80], [0x80, 0xC0], [0x0F, 0x85, 0x00, 0x00, 0x00], [0x74],
    List.replicate 14 0x66].all fun w => decodeRow w == .truncated) = true := by decide

/-- The host's numbering of a table word: the first byte in bits 7..0, zero bytes above (R90). -/
theorem test_decodeTableWord : decodeTableWord 8 0xC3 = some (.ret p0) ∧
    decodeTableWord 16 0xC001 = some (.addRmR p0 0 (.reg 0)) ∧ decodeTableWord 8 0xF4 = none := by decide

/-! ## Ill-formed terms, one for each check of `Instr.wf` -/

/-- 66 on a row with opsize 64; F3 on RET; no F3 on MOVSB; REX.B on the row 90; a segment on a string row (R92, R125,
R126). -/
theorem test_wf_prefixes : (Instr.pushR64 p66 0).wf = false ∧ (Instr.ret pF3).wf = false ∧
    (Instr.repMovsb p0).wf = false ∧ (Instr.nop pB).wf = false ∧ (Instr.repMovsb ⟨[.seg .gs, .rep], none⟩).wf = false ∧
    (Instr.repMovsb pF3).wf = true := by decide

/-- LEA of a register; the three-bit fields that mean another form (R94, R100, R101). -/
theorem test_wf_rm : (Instr.leaRM p0 0 (.reg 1)).wf = false ∧ (Instr.leaRM p0 0 (.base 4 .none)).wf = false ∧
    (Instr.leaRM p0 0 (.base 5 .none)).wf = false ∧ (Instr.leaRM p0 0 (.sib 0 0 5 .none)).wf = false ∧
    (Instr.leaRM p0 0 (.base 5 (.d8 0))).wf = true := by decide

/-- An immediate of another size than the row and the prefixes give (R118). -/
theorem test_wf_imm : (Instr.addAccImm p66 (.i32 1)).wf = false ∧ (Instr.addAccImm pW (.i16 1)).wf = false ∧
    (Instr.movRImm p0 0 (.i64 1)).wf = false ∧ (Instr.movRImm pW 0 (.i32 1)).wf = false ∧
    (Instr.movRImm pW 0 (.i64 1)).wf = true := by decide

/-- Sixteen bytes are too many, fifteen are not (R115). -/
theorem test_wf_length : (Instr.nop ⟨List.replicate 15 .opSize, none⟩).wf = false ∧
    (Instr.nop ⟨List.replicate 14 .opSize, none⟩).wf = true := by decide

/-! ## One step on the spec's vectors (95_test_vectors.md) -/

/-- Bytes placed in memory. -/
def place (data : List (Nat × List Byte)) (s : State) : State :=
  { s with bus := { s.bus with cells := data.foldl (fun m c => Memory.writeAll m c.1 c.2) s.bus.cells } }

/-- Registers set. -/
def regsSet (regs : List (Fin 16 × Word)) (s : State) : State := regs.foldl (fun s r => s.setReg r.1 r.2) s

/-- The start state of the vectors: the code at 0x1000 in a region of its own, a data region, a stack region, and the low
region DM12 names. -/
def machine (code : List Byte) (regs : List (Fin 16 × Word)) (flags : Word) (data : List (Nat × List Byte)) : State :=
  regsSet regs (place ((0x1000, code) :: data) ⟨Vector.replicate 16 0, 0x1000, flags,
    ⟨[⟨0x1000, 0x1000 + BitVec.ofNat 64 code.length, none, true, true⟩, ⟨0x2000, 0x2020, none, true, false⟩,
      ⟨0x7F00, 0x8000, none, true, false⟩, ⟨0, 0x40, none, true, false⟩], []⟩, Stream.idle, 0⟩)

/-- The step goes on to exactly the start state with this pc and these registers, flags and bytes. -/
def gives (s : State) (pc : Word) (regs : List (Fin 16 × Word)) (flags : Word) (data : List (Nat × List Byte)) : Bool :=
  match step s with
  | .next t => t == ((regsSet regs (place data s)).setFlags flags).setRip pc
  | _ => false

/-- As `gives`, for a shift that draws bits: the flags are tested apart. -/
def givesButFlags (s : State) (pc : Word) (regs : List (Fin 16 × Word)) (data : List (Nat × List Byte)) : Bool :=
  match step s with
  | .next t => let u := regsSet regs (place data s); t.regs == u.regs && t.rip == pc && t.bus == u.bus
  | _ => false

/-- The step faults so, leaving exactly the start state with these registers and bytes. -/
def stops (s : State) (f : State → Fault) (regs : List (Fin 16 × Word)) (data : List (Nat × List Byte)) : Bool :=
  match step s with
  | .fault x => x == f (regsSet regs (place data s))
  | _ => false

/-! ### Data movement -/

/-- RV2: `mov ah, 0xFF`. -/
theorem test_mov_rv2 : gives (machine [0xB4, 0xFF] [(0, 0x1122334455667788)] 0x0 [])
    0x1002 [(0, 0x112233445566FF88)] 0x0 [] = true := by decide

/-- RV4: `mov eax, 0xFFFFFFFF`; 32-bit write zero-extends. -/
theorem test_mov_rv4 : gives (machine [0xB8, 0xFF, 0xFF, 0xFF, 0xFF] [(0, 0x1122334455667788)] 0x0 [])
    0x1005 [(0, 0xFFFFFFFF)] 0x0 [] = true := by decide

/-- RV7: `mov al, spl`; REX present: register 4 is spl, not ah. -/
theorem test_mov_rv7 : gives (machine [0x40, 0x88, 0xE0] [(0, 0x1122334455667788), (4, 0x7FF8)] 0x0 [])
    0x1003 [(0, 0x11223344556677F8)] 0x0 [] = true := by decide

/-- RV11: `mov ch, dl`; High8 of slot 1. -/
theorem test_mov_rv11 : gives (machine [0x88, 0xD5] [(1, 0x1122334455667788), (2, 0xAB)] 0x0 [])
    0x1002 [(1, 0x112233445566AB88)] 0x0 [] = true := by decide

/-- DM4: `mov qword ptr [rbx], rax`; little-endian store. -/
theorem test_mov_dm4 : gives (machine [0x48, 0x89, 0x03] [(0, 0x1122334455667788), (3, 0x2008)] 0x0 [])
    0x1003 [] 0x0 [(0x2008, [0x88, 0x77, 0x66, 0x55, 0x44, 0x33, 0x22, 0x11])] = true := by decide

/-- DM9: `mov rax, qword ptr [rip+0x0FF9]`; EA = 0x1000 + 7 + 0xFF9 = 0x2000. -/
theorem test_mov_dm9 : gives
    (machine [0x48, 0x8B, 0x05, 0xF9, 0x0F, 0x00, 0x00] [] 0x0 [(0x2000, [0x88, 0x77, 0x66, 0x55, 0x44, 0x33, 0x22,
      0x11])])
    0x1007 [(0, 0x1122334455667788)] 0x0 [] = true := by decide

/-- DM12: `mov rax, qword ptr gs:[0x30]`; GS override faults even though 0x30..0x38 is mapped (region 0..0x40). -/
theorem test_mov_dm12 : stops
    (machine [0x65, 0x48, 0x8B, 0x04, 0x25, 0x30, 0x00, 0x00, 0x00] [(0, 0x1122334455667788)] 0x0 [])
    (.segmentFault .gs) [] [] = true := by decide

/-- DM13: `mov rax, qword ptr ds:[rbx]`; DS override ignored. -/
theorem test_mov_dm13 : gives
    (machine [0x3E, 0x48, 0x8B, 0x03] [(3, 0x2000)] 0x0 [(0x2000, [0x01, 0x02, 0x03, 0x04, 0x05, 0x06, 0x07, 0x08])])
    0x1004 [(0, 0x807060504030201)] 0x0 [] = true := by decide

/-- DM14: `movzx eax, cl`. -/
theorem test_movzx_dm14 : gives (machine [0x0F, 0xB6, 0xC1] [(0, 0x1122334455667788), (1, 0x1FF)] 0x0 [])
    0x1003 [(0, 0xFF)] 0x0 [] = true := by decide

/-- DM16: `movzx ax, ah`; 16-bit destination: bits 63:16 kept. -/
theorem test_movzx_dm16 : gives (machine [0x66, 0x0F, 0xB6, 0xC4] [(0, 0x1122334455667788)] 0x0 [])
    0x1004 [(0, 0x1122334455660077)] 0x0 [] = true := by decide

/-- DM19: `lea eax, [rbx+rcx*8-1]`; sum wraps mod 2^64 to 6; truncated to 32 bits, zero-extended. -/
theorem test_lea_dm19 : gives
    (machine [0x8D, 0x44, 0xCB, 0xFF] [(0, 0x1122334455667788), (3, 0xFFFFFFFFFFFFFFFF), (1, 0x1)] 0x0 [])
    0x1004 [(0, 0x6)] 0x0 [] = true := by decide

/-- DM21: `lea rax, gs:[rbx+8]`; Lea ignores the segment. -/
theorem test_lea_dm21 : gives (machine [0x65, 0x48, 0x8D, 0x43, 0x08] [(3, 0x9000)] 0x0 [])
    0x1005 [(0, 0x9008)] 0x0 [] = true := by decide

/-- DM23: `mov word ptr [rbx], 0x1234`. -/
theorem test_mov_dm23 : gives
    (machine [0x66, 0xC7, 0x03, 0x34, 0x12] [(3, 0x2000)] 0x0 [(0x2000, [0xAA, 0xAA, 0xAA, 0xAA])])
    0x1005 [] 0x0 [(0x2000, [0x34, 0x12, 0xAA, 0xAA])] = true := by decide

/-! ### Arithmetic -/

/-- AR6: `add al, 1`; 8-bit carry out: CF = 1; bits 63:8 kept. -/
theorem test_add_ar6 : gives (machine [0x04, 0x01] [(0, 0x11FF)] 0x0 [])
    0x1002 [(0, 0x1100)] 0x55 [] = true := by decide

/-- AR7: `add eax, 1`; 32-bit: result 0 zero-extended; CF = 1. -/
theorem test_add_ar7 : gives (machine [0x83, 0xC0, 0x01] [(0, 0xAAAAAAAAFFFFFFFF)] 0x0 [])
    0x1003 [(0, 0x0)] 0x55 [] = true := by decide

/-- AR13: `add qword ptr [rbx], rax`; memory destination: read, then write. -/
theorem test_add_ar13 : gives
    (machine [0x48, 0x01, 0x03] [(0, 0x1), (3, 0x2000)] 0x0 [(0x2000, [0xFF, 0xFF, 0xFF, 0xFF, 0xFF, 0xFF, 0xFF,
      0xFF])])
    0x1003 [] 0x55 [(0x2000, [0x00, 0x00, 0x00, 0x00, 0x00, 0x00, 0x00, 0x00])] = true := by decide

/-- AR15: `adc rax, rbx`; b + carry wraps to 0: CF = 1. -/
theorem test_adc_ar15 : gives (machine [0x48, 0x11, 0xD8] [(0, 0x0), (3, 0xFFFFFFFFFFFFFFFF)] 0x1 [])
    0x1003 [] 0x55 [] = true := by decide

/-- AR18: `adc rax, rbx`; OF = 1 from the carry in. -/
theorem test_adc_ar18 : gives (machine [0x48, 0x11, 0xD8] [(0, 0x7FFFFFFFFFFFFFFF), (3, 0x0)] 0x1 [])
    0x1003 [(0, 0x8000000000000000)] 0x894 [] = true := by decide

/-- AR20: `sub rax, rbx`; borrow: CF = 1, result 2^64 - 1. -/
theorem test_sub_ar20 : gives (machine [0x48, 0x29, 0xD8] [(0, 0x0), (3, 0x1)] 0x0 [])
    0x1003 [(0, 0xFFFFFFFFFFFFFFFF)] 0x95 [] = true := by decide

/-- AR21: `sub al, 1`; 8-bit signed overflow: OF = 1. -/
theorem test_sub_ar21 : gives (machine [0x2C, 0x01] [(0, 0x80)] 0x0 [])
    0x1002 [(0, 0x7F)] 0x810 [] = true := by decide

/-- AR25: `cmp rax, rbx`; signed less, unsigned above: CF = 0, SF = 1, OF = 0. -/
theorem test_cmp_ar25 : gives (machine [0x48, 0x39, 0xD8] [(0, 0xFFFFFFFFFFFFFFFD), (3, 0x5)] 0x0 [])
    0x1003 [] 0x80 [] = true := by decide

/-- AR26: `cmp byte ptr [rbx], 0x7F`; 0x80 - 0x7F = 1: OF = 1 (signed -128 - 127). -/
theorem test_cmp_ar26 : gives (machine [0x80, 0x3B, 0x7F] [(3, 0x2000)] 0x0 [(0x2000, [0x80])])
    0x1003 [] 0x810 [] = true := by decide

/-- AR28: `inc rax`; CF not written (stays 1). -/
theorem test_inc_ar28 : gives (machine [0x48, 0xFF, 0xC0] [(0, 0xFFFFFFFFFFFFFFFF)] 0x1 [])
    0x1003 [(0, 0x0)] 0x55 [] = true := by decide

/-- AR29: `inc al`; 8-bit: OF = 1, SF = 1. -/
theorem test_inc_ar29 : gives (machine [0xFE, 0xC0] [(0, 0x7F)] 0x0 [])
    0x1002 [(0, 0x80)] 0x890 [] = true := by decide

/-- AR32: `dec rax`; ZF = 1; CF stays 1. -/
theorem test_dec_ar32 : gives (machine [0x48, 0xFF, 0xC8] [(0, 0x1)] 0x1 [])
    0x1003 [(0, 0x0)] 0x45 [] = true := by decide

/-- AR34: `dec word ptr [rbx]`. -/
theorem test_dec_ar34 : gives (machine [0x66, 0xFF, 0x0B] [(3, 0x2000)] 0x0 [(0x2000, [0x00, 0x00, 0xAA])])
    0x1003 [] 0x94 [(0x2000, [0xFF, 0xFF, 0xAA])] = true := by decide

/-- AR36: `add qword ptr [rbx], rax`; faults on the read; flags and memory unchanged. -/
theorem test_add_ar36 : stops (machine [0x48, 0x01, 0x03] [(0, 0x1), (3, 0x3000)] 0x0 [])
    (.busFault 0x3000 8 .read) [] [] = true := by decide

/-! ### Logic and shifts -/

/-- LS1: `xor eax, eax`; CF and OF cleared; SF cleared; AF untouched (it was 0). -/
theorem test_xor_ls1 : gives (machine [0x31, 0xC0] [(0, 0xFFFFFFFF12345678)] 0x881 [])
    0x1002 [(0, 0x0)] 0x44 [] = true := by decide

/-- LS3: `xor rax, rbx`; AF stays 1. -/
theorem test_xor_ls3 : gives
    (machine [0x48, 0x31, 0xD8] [(0, 0xFF00FF00FF00FF00), (3, 0xFF00FF00FF00FF0)] 0x10 [])
    0x1003 [(0, 0xF0F0F0F0F0F0F0F0)] 0x94 [] = true := by decide

/-- LS6: `test al, 0x80`; SF = 1 at W = 8. -/
theorem test_test_ls6 : gives (machine [0xA8, 0x80] [(0, 0x80)] 0x0 [])
    0x1002 [] 0x80 [] = true := by decide

/-- LS8: `test byte ptr [rbx], 1`; memory operand read, nothing written. -/
theorem test_test_ls8 : gives (machine [0xF6, 0x03, 0x01] [(3, 0x2000)] 0x0 [(0x2000, [0x03])])
    0x1003 [] 0x0 [] = true := by decide

/-- LS10: `shl rax, 1`; n = 1: OF = r[63] xor CF = 1. -/
theorem test_shl_ls10 : givesButFlags (machine [0x48, 0xD1, 0xE0] [(0, 0x4000000000000000)] 0x0 [])
    0x1003 [(0, 0x8000000000000000)] [] = true := by decide

/-- LS13: `shl eax, cl`; count 32 masks to 0: the 32-bit write-back still zero-extends; flags untouched. -/
theorem test_shl_ls13 : gives (machine [0xD3, 0xE0] [(0, 0xAAAAAAAA00000001), (1, 0x20)] 0x1 [])
    0x1002 [(0, 0x1)] 0x1 [] = true := by decide

/-- LS17: `shl rcx, cl`; count read before the write: 3 << 3 = 24. -/
theorem test_shl_ls17 : givesButFlags (machine [0x48, 0xD3, 0xE1] [(1, 0x3)] 0x0 [])
    0x1003 [(1, 0x18)] [] = true := by decide

/-- LS19: `shr rax, 1`; CF = a[0] = 1; OF = a[63] = 1. -/
theorem test_shr_ls19 : givesButFlags (machine [0x48, 0xD1, 0xE8] [(0, 0x8000000000000001)] 0x0 [])
    0x1003 [(0, 0x4000000000000000)] [] = true := by decide

/-- LS25: `shr qword ptr [rbx], 1`. -/
theorem test_shr_ls25 : givesButFlags (machine [0x48, 0xD1, 0x2B] [(3, 0x2000)] 0x0 [(0x2000, [0x03])])
    0x1003 [] [(0x2000, [0x01, 0x00, 0x00, 0x00, 0x00, 0x00, 0x00, 0x00])] = true := by decide

/-- LS26: `shr rax, cl`; count 0: flags untouched. -/
theorem test_shr_ls26 : gives (machine [0x48, 0xD3, 0xE8] [(0, 0xFF), (1, 0x0)] 0x45 [])
    0x1003 [] 0x45 [] = true := by decide

/-! ### Stack -/

/-- ST2: `push rsp`; stores the old rsp. -/
theorem test_push_st2 : gives (machine [0x54] [(4, 0x8000)] 0x0 [])
    0x1001 [(4, 0x7FF8)] 0x0 [(0x7FF8, [0x00, 0x80, 0x00, 0x00, 0x00, 0x00, 0x00, 0x00])] = true := by decide

/-- ST5: `push qword ptr [rsp]`; source read at the old rsp. -/
theorem test_push_st5 : gives
    (machine [0xFF, 0x34, 0x24] [(4, 0x7FF8)] 0x0 [(0x7FF8, [0x01, 0x02, 0x03, 0x04, 0x05, 0x06, 0x07, 0x08])])
    0x1003 [(4, 0x7FF0)] 0x0 [(0x7FF0, [0x01, 0x02, 0x03, 0x04, 0x05, 0x06, 0x07, 0x08, 0x01, 0x02, 0x03, 0x04,
      0x05, 0x06, 0x07, 0x08])] = true := by decide

/-- ST7: `push rbx`; rsp - 8 wraps to 2^64 - 8. -/
theorem test_push_st7 : stops (machine [0x53] [(4, 0x0), (3, 0x1122334455667788)] 0x0 [])
    (.busFault 0xFFFFFFFFFFFFFFF8 8 .write) [] [] = true := by decide

/-- ST9: `pop rsp`; rsp = popped value, not + 8. -/
theorem test_pop_st9 : gives (machine [0x5C] [(4, 0x7FF8)] 0x0 [(0x7FF8, [0x00, 0x30])])
    0x1001 [(4, 0x3000)] 0x0 [] = true := by decide

/-- ST10: `pop qword ptr [rsp]`; destination address uses the incremented rsp (0x7FF8). -/
theorem test_pop_st10 : gives
    (machine [0x8F, 0x04, 0x24] [(4, 0x7FF0)] 0x0 [(0x7FF0, [0x11, 0x22, 0x33, 0x44, 0x55, 0x66, 0x77, 0x88])])
    0x1003 [(4, 0x7FF8)] 0x0 [(0x7FF0, [0x11, 0x22, 0x33, 0x44, 0x55, 0x66, 0x77, 0x88, 0x11, 0x22, 0x33, 0x44,
      0x55, 0x66, 0x77, 0x88])] = true := by decide +kernel

/-- ST12: `pop qword ptr [rbx]`; write faults: rsp not changed. -/
theorem test_pop_st12 : stops (machine [0x8F, 0x03] [(4, 0x7FF8), (3, 0x5000)] 0x0 [(0x7FF8, [0x01])])
    (.busFault 0x5000 8 .write) [] [] = true := by decide

/-- ST15: `leave`. -/
theorem test_leave_st15 : gives (machine [0xC9] [(5, 0x7FF0), (4, 0x7F80)] 0x0 [(0x7FF0, [0x00, 0x80])])
    0x1001 [(4, 0x7FF8), (5, 0x8000)] 0x0 [] = true := by decide

/-- ST16: `leave`; read at rbp faults. -/
theorem test_leave_st16 : stops (machine [0xC9] [(5, 0x9000), (4, 0x7F80)] 0x0 [])
    (.busFault 0x9000 8 .read) [] [] = true := by decide

/-! ### Control transfer -/

/-- CT37: `jmp self`; target = own address: pc compares equal, so it falls through (70_reset_and_hazards.md rule
R310). -/
theorem test_jmp_ct37 : gives (machine [0xEB, 0xFE] [] 0x0 [])
    0x1002 [] 0x0 [] = true := by decide

/-- CT41: `jmp rax`; target not checked now; the next fetch would fault. -/
theorem test_jmp_ct41 : gives (machine [0xFF, 0xE0] [(0, 0xDEAD0000)] 0x0 [])
    0xDEAD0000 [] 0x0 [] = true := by decide

/-- CT43: `jmp qword ptr [rip+0x0FFA]`; pointer read at 0x1006 + 0xFFA = 0x2000. -/
theorem test_jmp_ct43 : gives (machine [0xFF, 0x25, 0xFA, 0x0F, 0x00, 0x00] [] 0x0 [(0x2000, [0x00, 0x50])])
    0x5000 [] 0x0 [] = true := by decide

/-- CT44: `jmp qword ptr [rbx]`; pointer read faults. -/
theorem test_jmp_ct44 : stops (machine [0xFF, 0x23] [(3, 0x6000)] 0x0 [])
    (.busFault 0x6000 8 .read) [] [] = true := by decide

/-- CT46: `call rax`. -/
theorem test_call_ct46 : gives (machine [0xFF, 0xD0] [(4, 0x8000), (0, 0x3000)] 0x0 [])
    0x3000 [(4, 0x7FF8)] 0x0 [(0x7FF8, [0x02, 0x10, 0x00, 0x00, 0x00, 0x00, 0x00, 0x00])] = true := by decide

/-- CT47: `call rsp`; target resolved after the push: pc = new rsp (70_reset_and_hazards.md rule R312). -/
theorem test_call_ct47 : gives (machine [0xFF, 0xD4] [(4, 0x8000)] 0x0 [])
    0x7FF8 [(4, 0x7FF8)] 0x0 [(0x7FF8, [0x02, 0x10, 0x00, 0x00, 0x00, 0x00, 0x00, 0x00])] = true := by decide

/-- CT48: `call qword ptr [rsp]`; pointer read at the new rsp: reads the return address just pushed, 0x1003. -/
theorem test_call_ct48 : gives (machine [0xFF, 0x14, 0x24] [(4, 0x8000)] 0x0 [])
    0x1003 [(4, 0x7FF8)] 0x0 [(0x7FF8, [0x03, 0x10, 0x00, 0x00, 0x00, 0x00, 0x00, 0x00])] = true := by decide

/-- CT49: `call qword ptr [rbx]`; pointer read faults after the push: rsp and the stack slot stay changed
(90_conflicts.md C3). -/
theorem test_call_ct49 : stops (machine [0xFF, 0x13] [(4, 0x8000), (3, 0x6000)] 0x0 [])
    (.busFault 0x6000 8 .read) [(4, 0x7FF8)] [(0x7FF8, [0x02, 0x10, 0x00, 0x00, 0x00, 0x00, 0x00,
      0x00])] = true := by decide

/-- CT51: `call self`; target = own address: pushed, then falls through to 0x1005. -/
theorem test_call_ct51 : gives (machine [0xE8, 0xFB, 0xFF, 0xFF, 0xFF] [(4, 0x8000)] 0x0 [])
    0x1005 [(4, 0x7FF8)] 0x0 [(0x7FF8, [0x05, 0x10, 0x00, 0x00, 0x00, 0x00, 0x00, 0x00])] = true := by decide

/-- CT52: `ret`. -/
theorem test_ret_ct52 : gives (machine [0xC3] [(4, 0x7FF8)] 0x0 [(0x7FF8, [0x05, 0x10])])
    0x1005 [(4, 0x8000)] 0x0 [] = true := by decide

/-- CT54: `ret`; return to own address 0x1000: pc compares equal, falls through to 0x1001; rsp still popped. -/
theorem test_ret_ct54 : gives (machine [0xC3] [(4, 0x7FF8)] 0x0 [(0x7FF8, [0x00, 0x10])])
    0x1001 [(4, 0x8000)] 0x0 [] = true := by decide

/-- CT1 to CT15, odd: each condition taken. -/
theorem test_jcc_taken_1 :
  gives (machine [0x70, 0x10] [] 0x800 []) 0x1012 [] 0x800 [] &&
  gives (machine [0x71, 0x10] [] 0x0 []) 0x1012 [] 0x0 [] &&
  gives (machine [0x72, 0x10] [] 0x1 []) 0x1012 [] 0x1 [] &&
  gives (machine [0x73, 0x10] [] 0x0 []) 0x1012 [] 0x0 [] &&
  gives (machine [0x74, 0x10] [] 0x40 []) 0x1012 [] 0x40 [] &&
  gives (machine [0x75, 0x10] [] 0x0 []) 0x1012 [] 0x0 [] &&
  gives (machine [0x76, 0x10] [] 0x40 []) 0x1012 [] 0x40 [] &&
  gives (machine [0x77, 0x10] [] 0x0 []) 0x1012 [] 0x0 [] = true := by decide

/-- CT17 to CT33, odd: each condition taken. -/
theorem test_jcc_taken_2 :
  gives (machine [0x78, 0x10] [] 0x80 []) 0x1012 [] 0x80 [] &&
  gives (machine [0x79, 0x10] [] 0x0 []) 0x1012 [] 0x0 [] &&
  gives (machine [0x7A, 0x10] [] 0x4 []) 0x1012 [] 0x4 [] &&
  gives (machine [0x7B, 0x10] [] 0x0 []) 0x1012 [] 0x0 [] &&
  gives (machine [0x7C, 0x10] [] 0x80 []) 0x1012 [] 0x80 [] &&
  gives (machine [0x7D, 0x10] [] 0x880 []) 0x1012 [] 0x880 [] &&
  gives (machine [0x7E, 0x10] [] 0x800 []) 0x1012 [] 0x800 [] &&
  gives (machine [0x7F, 0x10] [] 0x880 []) 0x1012 [] 0x880 [] &&
  gives (machine [0xE3, 0x10] [(1, 0x0)] 0x0 []) 0x1012 [] 0x0 [] = true := by decide

/-- CT2 to CT16, even: each condition not taken. -/
theorem test_jcc_not_taken_1 :
  gives (machine [0x70, 0x10] [] 0x0 []) 0x1002 [] 0x0 [] &&
  gives (machine [0x71, 0x10] [] 0x800 []) 0x1002 [] 0x800 [] &&
  gives (machine [0x72, 0x10] [] 0x0 []) 0x1002 [] 0x0 [] &&
  gives (machine [0x73, 0x10] [] 0x1 []) 0x1002 [] 0x1 [] &&
  gives (machine [0x74, 0x10] [] 0x0 []) 0x1002 [] 0x0 [] &&
  gives (machine [0x75, 0x10] [] 0x40 []) 0x1002 [] 0x40 [] &&
  gives (machine [0x76, 0x10] [] 0x0 []) 0x1002 [] 0x0 [] &&
  gives (machine [0x77, 0x10] [] 0x1 []) 0x1002 [] 0x1 [] = true := by decide

/-- CT18 to CT34, even: each condition not taken. -/
theorem test_jcc_not_taken_2 :
  gives (machine [0x78, 0x10] [] 0x0 []) 0x1002 [] 0x0 [] &&
  gives (machine [0x79, 0x10] [] 0x80 []) 0x1002 [] 0x80 [] &&
  gives (machine [0x7A, 0x10] [] 0x0 []) 0x1002 [] 0x0 [] &&
  gives (machine [0x7B, 0x10] [] 0x4 []) 0x1002 [] 0x4 [] &&
  gives (machine [0x7C, 0x10] [] 0x880 []) 0x1002 [] 0x880 [] &&
  gives (machine [0x7D, 0x10] [] 0x800 []) 0x1002 [] 0x800 [] &&
  gives (machine [0x7E, 0x10] [] 0x0 []) 0x1002 [] 0x0 [] &&
  gives (machine [0x7F, 0x10] [] 0x8C0 []) 0x1002 [] 0x8C0 [] &&
  gives (machine [0xE3, 0x10] [(1, 0x100000000)] 0x0 []) 0x1002 [] 0x0 [] = true := by decide

/-! ### Strings -/

/-- SR2: `rep movsb`; rcx = 0: no access, no fault, nothing mapped needed. -/
theorem test_rep_movsb_sr2 : gives (machine [0xF3, 0xA4] [(1, 0x0), (6, 0x9000), (7, 0x9000)] 0x0 [])
    0x1002 [] 0x0 [] = true := by decide

/-- SR3: `rep movsb`; DF = 1: pointers decrease. -/
theorem test_rep_movsb_sr3 : gives
    (machine [0xF3, 0xA4] [(1, 0x3), (6, 0x2003), (7, 0x2013)] 0x400 [(0x2000, [0x41, 0x42, 0x43, 0x44])])
    0x1002 [(1, 0x0), (6, 0x2000), (7, 0x2010)] 0x400 [(0x2010, [0x00, 0x42, 0x43, 0x44, 0x00])] = true := by decide

/-- SR4: `rep movsb`; overlapping forward copy smears the first byte. -/
theorem test_rep_movsb_sr4 : gives
    (machine [0xF3, 0xA4] [(1, 0x4), (6, 0x2000), (7, 0x2001)] 0x0 [(0x2000, [0x41, 0x42])])
    0x1002 [(1, 0x0), (6, 0x2004), (7, 0x2005)] 0x0 [(0x2000, [0x41, 0x41, 0x41, 0x41, 0x41,
      0x00])] = true := by decide

/-- SR5: `rep movsb`; fifth write (0x2020) faults: four iterations stay (rule R250 (e)). -/
theorem test_rep_movsb_sr5 : stops
    (machine [0xF3, 0xA4] [(1, 0x8), (6, 0x2000), (7, 0x201C)] 0x0 [(0x2000, [0x41, 0x42, 0x43, 0x44, 0x45, 0x46,
      0x47, 0x48])])
    (.busFault 0x2020 1 .write) [(1, 0x4), (6, 0x2004), (7, 0x2020)] [(0x201C, [0x41, 0x42, 0x43,
      0x44])] = true := by decide

/-- SR6: `rep stosb`; stores al. -/
theorem test_rep_stosb_sr6 : gives (machine [0xF3, 0xAA] [(0, 0x1234), (1, 0x5), (7, 0x2000)] 0x0 [])
    0x1002 [(1, 0x0), (7, 0x2005)] 0x0 [(0x2000, [0x34, 0x34, 0x34, 0x34, 0x34, 0x00])] = true := by decide

/-- SR7: `rep lodsb`; al = last byte read; bits 63:8 kept. -/
theorem test_rep_lodsb_sr7 : gives
    (machine [0xF3, 0xAC] [(0, 0x1122334455667788), (1, 0x3), (6, 0x2000)] 0x0 [(0x2000, [0x01, 0x02, 0x03])])
    0x1002 [(0, 0x1122334455667703), (1, 0x0), (6, 0x2003)] 0x0 [] = true := by decide

/-- SR8: `repe scasb`; stops after the first mismatch (4th byte): rcx = 4, rdi one past it; flags of 0x41 - 0x42. -/
theorem test_repe_scasb_sr8 : gives
    (machine [0xF3, 0xAE] [(0, 0x41), (1, 0x8), (7, 0x2000)] 0x0 [(0x2000, [0x41, 0x41, 0x41, 0x42])])
    0x1002 [(1, 0x4), (7, 0x2004)] 0x95 [] = true := by decide

/-- SR9: `repe scasb`; count exhausted with all equal: ZF = 1. -/
theorem test_repe_scasb_sr9 : gives
    (machine [0xF3, 0xAE] [(0, 0x41), (1, 0x3), (7, 0x2000)] 0x0 [(0x2000, [0x41, 0x41, 0x41, 0x41])])
    0x1002 [(1, 0x0), (7, 0x2003)] 0x44 [] = true := by decide

/-- SR10: `repe scasb`; rcx = 0: no iteration, flags untouched. -/
theorem test_repe_scasb_sr10 : gives
    (machine [0xF3, 0xAE] [(0, 0x41), (1, 0x0), (7, 0x2000)] 0x1 [(0x2000, [0x41, 0x41, 0x41, 0x41])])
    0x1002 [] 0x1 [] = true := by decide

/-! ### Miscellaneous -/

/-- MS3: `nop dword ptr [rax+rax*1+0]`; operand never accessed. -/
theorem test_nop_ms3 : gives (machine [0x0F, 0x1F, 0x44, 0x00, 0x00] [(0, 0xDEAD0000)] 0x0 [])
    0x1005 [] 0x0 [] = true := by decide

/-- MS5: `cld`; only bit 10 cleared. -/
theorem test_cld_ms5 : gives (machine [0xFC] [] 0x4D5 [])
    0x1001 [] 0xD5 [] = true := by decide

/-- MS7: `int3`; pc not advanced. -/
theorem test_int3_ms7 : stops (machine [0xCC] [] 0x0 [])
    (.breakpoint 0x1000) [] [] = true := by decide

/-! ### Flags of shifts, whatever is drawn (R204) -/

/-- LS9: 0xF000_0000_0000_000F shifted left by 4; CF is bit 60, AF and OF are drawn. -/
theorem test_shl_flags_ls9 : ∀ dc dv da : Bool,
    [bitCF, bitPF, bitAF, bitZF, bitSF, bitOF].map
      (updateShift .left 0xF00000000000000F#64 0xF0#64 4 dc dv da 0).getLsbD = [true, true, da, false, false, dv] := by
  decide

/-- LS16: `shl al, 9` draws CF too. -/
theorem test_shl_flags_ls16 : ∀ dc dv da : Bool,
    [bitCF, bitPF, bitAF, bitZF, bitSF, bitOF].map (updateShift .left 0xFF#8 0#8 9 dc dv da 0).getLsbD =
      [dc, true, da, true, false, dv] := by decide

/-- LS11: count 1, OF is the result's sign xor CF. -/
theorem test_shl_flags_ls11 : ∀ dc dv da : Bool,
    [bitCF, bitPF, bitAF, bitZF, bitSF, bitOF].map
      (updateShift .left 0xC000000000000000#64 0x8000000000000000#64 1 dc dv da 0).getLsbD =
      [true, true, da, false, true, false] := by decide

/-- LS19: `shr rax, 1`, OF is the operand's sign. -/
theorem test_shr_flags_ls19 : ∀ dc dv da : Bool,
    [bitCF, bitPF, bitAF, bitZF, bitSF, bitOF].map
      (updateShift .right 0x8000000000000001#64 0x4000000000000000#64 1 dc dv da 0).getLsbD =
      [true, true, da, false, false, true] := by decide

/-- LS23: `shr al, 8`, CF is bit 7. -/
theorem test_shr_flags_ls23 : ∀ dc dv da : Bool,
    [bitCF, bitPF, bitAF, bitZF, bitSF, bitOF].map (updateShift .right 0x80#8 0#8 8 dc dv da 0).getLsbD =
      [true, true, da, true, false, dv] := by decide

/-! ### Fetch and decode (2.9) -/

/-- FF1: pc in no region. -/
theorem test_fetch_ff1 : stops ((machine [0x90] [] 0 []).setRip 0x5000) (.busFault 0x5000 1 .fetch) [] [] = true := by
  decide

/-- FF2: a ModRM byte past the end of the region. -/
theorem test_fetch_ff2 : stops (machine [0x48, 0x8B] [] 0 []) (.decodeFault 0x1000) [] [] = true := by decide

/-- FF3: the fifth byte lies in an adjacent region. -/
theorem test_fetch_ff3 :
    (let s := machine [0xE8, 0, 0, 0] [] 0 []
    let s := { s with bus := { s.bus with regions := ⟨0x1004, 0x1008, none, true, true⟩ :: s.bus.regions } }
    stops s (.decodeFault 0x1000) [] []) = true := by decide

/-- FF8: the target's arithmetic wraps. -/
theorem test_fetch_ff8 :
    (let s : State := { State.reset with
      rip := 0xFFFFFFFFFFFFFFF0
      bus := ⟨[⟨0xFFFFFFFFFFFFFFF0, 0xFFFFFFFFFFFFFFF2, none, true, true⟩],
        [(0xFFFFFFFFFFFFFFF0, 0xEB), (0xFFFFFFFFFFFFFFF1, 0x10)]⟩ }
    gives s 2 [] 0 []) = true := by decide

/-- The first step after reset, the host's word placed at pc: `nop` runs and pc advances. -/
theorem test_withFetchWord : (match step (State.reset.withFetchWord 8 0x90) with
    | .next t => t.rip == 1 && t.regs == State.reset.regs
    | _ => false) = true := by decide

/-! ### Stream (96_test_vectors_decode.md section 5) -/

/-- The kinds, lengths and addresses of the items. -/
def items (is : List Instruction) : List (Word × Nat × InstructionType) := is.map fun i => (i.address, i.length, i.kind)

/-- SV2: two whole instructions and a REX byte with nothing after it. -/
theorem test_stream_sv2 :
    items (streamSequence [0x48, 0xC7, 0xC0, 0x05, 0x00, 0x00, 0x00, 0x48, 0x29, 0xC0, 0x48] 0x1000) =
      [(0x1000, 7, .mov (.reg ⟨0, .w64⟩) (.imm 5)), (0x1007, 3, .sub (.reg ⟨0, .w64⟩) (.reg ⟨0, .w64⟩))] := by decide

/-- SV1, the first two items by two pulls of the iterator: 14 bytes at the average of 7 are a batch of two. -/
theorem test_stream_sv1 :
    items (streamPulls 2 (streamCreate [0x53, 0x48, 0x89, 0xE5, 0x48, 0x83, 0xEC, 0x20, 0xE8, 0xF3, 0xEF, 0xFF, 0xFF, 0xC3]
      0x2000 15)) =
      [(0x2000, 1, .push (.reg ⟨3, .w64⟩)), (0x2001, 3, .mov (.reg ⟨5, .w64⟩) (.reg ⟨4, .w64⟩))] := by decide

/-! ### Bus (96_test_vectors_decode.md section 6) -/

/-- The three regions of the bus vectors, 0x1000 and 0x1010 adjacent. -/
def busState : Option State := loadInit Init.zero
  [⟨⟨0x1000, 0x1010, none, true, true⟩, (List.range 16).map (BitVec.ofNat 8)⟩,
    ⟨⟨0x1010, 0x1020, none, true, true⟩, (List.range 16).map fun k => BitVec.ofNat 8 (k + 16)⟩,
    ⟨⟨0x3000, 0x3004, none, true, true⟩, [0xA0, 0xA1, 0xA2, 0xA3]⟩]

/-- A read of the bus vectors. -/
def reads (w : Width) (a : Word) : Option (Except AccessError (BitVec w.bits)) := busState.map (memRead w a)

/-- What the read gives. -/
def readIs (w : Width) (a : Word) (v : BitVec w.bits) : Bool :=
  match reads w a with
  | some (.ok x) => x == v
  | _ => false

/-- The read is refused with this error. -/
def readFails (w : Width) (a : Word) (e : AccessError) : Bool :=
  match reads w a with
  | some (.error x) => x == e
  | _ => false

/-- BV1 to BV12. -/
theorem test_bus_reads : (readIs .w64 0x1008 0x0F0E0D0C0B0A0908 && readIs .w8 0x100F 0x0F && readIs .w8 0x1010 0x10 &&
    readFails .w64 0x100C (.bus 0x100C 8 .read) && readFails .w16 0x100F (.bus 0x100F 2 .read) &&
    readIs .w32 0x3000 0xA3A2A1A0 && readFails .w64 0x3000 (.bus 0x3000 8 .read) &&
    readFails .w16 0x3003 (.bus 0x3003 2 .read) && readFails .w8 0xFFF (.bus 0xFFF 1 .read) &&
    readFails .w8 0x3004 (.bus 0x3004 1 .read) &&
    readFails .w64 0xFFFFFFFFFFFFFFFC (.bus 0xFFFFFFFFFFFFFFFC 8 .read) && readIs .w32 0x1001 0x04030201) = true := by
  decide

/-! ## Witnesses: concrete states and operands that meet the hypotheses of each statement -/

/-- A machine whose bytes at pc are `push rbx`, with the registers named. -/
def sample (regs : List (Fin 16 × Word)) (flags : Word) : State :=
  machine [0x53] regs flags [(0x2000, [0x41, 0x41, 0x42, 0x00, 0x41]), (0x7FF8, [0x05, 0x10])]

theorem completes_of {i : Instr} {s : State} (p : State → Bool)
    (h : (match exec i s with | .next t => p t | _ => false) = true) : ∃ t, exec i s = .next t ∧ p t = true := by
  cases e : exec i s <;> simp [e] at h ⊢
  exact h

theorem faults_of {i : Instr} {s : State} (p : Fault → Bool)
    (h : (match exec i s with | .fault f => p f | _ => false) = true) : ∃ f, exec i s = .fault f ∧ p f = true := by
  cases e : exec i s <;> simp [e] at h ⊢
  exact h

/-- A code region and a data region that touch; a third that would overlap the first is refused. -/
theorem witness_SetupState :
    let regions : List RegionInit :=
      [⟨⟨0x1000, 0x1001, some "code", true, true⟩, [0x90]⟩, ⟨⟨0x1001, 0x1003, none, true, false⟩, [0, 7]⟩];
    (loadInit ⟨Vector.replicate 16 3, 0x1000, 0x400⟩ regions).isSome = true ∧
    (∀ x ∈ regions, x.region.startAddr.toNat + x.bytes.length = x.region.endAddr.toNat) ∧
    regions.Pairwise fun x y => x.region.endAddr ≤ y.region.startAddr ∨ y.region.endAddr ≤ x.region.startAddr := by
  decide

theorem witness_BusConstruction :
    let code : Region := ⟨0x1000, 0x1002, some "code", true, true⟩
    let late : RegionInit := ⟨⟨0x1001, 0x1003, none, true, true⟩, [1, 2]⟩;
    (busBuild [⟨code, [0x90, 0x90]⟩, ⟨⟨0x1002, 0x1003, none, true, true⟩, [1]⟩] ⟨[], []⟩).isSome = true ∧
    code ∈ (⟨[code], []⟩ : Bus).regions ∧ code.startAddr < late.region.endAddr ∧
      late.region.startAddr < code.endAddr := by decide

/-- Regions to accept: one on each side, adjacent, and an empty one at each end of a region already there. -/
theorem witness_BusConstruction_accepts :
    let code : Region := ⟨0x1000, 0x1002, some "code", true, true⟩
    let beside : List RegionInit :=
      [⟨⟨0xFFF, 0x1000, none, true, false⟩, [1]⟩, ⟨⟨0x1002, 0x1004, none, true, true⟩, [1, 2]⟩,
        ⟨⟨0x1000, 0x1000, none, true, true⟩, []⟩, ⟨⟨0x1002, 0x1002, none, true, true⟩, []⟩];
    (∀ x ∈ beside, x.region.startAddr.toNat + x.bytes.length = x.region.endAddr.toNat ∧
      ∀ r ∈ (⟨[code], []⟩ : Bus).regions, r.endAddr ≤ x.region.startAddr ∨ x.region.endAddr ≤ r.startAddr) ∧
    beside.Pairwise fun x y => x.region.endAddr ≤ y.region.startAddr ∨ y.region.endAddr ≤ x.region.startAddr := by
  decide

/-- One step on, and one that faults, both from states that meet the invariant. -/
theorem witness_StepKeepsInvariant :
    let s := sample [(4, 0x8000)] 0
    let u := sample [(4, 0x7F00)] 0;
    (s.bus.wf && Stream.wf s.stream && gives s 0x1001 [(4, 0x7FF8)] 0 [(0x7FF8, [0, 0])] &&
      u.bus.wf && Stream.wf u.stream && stops u (.busFault 0x7EF8 8 .write) [] []) = true := by decide

/-- Fifteen bytes are well formed. -/
theorem witness_DecodeOfEncode : (Instr.addRmImm ⟨[.seg .gs, .opSize], some ⟨false, false, true, true⟩⟩
      (.sib 1 0 5 (.d32 0x10)) (.i16 0x1234)).wf = true ∧
    (Instr.nop ⟨List.replicate 14 .opSize, none⟩).wf = true := by decide

theorem witness_EncodeOfDecode :
    decodeRow [0x48, 0x01, 0xD8, 0x90] = .row (.addRmR pW 3 (.reg 0)) := by decide

/-- No byte of it, and all but the last. -/
theorem witness_TruncatedWindow : let i := Instr.movRImm pW 0 (.i64 0x1122334455667788)
    i.wf = true ∧ 0 < i.length ∧ i.length - 1 < i.length := by decide

theorem mapped_of {s : State} {a : Word} {n : Nat} (h : s.bus.regions.any (·.contains a n) = true) : mapped s a n := by
  simpa [mapped] using h

theorem not_mapped_of {s : State} {a : Word} {n : Nat} (h : s.bus.regions.any (·.contains a n) = false) :
    ¬ mapped s a n := by
  simpa [mapped] using h

/-- The instruction fills its region, whose end is the end of its bytes. -/
theorem witness_StepRunsDecodedInstruction :
    let s := sample [] 0
    let i := Instr.pushR64 p0 3;
    s.bus.wf = true ∧ i.wf = true ∧ mapped s s.rip i.length ∧ bytesAt s s.rip i.length = encode i := by
  refine ⟨by decide, by decide, mapped_of (by decide), by decide⟩

theorem decode_noRow {w : List Byte} (h : decodeRow w = .noRow) (a : Word) :
    decode w a = .undecodable ∨ ∃ ins, decode w a = .decoded ins ∧ ins.kind = .invalid := by
  cases e : Config.extLen (w.take Config.maxLen) <;> simp [decode, h, e, mkInstruction]

/-- pc one byte past the code; a window cut short; a byte without a row, whatever EXT_LEN answers; an instruction. -/
theorem witness_FetchAndDecodeOutcomes :
    (let s := (sample [] 0).setRip 0x1001;
      ∀ r ∈ s.bus.regions, ¬ (r.startAddr ≤ s.rip ∧ s.rip < r.endAddr)) ∧
    (let s := machine [0x48, 0x8B] [] 0 [];
      fetchWindow s.bus s.rip = .ok [0x48, 0x8B] ∧ decode [0x48, 0x8B] s.rip = .truncated) ∧
    (let s := machine [0xF4] [] 0 [];
      fetchWindow s.bus s.rip = .ok [0xF4] ∧ (decode [0xF4] s.rip = .undecodable ∨
        ∃ ins, decode [0xF4] s.rip = .decoded ins ∧ ins.kind = .invalid)) ∧
    (let s := sample [] 0;
      fetchWindow s.bus s.rip = .ok [0x53] ∧ ∃ ins, decode [0x53] s.rip = .decoded ins ∧ ins.kind ≠ .invalid) := by
  exact ⟨by decide, ⟨rfl, by decide⟩, ⟨rfl, decode_noRow (by decide) _⟩, rfl, _, rfl, by decide⟩

/-- The first and the last byte of a region; one past it. -/
theorem witness_FetchWindowRule :
    let b := (sample [] 0).bus
    let r : Region := ⟨0x2000, 0x2020, none, true, false⟩;
    b.wf = true ∧ r ∈ b.regions ∧ (r.startAddr ≤ 0x2000 ∧ (0x2000 : Word) < r.endAddr) ∧
      (r.startAddr ≤ 0x201F ∧ (0x201F : Word) < r.endAddr) ∧
      ∀ q ∈ b.regions, ¬ (q.startAddr ≤ 0x2020 ∧ (0x2020 : Word) < q.endAddr) := by decide

/-- The last eight bytes of a region; one byte further. -/
theorem witness_MemReadRule : mapped (sample [] 0) 0x2018 Width.w64.bytes ∧
    ¬ mapped (sample [] 0) 0x2019 Width.w64.bytes :=
  ⟨mapped_of (by decide), not_mapped_of (by decide)⟩

theorem witness_MemWriteRule : (sample [] 0).bus.wf = true ∧ mapped (sample [] 0) 0x2000 Width.w32.bytes ∧
    ¬ mapped (sample [] 0) 0x1FFF Width.w32.bytes :=
  ⟨by decide, mapped_of (by decide), not_mapped_of (by decide)⟩

/-- Each view at its edges: all ones written over zero, and zero over all ones. -/
theorem witness_RegWriteRule :
    ([View.low8, .high8, .w16, .w32, .w64].map fun v => ((State.reset.regWrite ⟨2, v⟩ (BitVec.allOnes _)).reg 2).toNat) =
      [0xFF, 0xFF00, 0xFFFF, 0xFFFFFFFF, 0xFFFFFFFFFFFFFFFF] ∧
    ([View.low8, .high8, .w16, .w32, .w64].map fun v =>
      (((State.reset.setReg 2 (BitVec.allOnes 64)).regWrite ⟨2, v⟩ 0).reg 2).toNat) =
      [0xFFFFFFFFFFFFFF00, 0xFFFFFFFFFFFF00FF, 0xFFFFFFFFFFFF0000, 0, 0] := by decide

/-- FS and GS fault, ES does not; the sum wraps. -/
theorem witness_EffectiveAddressRule :
    let s := sample [(3, 0xFFFFFFFFFFFFFFFF), (1, 1)] 0
    let m := fun g : Option Seg => (⟨.gpr 3, some (1, .s8), 0xFFFFFFFFFFFFFFFF, g, .w32⟩ : MemOperand);
    ea0 4 (m none) s = 6 ∧ (match ea 4 (m (some .fs)) s with | .error (.segment .fs) => true | _ => false) = true ∧
      (match ea 4 (m (some .gs)) s with | .error (.segment .gs) => true | _ => false) = true ∧
      (match ea 4 (m (some .es)) s with | .ok a => a == 6 | _ => false) = true := by decide

/-- The memory operand `[rbx]` of a width. -/
abbrev atRbx (w : Width) : MemOperand := ⟨.gpr 3, none, 0, none, w⟩

/-- `[rbx]` at the last eight bytes of the data region. -/
abbrev edge : State := sample [(3, 0x2018), (0, 0x80), (1, 0)] 0x8D5

theorem edge_accessible (w : Width) (len : Nat) : accessible len (.mem (atRbx w)) edge := by
  refine ⟨nofun, nofun, mapped_of ?_⟩
  cases w <;> rfl

theorem witness_MovResult : let i := Instr.movRmR pW 0 (.base 3 .none)
    i.kind edge.rip = .mov (.mem (atRbx .w64)) (.reg ⟨0, .w64⟩) ∧ edge.bus.wf = true ∧
      accessible i.length (.mem (atRbx .w64)) edge ∧ accessible i.length (.reg ⟨0, .w64⟩) edge :=
  ⟨by decide, by decide, edge_accessible _ _, trivial⟩

theorem witness_MovzxResult : let i := Instr.movzxRRm8 p0 0 (.base 3 .none)
    i.kind edge.rip = .movzx (.reg ⟨0, .w32⟩) (.mem (atRbx .w8)) ∧ edge.bus.wf = true ∧
      accessible i.length (.reg ⟨0, .w32⟩) edge ∧ accessible i.length (.mem (atRbx .w8)) edge :=
  ⟨by decide, by decide, trivial, edge_accessible _ _⟩

theorem witness_LeaResult : let i := Instr.leaRM pW 0 (.base 3 .none)
    i.kind edge.rip = .lea (.reg ⟨0, .w64⟩) (.mem (atRbx .w64)) ∧ i.wf = true := by decide

theorem witness_AddResult : let i := Instr.addRmR pW 0 (.base 3 .none)
    i.kind edge.rip = .add (.mem (atRbx .w64)) (.reg ⟨0, .w64⟩) ∧ edge.bus.wf = true ∧
      accessible i.length (.mem (atRbx .w64)) edge ∧ accessible i.length (.reg ⟨0, .w64⟩) edge :=
  ⟨by decide, by decide, edge_accessible _ _, trivial⟩

theorem witness_AdcResult : let i := Instr.adcR8Rm8 p0 4 (.base 3 .none)
    i.kind edge.rip = .adc (.reg ⟨0, .high8⟩) (.mem (atRbx .w8)) ∧ edge.bus.wf = true ∧
      accessible i.length (.reg ⟨0, .high8⟩) edge ∧ accessible i.length (.mem (atRbx .w8)) edge :=
  ⟨by decide, by decide, trivial, edge_accessible _ _⟩

theorem witness_SubResult : let i := Instr.subRmImm8 p66 (.base 3 .none) 0xFF
    i.kind edge.rip = .sub (.mem (atRbx .w16)) (.imm 0xFFFFFFFFFFFFFFFF) ∧ edge.bus.wf = true ∧
      accessible i.length (.mem (atRbx .w16)) edge ∧ accessible i.length (.imm 0xFFFFFFFFFFFFFFFF) edge :=
  ⟨by decide, by decide, edge_accessible _ _, trivial⟩

theorem witness_CmpResult : let i := Instr.cmpRRm p0 0 (.base 3 .none)
    i.kind edge.rip = .cmp (.reg ⟨0, .w32⟩) (.mem (atRbx .w32)) ∧
      accessible i.length (.reg ⟨0, .w32⟩) edge ∧ accessible i.length (.mem (atRbx .w32)) edge :=
  ⟨by decide, trivial, edge_accessible _ _⟩

theorem witness_IncDecResult : let i := Instr.incRm pW (.base 3 .none)
    let j := Instr.decRm8 p0 (.base 3 .none);
    edge.bus.wf = true ∧ (i.kind edge.rip = .inc (.mem (atRbx .w64)) ∧ accessible i.length (.mem (atRbx .w64)) edge) ∧
      (j.kind edge.rip = .dec (.mem (atRbx .w8)) ∧ accessible j.length (.mem (atRbx .w8)) edge) :=
  ⟨by decide, ⟨by decide, edge_accessible _ _⟩, ⟨by decide, edge_accessible _ _⟩⟩

theorem witness_SumFlagsMeaning : (updateAdc (0xFF#8) 0 true (0xFF#8 + 0 + BitVec.ofNat 8 true.toNat) 0).getLsbD bitCF = true ∧
    (updateAdc (0x7F#8) 0 true (0x7F#8 + 0 + BitVec.ofNat 8 true.toNat) 0).getLsbD bitOF = true ∧
    (updateAdc (0x0F#8) 0 true (0x0F#8 + 0 + BitVec.ofNat 8 true.toNat) 0).getLsbD bitAF = true := by decide

/-- The signed extremes compared: 0x80 and 0x7F at 8 bits. -/
theorem witness_CmpThenConditions : let i := Instr.cmpRmR p0 3 (.reg 0)
    i.kind edge.rip = .cmp (.reg ⟨0, .w32⟩) (.reg ⟨3, .w32⟩) ∧ ∃ t, exec i edge = .next t ∧ (t.rip == edge.rip) = true :=
  ⟨by decide, completes_of _ (by decide)⟩

theorem witness_TestResult : let i := Instr.testRmImm p0 (.base 3 .none) (.i32 1)
    i.kind edge.rip = .test (.mem (atRbx .w32)) (.imm 1) ∧
      accessible i.length (.mem (atRbx .w32)) edge ∧ accessible i.length (.imm 1) edge :=
  ⟨by decide, edge_accessible _ _, trivial⟩

theorem witness_XorResult : let i := Instr.xorRmR pW 0 (.base 3 .none)
    i.kind edge.rip = .xor (.mem (atRbx .w64)) (.reg ⟨0, .w64⟩) ∧ edge.bus.wf = true ∧
      accessible i.length (.mem (atRbx .w64)) edge ∧ accessible i.length (.reg ⟨0, .w64⟩) edge :=
  ⟨by decide, by decide, edge_accessible _ _, trivial⟩

/-- Counts 0 (by cl = 0x20), 1, the width, and more than the width. -/
theorem witness_ShlResult : edge.bus.wf = true ∧
    (let s := sample [(1, 0x20)] 0
      let i := Instr.shlRmCl p0 (.reg 0);
      i.kind s.rip = .shl (.reg ⟨0, .w32⟩) (.reg ⟨1, .low8⟩) ∧ accessible i.length (.reg ⟨0, .w32⟩) s ∧
        accessible i.length (.reg ⟨1, .low8⟩) s ∧ (operandValue i.length .w8 (.reg ⟨1, .low8⟩) s).toNat % 32 = 0) ∧
    ∀ k ∈ [1, 8, 9], let i := Instr.shlRm8Imm8 p0 (.base 3 .none) (BitVec.ofNat 8 k)
      i.kind edge.rip = .shl (.mem (atRbx .w8)) (.imm (BitVec.ofNat 64 k)) ∧
        accessible i.length (.mem (atRbx .w8)) edge ∧ accessible i.length (.imm (BitVec.ofNat 64 k)) edge ∧
        (operandValue i.length .w8 (.imm (BitVec.ofNat 64 k)) edge).toNat % 32 = k := by
  refine ⟨by decide, ⟨by decide, trivial, trivial, by decide⟩, fun k hk => ⟨?_, edge_accessible _ _, trivial, ?_⟩⟩
  all_goals
    simp only [List.mem_cons, List.not_mem_nil, or_false] at hk
    obtain rfl | rfl | rfl := hk <;> decide

theorem witness_ShrResult : edge.bus.wf = true ∧
    (let i := Instr.shrRmCl pW (.reg 0);
      i.kind edge.rip = .shr (.reg ⟨0, .w64⟩) (.reg ⟨1, .low8⟩) ∧ accessible i.length (.reg ⟨0, .w64⟩) edge ∧
        accessible i.length (.reg ⟨1, .low8⟩) edge ∧ (operandValue i.length .w8 (.reg ⟨1, .low8⟩) edge).toNat % 64 = 0) ∧
    ∀ k ∈ [1, 8, 9], let i := Instr.shrRm8Imm8 p0 (.base 3 .none) (BitVec.ofNat 8 k)
      i.kind edge.rip = .shr (.mem (atRbx .w8)) (.imm (BitVec.ofNat 64 k)) ∧
        accessible i.length (.mem (atRbx .w8)) edge ∧ accessible i.length (.imm (BitVec.ofNat 64 k)) edge ∧
        (operandValue i.length .w8 (.imm (BitVec.ofNat 64 k)) edge).toNat % 32 = k := by
  refine ⟨by decide, ⟨by decide, trivial, trivial, by decide⟩, fun k hk => ⟨?_, edge_accessible _ _, trivial, ?_⟩⟩
  all_goals
    simp only [List.mem_cons, List.not_mem_nil, or_false] at hk
    obtain rfl | rfl | rfl := hk <;> decide

/-- The lowest slot of the stack region. -/
theorem witness_PushResult : let s := sample [(4, 0x7F08)] 0
    let i := Instr.pushRm64 p0 (.reg 4);
    i.kind s.rip = .push (.reg ⟨4, .w64⟩) ∧ s.bus.wf = true ∧ accessible i.length (.reg ⟨4, .w64⟩) s ∧
      mapped s (s.reg rsp - 8) 8 :=
  ⟨by decide, by decide, trivial, mapped_of (by decide)⟩

/-- Another register, rsp itself, and memory addressed by the incremented rsp, at the last slot. -/
theorem witness_PopResult : let s := sample [(4, 0x7FF0)] 0
    let m : MemOperand := ⟨.gpr 4, none, 0, none, .w64⟩;
    s.bus.wf = true ∧ mapped s (s.reg rsp) 8 ∧
      (Instr.popR64 p0 3).kind s.rip = .pop (.reg ⟨3, .w64⟩) ∧ (Instr.popR64 p0 4).kind s.rip = .pop (.reg ⟨4, .w64⟩) ∧
      (let i := Instr.popRm64 p0 (.sib 0 4 4 .none);
        i.kind s.rip = .pop (.mem m) ∧ accessible i.length (.mem m) (s.setReg rsp (s.reg rsp + 8))) :=
  ⟨by decide, mapped_of (by decide), by decide, by decide, by decide, by decide, by decide, mapped_of (by decide)⟩

theorem witness_LeaveResult : let s := sample [(5, 0x7FF8)] 0;
    (Instr.leave p0).kind s.rip = .leave ∧ mapped s (s.reg rbp) 8 :=
  ⟨by decide, mapped_of (by decide)⟩

/-- The state after a next state, for the second of two instructions. -/
def after (i : Instr) (s : State) : State := match exec i s with | .next t => t | _ => s

theorem exec_after {i : Instr} {s : State} (h : (match exec i s with | .next _ => true | _ => false) = true) :
    exec i s = .next (after i s) := by
  cases e : exec i s <;> simp [after, e] at h ⊢

/-- Also for rsp itself. -/
theorem witness_PushThenPop : ∀ k ∈ [3, 4], let s := sample [(4, 0x8000)] 0
    let i := Instr.pushR64 p0 (BitVec.ofNat 3 k)
    let j := Instr.popR64 p0 (BitVec.ofNat 3 k)
    let r : Gpr := ⟨Fin.ofNat 16 k, .w64⟩;
    i.kind s.rip = .push (.reg r) ∧ j.kind (after i s).rip = .pop (.reg r) ∧ s.bus.wf = true ∧
      exec i s = .next (after i s) ∧ exec j (after i s) = .next (after j (after i s)) := by
  intro k hk
  simp only [List.mem_cons, List.not_mem_nil, or_false] at hk
  obtain rfl | rfl := hk <;>
    exact ⟨by decide, by decide, by decide, exec_after (by decide), exec_after (by decide)⟩

/-- A condition that holds and one that does not. -/
theorem witness_ConditionalJumpResult :
    (let s := sample [] 0x40;
      (Instr.jeRel8 p0 0x10).kind s.rip = .conditionalJump .e 0x1012 ∧ conditionHolds .e s) ∧
    (let s := sample [(1, 0x100000000)] 0;
      (Instr.jrcxzRel8 p0 0x10).kind s.rip = .conditionalJump .cxz 0x1012 ∧ ¬ conditionHolds .cxz s) := by
  simp only [conditionHolds]
  decide

theorem witness_JumpResult : let i := Instr.jmpRm64 p0 (.base 3 .none)
    i.kind edge.rip = .unconditionalJump (.mem (atRbx .w64)) ∧ accessible i.length (.mem (atRbx .w64)) edge :=
  ⟨by decide, edge_accessible _ _⟩

/-- The pointer is read in the slot just pushed. -/
theorem witness_CallResult : let s := sample [(4, 0x8000)] 0
    let m : MemOperand := ⟨.gpr 4, none, 0, none, .w64⟩
    let i := Instr.callRm64 p0 (.sib 0 4 4 .none);
    i.kind s.rip = .call (.mem m) ∧ s.bus.wf = true ∧ mapped s (s.reg rsp - 8) 8 ∧
      accessible i.length (.mem m) (s.setReg rsp (s.reg rsp - 8)) :=
  ⟨by decide, by decide, mapped_of (by decide), by decide, by decide, mapped_of (by decide)⟩

theorem witness_RetResult : let s := sample [(4, 0x7FF8)] 0;
    (Instr.ret p0).kind s.rip = .ret ∧ mapped s (s.reg rsp) 8 :=
  ⟨by decide, mapped_of (by decide)⟩

theorem witness_CallThenRet : let s := sample [(4, 0x8000)] 0
    let i := Instr.callRel32 p0 0x100;
    i.kind s.rip = .call (.imm 0x1105) ∧ (Instr.ret p0).kind (after i s).rip = .ret ∧ s.bus.wf = true ∧
      exec i s = .next (after i s) ∧ exec (.ret p0) (after i s) = .next (after (.ret p0) (after i s)) :=
  ⟨by decide, by decide, by decide, exec_after (by decide), exec_after (by decide)⟩

/-- A return to its own address; a direct and a conditional jump to themselves. -/
theorem witness_SelfTargetFallsThrough :
    (let s := machine [0xC3] [(4, 0x7FF8)] 0 [(0x7FF8, [0x00, 0x10])]
      let i := Instr.ret p0;
      s.bus.wf = true ∧ i.wf = true ∧ mapped s s.rip i.length ∧ bytesAt s s.rip i.length = encode i ∧
        writesPc (i.kind s.rip) = true ∧ ∃ t, exec i s = .next t ∧ (t.rip == s.rip) = true) ∧
    (let s := machine [0xEB, 0xFE] [] 0 []
      let i := Instr.jmpRel8 p0 0xFE;
      s.bus.wf = true ∧ i.wf = true ∧ mapped s s.rip i.length ∧ bytesAt s s.rip i.length = encode i ∧
        i.kind s.rip = .unconditionalJump (.imm s.rip)) ∧
    (let s := machine [0x74, 0xFE] [] 0 []
      let i := Instr.jeRel8 p0 0xFE;
      s.bus.wf = true ∧ i.wf = true ∧ mapped s s.rip i.length ∧ bytesAt s s.rip i.length = encode i ∧
        ∃ c, i.kind s.rip = .conditionalJump c s.rip) :=
  ⟨⟨by decide, by decide, mapped_of (by decide), by decide, by decide, completes_of _ (by decide)⟩,
    ⟨by decide, by decide, mapped_of (by decide), by decide, by decide⟩,
    ⟨by decide, by decide, mapped_of (by decide), by decide, .e, by decide⟩⟩

/-- Count 0; the source unmapped; the destination unmapped; both at the last byte of the region. -/
theorem witness_RepMovLoop : let i := Instr.repMovsb pF3
    i.kind 0x1000 = .rep .mov ∧ edge.bus.wf = true ∧ edge.reg rcx = 0 ∧
    (let s := sample [(1, 1), (6, 0x2020), (7, 0x2000)] 0;
      s.reg rcx ≠ 0 ∧ ¬ mapped s (s.reg rsi) 1) ∧
    (let s := sample [(1, 1), (6, 0x201F), (7, 0x1FFF)] 0;
      s.reg rcx ≠ 0 ∧ mapped s (s.reg rsi) 1 ∧ ¬ mapped s (s.reg rdi) 1) ∧
    (let s := sample [(1, 1), (6, 0x2000), (7, 0x201F)] 0x400;
      s.reg rcx ≠ 0 ∧ mapped s (s.reg rsi) 1 ∧ mapped s (s.reg rdi) 1) :=
  ⟨by decide, by decide, by decide, ⟨by decide, not_mapped_of (by decide)⟩,
    ⟨by decide, mapped_of (by decide), not_mapped_of (by decide)⟩, by decide, mapped_of (by decide), mapped_of (by decide)⟩

/-- The states of `witness_RepMovLoop` for the three one-pointer loops. -/
theorem witness_RepStosLodsScasLoop : (Instr.repStosb pF3).kind 0x1000 = .rep .stos ∧
    (Instr.repLodsb pF3).kind 0x1000 = .rep .lods ∧ (Instr.repeScasb pF3).kind 0x1000 = .rep .scas ∧
    edge.bus.wf = true ∧ edge.reg rcx = 0 ∧
    (let s := sample [(1, 1), (6, 0x2020), (7, 0x2020)] 0;
      s.bus.wf = true ∧ s.reg rcx ≠ 0 ∧ ¬ mapped s (s.reg rsi) 1 ∧ ¬ mapped s (s.reg rdi) 1) ∧
    (let s := sample [(1, 1), (6, 0x201F), (7, 0x201F)] 0;
      s.bus.wf = true ∧ s.reg rcx ≠ 0 ∧ mapped s (s.reg rsi) 1 ∧ mapped s (s.reg rdi) 1) :=
  ⟨by decide, by decide, by decide, by decide, by decide,
    ⟨by decide, by decide, not_mapped_of (by decide), not_mapped_of (by decide)⟩,
    by decide, by decide, mapped_of (by decide), mapped_of (by decide)⟩

/-- Three bytes copied, stored or loaded, up to the last byte of the region and the source apart; and no byte at all. -/
theorem witness_RepCompletes :
    (∀ k < (edge.reg rcx).toNat, mapped edge (stringAddr edge (edge.reg rsi) k) 1) ∧
    (let s := sample [(1, 3), (6, 0x2000), (7, 0x201D)] 0
      let n := (s.reg rcx).toNat;
      s.bus.wf = true ∧ (∀ k < n, mapped s (stringAddr s (s.reg rsi) k) 1 ∧ mapped s (stringAddr s (s.reg rdi) k) 1) ∧
        (∀ j < n, ∀ k < n, stringAddr s (s.reg rsi) j ≠ stringAddr s (s.reg rdi) k) ∧ 0 < n) := by
  simp only [mapped]
  decide

/-- The first byte that differs from 0x41 is the third of five; of two bytes none differs; of none, none. -/
theorem witness_ScasCompletes : (Instr.repeScasb pF3).kind 0x1000 = .rep .scas ∧ ∀ c ∈ [5, 2, 0],
    let s := sample [(0, 0x41), (1, c), (7, 0x2000)] 0;
    (∀ k < (s.reg rcx).toNat, mapped s (stringAddr s (s.reg rdi) k) 1) ∧
      ∃ t, exec (.repeScasb pF3) s = .next t ∧ (t.reg rcx == (if c = 5 then 2 else 0)) = true := by
  refine ⟨by decide, fun c hc => ?_⟩
  simp only [List.mem_cons, List.not_mem_nil, or_false] at hc
  obtain rfl | rfl | rfl := hc <;> exact ⟨by simp only [mapped]; decide, completes_of _ (by decide)⟩

theorem witness_NopCldResult : (Instr.nop p66).kind edge.rip = .nop ∧ (Instr.nopRm pGs (.base 3 .none)).kind edge.rip = .nop ∧
    (Instr.cld p0).kind edge.rip = .cld := by decide

theorem witness_Int3Stops : (Instr.int3 p0).kind edge.rip = .int3 := by decide

/-- A next state in which DF changes; one in which the flags do; a fault after flags were written. -/
theorem witness_UnnamedFlagsKept :
    (∃ t, exec (.cld p0) (sample [] 0x400) = .next t ∧
      (t.flags.getLsbD bitDF != (sample [] 0x400).flags.getLsbD bitDF) = true) ∧
    (∃ t, exec (.cmpRmR pW 0 (.reg 0)) (sample [] 0) = .next t ∧ (t.flags != 0) = true) ∧
    ∃ f, exec (.repeScasb pF3) (sample [(0, 0), (1, 2), (7, 0x201F)] 0) = .fault f ∧ (f.left.flags == 0x44) = true :=
  ⟨completes_of _ (by decide), completes_of _ (by decide), faults_of _ (by decide)⟩

theorem witness_FlagWriters :
    (writesFlags ((Instr.movRmR pW 0 (.base 3 .none)).kind edge.rip) = false ∧
      ∃ t, exec (.movRmR pW 0 (.base 3 .none)) edge = .next t ∧ (t.rip == edge.rip) = true) ∧
    (writesFlags ((Instr.repMovsb pF3).kind edge.rip) = false ∧
      ∃ f, exec (.repMovsb pF3) (sample [(1, 2), (6, 0x2000), (7, 0x201F)] 0) = .fault f ∧
        (f.left.reg rcx == 1) = true) :=
  ⟨⟨by decide, completes_of _ (by decide)⟩, by decide, faults_of _ (by decide)⟩

/-- The states of `witness_StepKeepsInvariant`: a store, and a fault. -/
theorem witness_RegionsFixed : gives (sample [(4, 0x8000)] 0) 0x1001 [(4, 0x7FF8)] 0 [(0x7FF8, [0, 0])] = true ∧
    stops (sample [(4, 0x7F00)] 0) (.busFault 0x7EF8 8 .write) [] [] = true := by decide

theorem witness_PcWriters : (∃ t, exec (.pushR64 p0 3) (sample [(4, 0x8000)] 0) = .next t ∧
      (writesPc ((Instr.pushR64 p0 3).kind 0x1000) == false) = true) ∧
    ∃ f, exec (.callRm64 p0 (.base 3 .none)) (sample [(4, 0x8000), (3, 0x6000)] 0) = .fault f ∧
      (f.left.reg rsp == 0x7FF8) = true :=
  ⟨completes_of _ (by decide), faults_of _ (by decide)⟩

theorem witness_FaultsArePrecise : let s := sample [(4, 0x7FF8), (3, 0x5000)] 0
    mayFaultLate ((Instr.popRm64 p0 (.base 3 .none)).kind s.rip) = false ∧
      ∃ f, exec (.popRm64 p0 (.base 3 .none)) s = .fault f ∧ (f == .busFault 0x5000 8 .write s) = true :=
  ⟨by decide, faults_of _ (by decide)⟩

/-- The slot unmapped by one byte; the slot mapped and the pointer one byte past the region. -/
theorem witness_CallFaultLeavesPush :
    (let s := sample [(4, 0x7F07)] 0
      let i := Instr.callRel32 p0 0
      i.kind s.rip = .call (.imm 0x1005) ∧ s.bus.wf = true ∧ ¬ mapped s (s.reg rsp - 8) 8) ∧
    (let s := sample [(4, 0x7F08), (3, 0x2019)] 0
      let i := Instr.callRm64 p0 (.base 3 .none)
      i.kind s.rip = .call (.mem (atRbx .w64)) ∧ s.bus.wf = true ∧ mapped s (s.reg rsp - 8) 8 ∧
        ¬ accessible i.length (.mem (atRbx .w64)) (s.setReg rsp (s.reg rsp - 8))) :=
  ⟨⟨by decide, by decide, not_mapped_of (by decide)⟩,
    by decide, by decide, mapped_of (by decide), fun h => not_mapped_of (by decide) h.2.2⟩

/-- On a well-formed bus, no iteration before the fault, and one of each of the four; the byte that rep movsb has copied
is not one of its source. -/
theorem witness_RepFaultKeepsIterations :
    ((Instr.repMovsb pF3).kind 0x1000 = .rep .mov ∧ (Instr.repStosb pF3).kind 0x1000 = .rep .stos ∧
      (Instr.repLodsb pF3).kind 0x1000 = .rep .lods ∧ (Instr.repeScasb pF3).kind 0x1000 = .rep .scas) ∧
    (∀ x, (sample [(0, 0), (1, 2), (6, x), (7, 0x201F)] 0).bus.wf = true) ∧
    (∃ f, exec (.repMovsb pF3) (sample [(1, 2), (6, 0x2000), (7, 0x2020)] 0) = .fault f ∧
      (f.left.reg rcx == 2) = true) ∧
    (let s := sample [(0, 0), (1, 2), (6, 0x2000), (7, 0x201F)] 0;
      (∀ j < 1, ∀ l < 1, stringAddr s (s.reg rsi) j ≠ stringAddr s (s.reg rdi) l) ∧
        ∃ f, exec (.repMovsb pF3) s = .fault f ∧ (f.left.reg rcx == 1) = true) ∧
    (∃ f, exec (.repStosb pF3) (sample [(0, 0), (1, 2), (7, 0x201F)] 0) = .fault f ∧
      (f.left.reg rcx == 1) = true) ∧
    (∃ f, exec (.repLodsb pF3) (sample [(1, 2), (6, 0x201F)] 0) = .fault f ∧ (f.left.reg rcx == 1) = true) ∧
    ∃ f, exec (.repeScasb pF3) (sample [(0, 0), (1, 2), (7, 0x201F)] 0) = .fault f ∧ (f.left.reg rcx == 1) = true :=
  ⟨by decide, fun _ => by rfl, faults_of _ (by decide), ⟨by decide, faults_of _ (by decide)⟩,
    faults_of _ (by decide), faults_of _ (by decide), faults_of _ (by decide)⟩

/-- `[rbx]` just past the data region, the stack at its last slot. -/
abbrev past : State := sample [(3, 0x2020), (4, 0x7FF8)] 0

/-- The fault clauses of the result statements: no override, and a span no region holds. -/
theorem witness_operand_unmapped : (∀ w, (atRbx w).segment ≠ some .fs ∧ (atRbx w).segment ≠ some .gs) ∧
    (∀ w len, ¬ mapped past (ea0 len (atRbx w) past) (atRbx w).size.bytes) ∧
    (∀ w len, ¬ mapped past (ea0 len (atRbx w) (past.setReg rsp (past.reg rsp + 8))) (atRbx w).size.bytes) ∧
    mapped past (past.reg rsp) 8 := by
  refine ⟨fun w => ⟨nofun, nofun⟩, fun w len => not_mapped_of ?_, fun w len => not_mapped_of ?_, mapped_of (by decide)⟩ <;>
    cases w <;> rfl

/-- An instruction of each statement that has such a clause, with the operand `[rbx]`. -/
theorem witness_operand_faults_data : let rbx : Rm := .base 3 .none
    (Instr.movRRm pW 0 rbx).kind past.rip = .mov (.reg ⟨0, .w64⟩) (.mem (atRbx .w64)) ∧
    (Instr.movRmR pW 0 rbx).kind past.rip = .mov (.mem (atRbx .w64)) (.reg ⟨0, .w64⟩) ∧
    (Instr.movzxRRm16 pW 0 rbx).kind past.rip = .movzx (.reg ⟨0, .w64⟩) (.mem (atRbx .w16)) ∧
    (Instr.addRRm p0 0 rbx).kind past.rip = .add (.reg ⟨0, .w32⟩) (.mem (atRbx .w32)) ∧
    (Instr.adcRmR p0 0 rbx).kind past.rip = .adc (.mem (atRbx .w32)) (.reg ⟨0, .w32⟩) ∧
    (Instr.subRm8R8 p0 0 rbx).kind past.rip = .sub (.mem (atRbx .w8)) (.reg ⟨0, .low8⟩) ∧
    (Instr.cmpRRm pW 0 rbx).kind past.rip = .cmp (.reg ⟨0, .w64⟩) (.mem (atRbx .w64)) := by decide

theorem witness_operand_faults_rest : let rbx : Rm := .base 3 .none
    (Instr.incRm pW rbx).kind past.rip = .inc (.mem (atRbx .w64)) ∧
    (Instr.decRm8 p0 rbx).kind past.rip = .dec (.mem (atRbx .w8)) ∧
    (Instr.testRmR p0 0 rbx).kind past.rip = .test (.mem (atRbx .w32)) (.reg ⟨0, .w32⟩) ∧
    (Instr.xorRRm p66 0 rbx).kind past.rip = .xor (.reg ⟨0, .w16⟩) (.mem (atRbx .w16)) ∧
    (Instr.shlRmOne pW rbx).kind past.rip = .shl (.mem (atRbx .w64)) (.imm 1) ∧
    (Instr.shrRmCl pW rbx).kind past.rip = .shr (.mem (atRbx .w64)) (.reg ⟨1, .low8⟩) ∧
    (Instr.pushRm64 p0 rbx).kind past.rip = .push (.mem (atRbx .w64)) ∧
    (Instr.popRm64 p0 rbx).kind past.rip = .pop (.mem (atRbx .w64)) ∧
    (Instr.jmpRm64 p0 rbx).kind past.rip = .unconditionalJump (.mem (atRbx .w64)) := by decide

/-- The same clauses for an override of GS, here for a read, a write and a pop. -/
theorem witness_operand_segment : let rbx : Rm := .base 3 .none
    let m := fun w => (⟨.gpr 3, none, 0, some .gs, w⟩ : MemOperand)
    (Instr.addRRm pGs 0 rbx).kind past.rip = .add (.reg ⟨0, .w32⟩) (.mem (m .w32)) ∧
    (Instr.movRmR pGs 0 rbx).kind past.rip = .mov (.mem (m .w32)) (.reg ⟨0, .w32⟩) ∧
    (Instr.popRm64 pGs rbx).kind past.rip = .pop (.mem (m .w64)) := by decide

/-- A stack slot one byte too low for Push; a top of stack or a frame pointer one byte too high for Pop, Ret, Leave. -/
theorem witness_stack_unmapped : let s := sample [(4, 0x7F07)] 0
    let t := sample [(4, 0x7FF9), (5, 0x7FF9)] 0
    (Instr.pushR64 p0 3).kind s.rip = .push (.reg ⟨3, .w64⟩) ∧
      accessible (Instr.pushR64 p0 3).length (.reg ⟨3, .w64⟩) s ∧ ¬ mapped s (s.reg rsp - 8) 8 ∧
      ¬ mapped t (t.reg rsp) 8 ∧ ¬ mapped t (t.reg rbp) 8 :=
  ⟨by decide, trivial, not_mapped_of (by decide), not_mapped_of (by decide), not_mapped_of (by decide)⟩

/-- A whole region, and one byte more. -/
theorem witness_HostBytes : let s := sample [] 0
    s.bus.wf = true ∧ mapped s 0x2000 (List.replicate 32 (7 : Byte)).length ∧
      ¬ mapped s 0x2000 (List.replicate 33 (7 : Byte)).length :=
  ⟨by decide, mapped_of (by decide), not_mapped_of (by decide)⟩

/-- A span of no bytes where nothing is mapped (decision D32). -/
theorem test_host_empty_span : (match hostRead (sample [] 0) 0x5000 0, hostWrite (sample [] 0) 0x5000 [] with
    | .ok bytes, .ok t => bytes == [] && t == sample [] 0
    | _, _ => false) = true := by decide

theorem witness_OperandFaultUnreachable : (Instr.movRRm pGs 0 (.base 3 .none)).wf = true := by decide

theorem witness_StreamYieldsSequence : 15 ≤ 15 ∧
    streamSequence [0x90] 0x1000 ≠ [] ∧ streamPulls 1 (streamCreate [0x90] 0x1000 15) ≠ [] := by decide

/-- Two instructions and a tail cut in its second byte; and no tail. -/
theorem witness_StreamOfWholeInstructions :
    (∀ i ∈ [Instr.pushR64 p0 3, .movRmR pW 4 (.reg 5)], i.wf = true) ∧ ∀ tail ∈ [[], [0x48, 0x8B]], ∀ b ins,
      decode (List.take 15 tail) b ≠ .decoded ins := by
  refine ⟨by decide, fun tail ht b ins => ?_⟩
  simp only [List.mem_cons, List.not_mem_nil, or_false] at ht
  have h : decodeRow (tail.take 15) = .truncated := by obtain rfl | rfl := ht <;> decide
  simp [decode, h]

end Sys2Proof.Tests
end

/-! The statements about the state: setup (10_state.md R50), register writes (R24), the flags (R28 to R30) and what no
step changes (R33, R40). -/

namespace Sys2Proof.Machine

/-! ## A built bus (10_state.md R34, 20_memory.md R79) -/

/-- The bus before any region is added. -/
theorem Bus.empty_wf : (⟨[], []⟩ : Bus).wf = true := rfl

theorem Stream.idle_wf : Stream.wf Stream.idle = true := by decide

theorem busBuild_cons_some {x : RegionInit} {xs : List RegionInit} {b b' : Bus} :
    busBuild (x :: xs) b = some b' ↔ ∃ c, busAdd b x = some c ∧ busBuild xs c = some b' :=
  Option.bind_eq_some_iff

section
variable {x : RegionInit} {xs : List RegionInit} {b b' : Bus}

theorem busBuild_wf (hb : b.wf = true) (h : busBuild xs b = some b') : b'.wf = true := by
  induction xs generalizing b with
  | nil => cases h; exact hb
  | cons x xs ih =>
    obtain ⟨c, hc, h⟩ := busBuild_cons_some.1 h
    exact ih (busAdd_wf hb hc) h

theorem busBuild_regions (h : busBuild xs b = some b') : b'.regions = b.regions ++ xs.map (·.region) := by
  induction xs generalizing b with
  | nil => cases h; simp
  | cons x xs ih =>
    obtain ⟨c, hc, h⟩ := busBuild_cons_some.1 h
    obtain ⟨-, -, rfl⟩ := busAdd_some hc
    simp [ih h]

/-- The content of an added region stands at its addresses. -/
theorem busAdd_byteAt_new (hb : b.wf = true) (h : busAdd b x = some b') {k : Nat} {v : Byte}
    (hk : x.bytes[k]? = some v) : b'.byteAt (x.region.startAddr.toNat + k) = v := by
  obtain ⟨-, -, rfl⟩ := busAdd_some h
  rw [Bus.byteAt, Memory.read_writeAll _ (Bus.wf_cells hb), if_pos (Nat.le_add_right _ _), Nat.add_sub_cancel_left, hk,
    Option.getD_some]

/-- Adding a region leaves the bytes of every region already there. -/
theorem busAdd_byteAt_old (hb : b.wf = true) (h : busAdd b x = some b') {r : Region} (hr : r ∈ b.regions) {a : Nat}
    (h1 : r.startAddr.toNat ≤ a) (h2 : a < r.endAddr.toNat) : b'.byteAt a = b.byteAt a := by
  obtain ⟨hlen, hdisj, rfl⟩ := busAdd_some h
  have hd := hdisj r hr
  simp only [Region.disjoint, Bool.or_eq_true, decide_eq_true_eq] at hd
  rw [Bus.byteAt, Memory.read_writeAll _ (Bus.wf_cells hb)]
  split
  · rw [List.getElem?_eq_none (by omega)]; rfl
  · rfl

theorem busBuild_byteAt_old (hb : b.wf = true) (h : busBuild xs b = some b') {r : Region} (hr : r ∈ b.regions) {a : Nat}
    (h1 : r.startAddr.toNat ≤ a) (h2 : a < r.endAddr.toNat) : b'.byteAt a = b.byteAt a := by
  induction xs generalizing b with
  | nil => cases h; rfl
  | cons x xs ih =>
    obtain ⟨c, hc, h⟩ := busBuild_cons_some.1 h
    have hrc : r ∈ c.regions := by
      obtain ⟨-, -, rfl⟩ := busAdd_some hc
      exact List.mem_append_left _ hr
    exact (ih (busAdd_wf hb hc) h hrc).trans (busAdd_byteAt_old hb hc hr h1 h2)

/-- Every supplied byte stands at its address: its own region puts it there, and the later ones leave it. -/
theorem busBuild_byteAt (hb : b.wf = true) (h : busBuild xs b = some b') (hx : x ∈ xs) {k : Nat} {v : Byte}
    (hk : x.bytes[k]? = some v) : b'.byteAt (x.region.startAddr.toNat + k) = v := by
  induction xs generalizing b with
  | nil => cases hx
  | cons y ys ih =>
    obtain ⟨c, hc, hrest⟩ := busBuild_cons_some.1 h
    rcases List.mem_cons.1 hx with rfl | hx
    · have hnew := busAdd_byteAt_new hb hc hk
      have hlt : k < x.bytes.length := (List.getElem?_eq_some_iff.1 hk).1
      obtain ⟨hlen, -, he⟩ := busAdd_some hc
      rw [← hnew]
      exact busBuild_byteAt_old (busAdd_wf hb hc) hrest (r := x.region) (by simp [he]) (by omega) (by omega)
    · exact ih (busAdd_wf hb hc) hrest hx

/-- Regions that fill their ranges and overlap neither each other nor those already there are all accepted. -/
theorem busBuild_accepts (hfill : ∀ x ∈ xs, x.region.startAddr.toNat + x.bytes.length = x.region.endAddr.toNat)
    (hpair : xs.Pairwise fun x y => x.region.disjoint y.region = true)
    (hold : ∀ r ∈ b.regions, ∀ x ∈ xs, r.disjoint x.region = true) : ∃ b', busBuild xs b = some b' := by
  induction xs generalizing b with
  | nil => exact ⟨b, rfl⟩
  | cons x xs ih =>
    obtain ⟨hx, hpair⟩ := List.pairwise_cons.1 hpair
    have hc := busAdd_accepts (hfill x List.mem_cons_self) fun r hr => hold r hr x List.mem_cons_self
    obtain ⟨b', h⟩ := ih (b := ⟨b.regions ++ [x.region], _⟩) (fun y hy => hfill y (List.mem_cons_of_mem _ hy)) hpair
      fun r hr y hy => by
        rcases List.mem_append.1 hr with hr | hr
        · exact hold r hr y (List.mem_cons_of_mem _ hy)
        · rw [List.mem_singleton.1 hr]; exact hx y hy
    exact ⟨b', busBuild_cons_some.2 ⟨_, hc, h⟩⟩

end

theorem loadInit_some {init : Init} {regions : List RegionInit} {s : State} (h : loadInit init regions = some s) :
    ∃ b, busBuild regions ⟨[], []⟩ = some b ∧ s = ⟨init.regs, init.rip, init.flags, b, Stream.idle, 0⟩ := by
  obtain ⟨b, hb, hs⟩ := Option.map_eq_some_iff.1 h
  exact ⟨b, hb, hs.symm⟩

/-- Settles O3: the empty bus and the idle stream meet their invariants. -/
theorem resetMeetsInvariant : Obligations.ResetMeetsInvariant := ⟨Bus.empty_wf, Stream.idle_wf⟩

/-- Settles O1: the fields of the loaded state are INIT's, and the bus is the one built from REGIONS. -/
theorem setupState : Obligations.SetupState := by
  refine ⟨⟨State.reset_reg, rfl, rfl, rfl, rfl, rfl, rfl, rfl⟩, ?_, ?_⟩
  · intro init regions s h
    obtain ⟨b, hb, rfl⟩ := loadInit_some h
    exact ⟨fun _ => rfl, rfl, rfl, by simpa using busBuild_regions hb,
      fun x hx k v hk => busBuild_byteAt Bus.empty_wf hb hx hk, rfl, rfl, rfl, rfl⟩
  · intro init regions hfill hpair
    obtain ⟨b, hb⟩ := busBuild_accepts (b := ⟨[], []⟩) hfill
      (hpair.imp fun h => (Region.disjoint_iff _ _).2 h) (by simp)
    exact ⟨_, Option.map_eq_some_iff.2 ⟨b, hb, rfl⟩⟩

/-! ## Register writes (10_state.md R24) -/

/-- Settles O15: the slot becomes what the view puts into it, bit by bit. -/
theorem regWriteRule : Obligations.RegWriteRule := by
  intro s ⟨slot, view⟩ v
  refine ⟨fun j hj => by simp [hj], fun k hk => ?_⟩
  rw [State.regWrite_reg, if_pos rfl, View.getLsbD_put _ _ _ _ hk]
  cases view with
  | high8 =>
    by_cases h8 : k < 8
    · simp [h8]
    · by_cases h16 : k < 16
      · simp [h8, h16]
      · simp [h8, h16, Nat.le_of_not_lt h16]
  | low8 => rfl
  | w16 => rfl
  | w32 => rfl
  | w64 => rfl

/-! ## What CF, OF and AF of a sum and of a difference mean (10_state.md R28, 42_arithmetic.md R181 to R185) -/

section
variable {n : Nat} (a b : BitVec n) (c : Bool)

/-- The sum with carry, cut to the width: at most one 2^n is lost. -/
theorem toNat_addCarry (hn : 0 < n) :
    let r := a + b + BitVec.ofNat n c.toNat
    r.toNat = a.toNat + b.toNat + c.toNat ∨ r.toNat + 2 ^ n = a.toNat + b.toNat + c.toNat := by
  have hc : c.toNat ≤ 1 := Bool.toNat_le c
  have h2 : 2 ≤ 2 ^ n := Nat.le_self_pow hn.ne' 2
  have ha := a.isLt
  have hb := b.isLt
  simp only [BitVec.toNat_add, BitVec.toNat_ofNat, Nat.mod_add_mod, Nat.add_mod_mod]
  rcases Nat.lt_or_ge (a.toNat + b.toNat + c.toNat) (2 ^ n) with h | h
  · exact .inl (Nat.mod_eq_of_lt h)
  · right
    rw [Nat.mod_eq_sub_mod h, Nat.mod_eq_of_lt (by omega)]
    omega

/-- The sign bit, and the signed and unsigned values, in terms of half the range. -/
theorem sign_cases (hn : 0 < n) :
    (a.msb = false ∧ a.toInt = a.toNat ∧ a.toNat < 2 ^ (n - 1)) ∨
      (a.msb = true ∧ a.toInt = a.toNat - 2 * (2 ^ (n - 1) : Nat) ∧ 2 ^ (n - 1) ≤ a.toNat ∧
        a.toNat < 2 * 2 ^ (n - 1)) := by
  have hP : 2 ^ n = 2 * 2 ^ (n - 1) := (mul_pow_sub_one hn.ne' 2).symm
  have hlt := a.isLt
  rw [BitVec.toInt_eq_msb_cond, BitVec.msb_eq_decide]
  by_cases h : 2 ^ (n - 1) ≤ a.toNat
  · exact .inr ⟨by simp [h], by simp [h, hP], h, by omega⟩
  · exact .inl ⟨by simp [h], by simp [h], by omega⟩

/-- The signed sum does not fit exactly when both operands have the sign that the sum has not: by the eight cases of the
three signs. -/
theorem sumOverflow_iff (hn : 0 < n) :
    let r := a + b + BitVec.ofNat n c.toNat
    ((a ^^^ r) &&& (b ^^^ r)).msb = true ↔ r.toInt ≠ a.toInt + b.toInt + c.toNat := by
  intro r
  have hP : 2 ^ n = 2 * 2 ^ (n - 1) := (mul_pow_sub_one hn.ne' 2).symm
  have hc : c.toNat ≤ 1 := Bool.toNat_le c
  have hr : r.toNat = _ ∨ r.toNat + 2 ^ n = _ := toNat_addCarry a b c hn
  rw [BitVec.msb_and, BitVec.msb_xor, BitVec.msb_xor]
  rcases sign_cases a hn with ⟨ma, ia, _⟩ | ⟨ma, ia, _, _⟩ <;>
    rcases sign_cases b hn with ⟨mb, ib, _⟩ | ⟨mb, ib, _, _⟩ <;>
    rcases sign_cases r hn with ⟨mr, ir, _⟩ | ⟨mr, ir, _, _⟩ <;>
    simp only [ma, mb, mr, ia, ib, ir, Bool.xor_false, Bool.xor_true, Bool.not_false, Bool.not_true, Bool.and_true,
      Bool.and_false, Bool.false_eq_true, true_iff, false_iff, not_not, ne_eq] <;>
    omega

/-- Bit 4 of `a XOR b XOR sum` is the carry into it. -/
theorem sumDigitCarry_iff (hn : 4 < n) :
    (a ^^^ b ^^^ (a + b + BitVec.ofNat n c.toNat)).getLsbD 4 = true ↔
      16 ≤ a.toNat % 16 + b.toNat % 16 + c.toNat := by
  have hc : BitVec.ofNat n c.toNat = (BitVec.ofBool c).setWidth n := BitVec.eq_of_toNat_eq (by simp)
  have hbit : (a ^^^ b ^^^ (a + b + BitVec.ofNat n c.toNat)).getLsbD 4 = BitVec.carry 4 a b c := by
    rw [BitVec.getLsbD_xor, BitVec.getLsbD_xor, hc, BitVec.getLsbD_add_add_bool hn]
    cases a.getLsbD 4 <;> cases b.getLsbD 4 <;> simp
  rw [hbit, BitVec.carry, decide_eq_true_eq]

/-- A sum wrapped exactly when it came out below an operand. -/
theorem add_lt_left_iff : a + b < a ↔ 2 ^ n ≤ a.toNat + b.toNat := by
  have ha := a.isLt
  have hb := b.isLt
  rw [BitVec.lt_def, BitVec.toNat_add]
  rcases Nat.lt_or_ge (a.toNat + b.toNat) (2 ^ n) with h | h
  · rw [Nat.mod_eq_of_lt h]; omega
  · rw [Nat.mod_eq_sub_mod h, Nat.mod_eq_of_lt (by omega)]; omega

/-- A subtraction overflows, in sign, exactly when adding back does. -/
theorem differenceOverflow_iff (hn : 0 < n) :
    ((a ^^^ b) &&& (a ^^^ (a - b))).msb = true ↔ (a - b).toInt ≠ a.toInt - b.toInt := by
  have h := sumOverflow_iff (a - b) b false hn
  simp only [Bool.toNat_false, BitVec.add_zero, BitVec.sub_add_cancel, Nat.cast_zero, add_zero] at h
  rw [BitVec.and_comm, BitVec.xor_comm a b, BitVec.xor_comm a (a - b), h]
  omega

/-- A low digit borrows exactly when adding back carries. -/
theorem differenceDigitBorrow_iff (hn : 4 < n) :
    (a ^^^ b ^^^ (a - b)).getLsbD 4 = true ↔ a.toNat % 16 < b.toNat % 16 := by
  have h := sumDigitCarry_iff (a - b) b false hn
  simp only [Bool.toNat_false, BitVec.add_zero, BitVec.sub_add_cancel, add_zero] at h
  have hsym : a ^^^ b ^^^ (a - b) = (a - b) ^^^ b ^^^ a := by ac_rfl
  have hdvd : 16 ∣ 2 ^ n := Nat.pow_dvd_pow 2 (show 4 ≤ n by omega)
  have hmod : a.toNat % 16 = ((a - b).toNat + b.toNat) % 16 := by
    rw [← Nat.mod_mod_of_dvd ((a - b).toNat + b.toNat) hdvd, ← BitVec.toNat_add, BitVec.sub_add_cancel]
  rw [hsym, h]
  omega

end

theorem eight_le_bits (w : Width) : 8 ≤ w.bits := by cases w <;> decide

theorem updateAdd_eq_updateAdc {n : Nat} (a b : BitVec n) (f : Word) :
    updateAdd a b (a + b) f = updateAdc a b false (a + b) f := by
  have hcf : decide (a + b < a) = decide (a.toNat + b.toNat + false.toNat > 2 ^ n - 1) := by
    have h2 := Nat.two_pow_pos n
    rw [decide_eq_decide, add_lt_left_iff, Bool.toNat_false]
    omega
  rw [updateAdd, updateAdc, hcf]

/-- Settles O25: what `sumFlags` and the carry say of any state with these flags, in arithmetic. -/
theorem sumFlagsMeaning : Obligations.SumFlagsMeaning := by
  intro w a b c f r
  have hw := eight_le_bits w
  obtain ⟨⟨-, haf, hof⟩, hcf⟩ := sumFlags_updateAdc (t := State.reset.setFlags (updateAdc a b c r f)) rfl
  rw [State.setFlags_flags] at haf hof hcf
  refine ⟨hcf, ?_, ?_, ?_⟩
  · rw [hof]
    exact sumOverflow_iff a b c (by omega)
  · rw [haf]
    exact sumDigitCarry_iff a b c (by omega)
  · rintro rfl
    have hr : r = a + b := BitVec.add_zero _
    rw [hr, updateAdd_eq_updateAdc]

/-- Settles O26: what `differenceFlags` and the borrow say of any state with these flags, in arithmetic. -/
theorem differenceFlagsMeaning : Obligations.DifferenceFlagsMeaning := by
  intro w a b f
  have hw := eight_le_bits w
  obtain ⟨⟨-, haf, hof⟩, hcf⟩ := differenceFlags_updateSub (t := State.reset.setFlags (updateSub a b (a - b) f)) rfl
  rw [State.setFlags_flags] at haf hof hcf
  refine ⟨hcf, ?_, ?_⟩
  · rw [hof]
    exact differenceOverflow_iff a b (by omega)
  · rw [haf]
    exact differenceDigitBorrow_iff a b (by omega)

/-! ## Which flags an instruction writes (10_state.md R29, R30) -/

theorem sameFlagsExcept_mono {L M : List Nat} {s t : State} (h : sameFlagsExcept L s t) (hLM : L ⊆ M) :
    sameFlagsExcept M s t := fun i hi => h i fun hL => hi (hLM hL)

theorem sameFlagsExcept_of_eq {L : List Nat} {s t : State} (h : t.flags = s.flags) : sameFlagsExcept L s t :=
  fun _ _ => by rw [h]

theorem flags_eq_of_sameFlagsExcept_nil {s t : State} (h : sameFlagsExcept [] s t) : t.flags = s.flags :=
  BitVec.eq_of_getLsbD_eq fun i _ => h i List.not_mem_nil

/-- The flags that a kind other than Cld may write. -/
def statusBitsOf (k : InstructionType) : List Nat := if writesFlags k then arithmeticBits else []

theorem statusBitsOf_subset (k : InstructionType) : statusBitsOf k ⊆ arithmeticBits := by
  unfold statusBitsOf
  split
  · exact List.Subset.refl _
  · exact List.nil_subset _

theorem statusBitsOf_eq_nil {k : InstructionType} (h : writesFlags k = false) : statusBitsOf k = [] := by
  simp [statusBitsOf, h]

section
variable {i : Instr} {s t : State} {f : Fault}

theorem exec_next_statusBits (h : exec i s = .next t) (hk : i.kind s.rip ≠ .cld) :
    sameFlagsExcept (statusBitsOf (i.kind s.rip)) s t := by
  have hf := (exec_next_flags h).1
  split at hf
  · exact absurd ‹_› hk
  · exact hf

theorem exec_next_cldBits (h : exec i s = .next t) (hk : i.kind s.rip = .cld) : sameFlagsExcept [bitDF] s t := by
  have hf := (exec_next_flags h).1
  rw [hk] at hf
  exact hf

theorem exec_fault_statusBits (h : exec i s = .fault f) : sameFlagsExcept (statusBitsOf (i.kind s.rip)) s f.left := by
  rcases exec_fault_cases h with hl | ⟨_, _, _, _, hl, _⟩ | ⟨r, hk, _, _, hfl⟩
  · exact sameFlagsExcept_of_eq (by rw [hl])
  · exact sameFlagsExcept_of_eq (by rw [hl]; rfl)
  · rw [hk]
    cases r <;> exact hfl

end

/-- Settles O51: Cld writes DF alone, and every other instruction writes status flags alone. -/
theorem unnamedFlagsKept : Obligations.UnnamedFlagsKept := by
  intro i s
  refine ⟨fun t h => ?_, fun f h => ?_⟩
  · by_cases hk : i.kind s.rip = .cld
    · obtain ⟨-, hdf, -⟩ := exec_next_flags h
      exact ⟨sameFlagsExcept_mono (exec_next_cldBits h hk) (by decide), fun _ => ⟨hk, hdf hk⟩⟩
    · have hs := sameFlagsExcept_mono (exec_next_statusBits h hk) (statusBitsOf_subset _)
      exact ⟨sameFlagsExcept_mono hs (by decide), fun hd => absurd (hs bitDF (by decide)) hd⟩
  · have hs := sameFlagsExcept_mono (exec_fault_statusBits h) (statusBitsOf_subset _)
    exact sameFlagsExcept_mono hs (by decide)

/-- Settles O52: a kind that is not listed may write no bit, so F is equal as a whole. -/
theorem flagWriters : Obligations.FlagWriters := by
  intro i s hw
  have hk : i.kind s.rip ≠ .cld := fun hk => by rw [hk] at hw; exact absurd hw (by decide)
  refine ⟨fun t h => ?_, fun f h => ?_⟩
  · have hs := exec_next_statusBits h hk
    rw [statusBitsOf_eq_nil hw] at hs
    exact flags_eq_of_sameFlagsExcept_nil hs
  · have hs := exec_fault_statusBits h
    rw [statusBitsOf_eq_nil hw] at hs
    exact flags_eq_of_sameFlagsExcept_nil hs

/-! ## What no step changes (10_state.md R33, R40) -/

theorem advance_keeps (pc : Word) (n : Nat) (u : State) : Keeps u (advance pc n u) := by
  rcases advance_cases pc n u with h | h <;> rw [h]
  · exact Keeps.refl u
  · exact Keeps.of_bus rfl rfl

theorem exec_fault_keeps {i : Instr} {s : State} {f : Fault} (h : exec i s = .fault f) : Keeps s f.left := by
  rcases exec_fault_cases h with hl | ⟨_, _, _, hm, hl, _⟩ | ⟨_, _, hkeeps, _⟩
  · rw [hl]; exact Keeps.refl s
  · rw [hl]; exact pushed_keeps _ hm
  · exact hkeeps

theorem step_next_keeps {s t : State} (h : step s = .next t) : Keeps s t := by
  obtain ⟨_, i, u, _, _, hu, rfl⟩ := step_next h
  exact (exec_next_keeps hu).trans (advance_keeps _ _ u)

theorem step_fault_keeps {s : State} {f : Fault} (h : step s = .fault f) : Keeps s f.left := by
  rcases step_fault h with hl | ⟨_, _, _, _, hf⟩
  · rw [hl]; exact Keeps.refl s
  · exact exec_fault_keeps hf

/-- Settles O53: a step keeps what its instruction keeps, and the advance of pc keeps it too. -/
theorem regionsFixed : Obligations.RegionsFixed := by
  intro s
  refine ⟨fun t h => ?_, fun f h => ?_⟩
  · obtain ⟨hregions, hstream, -⟩ := step_next_keeps h
    exact ⟨hregions, hstream⟩
  · obtain ⟨hregions, hstream, -⟩ := step_fault_keeps h
    exact ⟨hregions, hstream⟩

end Sys2Proof.Machine

/-! The statements about memory (20_memory.md): the constructed bus (R79), the fetch window (R78), accesses at a width (R64,
R65), the host's accesses (R62, R66), and the invariant that every step keeps. -/

namespace Sys2Proof.Machine

/-! ## The invariant of the machine (10_state.md R40, 20_memory.md R79) -/

theorem State.Inv.of_keeps {s t : State} (hs : s.Inv) (h : Keeps s t) : t.Inv := by
  obtain ⟨hbus, hstream⟩ := hs
  obtain ⟨-, hst, hwf⟩ := h
  exact ⟨hwf hbus, by rw [hst]; exact hstream⟩

/-- Settles O4: what a step keeps, `Keeps`, is enough for the invariant, on a next state and on a fault. -/
theorem stepKeepsInvariant : Obligations.StepKeepsInvariant := fun _ hs =>
  ⟨fun _ h => hs.of_keeps (step_next_keeps h), fun _ h => hs.of_keeps (step_fault_keeps h)⟩

/-! ## The constructed bus (R79) -/

theorem Bus.wf_disjoint {b : Bus} (h : b.wf = true) : b.regions.Pairwise fun r q => r.disjoint q = true := by
  simp only [Bus.wf, Bool.and_eq_true, decide_eq_true_eq] at h
  obtain ⟨⟨⟨-, hdisj⟩, -⟩, -⟩ := h
  exact hdisj

theorem Region.not_disjoint_of_overlap {r q : Region} (h1 : r.startAddr < q.endAddr) (h2 : q.startAddr < r.endAddr) :
    ¬ r.disjoint q = true := by
  rw [Region.disjoint_iff]
  rintro (h | h)
  · exact BitVec.not_lt.2 h h2
  · exact BitVec.not_lt.2 h h1

theorem busAdd_refuses_overlap {b : Bus} {x : RegionInit} {r : Region} (hr : r ∈ b.regions)
    (hd : ¬ r.disjoint x.region = true) : busAdd b x = none := by
  refine Option.eq_none_iff_forall_ne_some.2 fun b' h => ?_
  obtain ⟨-, hdisj, -⟩ := busAdd_some h
  exact hd (hdisj r hr)

/-- Settles O2: an accepted region is disjoint from those before it, so a built bus meets its invariant; disjoint regions
are all the constructor asks for besides contents of the right length. -/
theorem busConstruction : Obligations.BusConstruction := by
  refine ⟨fun regions b h => ?_, fun b x r hr h1 h2 => ?_, fun b x hfill hsep => ?_, fun regions hfill hsep => ?_⟩
  · have hwf := busBuild_wf Bus.empty_wf h
    exact ⟨hwf, (Bus.wf_disjoint hwf).imp (Region.disjoint_iff _ _).1⟩
  · exact busAdd_refuses_overlap hr (Region.not_disjoint_of_overlap h1 h2)
  · refine ⟨_, busAdd_accepts hfill fun r hr => (Region.disjoint_iff _ _).2 (hsep r hr), fun r => ?_⟩
    rw [List.mem_append, List.mem_singleton]
  · obtain ⟨b, hb⟩ := busBuild_accepts (b := ⟨[], []⟩) hfill (hsep.imp (Region.disjoint_iff _ _).2)
      fun _ hr => absurd hr List.not_mem_nil
    exact ⟨b, hb, busBuild_regions hb⟩

/-! ## The fetch window (R78) -/

/-- Settles O11: the region that holds pc is the only one, so the window is cut at its end. -/
theorem fetchWindowRule : Obligations.FetchWindowRule := fun _ _ =>
  ⟨fun hb _ hr h1 h2 => fetchWindow_region hb hr (BitVec.le_def.1 h1) (BitVec.lt_def.1 h2), fetchWindow_none⟩

/-! ## Spans of bytes (R62, R66) -/

/-- The state after a mapped write of bytes. -/
def withBytes (a : Word) (bytes : List Byte) (s : State) : State :=
  { s with bus := { s.bus with cells := Memory.writeAll s.bus.cells a.toNat bytes } }

section
variable {s : State} {a : Word} {n : Nat} {bytes : List Byte}

theorem not_mapped_of_contains_false (h : ∀ r ∈ s.bus.regions, r.contains a n = false) : ¬ mapped s a n := by
  rintro ⟨r, hr, hc⟩
  rw [h r hr] at hc
  exact Bool.false_ne_true hc

theorem hostRead_mapped (hn : 0 < n) (h : mapped s a n) : hostRead s a n = .ok (bytesAt s a n) := by
  rcases s.bus.readExact_cases a n .read hn with ⟨-, he⟩ | ⟨hno, -⟩
  · exact he
  · exact absurd h (not_mapped_of_contains_false hno)

theorem hostRead_unmapped (hn : 0 < n) (h : ¬ mapped s a n) : hostRead s a n = .error (.bus a n .read) := by
  rcases s.bus.readExact_cases a n .read hn with ⟨hm, -⟩ | ⟨-, he⟩
  · exact absurd hm h
  · exact he

theorem hostWrite_mapped (hn : 0 < bytes.length) (h : mapped s a bytes.length) :
    hostWrite s a bytes = .ok (withBytes a bytes s) := by
  rcases s.bus.writeBytes_cases a bytes hn with ⟨-, he⟩ | ⟨hno, -⟩
  · rw [hostWrite, he]; rfl
  · exact absurd h (not_mapped_of_contains_false hno)

theorem hostWrite_unmapped (hn : 0 < bytes.length) (h : ¬ mapped s a bytes.length) :
    hostWrite s a bytes = .error (.bus a bytes.length .write) := by
  rcases s.bus.writeBytes_cases a bytes hn with ⟨hm, -⟩ | ⟨-, he⟩
  · exact absurd hm h
  · rw [hostWrite, he]; rfl

theorem withBytes_byteAt (hs : s.bus.wf = true) (a : Word) (bytes : List Byte) (k : Nat) :
    (withBytes a bytes s).bus.byteAt k =
      if a.toNat ≤ k then bytes[k - a.toNat]?.getD (s.bus.byteAt k) else s.bus.byteAt k :=
  Memory.read_writeAll bytes (Bus.wf_cells hs) a.toNat k

/-- The bytes written are the bytes read. -/
theorem bytesAt_withBytes (hs : s.bus.wf = true) (a : Word) (bytes : List Byte) :
    bytesAt (withBytes a bytes s) a bytes.length = bytes := by
  refine List.ext_getElem (by simp [bytesAt]) fun k _ hk => ?_
  simp [bytesAt, withBytes_byteAt hs, hk]

/-- No byte outside the span was written. -/
theorem withBytes_sameBytesExcept (hs : s.bus.wf = true) (a : Word) (bytes : List Byte) :
    sameBytesExcept a bytes.length s (withBytes a bytes s) := by
  refine ⟨rfl, fun k hk => ?_⟩
  rw [withBytes_byteAt hs]
  split
  · rw [List.getElem?_eq_none (by omega), Option.getD_none]
  · rfl

end

/-! ## Accesses at a width (R64, R65) -/

theorem stored_sameBytesExcept {s : State} (hs : s.bus.wf = true) (w : Width) (a : Word) (v : BitVec w.bits) :
    sameBytesExcept a w.bytes s (stored w a v s) := ⟨rfl, fun _ => stored_byteAt_outside hs w a v⟩

/-- Settles O12: a mapped read answers the value of the span, whose bytes are those of memory. -/
theorem memReadRule : Obligations.MemReadRule := fun s w a =>
  ⟨fun hm => ⟨valueAt w s a, memRead_mapped hm, valueAt_bit w s a⟩, memRead_unmapped⟩

/-- Settles O13: the stored value reads back, so byte `k` of memory is byte `k` of the value. -/
theorem memWriteRule : Obligations.MemWriteRule := by
  intro s w a v hs
  refine ⟨fun hm => ⟨stored w a v s, memWrite_mapped v hm, fun k j hk hj => ?_, stored_sameBytesExcept hs w a v,
    rfl, rfl, rfl, rfl⟩, memWrite_unmapped v⟩
  rw [← valueAt_bit w _ a k j hk hj, stored_valueAt hs]

/-! ## The host's accesses (R62, R66) -/

/-- Settles O14: the bytes written read back and no other byte changed; a span of no bytes is not looked up. -/
theorem hostBytes : Obligations.HostBytes := by
  refine ⟨fun s a => ⟨rfl, rfl⟩, fun s a bytes hs hne => ?_⟩
  have hn : 0 < bytes.length := List.length_pos_iff.2 hne
  refine ⟨fun hm => ⟨hostRead_mapped hn hm, withBytes a bytes s, hostWrite_mapped hn hm, ?_⟩, fun hm => ?_⟩
  · exact ⟨bytesAt_withBytes hs a bytes, withBytes_sameBytesExcept hs a bytes, rfl, rfl, rfl, rfl⟩
  · exact ⟨hostRead_unmapped hn hm, hostWrite_unmapped hn hm⟩

end Sys2Proof.Machine

/-! The statements about the encoding (30_encoding.md): decoding and encoding are inverse (R94, R114), a window that
ends inside an instruction (R133), and the stream (R135 to R141). -/

namespace Sys2Proof

/-! ## Decoding and encoding (R94, R114, R133) -/

theorem Instr.length_le_maxLen {i : Instr} (h : i.wf = true) : i.length ≤ Config.maxLen := by
  simp only [Instr.wf, Bool.and_eq_true, decide_eq_true_eq] at h
  exact h.2

/-- The decoder looks at no byte after the fifteenth. -/
theorem decodeRow_take_maxLen (w : List Byte) : decodeRow (w.take Config.maxLen) = decodeRow w := by
  unfold decodeRow
  rw [List.take_take, Nat.min_self, List.length_take]
  by_cases h : w.length < Config.maxLen
  · rw [Nat.min_eq_right h.le]
  · rw [Nat.min_eq_left (Nat.le_of_not_lt h)]
    simp only [h, lt_irrefl]

/-- Every instruction that is parsed within fifteen bytes is well formed. -/
theorem wf_of_parse {bs rest : List Byte} {i : Instr} (hbs : bs.length ≤ Config.maxLen)
    (h : parse bs = .ok (i, rest)) : i.wf = true := by
  obtain ⟨hbytes, hprefixes, hrm, himm⟩ := parse_ok h
  have hlen : i.length ≤ Config.maxLen := by
    rw [hbytes, List.length_append] at hbs
    exact (Nat.le_add_right _ _).trans hbs
  simp [Instr.wf, hprefixes, hrm, himm, hlen]

theorem decodeRow_eq_row {w rest : List Byte} {i : Instr} (h : parse (w.take Config.maxLen) = .ok (i, rest)) :
    decodeRow w = .row i := by
  rw [decodeRow, h]

theorem decodeRow_eq_truncated {w : List Byte} (hw : w.length < Config.maxLen) (h : parse w = .error .outOfBytes) :
    decodeRow w = .truncated := by
  rw [decodeRow, List.take_of_length_le hw.le, h]
  exact if_pos hw

/-- A proper beginning of an instruction's bytes runs out of bytes: any other answer would stand for the whole encoding
too, whose parse leaves nothing over, while the bytes cut off are left over. -/
theorem parse_take_encode {i : Instr} (hi : i.wf = true) {n : Nat} (hn : n < i.length) :
    parse ((encode i).take n) = .error .outOfBytes := by
  by_contra hne
  have hext := parse_stable _ ((encode i).drop n) hne
  rw [List.take_append_drop, ← List.append_nil (encode i), parse_encode i hi, List.append_nil] at hext
  cases hp : parse ((encode i).take n) with
  | error e => rw [hp] at hext; cases hext
  | ok a =>
    rw [hp] at hext
    simp only [Except.map, Except.ok.injEq, Prod.mk.injEq] at hext
    have hdrop := List.drop_eq_nil_iff.1 (List.append_eq_nil_iff.1 hext.2.symm).2
    exact absurd hn (Nat.not_lt.2 hdrop)

/-- Settles O5: the bytes of a well-formed instruction lie within the fifteen that are looked at, and parse back. -/
theorem decodeOfEncode : Obligations.DecodeOfEncode := by
  intro i hi rest
  have htake : (encode i ++ rest).take Config.maxLen = encode i ++ rest.take (Config.maxLen - i.length) := by
    rw [List.take_append, List.take_of_length_le (Instr.length_le_maxLen hi), Instr.length]
  apply decodeRow_eq_row
  rw [htake]
  exact parse_encode i hi _

/-- Settles O6: a parse reads exactly the bytes of its instruction, and its row's checks with the fifteen bytes of the
window are the conditions of well-formedness. -/
theorem encodeOfDecode : Obligations.EncodeOfDecode := by
  intro window i h
  obtain ⟨rest, hparse, hbytes⟩ := decodeRow_row h
  refine ⟨wf_of_parse (List.length_take_le _ _) hparse, rest ++ window.drop Config.maxLen, ?_⟩
  rw [← List.append_assoc, ← hbytes, List.take_append_drop]

/-- Settles O7: the parse of a proper beginning runs out of bytes, in a window of fewer than fifteen. -/
theorem truncatedWindow : Obligations.TruncatedWindow := by
  refine ⟨rfl, fun i n hi hn => ?_⟩
  have hlen : ((encode i).take n).length < Config.maxLen :=
    (List.length_take_le _ _).trans_lt (hn.trans_le (Instr.length_le_maxLen hi))
  exact decodeRow_eq_truncated hlen (parse_take_encode hi hn)

/-- Settles O8: the decoder runs on each word. -/
theorem sampleWords : Obligations.SampleWords := by
  unfold Obligations.SampleWords
  decide

end Sys2Proof

namespace Sys2Proof.Machine

/-! ## Whole instructions in a row (R136, R137) -/

/-- The item that the bytes of an instruction give at an address. -/
def itemAt (i : Instr) (a : Word) : Instruction := mkInstruction a (encode i) i.length (i.kind a)

theorem decode_encode {i : Instr} (hi : i.wf = true) (rest : List Byte) (a : Word) :
    decode ((encode i ++ rest).take Config.maxLen) a = .decoded (itemAt i a) := by
  have hown : ((encode i ++ rest).take Config.maxLen).take i.length = (encode i).take i.length := by
    rw [List.take_take, Nat.min_eq_left (Instr.length_le_maxLen hi)]
    exact List.take_append_of_le_length le_rfl
  rw [decode, decodeRow_take_maxLen, decodeOfEncode i hi rest]
  simp only [itemAt, mkInstruction, hown]

theorem streamSequence_of_decoded {bs : List Byte} {a : Word} {ins : Instruction}
    (h : decode (bs.take Config.maxLen) a = .decoded ins) :
    streamSequence bs a = ins :: streamSequence (bs.drop ins.length) (a + BitVec.ofNat 64 ins.length) := by
  rw [streamSequence_eq, h]

theorem streamSequence_encode_append {i : Instr} (hi : i.wf = true) (rest : List Byte) (a : Word) :
    streamSequence (encode i ++ rest) a = itemAt i a :: streamSequence rest (a + BitVec.ofNat 64 i.length) := by
  have hdrop : (encode i ++ rest).drop (itemAt i a).length = rest := List.drop_left' rfl
  rw [streamSequence_of_decoded (decode_encode hi rest a), hdrop]
  rfl

theorem streamSequence_eq_nil {bs : List Byte} {a : Word}
    (h : ∀ ins, decode (bs.take Config.maxLen) a ≠ .decoded ins) : streamSequence bs a = [] := by
  rw [streamSequence_eq]
  split
  · exact absurd ‹_› (h _)
  · rfl

/-- The items of instructions in a row, the first at `a`, each next one where the one before it ends. -/
def itemsFrom : List Instr → Word → List Instruction
  | [], _ => []
  | i :: is, a => itemAt i a :: itemsFrom is (a + BitVec.ofNat 64 i.length)

@[simp] theorem itemsFrom_length (is : List Instr) (a : Word) : (itemsFrom is a).length = is.length := by
  induction is generalizing a with
  | nil => rfl
  | cons i is ih => rw [itemsFrom, List.length_cons, ih, List.length_cons]

/-- Item `k` stands at the first address plus the lengths before it. -/
theorem itemsFrom_getElem (is : List Instr) (a : Word) (k : Nat) (h : k < (itemsFrom is a).length)
    (h' : k < is.length) :
    (itemsFrom is a)[k] = itemAt is[k] (a + BitVec.ofNat 64 ((is.take k).map Instr.length).sum) := by
  induction is generalizing a k with
  | nil => cases h'
  | cons i is ih =>
    cases k with
    | zero => simp [itemsFrom]
    | succ k =>
      simp only [itemsFrom, List.getElem_cons_succ, List.take_succ_cons, List.map_cons, List.sum_cons]
      rw [ih, BitVec.ofNat_add, BitVec.add_assoc]

/-- The sequence of whole instructions before a tail that gives no item is theirs alone. -/
theorem streamSequence_flatMap_encode {is : List Instr} {tail : List Byte} (his : ∀ i ∈ is, i.wf = true)
    (ht : ∀ b ins, decode (tail.take 15) b ≠ .decoded ins) (a : Word) :
    streamSequence (is.flatMap encode ++ tail) a = itemsFrom is a := by
  induction is generalizing a with
  | nil => exact streamSequence_eq_nil (ht a)
  | cons i is ih =>
    rw [List.flatMap_cons, List.append_assoc, streamSequence_encode_append (his i List.mem_cons_self),
      ih fun j hj => his j (List.mem_cons_of_mem i hj), itemsFrom]

/-- Settles O60: the sequence is the items of the instructions, each at the address where the one before it ends. -/
theorem streamOfWholeInstructions : Obligations.StreamOfWholeInstructions := by
  intro is tail a his ht
  simp only [streamSequence_flatMap_encode his ht]
  refine ⟨itemsFrom_length is a, fun k h h' => ?_⟩
  rw [itemsFrom_getElem is a k h h']
  exact ⟨rfl, rfl, rfl⟩

/-! ## The buffered iterator yields the sequence (R136, R138) -/

/-- The items still to be pulled: those queued, then the sequence of the bytes not yet decoded. -/
def Stream.yet (st : Stream) : List Instruction :=
  st.queue ++ streamSequence (st.leftover ++ st.buffer ++ st.source) st.address

/-- What every pull keeps: CHUNK holds the longest instruction, and bytes are set aside only from an emptied buffer. -/
def Stream.Ready (st : Stream) : Prop := 15 ≤ st.chunk ∧ (st.leftover = [] ∨ st.buffer = [])

section
variable {st : Stream}

theorem streamPop_spec (h : st.queue = [] → st.yet = []) :
    (streamPop st).1 = st.yet.head? ∧ (streamPop st).2.yet = st.yet.tail := by
  cases hq : st.queue with
  | nil => simp [streamPop, hq, h hq]
  | cons ins q => simp [streamPop, Stream.yet, hq]

theorem streamPop_ready (h : st.Ready) : (streamPop st).2.Ready := by
  unfold streamPop
  split <;> exact h

/-- The stream after an item was taken from the head of its buffer. -/
def Stream.taken (st : Stream) (ins : Instruction) : Stream :=
  { st with
    buffer := st.buffer.drop ins.length
    address := st.address + BitVec.ofNat 64 ins.length
    average := Config.nextAverage st.average ins.length
    queue := st.queue ++ [ins] }

/-- The stream after its buffer was set aside. -/
def Stream.aside (st : Stream) : Stream := { st with buffer := [], leftover := st.leftover ++ st.buffer }

/-- One turn of a batch, by what stands at the head of the buffer. -/
theorem streamBatch_succ (n : Nat) (st : Stream) :
    (∃ ins, streamHead st.buffer st.source.isEmpty st.address = .item ins ∧
      streamBatch (n + 1) st = streamBatch n (st.taken ins)) ∨
    (streamHead st.buffer st.source.isEmpty st.address = .needBytes ∧ streamBatch (n + 1) st = st.aside) ∨
    (streamHead st.buffer st.source.isEmpty st.address = .ended ∧ streamBatch (n + 1) st = st) := by
  rw [streamBatch]
  cases streamHead st.buffer st.source.isEmpty st.address with
  | item ins => exact .inl ⟨ins, rfl, rfl⟩
  | needBytes => exact .inr (.inl ⟨rfl, rfl⟩)
  | ended => exact .inr (.inr ⟨rfl, rfl⟩)

/-- Taking an item moves it from the sequence of the bytes to the queue. -/
theorem Stream.yet_taken {ins : Instruction} (hl : st.leftover = [])
    (h : streamHead st.buffer st.source.isEmpty st.address = .item ins) : (st.taken ins).yet = st.yet := by
  obtain ⟨hdecode, -, hlen⟩ := streamHead_item (x := st.source) List.isEmpty_iff.1 h
  simp only [Stream.yet, Stream.taken, hl, List.nil_append]
  rw [streamSequence_of_decoded hdecode, List.append_assoc, List.drop_append_of_le_length hlen]
  rfl

theorem Stream.yet_aside (st : Stream) : st.aside.yet = st.yet := by
  simp [Stream.yet, Stream.aside]

/-- A batch changes nothing of what is still to be pulled. -/
theorem streamBatch_yet (n : Nat) (hl : st.leftover = []) : (streamBatch n st).yet = st.yet := by
  induction n generalizing st with
  | zero => rfl
  | succ n ih =>
    rcases streamBatch_succ n st with ⟨ins, hhead, he⟩ | ⟨-, he⟩ | ⟨-, he⟩ <;> rw [he]
    · exact (ih (st := st.taken ins) hl).trans (Stream.yet_taken hl hhead)
    · exact st.yet_aside

theorem streamBatch_ready (n : Nat) (h : st.Ready) : (streamBatch n st).Ready := by
  induction n generalizing st with
  | zero => exact h
  | succ n ih =>
    obtain ⟨hchunk, hside⟩ := h
    rcases streamBatch_succ n st with ⟨ins, -, he⟩ | ⟨-, he⟩ | ⟨-, he⟩ <;> rw [he]
    · exact ih ⟨hchunk, hside.imp_right fun hb => by rw [Stream.taken, hb, List.drop_nil]⟩
    · exact ⟨hchunk, .inr rfl⟩
    · exact ⟨hchunk, hside⟩

/-- A batch only adds to the queue. -/
theorem queue_prefix_streamBatch (n : Nat) : st.queue <+: (streamBatch n st).queue := by
  induction n generalizing st with
  | zero => exact List.prefix_rfl
  | succ n ih =>
    rcases streamBatch_succ n st with ⟨ins, -, he⟩ | ⟨-, he⟩ | ⟨-, he⟩ <;> rw [he]
    · exact (List.prefix_append _ _).trans (ih (st := st.taken ins))
    · exact List.prefix_rfl

/-- A batch that queues nothing, from a buffer that is not short while bytes are still to come, has reached the end of
the sequence. -/
theorem streamBatch_queue_nil {n : Nat} (hn : 1 ≤ n) (hl : st.leftover = [])
    (hfull : st.source = [] ∨ 15 ≤ st.buffer.length) (h : (streamBatch n st).queue = []) : st.yet = [] := by
  obtain ⟨m, rfl⟩ := Nat.exists_eq_add_of_le' hn
  rcases streamBatch_succ m st with ⟨ins, -, he⟩ | ⟨hhead, -⟩ | ⟨hhead, he⟩
  · rw [he] at h
    have hprefix := queue_prefix_streamBatch (st := st.taken ins) m
    rw [h, List.prefix_nil] at hprefix
    simp [Stream.taken] at hprefix
  · obtain ⟨hsource, hshort⟩ := streamHead_needs hhead
    rcases hfull with hs | hb
    · simp [hs] at hsource
    · omega
  · rw [he] at h
    rw [Stream.yet, h, hl]
    exact streamHead_ended List.isEmpty_iff.1 hhead

/-! ## A fill and a pull -/

theorem streamFill_yet (st : Stream) : (streamFill st).yet = st.yet := by
  simp [Stream.yet, streamFill, List.take_append_drop]

/-- After a fill either all bytes are in the buffer or it holds a whole window (R138). -/
theorem streamFill_full (h : 15 ≤ st.chunk) :
    (streamFill st).source = [] ∨ 15 ≤ (streamFill st).buffer.length := by
  simp only [streamFill, List.drop_eq_nil_iff, List.length_append, List.length_take]
  omega

theorem streamFill_ready (h : st.Ready) : (streamFill st).Ready := ⟨h.1, .inl rfl⟩

/-- The stream after the batch that a pull tries before it fills the buffer. -/
def Stream.drained (st : Stream) : Stream := if st.buffer.isEmpty then st else streamBatch (batchCount st) st

theorem Stream.yet_drained (h : st.Ready) : st.drained.yet = st.yet := by
  obtain ⟨-, hside⟩ := h
  rw [Stream.drained]
  split
  · rfl
  · next hb =>
    exact streamBatch_yet _ (hside.resolve_right fun he => hb (List.isEmpty_iff.2 he))

theorem Stream.drained_ready (h : st.Ready) : st.drained.Ready := by
  rw [Stream.drained]
  split
  · exact h
  · exact streamBatch_ready _ h

/-- The stream after a fill and a batch of what the buffer then holds. -/
def Stream.refilled (st : Stream) : Stream := streamBatch (batchCount (streamFill st)) (streamFill st)

theorem Stream.yet_refilled (st : Stream) : st.refilled.yet = st.yet :=
  (streamBatch_yet _ rfl).trans (streamFill_yet st)

theorem Stream.refilled_ready (h : st.Ready) : st.refilled.Ready := streamBatch_ready _ (streamFill_ready h)

/-- A fill and a batch queue an item unless the sequence has ended. -/
theorem Stream.yet_of_refilled_queue_nil (h : st.Ready) (hq : st.refilled.queue = []) : st.refilled.yet = [] := by
  rw [st.yet_refilled, ← streamFill_yet]
  exact streamBatch_queue_nil (Nat.le_max_left _ _) rfl (streamFill_full h.1) hq

/-- A pull takes from the queue, else from the queue after a batch, else from that after a fill and a batch more. -/
theorem streamPull_eq (st : Stream) : streamPull st =
    if st.queue.isEmpty then if st.drained.queue.isEmpty then streamPop st.drained.refilled else streamPop st.drained
    else streamPop st := rfl

/-- A pull is a pop of a stream that has the same items to come, and has one queued unless none are to come. -/
theorem streamPull_eq_pop (h : st.Ready) :
    ∃ u : Stream, streamPull st = streamPop u ∧ u.yet = st.yet ∧ u.Ready ∧ (u.queue = [] → u.yet = []) := by
  have hd := Stream.drained_ready h
  rw [streamPull_eq]
  split_ifs with hq hq'
  · exact ⟨_, rfl, (Stream.yet_refilled _).trans (Stream.yet_drained h), Stream.refilled_ready hd,
      Stream.yet_of_refilled_queue_nil hd⟩
  · exact ⟨_, rfl, Stream.yet_drained h, hd, fun hn => absurd (List.isEmpty_iff.2 hn) hq'⟩
  · exact ⟨_, rfl, rfl, h, fun hn => absurd (List.isEmpty_iff.2 hn) hq⟩

/-- A pull answers the first of the items to come and leaves the others. -/
theorem streamPull_spec (h : st.Ready) :
    (streamPull st).1 = st.yet.head? ∧ (streamPull st).2.yet = st.yet.tail ∧ (streamPull st).2.Ready := by
  obtain ⟨u, he, hyet, hready, hend⟩ := streamPull_eq_pop h
  obtain ⟨hhead, htail⟩ := streamPop_spec hend
  rw [he, ← hyet]
  exact ⟨hhead, htail, streamPop_ready hready⟩

theorem streamPulls_eq (n : Nat) (h : st.Ready) : streamPulls n st = st.yet.take n := by
  induction n generalizing st with
  | zero => rfl
  | succ n ih =>
    obtain ⟨hhead, htail, hready⟩ := streamPull_spec h
    obtain ⟨answer, st', hp⟩ : ∃ answer st', streamPull st = (answer, st') := ⟨_, _, rfl⟩
    rw [hp] at hhead htail hready
    cases hy : st.yet with
    | nil =>
      obtain rfl : answer = none := hhead.trans (congrArg List.head? hy)
      simp only [streamPulls, hp, List.take_nil]
    | cons ins rest =>
      obtain rfl : answer = some ins := hhead.trans (congrArg List.head? hy)
      simp only [streamPulls, hp, ih hready, htail, hy, List.tail_cons, List.take_succ_cons]

end

/-- Settles O59: a new stream has the whole sequence to come, and `n` pulls take the first `n` of it. -/
theorem streamYieldsSequence : Obligations.StreamYieldsSequence := by
  intro bytes a chunk n hchunk
  exact streamPulls_eq (st := streamCreate bytes a chunk) n ⟨hchunk, .inl rfl⟩

end Sys2Proof.Machine

/-! The statements about the engine (40_engine_and_operands.md): a step runs the instruction that the bytes at pc decode
to (R150, R151, R153), a fault leaves the state as it was (R154), and the effective address (R156). -/

namespace Sys2Proof

/-! ## The row behind a result of decode (30_encoding.md R90, R132) -/

section
variable {w : List Byte} {a : Word}

theorem decode_eq_of_row {i : Instr} (h : decodeRow w = .row i) :
    decode w a = .decoded (mkInstruction a w i.length (i.kind a)) := by
  rw [decode, h]

/-- Without a row, what the length oracle answers decides between `Invalid` and `Undecodable`. -/
theorem decode_eq_of_noRow (h : decodeRow w = .noRow) :
    decode w a = .undecodable ∨ ∃ n, decode w a = .decoded (mkInstruction a w n .invalid) := by
  rw [decode, h]
  cases Config.extLen (w.take Config.maxLen) with
  | none => exact .inl rfl
  | some n => exact .inr ⟨n, rfl⟩

theorem decode_eq_of_truncated (h : decodeRow w = .truncated) : decode w a = .truncated := by
  rw [decode, h]

theorem decodeRow_of_decode_truncated (h : decode w a = .truncated) : decodeRow w = .truncated := by
  cases hd : decodeRow w with
  | row i => rw [decode_eq_of_row hd] at h; cases h
  | noRow => rcases decode_eq_of_noRow (a := a) hd with he | ⟨n, he⟩ <;> rw [he] at h <;> cases h
  | truncated => rfl

theorem decodeRow_of_decode_undecodable (h : decode w a = .undecodable) : decodeRow w = .noRow := by
  cases hd : decodeRow w with
  | row i => rw [decode_eq_of_row hd] at h; cases h
  | noRow => rfl
  | truncated => rw [decode_eq_of_truncated hd] at h; cases h

/-- A decoded item is the absence of a row, of kind `Invalid`, or an admitted instruction with its length and kind. -/
theorem decodeRow_of_decode_decoded {ins : Instruction} (h : decode w a = .decoded ins) :
    (decodeRow w = .noRow ∧ ins.kind = .invalid) ∨
      ∃ i, decodeRow w = .row i ∧ ins.length = i.length ∧ ins.kind = i.kind a := by
  cases hd : decodeRow w with
  | row i =>
    rw [decode_eq_of_row hd, DecodeResult.decoded.injEq] at h
    subst h
    exact .inr ⟨i, rfl, rfl, rfl⟩
  | noRow =>
    rcases decode_eq_of_noRow (a := a) hd with he | ⟨n, he⟩ <;> rw [he] at h <;> cases h
    exact .inl ⟨rfl, rfl⟩
  | truncated => rw [decode_eq_of_truncated hd] at h; cases h

end

end Sys2Proof

namespace Sys2Proof.Machine

/-! ## The step, by what its window decodes to (R150, R151) -/

section
variable {s : State} {w : List Byte}

theorem step_truncated (hw : fetchWindow s.bus s.rip = .ok w) (hd : decodeRow w = .truncated) :
    step s = .fault (.decodeFault s.rip s) := by
  rw [step_window hw, hd]

theorem step_noRow (hw : fetchWindow s.bus s.rip = .ok w) (hd : decodeRow w = .noRow) :
    step s = .fault (.invalidInstruction s.rip s) := by
  rw [step_window hw, hd, runInvalid]

theorem step_row {i : Instr} (hw : fetchWindow s.bus s.rip = .ok w) (hd : decodeRow w = .row i) :
    step s = finishStep s.rip i.length (exec i s) := by
  rw [step_window hw, hd]

end

/-- Settles O10: each result of decode says which row the window has, and so which way the step goes; `Invalid` is the
kind of no row. -/
theorem fetchAndDecodeOutcomes : Obligations.FetchAndDecodeOutcomes := by
  intro s
  refine ⟨fun h => step_fetch_error (fetchWindow_none h), fun window hw =>
    ⟨fun h => step_truncated hw (decodeRow_of_decode_truncated h),
      fun h => step_noRow hw (decodeRow_of_decode_undecodable h), fun ins h => ?_⟩⟩
  rcases decodeRow_of_decode_decoded h with ⟨hrow, hkind⟩ | ⟨i, hrow, hlen, hkind⟩
  · exact ⟨fun _ => step_noRow hw hrow, fun hne => absurd hkind hne⟩
  · refine ⟨fun hinv => absurd (hkind.symm.trans hinv) (Instr.kind_ne_invalid i _), fun _ => ?_⟩
    rw [step_row hw hrow, exec_eq_runKind, hlen, hkind]

/-! ## The step on the bytes of an instruction (R150, R153) -/

theorem bytesAt_prefix (s : State) (a : Word) {m n : Nat} (h : m ≤ n) : bytesAt s a m <+: bytesAt s a n := by
  refine List.IsPrefix.map _ ?_
  rw [← Nat.add_sub_cancel' h, List.range_add]
  exact List.prefix_append _ _

/-- A mapped span at pc of at most fifteen bytes begins the fetch window (20_memory.md R78). -/
theorem fetchWindow_of_mapped {s : State} {n : Nat} (hs : s.bus.wf = true) (hpos : 0 < n) (hn : n ≤ Config.maxLen)
    (hm : mapped s s.rip n) : ∃ rest, fetchWindow s.bus s.rip = .ok (bytesAt s s.rip n ++ rest) := by
  obtain ⟨r, hr, hc⟩ := hm
  simp only [Region.contains, Bool.and_eq_true, decide_eq_true_eq] at hc
  obtain ⟨hstart, hend⟩ := hc
  have hle : n ≤ min Config.maxLen (r.endAddr.toNat - s.rip.toNat) := le_min hn (by omega)
  obtain ⟨rest, hrest⟩ := bytesAt_prefix s s.rip hle
  exact ⟨rest, hrest ▸ fetchWindow_region hs hr hstart (by omega)⟩

/-- Settles O9: the instruction's bytes begin the window, and whatever follows them the window decodes to it. -/
theorem stepRunsDecodedInstruction : Obligations.StepRunsDecodedInstruction := by
  intro s i hs hi hm hbytes
  obtain ⟨rest, hw⟩ := fetchWindow_of_mapped hs i.length_pos (Instr.length_le_maxLen hi) hm
  rw [hbytes] at hw
  rw [step_row hw (decodeOfEncode i hi rest)]
  cases exec i s <;> rfl

/-! ## What a fault leaves (R154) -/

/-- A call that may not fault late takes its target from a register or an immediate, which is read without a fault. -/
theorem call_target_total {i : Instr} {a : Word} {op : Operand} {s : State} (hk : i.kind a = .call op)
    (hl : mayFaultLate (.call op) = false) : ∃ v, readOp i.length .w64 op s = .ok v := by
  have hfits : fits .w64 op := by simpa only [hk, kindFits] using Instr.kind_fits i a
  refine readOp_total hfits fun m hm => ?_
  rw [hm] at hl
  cases hl

/-- Settles O55: the faults that leave another state are those of a Rep and of a Call whose target could not be read. -/
theorem faultsArePrecise : Obligations.FaultsArePrecise := by
  intro i s f hl h
  rcases exec_fault_cases h with hleft | ⟨op, e, hk, -, -, he⟩ | ⟨r, hk, -⟩
  · exact hleft
  · rw [hk] at hl
    obtain ⟨v, hv⟩ := call_target_total hk hl
    rw [hv] at he
    cases he
  · rw [hk] at hl
    cases hl

/-! ## The effective address (R156) -/

/-- The base term as an integer, before any reduction. -/
def baseTerm (len : Nat) (s : State) : Base → Int
  | .absent => 0
  | .gpr i => (s.reg i).toNat
  | .rip => s.rip.toNat + len

/-- The index term as an integer, before any reduction. -/
def indexTerm (s : State) : Option (Fin 16 × Scale) → Int
  | none => 0
  | some (j, c) => (s.reg j).toNat * (Scale.factor c : Int)

theorem baseValue_modEq (len : Nat) (s : State) (b : Base) :
    ((baseValue len s b).toNat : Int) ≡ baseTerm len s b [ZMOD 2 ^ 64] := by
  cases b with
  | absent => rfl
  | gpr i => rfl
  | rip => simp [Int.ModEq, baseValue, baseTerm]

theorem indexValue_modEq (s : State) (x : Option (Fin 16 × Scale)) :
    ((indexValue s x).toNat : Int) ≡ indexTerm s x [ZMOD 2 ^ 64] := by
  cases x with
  | none => rfl
  | some jc => simp [Int.ModEq, indexValue, indexTerm]

theorem toNat_modEq_toInt (v : Word) : (v.toNat : Int) ≡ v.toInt [ZMOD 2 ^ 64] := by
  rw [BitVec.toInt_eq_toNat_bmod]
  exact (Int.bmod_emod).symm

theorem ea0_toNat (len : Nat) (m : MemOperand) (s : State) :
    ((ea0 len m s).toNat : Int) = (baseTerm len s m.base + indexTerm s m.index + m.disp.toInt) % 2 ^ 64 := by
  have hsum : ((ea0 len m s).toNat : Int) =
      ((baseValue len s m.base).toNat + (indexValue s m.index).toNat + m.disp.toNat) % 2 ^ 64 := by
    simp [ea0]
  rw [hsum]
  exact ((baseValue_modEq len s m.base).add (indexValue_modEq s m.index)).add (toNat_modEq_toInt m.disp)

/-- Settles O16: the sum of the three words is the sum of the three integers modulo 2^64. -/
theorem effectiveAddressRule : Obligations.EffectiveAddressRule := by
  intro len m s
  refine ⟨?_, rfl⟩
  rw [ea0_toNat]
  rcases m.index with _ | ⟨j, c⟩
  · cases m.base <;> rfl
  · cases m.base <;> cases c <;> rfl

end Sys2Proof.Machine

/-! The statements about data movement (41_data_movement.md): Mov (R170), MovZX (R172), Lea (R173). -/

namespace Sys2Proof.Machine

/-! ## Instructions that write their destination and no flags -/

section
variable {i : Instr} {s : State} {len : Nat}

/-- An instruction does what the rule of its kind does (40_engine_and_operands.md R152). -/
theorem exec_of_kind {k : InstructionType} (hk : i.kind s.rip = k) : exec i s = runKind i.length k s := by
  rw [exec_eq_runKind, hk]

/-- A write of an operand touches neither flags, pc nor stream. -/
theorem written_onlyDestinationAndFlags {w : Width} {o : Operand} {v : BitVec w.bits}
    (h : onlyDestination len o s (written len w o v s)) :
    onlyDestinationAndFlags len o [] s (written len w o v s) :=
  ⟨h, sameFlagsExcept_of_eq (written_flags ..), written_rip .., written_stream ..⟩

/-- An instruction whose only effect is the write of its destination. -/
theorem completes_of_written (hs : s.bus.wf = true) {dst : Operand} (hd : Operand.notImm dst)
    {v : BitVec (Operand.width dst).bits} (h : exec i s = .next (written i.length (Operand.width dst) dst v s)) :
    completes i s fun t => operandValue i.length (Operand.width dst) dst t = v ∧
      onlyDestinationAndFlags i.length dst [] s t :=
  ⟨_, h, written_value hs hd (fits_width hd) v,
    written_onlyDestinationAndFlags (written_onlyDestination hs hd (fits_width hd) v)⟩

/-- A store through an FS or GS override faults before any access (R156). -/
theorem writeOp_segment {m : MemOperand} (v : BitVec m.size.bits) {g : Seg} (hg : m.segment = some g)
    (h : g = .fs ∨ g = .gs) : writeOp len m.size (.mem m) v s = .error (.segment g) := by
  simp [writeOp, ea_segment hg h, Except.bind]

/-- An instruction that begins by storing to the operand. -/
theorem faultsOn_store {m : MemOperand} {v : BitVec m.size.bits} {go : State → Result}
    (h : exec i s = access (writeOp i.length m.size (.mem m) v s) s go) : faultsOn i .write m s s := by
  refine ⟨fun g hg hs => ?_, fun h1 h2 hm => ?_⟩
  · rw [h, writeOp_segment v hg hs]; rfl
  · rw [h, writeOp_unmapped v h1 h2 hm]; rfl

end

/-! ## Mov (R170) -/

/-- Settles O17: the value read is the value written. At most one operand is in memory, so the access that fails is
either the first one, or the write after a read that cannot fault. -/
theorem movResult : Obligations.MovResult := by
  intro i s dst src hk
  have hrun : exec i s = runMov i.length dst src s := exec_of_kind hk
  have hfits : kindFits (.mov dst src) := hk ▸ Instr.kind_fits i s.rip
  have hone : oneMem (.mov dst src) := hk ▸ Instr.kind_oneMem i s.rip
  obtain ⟨hd, hsrc⟩ := hfits
  refine ⟨fun hs ha hb => completes_of_written hs hd (hrun.trans (runMov_completes hd hsrc ha hb)), ?_, ?_⟩
  · rintro m rfl
    exact faultsOn_first hsrc hrun
  · rintro m rfl
    obtain ⟨v, hv⟩ := readOp_total (len := i.length) (s := s) hsrc fun m' => hone m m' rfl
    rw [runMov, hv, access_ok] at hrun
    exact faultsOn_store hrun

/-! ## MovZX (R172) -/

/-- The operand-size width is never a byte (30_encoding.md R95). -/
theorem Prefixes.sixteen_le_vWidth_bits (p : Prefixes) : 16 ≤ p.vWidth.bits := by
  unfold Prefixes.vWidth
  split_ifs <;> decide

/-- The source of a MovZX is no wider than its destination, so zero-extension loses nothing. -/
theorem movzx_bits_le {i : Instr} {a : Word} {dst src : Operand} (hk : i.kind a = .movzx dst src) :
    (Operand.width src).bits ≤ (Operand.width dst).bits := by
  cases i <;> simp only [Instr.kind, reduceCtorEq, InstructionType.movzx.injEq] at hk
  case movzxRRm8 p reg rm =>
    obtain ⟨rfl, rfl⟩ := hk
    rw [rmOperand_width, regOperand_width]
    exact eight_le_bits _
  case movzxRRm16 p reg rm =>
    obtain ⟨rfl, rfl⟩ := hk
    rw [rmOperand_width, regOperand_width]
    exact Prefixes.sixteen_le_vWidth_bits p

/-- Settles O18: the value read is extended into a destination at least as wide, so it stays the same number. -/
theorem movzxResult : Obligations.MovzxResult := by
  intro i s dst src hk
  have hrun : exec i s = runMovzx i.length dst src s := exec_of_kind hk
  have hfits : kindFits (.movzx dst src) := hk ▸ Instr.kind_fits i s.rip
  obtain ⟨hd, hsrc⟩ := hfits
  refine ⟨fun hs ha hb => ?_, ?_⟩
  · obtain ⟨t, ht, hval, hframe⟩ := completes_of_written hs hd (hrun.trans (runMovzx_completes hd hsrc ha hb))
    refine ⟨t, ht, ?_, hframe⟩
    rw [hval]
    exact BitVec.toNat_setWidth_of_le (movzx_bits_le hk)
  · rintro m rfl
    exact faultsOn_first rfl hrun

/-! ## Lea (R173) -/

/-- Settles O19: the destination is a register, so the write cannot fault and the bus takes no part. -/
theorem leaResult : Obligations.LeaResult := by
  intro i s dst src hk hwf
  obtain ⟨m, rfl⟩ := Instr.lea_source hwf hk
  obtain ⟨r, rfl⟩ := Instr.lea_destination hk
  refine ⟨m, rfl, _, (exec_of_kind hk).trans (runLea_completes (Operand.notImm_reg r) trivial), ?_, ?_⟩
  · exact written_reg_value r _
  · exact written_onlyDestinationAndFlags (written_reg_onlyDestination _ r _)

end Sys2Proof.Machine

/-! The statements about arithmetic (42_arithmetic.md): Add, Adc, Sub, Cmp, Inc, Dec (R187 to R192), the conditions after a
Cmp (R190), and the boundary table (R194). -/

namespace Sys2Proof.Machine

/-! ## Instructions that update flags -/

section
variable {i : Instr} {s : State}

theorem completes_mono {P Q : State → Prop} (h : completes i s P) (hPQ : ∀ t, P t → Q t) : completes i s Q := by
  obtain ⟨t, ht, hP⟩ := h
  exact ⟨t, ht, hPQ t hP⟩

/-- An instruction whose only effects are the write of its destination and the new flags word `fl`. -/
theorem completes_of_written_setFlags (hs : s.bus.wf = true) {dst : Operand} (hd : Operand.notImm dst)
    {v : BitVec (Operand.width dst).bits} {fl : Word} {bits : List Nat}
    (hkeep : ∀ j, j ∉ bits → fl.getLsbD j = s.flags.getLsbD j)
    (h : exec i s = .next ((written i.length (Operand.width dst) dst v s).setFlags fl)) :
    completes i s fun t => operandValue i.length (Operand.width dst) dst t = v ∧ t.flags = fl ∧
      onlyDestinationAndFlags i.length dst bits s t := by
  refine ⟨_, h, ?_, rfl, onlyDestinationAndFlags_of hs hd (fits_width hd) v hkeep⟩
  rw [operandValue_setFlags]
  exact written_value hs hd (fits_width hd) v

/-- An instruction whose only effect is the new flags word `fl`. -/
theorem completes_of_setFlags {fl : Word} {bits : List Nat} (hkeep : ∀ j, j ∉ bits → fl.getLsbD j = s.flags.getLsbD j)
    (h : exec i s = .next (s.setFlags fl)) : completes i s fun t => t.flags = fl ∧ onlyFlags bits s t :=
  ⟨_, h, rfl, rfl, rfl, hkeep, rfl, rfl⟩

/-- An instruction that begins by reading two operands, at most one of them in memory: whichever it is, the read is the
first access that can fault. -/
theorem faultsOn_either {x y : Operand} (hfits : Operand.notImm x ∧ fits (Operand.width x) y)
    (hone : ∀ m m', x = .mem m → y ≠ .mem m')
    {go : BitVec (Operand.width x).bits → BitVec (Operand.width x).bits → Result}
    (h : exec i s = access (readOp i.length (Operand.width x) x s) s fun a =>
      access (readOp i.length (Operand.width x) y s) s (go a)) :
    ∀ m, x = .mem m ∨ y = .mem m → faultsOn i .read m s s := by
  obtain ⟨hx, hy⟩ := hfits
  rintro m (rfl | rfl)
  · exact faultsOn_first rfl h
  · exact faultsOn_second (fits_width hx) (fun m' hm' => hone m' m hm' rfl) hy h

end

/-! ## Two operands (40_engine_and_operands.md R160) -/

section
variable {i : Instr} {s : State} {x y : Operand} {bits : List Nat}
  {f : (w : Width) → BitVec w.bits → BitVec w.bits → BitVec w.bits}
  {upd : (w : Width) → BitVec w.bits → BitVec w.bits → BitVec w.bits → Word → Word}

/-- A read-compute-write instruction whose flag function keeps every bit outside the list. -/
theorem completes_of_binaryWrite (hfits : Operand.notImm x ∧ fits (Operand.width x) y)
    (hrun : exec i s = binaryWrite i.length x y s f upd)
    (hkeep : ∀ w a b r fl j, j ∉ bits → (upd w a b r fl).getLsbD j = fl.getLsbD j)
    (hs : s.bus.wf = true) (hax : accessible i.length x s) (hay : accessible i.length y s) :
    completes i s fun t =>
      let w := Operand.width x
      let a := operandValue i.length w x s
      let b := operandValue i.length w y s
      operandValue i.length w x t = f w a b ∧ t.flags = upd w a b (f w a b) s.flags ∧
        onlyDestinationAndFlags i.length x bits s t := by
  obtain ⟨hx, hy⟩ := hfits
  exact completes_of_written_setFlags hs hx (fun j hj => hkeep _ _ _ _ _ j hj)
    (hrun.trans (binaryWrite_completes hx hy hax hay))

/-- The same without the write. -/
theorem completes_of_binaryTest (hfits : Operand.notImm x ∧ fits (Operand.width x) y)
    (hrun : exec i s = binaryTest i.length x y s f upd)
    (hkeep : ∀ w a b r fl j, j ∉ bits → (upd w a b r fl).getLsbD j = fl.getLsbD j)
    (hax : accessible i.length x s) (hay : accessible i.length y s) :
    completes i s fun t =>
      let w := Operand.width x
      let a := operandValue i.length w x s
      let b := operandValue i.length w y s
      t.flags = upd w a b (f w a b) s.flags ∧ onlyFlags bits s t := by
  obtain ⟨hx, hy⟩ := hfits
  exact completes_of_setFlags (fun j hj => hkeep _ _ _ _ _ j hj) (hrun.trans (binaryTest_completes hx hy hax hay))

end

/-! ## Add, Adc, Sub, Cmp (R187 to R190) -/

/-- Settles O20: the flags are those of `updateAdd` on the sum that is written. -/
theorem addResult : Obligations.AddResult := by
  intro i s dst src hk
  have hrun : exec i s = runAdd i.length dst src s := exec_of_kind hk
  have hfits : kindFits (.add dst src) := hk ▸ Instr.kind_fits i s.rip
  have hone : oneMem (.add dst src) := hk ▸ Instr.kind_oneMem i s.rip
  refine ⟨fun hs ha hb => ?_, faultsOn_either hfits hone hrun⟩
  refine completes_mono (completes_of_binaryWrite hfits hrun (fun _ => updateAdd_keeps) hs ha hb) ?_
  rintro t ⟨hval, hflags, hframe⟩
  obtain ⟨hsum, hcf⟩ := sumFlags_updateAdd hflags
  exact ⟨hval, hsum, hcf, hframe⟩

/-- The carry out of the width, as R185 writes it. -/
theorem two_pow_le_iff (n x : Nat) : 2 ^ n ≤ x ↔ x > 2 ^ n - 1 := by
  have := Nat.two_pow_pos n
  omega

/-- Settles O21: the flags are those of `updateAdc` with CF of before, and its carry is that of the unbounded sum. -/
theorem adcResult : Obligations.AdcResult := by
  intro i s dst src hk
  have hrun : exec i s = binaryWrite i.length dst src s
      (fun w a b => a + b + BitVec.ofNat w.bits (s.flags.getLsbD bitCF).toNat)
      (fun _ a b r f => updateAdc a b (s.flags.getLsbD bitCF) r f) := exec_of_kind hk
  have hfits : kindFits (.adc dst src) := hk ▸ Instr.kind_fits i s.rip
  have hone : oneMem (.adc dst src) := hk ▸ Instr.kind_oneMem i s.rip
  refine ⟨fun hs ha hb => ?_, faultsOn_either hfits hone hrun⟩
  refine completes_mono
    (completes_of_binaryWrite hfits hrun (fun _ a b r f _ => updateAdc_keeps a b r f _) hs ha hb) ?_
  rintro t ⟨hval, hflags, hframe⟩
  obtain ⟨hsum, hcf⟩ := sumFlags_updateAdc hflags
  exact ⟨hval, hsum, hcf.trans (two_pow_le_iff _ _), hframe⟩

/-- Settles O22: the flags are those of `updateSub` on the difference that is written. -/
theorem subResult : Obligations.SubResult := by
  intro i s dst src hk
  have hrun : exec i s = runSub i.length dst src s := exec_of_kind hk
  have hfits : kindFits (.sub dst src) := hk ▸ Instr.kind_fits i s.rip
  have hone : oneMem (.sub dst src) := hk ▸ Instr.kind_oneMem i s.rip
  refine ⟨fun hs ha hb => ?_, faultsOn_either hfits hone hrun⟩
  refine completes_mono (completes_of_binaryWrite hfits hrun (fun _ => updateSub_keeps) hs ha hb) ?_
  rintro t ⟨hval, hflags, hframe⟩
  obtain ⟨hdiff, hcf⟩ := differenceFlags_updateSub hflags
  exact ⟨hval, hdiff, hcf, hframe⟩

/-- Settles O23: the flags of Sub without its write. -/
theorem cmpResult : Obligations.CmpResult := by
  intro i s x y hk
  have hrun : exec i s = runCmp i.length x y s := exec_of_kind hk
  have hfits : kindFits (.cmp x y) := hk ▸ Instr.kind_fits i s.rip
  have hone : oneMem (.cmp x y) := hk ▸ Instr.kind_oneMem i s.rip
  refine ⟨fun ha hb => ?_, faultsOn_either hfits hone hrun⟩
  refine completes_mono (completes_of_binaryTest hfits hrun (fun _ => updateSub_keeps) ha hb) ?_
  rintro t ⟨hflags, hframe⟩
  obtain ⟨hdiff, hcf⟩ := differenceFlags_updateSub hflags
  exact ⟨hdiff, hcf, hframe⟩

/-! ## Inc and Dec (R191, R192) -/

/-- Settles O24: the flag functions without CF, on the operand and 1; CF is in the frame. -/
theorem incDecResult : Obligations.IncDecResult := by
  intro i s dst
  refine ⟨fun hk => ?_, fun hk => ?_⟩
  · have hrun : exec i s = runInc i.length dst s := exec_of_kind hk
    have hd : kindFits (.inc dst) := hk ▸ Instr.kind_fits i s.rip
    refine ⟨fun hs ha => ?_, ?_⟩
    · refine completes_mono (completes_of_written_setFlags hs hd (fun j => updateAddNoCf_keeps _ _ _ _)
        (hrun.trans (runInc_completes hd ha))) ?_
      rintro t ⟨hval, hflags, hframe⟩
      exact ⟨hval, sumFlags_updateAddNoCf hflags, hframe⟩
    · rintro m rfl
      exact faultsOn_first rfl hrun
  · have hrun : exec i s = runDec i.length dst s := exec_of_kind hk
    have hd : kindFits (.dec dst) := hk ▸ Instr.kind_fits i s.rip
    refine ⟨fun hs ha => ?_, ?_⟩
    · refine completes_mono (completes_of_written_setFlags hs hd (fun j => updateSubNoCf_keeps _ _ _ _)
        (hrun.trans (runDec_completes hd ha))) ?_
      rintro t ⟨hval, hflags, hframe⟩
      exact ⟨hval, differenceFlags_updateSubNoCf hflags, hframe⟩
    · rintro m rfl
      exact faultsOn_first rfl hrun

/-! ## The conditions after a Cmp (R190, 45_control_transfer.md R223 to R236) -/

/-- A signed difference that does not fit is off by 2^n: it comes out with the other sign. -/
theorem toInt_sub_of_overflow {n : Nat} {a b : BitVec n} (hov : (a - b).toInt ≠ a.toInt - b.toInt) :
    0 ≤ (a - b).toInt ↔ a.toInt < b.toInt := by
  have hr : (a - b).toInt = (a.toInt - b.toInt).bmod (2 ^ n) := BitVec.toInt_sub
  have ha1 := a.two_mul_toInt_lt
  have ha2 := a.le_two_mul_toInt
  have hb1 := b.two_mul_toInt_lt
  have hb2 := b.le_two_mul_toInt
  have hm : ((2 ^ n : Nat) : Int) = 2 ^ n := by norm_cast
  have hout : ¬ (-((2 ^ n : Nat) : Int) ≤ (a.toInt - b.toInt) * 2 ∧
      (a.toInt - b.toInt) * 2 < ((2 ^ n : Nat) : Int)) :=
    fun ⟨h1, h2⟩ => hov (hr.trans (Int.bmod_eq_of_le_mul_two h1 h2))
  rcases lt_or_ge a.toInt b.toInt with hlt | hge
  · rw [← Int.add_bmod_right, Int.bmod_eq_of_le_mul_two (by omega) (by omega)] at hr
    omega
  · rw [← Int.sub_bmod_right, Int.bmod_eq_of_le_mul_two (by omega) (by omega)] at hr
    omega

/-- The sign of a difference, corrected where it overflowed, tells which operand is less as a signed integer: without an
overflow the difference is the signed one, and an overflow takes it to the other side of 0. -/
theorem sign_ne_overflow_iff {n : Nat} (a b : BitVec n) (hn : 0 < n) :
    (a - b).msb ≠ ((a ^^^ b) &&& (a ^^^ (a - b))).msb ↔ a.toInt < b.toInt := by
  have hov := differenceOverflow_iff a b hn
  have hsign : (a - b).msb = true ↔ (a - b).toInt < 0 := by rw [BitVec.msb_eq_toInt, decide_eq_true_eq]
  by_cases heq : (a - b).toInt = a.toInt - b.toInt
  · have hno : ((a ^^^ b) &&& (a ^^^ (a - b))).msb = false := by
      rw [← Bool.not_eq_true, hov]
      exact not_not_intro heq
    rw [hno, Bool.ne_false_iff, hsign, heq]
    omega
  · have hside := toInt_sub_of_overflow heq
    rw [hov.2 heq, ne_eq, hsign]
    omega

section
variable {t : State}

theorem conditionHolds_ae : conditionHolds .ae t ↔ ¬ conditionHolds .b t := (Bool.not_eq_true _).symm.to_iff

theorem conditionHolds_ne : conditionHolds .ne t ↔ ¬ conditionHolds .e t := (Bool.not_eq_true _).symm.to_iff

theorem conditionHolds_be : conditionHolds .be t ↔ conditionHolds .b t ∨ conditionHolds .e t := Iff.rfl

theorem conditionHolds_a : conditionHolds .a t ↔ ¬ conditionHolds .be t := by
  rw [conditionHolds_be, not_or, ← conditionHolds_ae, ← conditionHolds_ne]
  exact Iff.rfl

theorem conditionHolds_ge : conditionHolds .ge t ↔ ¬ conditionHolds .l t := not_not.symm

theorem conditionHolds_le : conditionHolds .le t ↔ conditionHolds .e t ∨ conditionHolds .l t := Iff.rfl

theorem conditionHolds_g : conditionHolds .g t ↔ ¬ conditionHolds .le t := by
  rw [conditionHolds_le, not_or, ← conditionHolds_ge, ← conditionHolds_ne]
  exact Iff.rfl

variable {n : Nat} {a b : BitVec n} (h : differenceFlags a b (a - b) t)
include h

theorem conditionHolds_e_of_differenceFlags : conditionHolds .e t ↔ a = b := by
  obtain ⟨⟨hzf, -, -⟩, -, -⟩ := h
  exact hzf.trans sub_eq_zero

theorem conditionHolds_l_of_differenceFlags (hn : 0 < n) : conditionHolds .l t ↔ a.toInt < b.toInt := by
  obtain ⟨⟨-, hsf, -⟩, -, hof⟩ := h
  rw [← sign_ne_overflow_iff a b hn, ← hsf, ← hof]
  exact Iff.rfl

end

/-- Settles O27: B, E and L are CF, ZF and the corrected sign of the difference; the other seven are made of these. -/
theorem cmpThenConditions : Obligations.CmpThenConditions := by
  intro i s t x y hk hexec a b
  have hrun : runCmp i.length x y s = .next t := (exec_of_kind hk).symm.trans hexec
  have ht : t = s.setFlags (updateSub a b (a - b) s.flags) := binaryTest_next hrun
  obtain ⟨hdiff, hcf⟩ := differenceFlags_updateSub (t := t) (by rw [ht]; rfl)
  have hb : conditionHolds .b t ↔ a.toNat < b.toNat := hcf
  have he : conditionHolds .e t ↔ a = b := conditionHolds_e_of_differenceFlags hdiff
  have hl : conditionHolds .l t ↔ a.toInt < b.toInt :=
    conditionHolds_l_of_differenceFlags hdiff (lt_of_lt_of_le (by decide) (eight_le_bits _))
  have hbe : conditionHolds .be t ↔ a.toNat ≤ b.toNat := by
    rw [conditionHolds_be, hb, he, ← BitVec.toNat_inj, le_iff_lt_or_eq]
  have hle : conditionHolds .le t ↔ a.toInt ≤ b.toInt := by
    rw [conditionHolds_le, he, hl, ← BitVec.toInt_inj, le_iff_eq_or_lt]
  refine ⟨hb, ?_, he, ?_, hbe, ?_, hl, ?_, hle, ?_⟩
  · rw [conditionHolds_ae, hb, not_lt]
  · rw [conditionHolds_ne, he]
  · rw [conditionHolds_a, hbe, not_le]
  · rw [conditionHolds_ge, hl, not_lt]
  · rw [conditionHolds_g, hle, not_le]

/-! ## The boundary table (R194) -/

section
variable {n : Nat} (a b r : BitVec n) (f : Word)

/-- CF, PF, AF, ZF, SF, OF after `updateAdd`, whatever the word was before. -/
theorem statusBits_updateAdd : (arithmeticBits.map fun k => (updateAdd a b r f).getLsbD k) =
    [decide (r < a), pfOf r, afOf a b r, zfOf r, sfOf r, ((a ^^^ r) &&& (b ^^^ r)).getLsbD (n - 1)] := by
  simp [arithmeticBits, getLsbD_updateAdd, getLsbD_updateAddNoCf, getLsbD_putZSP]

/-- CF, PF, AF, ZF, SF, OF after `updateSub`, whatever the word was before. -/
theorem statusBits_updateSub : (arithmeticBits.map fun k => (updateSub a b r f).getLsbD k) =
    [decide (a < b), pfOf r, afOf a b r, zfOf r, sfOf r, ((a ^^^ b) &&& (a ^^^ r)).getLsbD (n - 1)] := by
  simp [arithmeticBits, getLsbD_updateSub, getLsbD_updateSubNoCf, getLsbD_putZSP]

end

/-- Settles O28: the six bits do not depend on F, so each row is a computation on its operands. -/
theorem boundaryTable : Obligations.BoundaryTable := fun f =>
  ⟨⟨by decide, (statusBits_updateAdd _ _ _ f).trans (by decide)⟩,
    ⟨by decide, (statusBits_updateAdd _ _ _ f).trans (by decide)⟩,
    ⟨by decide, (statusBits_updateSub _ _ _ f).trans (by decide)⟩,
    ⟨by decide, (statusBits_updateAdd _ _ _ f).trans (by decide)⟩,
    ⟨by decide, (statusBits_updateAdd _ _ _ f).trans (by decide)⟩⟩

end Sys2Proof.Machine

/-! The statements about logic and shifts (43_logic_shift.md): Test, Xor, Shl, Shr (R200 to R206). -/

namespace Sys2Proof.Machine

/-! ## Test and Xor (R201, R202) -/

/-- Settles O29: the flags of `updateLogic` on the conjunction, which is not written. A Test has its memory operand
first, so that read is the first access. -/
theorem testResult : Obligations.TestResult := by
  intro i s x y hk
  have hrun : exec i s = runTest i.length x y s := exec_of_kind hk
  have hfits : kindFits (.test x y) := hk ▸ Instr.kind_fits i s.rip
  refine ⟨fun ha hb => ?_, ?_⟩
  · refine completes_mono (completes_of_binaryTest hfits hrun (fun _ _ _ r fl _ => updateLogic_keeps r fl) ha hb) ?_
    rintro t ⟨hflags, hframe⟩
    exact ⟨logicFlags_updateLogic hflags, hframe⟩
  · rintro m rfl
    exact faultsOn_first rfl hrun

/-- Settles O30: the flags of `updateLogic` on the exclusive or that is written. -/
theorem xorResult : Obligations.XorResult := by
  intro i s dst src hk
  have hrun : exec i s = runXor i.length dst src s := exec_of_kind hk
  have hfits : kindFits (.xor dst src) := hk ▸ Instr.kind_fits i s.rip
  have hone : oneMem (.xor dst src) := hk ▸ Instr.kind_oneMem i s.rip
  refine ⟨fun hs ha hb => ?_, faultsOn_either hfits hone hrun⟩
  refine completes_mono
    (completes_of_binaryWrite hfits hrun (fun _ _ _ r fl _ => updateLogic_keeps r fl) hs ha hb) ?_
  rintro t ⟨hval, hflags, hframe⟩
  exact ⟨hval, logicFlags_updateLogic hflags, hframe⟩

/-! ## The parts of a shift (R204 to R206) -/

section
variable {n : Nat} {a r : BitVec n} {k : Nat}

theorem toNat_shiftValue_left : (shiftValue .left a k).toNat = a.toNat * 2 ^ k % 2 ^ n := by
  rw [shiftValue, BitVec.toNat_shiftLeft, Nat.shiftLeft_eq]

theorem toNat_shiftValue_right : (shiftValue .right a k).toNat = a.toNat / 2 ^ k := by
  rw [shiftValue, BitVec.toNat_ushiftRight, Nat.shiftRight_eq_div_pow]

variable {d : ShiftDir} {dc dv da cf : Bool} {f : Word} {t : State}

/-- A count up to the width does not use the draw for CF. -/
theorem shiftCf_left (hk : k ≤ n) : shiftCf .left a k dc = a.getLsbD (n - k) := if_pos hk

theorem shiftCf_right (hk : k ≤ n) : shiftCf .right a k dc = a.getLsbD (k - 1) := if_pos hk

/-- A count of 1 does not use the draw for OF. -/
theorem shiftOf_left_one : shiftOf .left a r 1 cf dv = (r.msb ^^ cf) := by
  rw [BitVec.msb_eq_getLsbD_last]
  rfl

theorem shiftOf_right_one : shiftOf .right a r 1 cf dv = a.msb := by
  rw [BitVec.msb_eq_getLsbD_last]
  rfl

theorem carry_updateShift (h : t.flags = updateShift d a r k dc dv da f) :
    t.flags.getLsbD bitCF = shiftCf d a k dc := by
  rw [h, getLsbD_updateShift, if_pos rfl]

theorem overflow_updateShift (h : t.flags = updateShift d a r k dc dv da f) :
    t.flags.getLsbD bitOF = shiftOf d a r k (t.flags.getLsbD bitCF) dv := by
  rw [carry_updateShift h, h, getLsbD_updateShift, if_neg (by decide), if_pos rfl]

end

/-! ## Shl and Shr (R205, R206) -/

section
variable {i : Instr} {s : State} {dst count : Operand} {d : ShiftDir}

/-- What both shifts do: for a count that is not 0, CF is as R204 says for some draw, and so is OF for a count of 1. -/
theorem completes_of_shift (hrun : exec i s = runShift d i.length dst count s)
    (hfits : Operand.notImm dst ∧ fits .w8 count) (hs : s.bus.wf = true) (ha : accessible i.length dst s)
    (hb : accessible i.length count s) :
    completes i s fun t =>
      let w := Operand.width dst
      let a := operandValue i.length w dst s
      let n := (operandValue i.length .w8 count s).toNat % (if w = .w64 then 64 else 32)
      let r := operandValue i.length w dst t
      r = shiftValue d a n ∧ onlyDestinationAndFlags i.length dst (if n = 0 then [] else arithmeticBits) s t ∧
        (0 < n → resultFlags r t) ∧
        (0 < n → ∃ dc, t.flags.getLsbD bitCF = shiftCf d a n dc) ∧
        (n = 1 → ∃ dv, t.flags.getLsbD bitOF = shiftOf d a r 1 (t.flags.getLsbD bitCF) dv) := by
  obtain ⟨hd, hc⟩ := hfits
  obtain ⟨t, ht, hval, hframe, hflags⟩ := runShift_spec (d := d) hd hc hs ha hb
  refine ⟨t, hrun.trans ht, hval, hframe, ?_⟩
  rw [hval]
  refine ⟨fun hn => ?_, fun hn => ?_, fun h1 => ?_⟩
  · obtain ⟨_, _, _, h⟩ := hflags hn
    exact resultFlags_updateShift h
  · obtain ⟨dc, _, _, h⟩ := hflags hn
    exact ⟨dc, carry_updateShift h⟩
  · obtain ⟨_, dv, _, h⟩ := hflags (h1 ▸ Nat.one_pos)
    rw [h1] at h ⊢
    exact ⟨dv, overflow_updateShift h⟩

end

/-- Settles O31: the left shift; where R204 defines CF and OF they do not depend on the draws. -/
theorem shlResult : Obligations.ShlResult := by
  intro i s dst count hk
  have hrun : exec i s = runShl i.length dst count s := exec_of_kind hk
  have hfits : kindFits (.shl dst count) := hk ▸ Instr.kind_fits i s.rip
  refine ⟨fun hs ha hb => ?_, ?_⟩
  · refine completes_mono (completes_of_shift hrun hfits hs ha hb) ?_
    rintro t ⟨hval, hframe, hres, hcf, hof⟩
    refine ⟨?_, hframe, hres, fun hn hle => ?_, fun h1 => ?_⟩
    · rw [hval, toNat_shiftValue_left]
    · obtain ⟨dc, h⟩ := hcf hn
      exact h.trans (shiftCf_left hle)
    · obtain ⟨dv, h⟩ := hof h1
      exact h.trans shiftOf_left_one
  · rintro m rfl
    exact faultsOn_first rfl hrun

/-- Settles O32: the right shift, by the same lemma. -/
theorem shrResult : Obligations.ShrResult := by
  intro i s dst count hk
  have hrun : exec i s = runShr i.length dst count s := exec_of_kind hk
  have hfits : kindFits (.shr dst count) := hk ▸ Instr.kind_fits i s.rip
  refine ⟨fun hs ha hb => ?_, ?_⟩
  · refine completes_mono (completes_of_shift hrun hfits hs ha hb) ?_
    rintro t ⟨hval, hframe, hres, hcf, hof⟩
    refine ⟨?_, hframe, hres, fun hn hle => ?_, fun h1 => ?_⟩
    · rw [hval, toNat_shiftValue_right]
    · obtain ⟨dc, h⟩ := hcf hn
      exact h.trans (shiftCf_right hle)
    · obtain ⟨dv, h⟩ := hof h1
      exact h.trans shiftOf_right_one
  · rintro m rfl
    exact faultsOn_first rfl hrun

end Sys2Proof.Machine

/-! The statements about the stack (44_stack.md): Push (R210), Pop (R211), Leave (R212), and Push then Pop. -/

namespace Sys2Proof.Machine

/-! ## A register used at 64 bits (10_state.md R23, R24) -/

section
variable {s : State} {len : Nat} {r : Gpr}

theorem view_of_fits_w64 (hf : fits .w64 (.reg r)) : r.view = .w64 := by
  obtain ⟨slot, view⟩ := r
  cases view with
  | w64 => rfl
  | _ => cases hf

/-- Read at 64 bits, a register operand is its whole slot. -/
theorem operandValue_reg_w64 (hf : fits .w64 (.reg r)) : operandValue len .w64 (.reg r) s = s.reg r.slot := by
  obtain ⟨slot, view⟩ := r
  obtain rfl : view = .w64 := view_of_fits_w64 hf
  exact BitVec.setWidth_eq _

/-! ## Push (R210) -/

/-- Settles O33: the value is read before rsp moves, and the store into the slot is the only access after it. -/
theorem pushResult : Obligations.PushResult := by
  intro i s src hk
  have hrun : exec i s = runPush i.length src s := exec_of_kind hk
  have hfits : fits .w64 src := (hk ▸ Instr.kind_fits i s.rip : kindFits (.push src))
  refine ⟨fun hs ha hm => ⟨_, hrun.trans (runPush_completes hfits ha hm), ?_⟩, ?_, fun ha hm => ?_⟩
  · obtain ⟨hval, hrsp, hregs, hbytes, hrip, hflags, hstream⟩ :=
      pushed_spec hs (operandValue i.length .w64 src s)
    exact ⟨hval, hrsp, hregs, hbytes, hflags, hrip, hstream⟩
  · rintro m rfl
    exact faultsOn_first hfits hrun
  · rw [hrun, runPush, readOp_accessible hfits ha, access_ok]
    exact pushWord_unmapped hm

/-! ## Pop (R211) -/

/-- Every register after a Pop of a register: the destination is written last, over the new rsp. -/
theorem popped_reg_reg (hf : fits .w64 (.reg r)) (k : Fin 16) :
    (popped len (.reg r) s).reg k =
      if k = r.slot then valueAt .w64 s (s.reg rsp) else if k = rsp then s.reg rsp + 8 else s.reg k := by
  obtain ⟨slot, view⟩ := r
  obtain rfl : view = .w64 := view_of_fits_w64 hf
  simp only [popped, State.regWrite_reg, State.reg_setReg]
  rfl

/-- What a Pop of a register does: the top of stack in the register, rsp above it, and nothing else. -/
theorem popped_reg_spec (hf : fits .w64 (.reg r)) :
    let t := popped len (.reg r) s
    t.reg r.slot = valueAt .w64 s (s.reg rsp) ∧ (r.slot ≠ rsp → t.reg rsp = s.reg rsp + 8) ∧
      sameRegsExcept [rsp, r.slot] s t ∧ t.bus = s.bus := by
  refine ⟨?_, fun hne => ?_, fun k hk => ?_, rfl⟩
  · rw [popped_reg_reg hf, if_pos rfl]
  · rw [popped_reg_reg hf, if_neg hne.symm, if_pos rfl]
  · obtain ⟨hrsp, hslot⟩ : k ≠ rsp ∧ k ≠ r.slot := by simpa using hk
    rw [popped_reg_reg hf, if_neg hslot, if_neg hrsp]

/-- What a Pop to memory does: the top of stack at the address formed with the new rsp, rsp there, and nothing else. -/
theorem popped_mem_spec (hs : s.bus.wf = true) (m : MemOperand) :
    let t := popped len (.mem m) s
    let a := ea0 len m (s.setReg rsp (s.reg rsp + 8))
    valueAt .w64 t a = valueAt .w64 s (s.reg rsp) ∧ t.reg rsp = s.reg rsp + 8 ∧ sameRegsExcept [rsp] s t ∧
      sameBytesExcept a 8 s t := by
  refine ⟨stored_valueAt hs .w64 _ _, ?_, fun k hk => ?_, rfl, fun k hk => ?_⟩
  · rw [popped, State.reg_setReg, if_pos rfl]
  · rw [popped, State.reg_setReg, if_neg (by simpa using hk), stored_reg]
  · exact stored_byteAt_outside hs .w64 _ _ hk

theorem popped_flags (dst : Operand) : (popped len dst s).flags = s.flags := by cases dst <;> rfl

theorem popped_samePcAndStream (dst : Operand) : samePcAndStream s (popped len dst s) := by
  cases dst <;> exact ⟨rfl, rfl⟩

theorem runPop_unmapped {dst : Operand} (hm : ¬ mapped s (s.reg rsp) 8) :
    runPop len dst s = .fault (.busFault (s.reg rsp) 8 .read s) := by
  have hm' : ¬ mapped s (s.reg rsp) Width.w64.bytes := hm
  rw [runPop, memRead_unmapped hm']
  rfl

end

/-- Once its top of stack is read, a Pop to memory faults where its destination does, with the state as it was. -/
theorem faultsOn_pop {i : Instr} {s : State} {m : MemOperand} (hf : fits .w64 (.mem m))
    (hrun : exec i s = runPop i.length (.mem m) s) (hm : mapped s (s.reg rsp) 8) :
    faultsOn i .write m (s.setReg rsp (s.reg rsp + 8)) s := by
  have hm' : mapped s (s.reg rsp) Width.w64.bytes := hm
  have hsize : m.size = .w64 := hf
  rw [runPop, memRead_mapped hm', access_ok] at hrun
  refine ⟨fun g hg hs => ?_, fun h1 h2 ha => ?_⟩
  · rw [hrun]
    simp only [ea_segment hg hs]
    rfl
  · rw [hsize] at ha ⊢
    rw [hrun]
    simp only [slotBytes_eq, ea_ok h1 h2, access_ok, memWrite_unmapped _ ha]
    rfl

/-- Settles O34: a register destination is written over the new rsp, and a memory destination is the second access. -/
theorem popResult : Obligations.PopResult := by
  intro i s dst hk
  have hrun : exec i s = runPop i.length dst s := exec_of_kind hk
  have hfits : kindFits (.pop dst) := hk ▸ Instr.kind_fits i s.rip
  obtain ⟨hd, hf⟩ := hfits
  refine ⟨fun hs hm ha => ⟨_, hrun.trans (runPop_completes hd hf hm ha), popped_flags dst,
    popped_samePcAndStream dst, ?_⟩, fun hm => hrun.trans (runPop_unmapped hm), ?_⟩
  · cases dst with
    | reg r => exact popped_reg_spec hf
    | mem m => exact popped_mem_spec hs m
    | imm v => exact hd v rfl
  · rintro hm m rfl
    exact faultsOn_pop hf hrun hm

/-! ## Leave (R212) -/

theorem runLeave_unmapped {s : State} (hm : ¬ mapped s (s.reg rbp) 8) :
    runLeave s = .fault (.busFault (s.reg rbp) 8 .read s) := by
  have hm' : ¬ mapped s (s.reg rbp) Width.w64.bytes := hm
  rw [runLeave, memRead_unmapped hm']
  rfl

/-- Settles O35: the one access is the read at the old rbp, and the two register writes follow it. -/
theorem leaveResult : Obligations.LeaveResult := by
  intro i s hk
  have hrun : exec i s = runLeave s := exec_of_kind hk
  refine ⟨fun hm => ⟨_, hrun.trans (runLeave_completes hm), ?_, ?_, fun k hk => ?_, rfl, rfl, rfl, rfl⟩,
    fun hm => hrun.trans (runLeave_unmapped hm)⟩
  · simp
  · simp
  · obtain ⟨hrsp, hrbp⟩ : k ≠ rsp ∧ k ≠ rbp := by simpa using hk
    rw [State.reg_setReg, if_neg hrbp, State.reg_setReg, if_neg hrsp]

/-! ## Push then Pop (R210, R211) -/

/-- Settles O36: Pop reads the slot that Push wrote, and adds the 8 that Push took off. -/
theorem pushThenPop : Obligations.PushThenPop := by
  intro i j s t u r hi hj hs ht hu k
  have hpush : runPush i.length (.reg r) s = .next t := (exec_of_kind hi).symm.trans ht
  have hpop : runPop j.length (.reg r) t = .next u := (exec_of_kind hj).symm.trans hu
  have hf : fits .w64 (.reg r) := (hi ▸ Instr.kind_fits i s.rip : kindFits (.push (.reg r)))
  obtain ⟨-, hpushed⟩ := runPush_next hpush
  obtain ⟨-, -, hpopped, -⟩ := runPop_next hpop
  obtain ⟨hval, hrsp, hregs, -⟩ := pushed_spec hs (operandValue i.length .w64 (.reg r) s)
  rw [← hpushed] at hval hrsp hregs
  rw [hpopped, popped_reg_reg hf, hrsp]
  by_cases hslot : k = r.slot
  · rw [if_pos hslot, hval, operandValue_reg_w64 hf, hslot]
  · rw [if_neg hslot]
    by_cases hsp : k = rsp
    · rw [if_pos hsp, hsp, BitVec.sub_add_cancel]
    · rw [if_neg hsp]
      exact hregs k (by simpa using hsp)

end Sys2Proof.Machine

/-! The statements about control transfer (45_control_transfer.md): ConditionalJump (R220), UnconditionalJump (R240), Call
(R241) and its faults, Ret (R242), and Call then Ret. -/

namespace Sys2Proof.Machine

/-! ## ConditionalJump (R220 to R237) -/

section
variable {s : State} {c : ConditionCode}

theorem runConditionalJump_taken (target : Word) (hc : conditionHolds c s) :
    runConditionalJump c target s = .next (s.setRip target) := by
  rw [runConditionalJump, if_pos ((cond_iff c s).mpr hc)]

theorem runConditionalJump_notTaken (target : Word) (hc : ¬ conditionHolds c s) :
    runConditionalJump c target s = .next s := by
  rw [runConditionalJump, if_neg fun h => hc ((cond_iff c s).mp h)]

end

/-- Settles O37: the jump makes no access, and what it tests is the predicate of its condition. -/
theorem conditionalJumpResult : Obligations.ConditionalJumpResult := by
  intro i s c target hk
  have hrun : exec i s = runConditionalJump c target s := exec_of_kind hk
  by_cases hc : conditionHolds c s
  · exact ⟨_, hrun.trans (runConditionalJump_taken target hc), fun _ => rfl, absurd hc, rfl, rfl, rfl, rfl⟩
  · exact ⟨_, hrun.trans (runConditionalJump_notTaken target hc), fun h => absurd h hc, fun _ => rfl,
      rfl, rfl, rfl, rfl⟩

/-! ## UnconditionalJump (R240) -/

/-- Settles O38: the read of the operand is the only access, and pc the only field written. -/
theorem jumpResult : Obligations.JumpResult := by
  intro i s op hk
  have hrun : exec i s = runJump i.length op s := exec_of_kind hk
  have hfits : fits .w64 op := (hk ▸ Instr.kind_fits i s.rip : kindFits (.unconditionalJump op))
  refine ⟨fun ha => ⟨_, hrun.trans (runJump_completes hfits ha), rfl, rfl, rfl, rfl, rfl⟩, ?_⟩
  rintro m rfl
  exact faultsOn_first hfits hrun

/-! ## Call (R241) -/

/-- Settles O39: the target is read in the state the push left, in which pc is still the call's own address. -/
theorem callResult : Obligations.CallResult := by
  intro i s op hk hs hm ha
  have hrun : exec i s = runCall i.length op s := exec_of_kind hk
  have hfits : fits .w64 op := (hk ▸ Instr.kind_fits i s.rip : kindFits (.call op))
  obtain ⟨hval, hrsp, hregs, hbytes, -, hflags, hstream⟩ := pushed_spec hs (s.rip + BitVec.ofNat 64 i.length)
  exact ⟨_, hrun.trans (runCall_completes hfits hm (accessible_pushed.mpr ha)),
    hval, hrsp, rfl, hregs, hbytes, hflags, hstream⟩

/-- The fault of a read of a memory operand that cannot be accessed: SegmentFault through an FS or GS override, else
BusFault (40_engine_and_operands.md R156, R157). -/
def readFault (len : Nat) (m : MemOperand) (s : State) : Fault :=
  match m.segment with
  | some .fs => .segmentFault .fs s
  | some .gs => .segmentFault .gs s
  | _ => .busFault (ea0 len m s) m.size.bytes .read s

/-- A read of a memory operand that cannot be accessed ends the instruction with the state it was made in. -/
theorem access_readOp_inaccessible {len : Nat} {w : Width} {m : MemOperand} {s : State} (hf : fits w (.mem m))
    (ha : ¬ accessible len (.mem m) s) (go : BitVec w.bits → Result) :
    access (readOp len w (.mem m) s) s go = .fault (readFault len m s) := by
  obtain rfl : m.size = w := hf
  unfold readFault
  split
  case h_1 hfs => rw [readOp_segment rfl hfs (.inl rfl)]; rfl
  case h_2 hgs => rw [readOp_segment rfl hgs (.inr rfl)]; rfl
  case h_3 hfs hgs => rw [readOp_unmapped hfs hgs fun hm => ha ⟨hfs, hgs, hm⟩]; rfl

/-- Settles O56: the push is the first access, and the read of the target faults in the state that the push left. -/
theorem callFaultLeavesPush : Obligations.CallFaultLeavesPush := by
  intro i s op hk hs
  have hrun : exec i s = runCall i.length op s := exec_of_kind hk
  have hfits : fits .w64 op := (hk ▸ Instr.kind_fits i s.rip : kindFits (.call op))
  refine ⟨fun hm => hrun.trans (pushWord_unmapped hm), ?_⟩
  rintro hm m rfl u ha
  have hsize : m.size = .w64 := hfits
  obtain ⟨hval, hrsp, hregs, hbytes, hrip, hflags, hstream⟩ := pushed_spec hs (s.rip + BitVec.ofNat 64 i.length)
  refine ⟨_, ?_, hval, hrsp, hregs, hbytes, hflags, hrip, hstream⟩
  rw [hrun, runCall, pushWord_completes hm, access_readOp_inaccessible hfits (accessible_pushed.not.mpr ha),
    readFault, hsize]
  rfl

/-! ## Ret (R242) -/

theorem runRet_unmapped {s : State} (hm : ¬ mapped s (s.reg rsp) 8) :
    runRet s = .fault (.busFault (s.reg rsp) 8 .read s) := by
  have hm' : ¬ mapped s (s.reg rsp) Width.w64.bytes := hm
  rw [runRet, memRead_unmapped hm']
  rfl

/-- What a Ret does: pc from the top of stack, rsp above it, and nothing else. -/
theorem runRet_spec {s t : State} (h : runRet s = .next t) :
    t.rip = valueAt .w64 s (s.reg rsp) ∧ (∀ k, t.reg k = if k = rsp then s.reg rsp + 8 else s.reg k) ∧
      t.bus = s.bus ∧ t.flags = s.flags ∧ t.stream = s.stream := by
  rw [runRet_next h]
  generalize valueAt .w64 s (s.reg rsp) = v
  exact ⟨rfl, fun k => State.reg_setReg .., rfl, rfl, rfl⟩

/-- Settles O40: the read of the top of stack is the only access, and pc and rsp are written after it. -/
theorem retResult : Obligations.RetResult := by
  intro i s hk
  have hrun : exec i s = runRet s := exec_of_kind hk
  refine ⟨fun hm => ?_, fun hm => hrun.trans (runRet_unmapped hm)⟩
  have hret := runRet_completes hm
  obtain ⟨hrip, hregs, hbus, hflags, hstream⟩ := runRet_spec hret
  refine ⟨_, hrun.trans hret, hrip, ?_, fun k hk => ?_, hbus, hflags, hstream⟩
  · rw [hregs, if_pos rfl]
  · rw [hregs, if_neg (by simpa using hk)]

/-! ## Call then Ret (R241, R242) -/

/-- Settles O41: Ret reads the slot that Call wrote, and adds the 8 that Call took off. -/
theorem callThenRet : Obligations.CallThenRet := by
  intro i j s t u op hi hj hs ht hu
  have hcall : runCall i.length op s = .next t := (exec_of_kind hi).symm.trans ht
  have hret : runRet t = .next u := (exec_of_kind hj).symm.trans hu
  obtain ⟨-, rfl⟩ := runCall_next hcall
  obtain ⟨hval, hrsp, hregs, -, -, hflags, -⟩ := pushed_spec hs (s.rip + BitVec.ofNat 64 i.length)
  obtain ⟨hrip', hregs', -, hflags', -⟩ := runRet_spec hret
  refine ⟨?_, fun k => ?_, hflags'.trans hflags⟩
  · rw [hrip', State.setRip_reg, hrsp, valueAt_setRip, hval]
  · rw [hregs', State.setRip_reg, State.setRip_reg, hrsp, BitVec.sub_add_cancel]
    split_ifs with hk
    · rw [hk]
    · exact hregs k (by simpa using hk)

end Sys2Proof.Machine

/-! The statements about repeated strings (46_string.md): one turn of each loop (R251 to R254), what the loops complete
with, and what a fault of one keeps (R250). -/

namespace Sys2Proof.Machine

/-! ## One loop for the four kinds -/

/-- One iteration of a repeated string instruction (R251 to R254). -/
def iteration : Repeatable → State → Iteration
  | .mov => movsIteration
  | .stos => stosIteration
  | .lods => lodsIteration
  | .scas => scasIteration

/-- The state after an iteration whose accesses can be made. -/
def nextOf : Repeatable → State → State
  | .mov => movsNext
  | .stos => stosNext
  | .lods => lodsNext
  | .scas => scasNext

/-- Every byte that an iteration accesses is mapped. -/
def iterationMapped (r : Repeatable) (s : State) : Prop :=
  match r with
  | .mov => mapped s (s.reg rsi) 1 ∧ mapped s (s.reg rdi) 1
  | .stos => mapped s (s.reg rdi) 1
  | .lods => mapped s (s.reg rsi) 1
  | .scas => mapped s (s.reg rdi) 1

section
variable {i : Instr} {s t : State} {r : Repeatable}

theorem exec_rep (hk : i.kind s.rip = .rep r) : exec i s = runRep (iteration r) s := by
  rw [exec_of_kind hk]
  cases r <;> rfl

theorem exec_rep_zero (hk : i.kind s.rip = .rep r) (hc : s.reg rcx = 0) : exec i s = .next s :=
  (exec_rep hk).trans (runRep_zero hc)

theorem exec_rep_stop {x : Result} (hk : i.kind s.rip = .rep r) (hc : s.reg rcx ≠ 0) (hi : iteration r s = .stop x) :
    exec i s = x :=
  (exec_rep hk).trans (runRep_stop hc hi)

/-- After an iteration the instruction goes on as if it were run again. -/
theorem exec_rep_again (hk : i.kind s.rip = .rep r) (hc : s.reg rcx ≠ 0) (hi : iteration r s = .again t)
    (ht : t.reg rcx = s.reg rcx - 1) (hp : t.rip = s.rip) : exec i s = exec i t := by
  rw [exec_rep hk, runRep_again hc hi ht, exec_rep (by rw [hp]; exact hk)]

end

/-! ## One turn of each loop (R251 to R254) -/

/-- Settles O43: each case is what one iteration answers, and the loop after it is the instruction run again. -/
theorem repMovLoop : Obligations.RepMovLoop := by
  intro i s hk hs d
  refine ⟨exec_rep_zero hk, fun hc => ⟨fun hsrc => exec_rep_stop hk hc (movsIteration_noSource hsrc),
    fun hsrc hdst => exec_rep_stop hk hc (movsIteration_noDestination hsrc hdst), fun hsrc hdst => ?_⟩⟩
  have hspec := movsNext_spec hs
  exact ⟨_, exec_rep_again hk hc (movsIteration_mapped hsrc hdst) hspec.1 rfl, hspec⟩

/-- Settles O44: as `repMovLoop`, with one access. -/
theorem repStosLoop : Obligations.RepStosLoop := by
  intro i s hk hs d
  refine ⟨exec_rep_zero hk, fun hc => ⟨fun hdst => exec_rep_stop hk hc (stosIteration_unmapped hdst), fun hdst => ?_⟩⟩
  have hspec := stosNext_spec hs
  exact ⟨_, exec_rep_again hk hc (stosIteration_mapped hdst) hspec.1 rfl, hspec⟩

/-- Settles O45: as `repMovLoop`, with one access and al in place of the byte stored. -/
theorem repLodsLoop : Obligations.RepLodsLoop := by
  intro i s hk d
  refine ⟨exec_rep_zero hk, fun hc => ⟨fun hsrc => exec_rep_stop hk hc (lodsIteration_unmapped hsrc), fun hsrc => ?_⟩⟩
  have hspec := lodsNext_spec s
  exact ⟨_, exec_rep_again hk hc (lodsIteration_mapped hsrc) hspec.1 rfl, hspec⟩

/-- Rep(Scas) writes the six flags of a subtraction and no other. -/
theorem scasNext_flags (s : State) : sameFlagsExcept arithmeticBits s (scasNext s) :=
  fun _ hj => updateSub_keeps _ _ _ _ hj

/-- Settles O46: ZF of the iteration says whether the byte equals al, and so whether the loop goes on. -/
theorem repScasLoop : Obligations.RepScasLoop := by
  intro i s hk d a b
  refine ⟨exec_rep_zero hk, fun hc => ⟨fun hdst => exec_rep_stop hk hc (scasIteration_unmapped hdst), fun hdst => ?_⟩⟩
  obtain ⟨hcount, hrdi, hflags, hzf, hregs, hbus, hpc⟩ := scasNext_spec s
  obtain ⟨hdiff, hcf⟩ := differenceFlags_updateSub hflags
  refine ⟨_, ?_, hcount, hrdi, hdiff, hcf, scasNext_flags s, hregs, hbus, hpc⟩
  have hiter := scasIteration_mapped hdst
  split_ifs with hab
  · rw [if_pos (hzf.mpr hab)] at hiter
    exact exec_rep_again hk hc hiter hcount rfl
  · rw [if_neg fun hz => hab (hzf.mp hz)] at hiter
    exact (exec_rep hk).trans (runRep_leave hc hiter)

/-! ## What an iteration answers -/

section
variable {s t u v : State} {r : Repeatable} {k : Nat}

/-- Everything an iteration can answer: only that of Rep(Scas) leaves the loop, and ZF says when. -/
theorem iteration_cases (r : Repeatable) (s : State) :
    (iterationMapped r s ∧ iteration r s = .again (nextOf r s) ∧
        (r = .scas → (nextOf r s).flags.getLsbD bitZF = true)) ∨
    (iterationMapped r s ∧ iteration r s = .leave (nextOf r s) ∧
        r = .scas ∧ (nextOf r s).flags.getLsbD bitZF = false) ∨
    (¬ iterationMapped r s ∧ ∃ f, iteration r s = .stop (.fault f) ∧ failedAccess r s f) := by
  by_cases h : iterationMapped r s
  · cases r with
    | mov => exact .inl ⟨h, movsIteration_mapped h.1 h.2, nofun⟩
    | stos => exact .inl ⟨h, stosIteration_mapped h, nofun⟩
    | lods => exact .inl ⟨h, lodsIteration_mapped h, nofun⟩
    | scas =>
      have hiter := scasIteration_mapped h
      split_ifs at hiter with hz
      · exact .inl ⟨h, hiter, fun _ => hz⟩
      · exact .inr (.inl ⟨h, hiter, rfl, Bool.eq_false_iff.mpr hz⟩)
  · refine .inr (.inr ⟨h, ?_⟩)
    cases r with
    | mov =>
      by_cases hsrc : mapped s (s.reg rsi) 1
      · exact ⟨_, movsIteration_noDestination hsrc fun hdst => h ⟨hsrc, hdst⟩, .inr rfl⟩
      · exact ⟨_, movsIteration_noSource hsrc, .inl rfl⟩
    | stos => exact ⟨_, stosIteration_unmapped h, rfl⟩
    | lods => exact ⟨_, lodsIteration_unmapped h, rfl⟩
    | scas => exact ⟨_, scasIteration_unmapped h, rfl⟩

theorem iteration_again (h : iteration r s = .again t) :
    iterationMapped r s ∧ t = nextOf r s ∧ (r = .scas → t.flags.getLsbD bitZF = true) := by
  obtain ⟨hm, e, hz⟩ | ⟨-, e, -⟩ | ⟨-, f, e, -⟩ := iteration_cases r s <;> rw [e] at h <;> cases h
  exact ⟨hm, rfl, hz⟩

theorem iteration_leave (h : iteration r s = .leave t) :
    r = .scas ∧ t = nextOf r s ∧ t.flags.getLsbD bitZF = false := by
  obtain ⟨-, e, -⟩ | ⟨-, e, hr, hz⟩ | ⟨-, f, e, -⟩ := iteration_cases r s <;> rw [e] at h <;> cases h
  exact ⟨hr, rfl, hz⟩

theorem iteration_stop {x : Result} (h : iteration r s = .stop x) :
    ¬ iterationMapped r s ∧ ∃ f, x = .fault f ∧ failedAccess r s f := by
  obtain ⟨-, e, -⟩ | ⟨-, e, -⟩ | ⟨hm, f, e, hf⟩ := iteration_cases r s <;> rw [e] at h <;> cases h
  exact ⟨hm, f, rfl, hf⟩

/-- The failed access is that of the state the fault carries. -/
theorem failedAccess_left {f : Fault} (h : failedAccess r s f) : f.left = s := by
  cases r with
  | mov => obtain rfl | rfl := h <;> rfl
  | stos | lods | scas => obtain rfl := h; rfl

/-- An iteration does the same whatever rcx holds, and lowers it by one. -/
theorem iteration_again_setRcx (h : iteration r s = .again t) (x : Word) :
    iteration r (s.setReg rcx x) = .again (t.setReg rcx (x - 1)) := by
  cases r with
  | mov => exact (movsIteration_again h).2.2 x
  | stos => exact (stosIteration_again h).2.2 x
  | lods => exact (lodsIteration_again h).2 x
  | scas => exact (scasIteration_again h).2.2 x

theorem nextOf_keeps (h : iterationMapped r s) : Keeps s (nextOf r s) := by
  cases r with
  | mov => exact movsNext_keeps h.2
  | stos => exact stosNext_keeps h
  | lods | scas => exact Keeps.of_bus rfl rfl

/-! ## How far the iterations have moved (R250) -/

/-- The byte after the first `k` of a string, seen from a state whose DF is the same. -/
theorem stringAddr_after (h : u.flags.getLsbD bitDF = s.flags.getLsbD bitDF) (a : Word) (k : Nat) :
    stringAddr u (stringAddr s a k) 1 = stringAddr s a (k + 1) := by
  unfold stringAddr
  rw [h, BitVec.ofNat_add]
  split
  · ring
  · ring

/-- The count and the pointers after `k` iterations, and what no iteration changes. -/
structure Advanced (r : Repeatable) (k : Nat) (s t : State) : Prop where
  count : t.reg rcx = s.reg rcx - BitVec.ofNat 64 k
  source : t.reg rsi = if r = .mov ∨ r = .lods then stringAddr s (s.reg rsi) k else s.reg rsi
  destination : t.reg rdi = if r = .lods then s.reg rdi else stringAddr s (s.reg rdi) k
  direction : t.flags.getLsbD bitDF = s.flags.getLsbD bitDF
  rip : t.rip = s.rip
  regions : t.bus.regions = s.bus.regions

theorem Advanced.refl (r : Repeatable) (s : State) : Advanced r 0 s s :=
  ⟨by simp, by simp, by simp, rfl, rfl, rfl⟩

theorem Advanced.succ (h : Advanced r k s u) (h' : Advanced r 1 u v) : Advanced r (k + 1) s v where
  count := by rw [h'.count, h.count, BitVec.ofNat_add]; ring
  source := by rw [h'.source, h.source]; split_ifs; exacts [stringAddr_after h.direction .., rfl]
  destination := by rw [h'.destination, h.destination]; split_ifs; exacts [rfl, stringAddr_after h.direction ..]
  direction := h'.direction.trans h.direction
  rip := h'.rip.trans h.rip
  regions := h'.regions.trans h.regions

theorem stringAddr_one (s : State) (a : Word) : stringAddr s a 1 = a + stringStep s := by
  simpa using (stringAddr_succ (s := s) rfl a 0).symm

theorem nextOf_advanced (r : Repeatable) (s : State) : Advanced r 1 s (nextOf r s) := by
  cases r with
  | mov => exact ⟨by simp [nextOf, movsNext], by simp [nextOf, movsNext, stringAddr_one],
      by simp [nextOf, movsNext, stringAddr_one], rfl, rfl, rfl⟩
  | stos => exact ⟨by simp [nextOf, stosNext], by simp [nextOf, stosNext],
      by simp [nextOf, stosNext, stringAddr_one], rfl, rfl, rfl⟩
  | lods => exact ⟨by simp [nextOf, lodsNext], by simp [nextOf, lodsNext, stringAddr_one],
      by simp [nextOf, lodsNext], rfl, rfl, rfl⟩
  | scas => exact ⟨by simp [nextOf, scasNext, scasWith], by simp [nextOf, scasNext, scasWith],
      by simp [nextOf, scasNext, scasWith, stringAddr_one], scasNext_flags s bitDF (by decide), rfl, rfl⟩

end

/-! ## What the iterations have done (R250 (e)) -/

section
variable {s u v : State} {k : Nat} {slots : List (Fin 16)} {A B C : Nat → Word} {m n : Nat}

/-- Two frames make one, whose string holds the bytes of both. -/
theorem onlyString_trans (h : onlyString slots A m s u) (h' : onlyString slots B n u v) {p : Nat}
    (hA : ∀ j < m, ∃ l < p, A j = C l) (hB : ∀ j < n, ∃ l < p, B j = C l) : onlyString slots C p s v := by
  obtain ⟨hregs, hrip, hstream, hregions, hbytes⟩ := h
  obtain ⟨hregs', hrip', hstream', hregions', hbytes'⟩ := h'
  refine ⟨fun i hi => (hregs' i hi).trans (hregs i hi), hrip'.trans hrip, hstream'.trans hstream,
    hregions'.trans hregions, fun a ha => (hbytes' a fun j hj => ?_).trans (hbytes a fun j hj => ?_)⟩
  · obtain ⟨l, hl, e⟩ := hB j hj
    exact e ▸ ha l hl
  · obtain ⟨l, hl, e⟩ := hA j hj
    exact e ▸ ha l hl

/-- The frame of a string and of the byte after it. -/
theorem onlyString_succ (h : onlyString slots A k s u) (h' : onlyString slots B 1 u v) (hB : B 0 = A k) :
    onlyString slots A (k + 1) s v :=
  onlyString_trans h h' (fun j hj => ⟨j, by omega, rfl⟩) fun j hj =>
    ⟨k, by omega, by rw [Nat.lt_one_iff.mp hj, hB]⟩

/-- The frame of an iteration that stores one byte. -/
theorem onlyString_of_sameBytesExcept (hregs : sameRegsExcept slots s u) (hpc : samePcAndStream s u)
    (hbytes : sameBytesExcept (A 0) 1 s u) : onlyString slots A 1 s u :=
  ⟨hregs, hpc.1, hpc.2, hbytes.1, fun a ha => hbytes.2 a (by have := ha 0 one_pos; omega)⟩

/-- The frame of an iteration that stores nothing. -/
theorem onlyString_of_bus_eq (hregs : sameRegsExcept slots s u) (hpc : samePcAndStream s u) (hbus : u.bus = s.bus) :
    onlyString slots A 0 s u :=
  ⟨hregs, hpc.1, hpc.2, by rw [hbus], fun a _ => by rw [hbus]⟩

/-- A frame of no bytes leaves them all. -/
theorem onlyString_byteAt (h : onlyString slots A 0 s u) (a : Nat) : u.bus.byteAt a = s.bus.byteAt a :=
  h.2.2.2.2 a fun _ hj => absurd hj (Nat.not_lt_zero _)

end

section
variable {s t u v : State} {r : Repeatable} {k : Nat}

theorem iterationsPerformed_zero (r : Repeatable) (s : State) : iterationsPerformed r 0 s s := by
  have hframe : ∀ slots addrs, onlyString slots addrs 0 s s := fun _ _ =>
    onlyString_of_bus_eq (fun _ _ => rfl) ⟨rfl, rfl⟩ rfl
  cases r with
  | mov => exact ⟨rfl, fun _ => nofun, hframe ..⟩
  | stos => exact ⟨rfl, nofun, hframe ..⟩
  | lods => exact ⟨rfl, nofun, fun _ _ => rfl, hframe ..⟩
  | scas => exact ⟨nofun, nofun, fun _ _ => rfl, hframe ..⟩

/-- One iteration that goes on. The two that store do what they should on a well-formed bus. -/
theorem iterationsPerformed_one (hs : s.bus.wf = true ∨ r = .lods ∨ r = .scas) (h : iteration r s = .again t) :
    iterationsPerformed r 1 s t := by
  obtain ⟨-, rfl, hz⟩ := iteration_again h
  cases r with
  | mov =>
    obtain ⟨-, -, -, hbyte, hbytes, hregs, hflags, hpc⟩ := movsNext_spec (hs.resolve_right (by decide))
    refine ⟨hflags, fun _ j hj => ?_, onlyString_of_sameBytesExcept hregs hpc (by simpa [nextOf] using hbytes)⟩
    obtain rfl := Nat.lt_one_iff.mp hj
    simpa [nextOf] using hbyte
  | stos =>
    obtain ⟨-, -, hbyte, hbytes, hregs, hflags, hpc⟩ := stosNext_spec (hs.resolve_right (by decide))
    refine ⟨hflags, fun j hj => ?_, onlyString_of_sameBytesExcept hregs hpc (by simpa [nextOf] using hbytes)⟩
    obtain rfl := Nat.lt_one_iff.mp hj
    simpa [nextOf] using hbyte
  | lods =>
    obtain ⟨-, -, hal, hkept, hregs, hbus, hflags, hpc⟩ := lodsNext_spec s
    exact ⟨hflags, fun _ => by simpa [nextOf] using hal, hkept, onlyString_of_bus_eq hregs hpc hbus⟩
  | scas =>
    obtain ⟨-, -, hflags, hzf, hregs, hbus, hpc⟩ := scasNext_spec s
    have hbyte := hzf.mp (hz rfl)
    rw [← hbyte] at hflags
    obtain ⟨hdiff, hcf⟩ := differenceFlags_updateSub hflags
    refine ⟨fun j hj => ?_, fun _ => ⟨hdiff, ?_⟩, scasNext_flags s, onlyString_of_bus_eq hregs hpc hbus⟩
    · obtain rfl := Nat.lt_one_iff.mp hj
      simpa using hbyte.symm
    · simpa [nextOf] using hcf

/-- A byte of the source is read after the bytes before it were written, none of which is in the source. -/
theorem iterationsPerformed_mov_succ (hk : k < 2 ^ 64) (ha : Advanced .mov k s u)
    (h : iterationsPerformed .mov k s u) (h' : iterationsPerformed .mov 1 u v) :
    iterationsPerformed .mov (k + 1) s v := by
  obtain ⟨hflags, hcopied, hframe⟩ := h
  obtain ⟨hflags', hcopied', hframe'⟩ := h'
  have hsrc : u.reg rsi = stringAddr s (s.reg rsi) k := ha.source
  have hdst : u.reg rdi = stringAddr s (s.reg rdi) k := ha.destination
  refine ⟨hflags'.trans hflags, fun hdisj j hj => ?_, onlyString_succ hframe hframe' (by simp [hdst])⟩
  obtain ⟨-, -, -, -, hbytes⟩ := hframe
  obtain ⟨-, -, -, -, hbytes'⟩ := hframe'
  have hne : ∀ {x y : Word}, x ≠ y → x.toNat ≠ y.toNat := fun h e => h (BitVec.eq_of_toNat_eq e)
  obtain hj | rfl := Nat.lt_succ_iff_lt_or_eq.mp hj
  · rw [hbytes' _ fun l hl => ?_]
    · exact hcopied (fun j hj l hl => hdisj j (by omega) l (by omega)) j hj
    · obtain rfl := Nat.lt_one_iff.mp hl
      rw [stringAddr_zero, hdst]
      exact hne fun e => hj.ne (stringAddr_inj (by omega) hk e)
  · have hcopy := hcopied' (fun j' hj' l hl => ?_) 0 one_pos
    · rw [stringAddr_zero, stringAddr_zero, hsrc, hdst] at hcopy
      rw [hcopy]
      exact hbytes _ fun l hl => hne (hdisj j (by omega) l (by omega))
    · obtain rfl := Nat.lt_one_iff.mp hj'
      obtain rfl := Nat.lt_one_iff.mp hl
      rw [stringAddr_zero, stringAddr_zero, hsrc, hdst]
      exact hdisj j (by omega) j (by omega)

/-- Every byte written is al, so it does not matter whether a later one falls on it. -/
theorem iterationsPerformed_stos_succ (ha : Advanced .stos k s u)
    (h : iterationsPerformed .stos k s u) (h' : iterationsPerformed .stos 1 u v) :
    iterationsPerformed .stos (k + 1) s v := by
  obtain ⟨hflags, hfilled, hframe⟩ := h
  obtain ⟨hflags', hfilled', hframe'⟩ := h'
  have hdst : u.reg rdi = stringAddr s (s.reg rdi) k := ha.destination
  have hrax : u.reg rax = s.reg rax := hframe.1 rax (by decide)
  have hlast := hfilled' 0 one_pos
  rw [stringAddr_zero, hdst, hrax] at hlast
  refine ⟨hflags'.trans hflags, fun j hj => ?_, onlyString_succ hframe hframe' (by simp [hdst])⟩
  obtain ⟨-, -, -, -, hbytes'⟩ := hframe'
  by_cases he : stringAddr s (s.reg rdi) j = stringAddr s (s.reg rdi) k
  · rw [he]
    exact hlast
  · rw [hbytes' _ fun l hl => ?_]
    · exact hfilled j (lt_of_le_of_ne (Nat.lt_succ_iff.mp hj) fun e => he (by rw [e]))
    · obtain rfl := Nat.lt_one_iff.mp hl
      rw [stringAddr_zero, hdst]
      exact fun e => he (BitVec.eq_of_toNat_eq e)

theorem iterationsPerformed_lods_succ (ha : Advanced .lods k s u)
    (h : iterationsPerformed .lods k s u) (h' : iterationsPerformed .lods 1 u v) :
    iterationsPerformed .lods (k + 1) s v := by
  obtain ⟨hflags, -, hkept, hframe⟩ := h
  obtain ⟨hflags', hal', hkept', hframe'⟩ := h'
  have hsrc : u.reg rsi = stringAddr s (s.reg rsi) k := ha.source
  refine ⟨hflags'.trans hflags, fun _ => ?_, fun i hi => (hkept' i hi).trans (hkept i hi),
    onlyString_trans hframe hframe' nofun nofun⟩
  rw [hal' one_pos, Nat.sub_self, stringAddr_zero, hsrc, onlyString_byteAt hframe]
  rfl

theorem iterationsPerformed_scas_succ (ha : Advanced .scas k s u)
    (h : iterationsPerformed .scas k s u) (h' : iterationsPerformed .scas 1 u v) :
    iterationsPerformed .scas (k + 1) s v := by
  obtain ⟨hequal, -, hflags, hframe⟩ := h
  obtain ⟨hequal', hdiff', hflags', hframe'⟩ := h'
  have hdst : u.reg rdi = stringAddr s (s.reg rdi) k := ha.destination
  have hrax : u.reg rax = s.reg rax := hframe.1 rax (by decide)
  rw [hrax] at hequal' hdiff'
  refine ⟨fun j hj => ?_, fun _ => hdiff' one_pos, fun b hb => (hflags' b hb).trans (hflags b ?_),
    onlyString_trans hframe hframe' nofun nofun⟩
  · obtain hj | rfl := Nat.lt_succ_iff_lt_or_eq.mp hj
    · exact hequal j hj
    · have hlast := hequal' 0 one_pos
      rwa [stringAddr_zero, hdst, onlyString_byteAt hframe] at hlast
  · split_ifs
    · exact List.not_mem_nil
    · exact hb

theorem iterationsPerformed_succ (hk : k < 2 ^ 64) (ha : Advanced r k s u) (h : iterationsPerformed r k s u)
    (h' : iterationsPerformed r 1 u v) : iterationsPerformed r (k + 1) s v := by
  cases r with
  | mov => exact iterationsPerformed_mov_succ hk ha h h'
  | stos => exact iterationsPerformed_stos_succ ha h h'
  | lods => exact iterationsPerformed_lods_succ ha h h'
  | scas => exact iterationsPerformed_scas_succ ha h h'

end

/-! ## Several iterations (R250) -/

/-- `k` iterations, each of which went on, lead from one state to another. -/
inductive Iterates (body : State → Iteration) : Nat → State → State → Prop
  | zero (s : State) : Iterates body 0 s s
  | succ {k : Nat} {s u v : State} (h : Iterates body k s u) (hb : body u = .again v) : Iterates body (k + 1) s v

section
variable {body : State → Iteration} {s t u : State} {k : Nat}

theorem Iterates.cons (hb : body s = .again t) (h : Iterates body k t u) : Iterates body (k + 1) s u := by
  induction h with
  | zero => exact (Iterates.zero s).succ hb
  | succ _ hv ih => exact (ih hb).succ hv

/-- Everything the loop of a counting body can do: all its iterations go on, or one of them leaves it or ends the
step. -/
theorem runRep_cases (hcount : ∀ {u v}, body u = .again v → v.reg rcx = u.reg rcx - 1) (s : State) :
    (∃ t, Iterates body (s.reg rcx).toNat s t ∧ runRep body s = .next t) ∨
      ∃ k < (s.reg rcx).toNat, ∃ u, Iterates body k s u ∧
        ((∃ t, body u = .leave t ∧ runRep body s = .next t) ∨ ∃ x, body u = .stop x ∧ runRep body s = x) := by
  induction hn : (s.reg rcx).toNat generalizing s with
  | zero => exact .inl ⟨s, .zero s, runRep_zero (BitVec.eq_of_toNat_eq (by simpa using hn))⟩
  | succ n ih =>
    have hc : s.reg rcx ≠ 0 := fun h => by simp [h] at hn
    cases hb : body s with
    | leave t => exact .inr ⟨0, n.succ_pos, s, .zero s, .inl ⟨t, hb, runRep_leave hc hb⟩⟩
    | stop x => exact .inr ⟨0, n.succ_pos, s, .zero s, .inr ⟨x, hb, runRep_stop hc hb⟩⟩
    | again t =>
      rw [runRep_again hc hb (hcount hb)]
      have ht : (t.reg rcx).toNat = n := by have := rcx_pred hc; rw [hcount hb]; omega
      obtain ⟨u, hu, hrun⟩ | ⟨k, hk, u, hu, hend⟩ := ih t ht
      · exact .inl ⟨u, hu.cons hb, hrun⟩
      · exact .inr ⟨k + 1, by omega, u, hu.cons hb, hend⟩

end

section
variable {s t u : State} {r : Repeatable} {k : Nat}

theorem iteration_again_advanced (h : iteration r s = .again t) : Advanced r 1 s t := by
  obtain ⟨-, rfl, -⟩ := iteration_again h
  exact nextOf_advanced r s

theorem iteration_again_count (h : iteration r s = .again t) : t.reg rcx = s.reg rcx - 1 :=
  (iteration_again_advanced h).count

theorem Iterates.advanced (h : Iterates (iteration r) k s u) : Advanced r k s u := by
  induction h with
  | zero s => exact .refl r s
  | succ _ hv ih => exact ih.succ (iteration_again_advanced hv)

theorem Iterates.keeps (h : Iterates (iteration r) k s u) : Keeps s u := by
  induction h with
  | zero s => exact .refl s
  | succ _ hv ih =>
    obtain ⟨hm, rfl, -⟩ := iteration_again hv
    exact ih.trans (nextOf_keeps hm)

theorem Iterates.performed (h : Iterates (iteration r) k s u) (hk : k ≤ 2 ^ 64)
    (hs : s.bus.wf = true ∨ r = .lods ∨ r = .scas) : iterationsPerformed r k s u := by
  induction h with
  | zero s => exact iterationsPerformed_zero r s
  | succ hu hv ih =>
    exact iterationsPerformed_succ (by omega) hu.advanced (ih (by omega) hs)
      (iterationsPerformed_one (hs.imp_left hu.keeps.2.2) hv)

/-- Every byte `k` of the strings that the instruction goes through is mapped. -/
def stringByteMapped (r : Repeatable) (k : Nat) (s : State) : Prop :=
  match r with
  | .mov => mapped s (stringAddr s (s.reg rsi) k) 1 ∧ mapped s (stringAddr s (s.reg rdi) k) 1
  | .stos => mapped s (stringAddr s (s.reg rdi) k) 1
  | .lods => mapped s (stringAddr s (s.reg rsi) k) 1
  | .scas => mapped s (stringAddr s (s.reg rdi) k) 1

/-- The iteration after `k` of them accesses byte `k` of each string. -/
theorem Advanced.iterationMapped_iff (h : Advanced r k s u) : iterationMapped r u ↔ stringByteMapped r k s := by
  cases r <;> simp [iterationMapped, stringByteMapped, h.source, h.destination, mapped_congr h.regions]

end

/-! ## Completion (R250 to R254, 70_reset_and_hazards.md R315) -/

section
variable {i : Instr} {s : State} {r : Repeatable}

/-- With every byte mapped that it comes to, a repeated string instruction completes: after the whole count, or by
leaving the loop, which Rep(Scas) alone can do. -/
theorem exec_rep_mapped (hk : i.kind s.rip = .rep r)
    (hm : ∀ k < (s.reg rcx).toNat, stringByteMapped r k s) :
    (∃ t, exec i s = .next t ∧ Iterates (iteration r) (s.reg rcx).toNat s t) ∨
      ∃ k < (s.reg rcx).toNat, ∃ u t, exec i s = .next t ∧ Iterates (iteration r) k s u ∧ iteration r u = .leave t := by
  rw [exec_rep hk]
  obtain ⟨t, ht, hrun⟩ | ⟨k, hkn, u, hu, ⟨t, hleave, hrun⟩ | ⟨x, hstop, -⟩⟩ :=
    runRep_cases iteration_again_count s
  · exact .inl ⟨t, hrun, ht⟩
  · exact .inr ⟨k, hkn, u, t, hrun, hu, hleave⟩
  · exact absurd (hu.advanced.iterationMapped_iff.mpr (hm k hkn)) (iteration_stop hstop).1

/-- The three that do not compare perform their whole count. -/
theorem completes_of_mapped (hk : i.kind s.rip = .rep r) (hr : r ≠ .scas) (hs : s.bus.wf = true)
    (hm : ∀ k < (s.reg rcx).toNat, stringByteMapped r k s) :
    completes i s fun t => t.reg rcx = 0 ∧ Advanced r (s.reg rcx).toNat s t ∧
      iterationsPerformed r (s.reg rcx).toNat s t := by
  obtain ⟨t, hexec, ht⟩ | ⟨k, -, u, t, -, -, hleave⟩ := exec_rep_mapped hk hm
  · exact ⟨t, hexec, by simp [ht.advanced.count], ht.advanced, ht.performed (s.reg rcx).isLt.le (.inl hs)⟩
  · exact absurd (iteration_leave hleave).1 hr

end

/-- Settles O47: the whole count is performed, and what as many iterations make of the state is what is asked. -/
theorem repCompletes : Obligations.RepCompletes := by
  intro i s hs n src dst
  refine ⟨fun hk hm => ?_, fun hk hm => ?_, fun hk hm => ?_⟩
  · refine completes_mono (completes_of_mapped hk nofun hs hm) ?_
    rintro t ⟨hcount, ha, hflags, hcopied, hframe⟩
    exact ⟨hcount, ha.source, ha.destination, hflags, hcopied, hframe⟩
  · refine completes_mono (completes_of_mapped hk nofun hs hm) ?_
    rintro t ⟨hcount, ha, hflags, hfilled, hframe⟩
    exact ⟨hcount, ha.destination, hflags, hfilled, hframe⟩
  · refine completes_mono (completes_of_mapped hk nofun hs hm) ?_
    rintro t ⟨hcount, ha, hflags, hal, hkept, hframe⟩
    exact ⟨hcount, ha.source, hflags, hal, hkept, hframe⟩

section
variable {s t u : State} {k : Nat}

/-- The iteration of Rep(Scas) after `k` that found al: what it leaves, and that ZF tells whether its byte is al too. -/
theorem scas_performed_next (hu : iterationsPerformed .scas k s u) (ha : Advanced .scas k s u) :
    ((scasNext u).flags.getLsbD bitZF = true ↔
        s.bus.byteAt (stringAddr s (s.reg rdi) k).toNat = (s.reg rax).setWidth 8) ∧
      sameFlagsExcept arithmeticBits s (scasNext u) ∧ sameRegsExcept [rcx, rdi] s (scasNext u) ∧
      samePcAndStream s (scasNext u) := by
  obtain ⟨-, -, hflags, hframe⟩ := hu
  have hbyte := onlyString_byteAt hframe
  obtain ⟨hregs, hrip, hstream, -⟩ := hframe
  obtain ⟨-, -, -, hzf, hregs', -, hrip', hstream'⟩ := scasNext_spec u
  have hdst : u.reg rdi = stringAddr s (s.reg rdi) k := ha.destination
  rw [hregs rax (by decide), hdst, hbyte] at hzf
  have hmono : sameFlagsExcept arithmeticBits s u := sameFlagsExcept_mono hflags (by split_ifs <;> simp)
  exact ⟨hzf.trans eq_comm, fun b hb => (scasNext_flags u b hb).trans (hmono b hb),
    fun j hj => (hregs' j hj).trans (hregs j hj), hrip'.trans hrip, hstream'.trans hstream⟩

end

/-- Settles O48: either every iteration found al, the last with ZF set, or one did not and left the loop with ZF clear. -/
theorem scasCompletes : Obligations.ScasCompletes := by
  intro i s hk n addr a hm
  have hbus : ∀ {t}, exec i s = .next t → t.bus = s.bus := fun h =>
    runRep_next_rel (fun u v => v.bus = u.bus) (fun _ => rfl) (fun h h' => h'.trans h) (scas_body _ fun _ => rfl)
      ((exec_rep hk).symm.trans h)
  obtain ⟨t, hexec, ht⟩ | ⟨k, hkn, u, t, hexec, hu, hleave⟩ := exec_rep_mapped hk hm
  · obtain ⟨hequal, hdiff, hflags, hregs, hrip, hstream, -⟩ := ht.performed (s.reg rcx).isLt.le (.inr (.inr rfl))
    refine ⟨t, hexec, n, le_rfl, ht.advanced.count, ht.advanced.destination, fun j hj => hequal j (by omega),
      fun h => absurd h (lt_irrefl n), fun hpos => ?_, hflags, hregs, hbus hexec, hrip, hstream⟩
    exact iff_of_true ((hdiff hpos).1.1.1.mpr (BitVec.sub_self _)) (hequal _ (by omega))
  · obtain ⟨-, rfl, hz⟩ := iteration_leave hleave
    have hperf := hu.performed (by omega) (.inr (.inr rfl))
    obtain ⟨hzf, hflags, hregs, hpc⟩ := scas_performed_next hperf hu.advanced
    have ha := hu.advanced.succ (nextOf_advanced .scas u)
    have hdiffer : s.bus.byteAt (addr k).toNat ≠ a := fun h => by simp [nextOf, hzf.mpr h] at hz
    refine ⟨_, hexec, k + 1, hkn, ha.count, ha.destination, fun j hj => hperf.1 j (by omega),
      fun _ => ⟨k.succ_pos, hdiffer⟩, fun _ => hzf, ?_, hregs, hbus hexec, hpc⟩
    rwa [if_neg (by omega)]

/-! ## Faults (R250 (e)) -/

/-- Settles O57: the fault is that of an iteration, whose state the iterations before it led to. -/
theorem repFaultKeepsIterations : Obligations.RepFaultKeepsIterations := by
  intro i s r f hk hexec
  obtain ⟨k, hkn, u, hu, hstop, hcount, hrun⟩ := runRep_fault (body := iteration r) (R := Iterates (iteration r))
    .zero (fun hb _ _ h => h.cons hb) (fun hb => ⟨iteration_again_count hb, iteration_again_setRcx hb⟩) _ rfl
    ((exec_rep hk).symm.trans hexec)
  obtain ⟨-, f', hf', hfailed⟩ := iteration_stop hstop
  cases hf'
  have ha := hu.advanced
  have hne : u.reg rcx ≠ 0 := fun h => by
    have hlt := (s.reg rcx).isLt
    have := congrArg BitVec.toNat (sub_eq_zero.mp (hcount.symm.trans h))
    rw [BitVec.toNat_ofNat, Nat.mod_eq_of_lt (by omega)] at this
    omega
  rw [failedAccess_left hfailed]
  exact ⟨k, hkn, ha.count, ha.source, ha.destination, hu.performed (by omega), hfailed,
    exec_rep_stop (by rw [ha.rip]; exact hk) hne hstop, (exec_rep (s := s.setReg rcx _) hk).trans hrun⟩

end Sys2Proof.Machine

/-! The statements about the miscellaneous instructions (47_misc.md): Nop (R260), Cld (R261), Int3 (R262). -/

namespace Sys2Proof.Machine

/-! ## Nop and Cld (R260, R261) -/

/-- Settles O49: Nop makes no access, and the only effect of Cld is the flags word with bit DF put to 0. -/
theorem nopCldResult : Obligations.NopCldResult := by
  intro i s
  refine ⟨fun hk => exec_of_kind hk, fun hk => ?_⟩
  have hrun : exec i s = .next (s.setFlags (putBit s.flags bitDF false)) := exec_of_kind hk
  have hbit := fun j => getLsbD_putBit s.flags bitDF j false (by decide)
  have hkeep : ∀ j, j ∉ [bitDF] → (putBit s.flags bitDF false).getLsbD j = s.flags.getLsbD j := fun j hj => by
    rw [hbit, if_neg (by simpa using hj)]
  refine completes_mono (completes_of_setFlags hkeep hrun) fun t ht => ?_
  obtain ⟨hflags, hframe⟩ := ht
  exact ⟨by rw [hflags, hbit, if_pos rfl], hframe⟩

/-! ## Int3 (R262) -/

/-- Settles O50: the rule of Int3 raises at pc before any access or write. -/
theorem int3Stops : Obligations.Int3Stops := by
  intro i s hk
  have hrun : exec i s = runInt3 s := exec_of_kind hk
  rw [hrun, runInt3]

end Sys2Proof.Machine

/-! The statements about exceptions (60_exceptions.md) and hazards (70_reset_and_hazards.md): OperandFault is unreachable
(R277), a transfer to its own address falls through (R310), and who writes pc (R313). -/

namespace Sys2Proof.Machine

/-! ## Accesses of operands that fit (40_engine_and_operands.md R156 to R158) -/

section
variable {len : Nat} {s : State} {w : Width}

theorem memRead_ne_operand (a : Word) : memRead w a s ≠ .error .operand := by
  by_cases hm : mapped s a w.bytes
  · rw [memRead_mapped hm]; nofun
  · rw [memRead_unmapped hm]; nofun

theorem memWrite_ne_operand (a : Word) (v : BitVec w.bits) : memWrite w a v s ≠ .error .operand := by
  by_cases hm : mapped s a w.bytes
  · rw [memWrite_mapped v hm]; nofun
  · rw [memWrite_unmapped v hm]; nofun

theorem ea_ne_operand (m : MemOperand) : ea len m s ≠ .error .operand := by
  obtain ⟨-, -, he⟩ | ⟨g, -, -, he⟩ := ea_cases len m s <;> rw [he] <;> nofun

/-- Forming the address of an access adds no failure for an operand's shape. -/
theorem ea_bind_ne_operand {α : Type} {m : MemOperand} {go : Word → Except AccessError α}
    (hgo : ∀ a, go a ≠ .error .operand) : (ea len m s).bind go ≠ .error .operand := by
  obtain ⟨-, -, he⟩ | ⟨g, -, -, he⟩ := ea_cases len m s <;> rw [he]
  · exact hgo _
  · nofun

theorem readOp_ne_operand {o : Operand} (hf : fits w o) : readOp len w o s ≠ .error .operand := by
  cases o with
  | reg r =>
    have hw : View.width r.view = w := hf
    rw [readOp, if_pos hw]; nofun
  | imm v => nofun
  | mem m =>
    have hw : m.size = w := hf
    rw [readOp, if_pos hw]; exact ea_bind_ne_operand memRead_ne_operand

theorem writeOp_ne_operand {o : Operand} (hf : fits w o) (ho : Operand.notImm o) (v : BitVec w.bits) :
    writeOp len w o v s ≠ .error .operand := by
  cases o with
  | reg r =>
    have hw : View.width r.view = w := hf
    rw [writeOp, if_pos hw]; nofun
  | imm x => exact absurd rfl (ho x)
  | mem m =>
    have hw : m.size = w := hf
    rw [writeOp, if_pos hw]; exact ea_bind_ne_operand fun a => memWrite_ne_operand a v

end

/-! ## Rules that raise no OperandFault (60_exceptions.md R277) -/

/-- The result is not the fault OperandFault. -/
def noOperandFault (r : Result) : Prop := ∀ t, r ≠ .fault (.operandFault t)

section
variable {len : Nat} {s : State} {dst src : Operand}

theorem noOperandFault_next (t : State) : noOperandFault (.next t) := nofun

theorem noOperandFault_access {α : Type} {x : Except AccessError α} {go : α → Result} (hx : x ≠ .error .operand)
    (hgo : ∀ v, noOperandFault (go v)) : noOperandFault (access x s go) := by
  cases x with
  | ok v => exact hgo v
  | error e =>
    cases e with
    | bus a n k => nofun
    | segment g => nofun
    | operand => exact absurd rfl hx

theorem noOperandFault_access_readOp {w : Width} {o : Operand} {go : BitVec w.bits → Result} (hf : fits w o)
    (hgo : ∀ v, noOperandFault (go v)) : noOperandFault (access (readOp len w o s) s go) :=
  noOperandFault_access (readOp_ne_operand hf) hgo

/-- A destination is written at its own width. -/
theorem noOperandFault_access_writeOp (hd : Operand.notImm dst) {v : BitVec (Operand.width dst).bits}
    {go : State → Result} (hgo : ∀ t, noOperandFault (go t)) :
    noOperandFault (access (writeOp len (Operand.width dst) dst v s) s go) :=
  noOperandFault_access (writeOp_ne_operand (fits_width hd) hd v) hgo

theorem noOperandFault_binaryWrite (hd : Operand.notImm dst) (hf : fits (Operand.width dst) src)
    {f : (w : Width) → BitVec w.bits → BitVec w.bits → BitVec w.bits}
    {upd : (w : Width) → BitVec w.bits → BitVec w.bits → BitVec w.bits → Word → Word} :
    noOperandFault (binaryWrite len dst src s f upd) :=
  noOperandFault_access_readOp (fits_width hd) fun _ => noOperandFault_access_readOp hf fun _ =>
    noOperandFault_access_writeOp hd fun _ => noOperandFault_next _

theorem noOperandFault_binaryTest (hd : Operand.notImm dst) (hf : fits (Operand.width dst) src)
    {f : (w : Width) → BitVec w.bits → BitVec w.bits → BitVec w.bits}
    {upd : (w : Width) → BitVec w.bits → BitVec w.bits → BitVec w.bits → Word → Word} :
    noOperandFault (binaryTest len dst src s f upd) :=
  noOperandFault_access_readOp (fits_width hd) fun _ => noOperandFault_access_readOp hf fun _ => noOperandFault_next _

theorem noOperandFault_runShift (d : ShiftDir) (hd : Operand.notImm dst) (hf : fits .w8 src) :
    noOperandFault (runShift d len dst src s) :=
  noOperandFault_access_readOp (fits_width hd) fun _ => noOperandFault_access_readOp hf fun _ =>
    noOperandFault_access_writeOp hd fun _ => noOperandFault_next _

theorem noOperandFault_runMov (hd : Operand.notImm dst) (hf : fits (Operand.width dst) src) :
    noOperandFault (runMov len dst src s) :=
  noOperandFault_access_readOp hf fun _ => noOperandFault_access_writeOp hd fun _ => noOperandFault_next _

theorem noOperandFault_runMovzx (hd : Operand.notImm dst) (hs : Operand.notImm src) :
    noOperandFault (runMovzx len dst src s) :=
  noOperandFault_access_readOp (fits_width hs) fun _ =>
    noOperandFault_access_writeOp hd fun _ => noOperandFault_next _

theorem noOperandFault_runLea (hd : Operand.notImm dst) (m : MemOperand) :
    noOperandFault (runLea len dst (.mem m) s) :=
  noOperandFault_access_writeOp hd fun _ => noOperandFault_next _

theorem noOperandFault_runInc (hd : Operand.notImm dst) : noOperandFault (runInc len dst s) :=
  noOperandFault_access_readOp (fits_width hd) fun _ =>
    noOperandFault_access_writeOp hd fun _ => noOperandFault_next _

theorem noOperandFault_runDec (hd : Operand.notImm dst) : noOperandFault (runDec len dst s) :=
  noOperandFault_access_readOp (fits_width hd) fun _ =>
    noOperandFault_access_writeOp hd fun _ => noOperandFault_next _

theorem noOperandFault_pushWord {v : Word} {go : State → Result} (hgo : ∀ t, noOperandFault (go t)) :
    noOperandFault (pushWord v s go) :=
  noOperandFault_access (memWrite_ne_operand (w := .w64) _ v) fun _ => hgo _

theorem noOperandFault_runPush (hf : fits .w64 src) : noOperandFault (runPush len src s) :=
  noOperandFault_access_readOp hf fun _ => noOperandFault_pushWord noOperandFault_next

theorem noOperandFault_runCall (hf : fits .w64 src) : noOperandFault (runCall len src s) :=
  noOperandFault_pushWord fun _ => noOperandFault_access_readOp hf fun _ => noOperandFault_next _

theorem noOperandFault_runJump (hf : fits .w64 src) : noOperandFault (runJump len src s) :=
  noOperandFault_access_readOp hf fun _ => noOperandFault_next _

theorem noOperandFault_runLeave : noOperandFault (runLeave s) :=
  noOperandFault_access (memRead_ne_operand _) fun _ => noOperandFault_next _

theorem noOperandFault_runRet : noOperandFault (runRet s) :=
  noOperandFault_access (memRead_ne_operand _) fun _ => noOperandFault_next _

theorem noOperandFault_runPop (hd : Operand.notImm dst) (hf : fits .w64 dst) : noOperandFault (runPop len dst s) :=
  noOperandFault_access (memRead_ne_operand _) fun v => by
    cases dst with
    | reg r => exact noOperandFault_access (x := writeOp ..) (writeOp_ne_operand hf hd v) noOperandFault_next
    | imm x => exact absurd rfl (hd x)
    | mem m =>
      exact noOperandFault_access (ea_ne_operand m) fun a =>
        noOperandFault_access (memWrite_ne_operand a v) fun _ => noOperandFault_next _

/-- The access that ends a repeated string instruction fails on the bus. -/
theorem failedAccess_ne_operandFault {r : Repeatable} {f : Fault} (h : failedAccess r s f) (t : State) :
    f ≠ .operandFault t := by
  cases r with
  | mov => obtain rfl | rfl := h <;> nofun
  | stos | lods | scas => obtain rfl := h; nofun

theorem runKind_rep (r : Repeatable) : runKind len (.rep r) s = runRep (iteration r) s := by cases r <;> rfl

theorem noOperandFault_runRep (r : Repeatable) : noOperandFault (runRep (iteration r) s) := by
  intro t h
  obtain ⟨v, -, hrun⟩ | ⟨k, -, u, -, ⟨v, -, hrun⟩ | ⟨x, hstop, hrun⟩⟩ := runRep_cases iteration_again_count s
  · cases hrun.symm.trans h
  · cases hrun.symm.trans h
  · obtain ⟨-, f, rfl, hfailed⟩ := iteration_stop hstop
    cases hrun.symm.trans h
    exact failedAccess_ne_operandFault hfailed t rfl

/-- The rule of a kind whose operands fit, of a Lea with a memory source, raises no OperandFault. -/
theorem noOperandFault_runKind {k : InstructionType} (hk : kindFits k)
    (hlea : ∀ dst src, k = .lea dst src → ∃ m, src = .mem m) : noOperandFault (runKind len k s) := by
  cases k with
  | mov dst src => exact noOperandFault_runMov hk.1 hk.2
  | movzx dst src => exact noOperandFault_runMovzx hk.1 hk.2
  | lea dst src =>
    obtain ⟨m, rfl⟩ := hlea dst src rfl
    exact noOperandFault_runLea hk m
  | add dst src | adc dst src | sub dst src | xor dst src =>
    simp only [runKind, runAdd, runAdc, runSub, runXor]
    exact noOperandFault_binaryWrite hk.1 hk.2
  | cmp a b | test a b =>
    simp only [runKind, runCmp, runTest]
    exact noOperandFault_binaryTest hk.1 hk.2
  | inc dst => exact noOperandFault_runInc hk
  | dec dst => exact noOperandFault_runDec hk
  | shl dst count | shr dst count => exact noOperandFault_runShift _ hk.1 hk.2
  | push src => exact noOperandFault_runPush hk
  | pop dst => exact noOperandFault_runPop hk.1 hk.2
  | unconditionalJump op => exact noOperandFault_runJump hk
  | call op => exact noOperandFault_runCall hk
  | leave => exact noOperandFault_runLeave
  | ret => exact noOperandFault_runRet
  | rep r =>
    rw [runKind_rep]
    exact noOperandFault_runRep r
  | nop | cld | conditionalJump c target => exact noOperandFault_next _
  | int3 | invalid => nofun

end

/-- Settles O58: the operands of an instruction fit their uses, and well-formedness gives Lea its memory source. -/
theorem operandFaultUnreachable : Obligations.OperandFaultUnreachable := by
  intro i s t hwf
  rw [exec_eq_runKind]
  exact noOperandFault_runKind (Instr.kind_fits i s.rip) (fun _ _ => Instr.lea_source hwf) t

/-! ## Transfers to their own address (70_reset_and_hazards.md R310) -/

section
variable {s : State}

theorem State.setRip_self : s.setRip s.rip = s := rfl

/-- Taken or not, a conditional jump to itself leaves the state as it was. -/
theorem runConditionalJump_self (c : ConditionCode) : runConditionalJump c s.rip s = .next s := by
  rw [runConditionalJump, State.setRip_self, ite_self]

theorem runJump_self (len : Nat) : runJump len (.imm s.rip) s = .next s := by
  rw [runJump_completes (imm_fits ..) trivial, operandValue, BitVec.setWidth_eq, State.setRip_self]

end

/-- Settles O42: the step advances whenever exec leaves pc where it was, and a jump to itself leaves the whole state. -/
theorem selfTargetFallsThrough : Obligations.SelfTargetFallsThrough := by
  intro s i hs hi hm hbytes
  have hadvance : ∀ t, exec i s = .next t → t.rip = s.rip →
      step s = .next (t.setRip (s.rip + BitVec.ofNat 64 i.length)) := fun t ht hrip => by
    rw [stepRunsDecodedInstruction s i hs hi hm hbytes, ht]
    exact congrArg _ (if_pos hrip)
  refine ⟨fun t _ => hadvance t, fun hself => hadvance s ?_ rfl⟩
  obtain ⟨c, hk⟩ | hk := hself
  · exact (exec_of_kind hk).trans (runConditionalJump_self c)
  · exact (exec_of_kind hk).trans (runJump_self i.length)

/-! ## Who writes pc (70_reset_and_hazards.md R313) -/

/-- Settles O54: a fault leaves the state of before, that of a Call's push, or that of a Rep's iterations, and neither a
push nor an iteration moves pc. -/
theorem pcWriters : Obligations.PcWriters := by
  intro i s
  refine ⟨fun t h hk => ?_, fun f h => ?_⟩
  · obtain ⟨-, -, hrip⟩ := exec_next_flags h
    exact hrip hk
  · obtain hleft | ⟨_, _, -, -, hleft, -⟩ | ⟨_, -, -, hrip, -⟩ := exec_fault_cases h
    · rw [hleft]
    · rw [hleft]; rfl
    · exact hrip

end Sys2Proof.Machine
